-- ==== Sys2Proof/Word.lean ====
section
/-! DEFINITION. The plainest value types of the part: bytes, texts, frame numbers and story ids. -/

namespace Sys2Proof

/-- One byte on a line or in a record (R213). -/
abbrev Byte := BitVec 8

/-- A text field: byte codes with a length and no terminator (R34, R35). -/
abbrev Text := List Byte

/-- A frame number, counted since midnight of the house day (R2). -/
abbrev Frame := Nat

/-- A story id; 0 stands for "none" or "top" on the control link (00_scope.md). -/
abbrev StoryId := Nat

/-- An element tag, unique in its item (R23). -/
abbrev Tag := Nat

end Sys2Proof
end

