-- ==== Sys2Proof/Syntax.lean ====
section
/-! DEFINITION. The commands of the part: one constructor per row of spec/opcode_table.json, in the
table's order.  The table gives no operand bits; each operand below is what the row's rule says the
event carries from outside the part.  A request row is the DISPATCH of the head of the request FIFO
(R201), so its body stands in the FIFO and the row has no operand. -/

namespace Sys2Proof

/-- The level of a line (R186). -/
inductive Level where
  | low
  | high
  deriving DecidableEq, Repr

/-- How far a frame of the control link has come.  The spec fixes the status byte at the fall of SPI_CS_N (R197)
and a fetch's answer at the end of the first byte (R203), so a frame's row is given at those moments too. -/
inductive FramePart (α : Type) where
  /-- SPI_CS_N falls. -/
  | begins
  /-- The first byte, which gives the type, ends. -/
  | typed
  /-- SPI_CS_N rises, and `clocked` tells what the frame has carried.  What an earlier part of the frame would have
  done and has not is done first, so this part alone is a whole frame inside which nothing else happens. -/
  | ends (clocked : α)
  deriving DecidableEq, Repr

/-- The steps of spec/opcode_table.json. -/
inductive Instr where
  /-- RESET_N (R211): the input is driven to `level`; the reset values take effect when it rises. -/
  | resetN (level : Level)
  /-- REF_FRAME_PULSE (R9, R10): a pulse `elapsed` OSC_IN cycles after the latest event the model
  has timed; `lines` are the levels of PNL_IN0 to PNL_IN7 that a tick made by it samples (bit n set:
  line n HIGH). -/
  | refFramePulse (elapsed : Nat) (lines : BitVec 8)
  /-- SUBSTITUTE_TICK (R9): in PRESENT mode the counter reaches 3P/2. -/
  | substituteTick (lines : BitVec 8)
  /-- OSCILLATOR_TICK (R10): in ABSENT mode the counter reaches P. -/
  | oscillatorTick (lines : BitVec 8)
  /-- REF_DATA_MESSAGE (R11): bytes with good stop bits and no long gap arrive on REF_DATA. -/
  | refDataMessage (bytes : List Byte)
  /-- REF_DATA_TIMEOUT (R11): more than 521 microseconds pass between bytes. -/
  | refDataTimeout
  /-- REQUEST_FRAME (R200): a frame of type 0x5A; its end tells the bytes after the type byte. -/
  | requestFrame (part : FramePart (List Byte))
  /-- FETCH_RESPONSE (R203): a frame of type 0xA1; its end tells how many bytes were clocked after the type byte. -/
  | fetchResponse (part : FramePart Nat)
  /-- FETCH_NOTICE (R204): a frame of type 0xA2, as FETCH_RESPONSE. -/
  | fetchNotice (part : FramePart Nat)
  /-- DISCARDED_FRAME (R196, R198): a frame whose first byte is `frameType`; its end tells the bits clocked. -/
  | discardedFrame (frameType : Byte) (part : FramePart Nat)
  | unknownRequest
  | rateSet
  | refRead
  | tcConvert
  | itemInsert
  | itemAmend
  | itemMove
  | itemRetire
  | itemReset
  | elementAdd
  | elementAmend
  | elementRemove
  | itemRead
  | elementRead
  | rundownRead
  | showClear
  | takeRequest
  | nextSet
  | nextAuto
  | holdRequest
  | releaseRequest
  | showStop
  | showPlan
  | showRead
  | timingRead
  | armRead
  | profileSet
  | profileRead
  | groupSet
  | portBind
  | portUnbind
  | portHold
  | portRelease
  | portRead
  | layoutSet
  | glyphSet
  | iconSet
  | cuePush
  | cueClear
  | displayBlank
  | displayUnblank
  | displayRead
  | inputSet
  | inputRead
  | statusRead
  | statusClear
  | maskSet
  | ident
  | deviceReset
  /-- TAKING_AIR_FRAME (R77): step 1 of R72 at the tick under way. -/
  | takingAirFrame
  /-- JUNCTION_TAKE (R81): step 2 of R72 at the tick under way. -/
  | junctionTake
  /-- AUTO_FOLLOW (R78): steps 3 and 4 of R72 at the tick under way. -/
  | autoFollow
  /-- CAPTURE (R79, R80): step 5 of R72 at the tick under way. -/
  | capture
  | walkCompletion
  | dueScan
  /-- REPLY_BYTE (R150, R151): one byte on CUE_RXn, with what the receiver saw of its parity and
  stop bit. -/
  | replyByte (port : Fin 16) (value : Byte) (parityOk : Bool) (stopHigh : Bool)
  | replyTimeout (port : Fin 16)
  | pulseEnd (port : Fin 16)
  | cueExpiry (display : Fin 4)
  | crawl (display : Fin 4)
  | displayFault (display : Fin 4)
  | busyFall (display : Fin 4)
  /-- UNIT_COMPLETION (R177): the last byte of the unit ends `elapsed` cycles after the latest timed
  event, and the engine finds DSP_BUSYn at `busy` before it starts the next unit's first byte. -/
  | unitCompletion (display : Fin 4) (elapsed : Nat) (busy : Level)
  | activeEdge (input : Fin 8)
  | inactiveEdge (input : Fin 8)
  | panelTake (input : Fin 8)
  | panelHold (input : Fin 8)
  | panelAck (input : Fin 8)
  | panelReport (input : Fin 8)
  | faultedEntry
  | lowStopBit
  /-- DISPLAY_BYTE (R178): a byte ends `elapsed` cycles after the latest timed event, and the engine
  finds DSP_BUSYn at `busy` before it starts the next byte of the same unit. -/
  | displayByte (display : Fin 4) (elapsed : Nat) (busy : Level)
  | spiCsNHigh
  deriving DecidableEq, Repr

end Sys2Proof
end

