-- ==== Sys2Proof/Config.lean ====
section
/-! DEFINITION. The fixed figures of the part: the capacities of its collections and the constants of
its lines.  The spec leaves no value free, so this file declares no opaque constant. -/

namespace Sys2Proof.Config

/-- Item table slots (R19). -/
def itemSlots : Nat := 512
/-- Element pool records (R20). -/
def elementPool : Nat := 2048
/-- Elements of one item (R20). -/
def elementsPerItem : Nat := 32
/-- Arm queue entries (R114). -/
def armQueue : Nat := 48
/-- Entries of one urgent cue list (R167). -/
def cueList : Nat := 4
/-- Request FIFO entries (R200). -/
def requestFifo : Nat := 4
/-- Response FIFO entries (R201). -/
def responseFifo : Nat := 4
/-- Notice FIFO entries (R204). -/
def noticeFifo : Nat := 32
/-- Serial ports of one group (R139). -/
def groupMembers : Nat := 6
/-- Entries of a group's issue history (R139). -/
def groupHistory : Nat := 8
/-- Cells of a display row (R161). -/
def rowCells : Nat := 20
/-- The longest take lead (R74). -/
def takeLeadMax : Nat := 500
/-- The largest planned duration (R25). -/
def durationMax : Nat := 1048575
/-- 500 ms of busy wait in cycles of the 27 MHz OSC_IN (R179). -/
def busyLimit : Nat := 13500000

end Sys2Proof.Config
end

