-- ==== Sys2Proof/Machine/Records.lean ====
section
/-! DEFINITION. The records the part keeps, block by block, as plain data.  A field that the spec calls
present or absent is an `Option`.  Names and value sets follow the tables of the chapters; the numeric
codes of named values (section 11.6) are in Operands.lean. -/

namespace Sys2Proof.Machine

/-! ### Reference Timing Unit (chapter 1) -/

/-- Rate codes 0 to 3 (R1). -/
inductive Rate where
  | r25 | r2997 | r50 | r5994
  deriving DecidableEq, Repr

/-- Lock states (section 1.6). -/
inductive LockState where
  | unlocked | locked | freewheel
  deriving DecidableEq, Repr

/-- Pulse modes (section 1.5). -/
inductive PulseMode where
  | absent | present
  deriving DecidableEq, Repr

/-- The state of the Reference Timing Unit (R18). -/
structure Rtu where
  rate : Rate
  /-- current frame number CFN -/
  cfn : Frame
  lock : LockState
  /-- tick-phase counter, in OSC_IN cycles (R9) -/
  counter : Nat
  mode : PulseMode
  /-- pending announcement (section 1.5) -/
  announced : Option Frame
  /-- disagreement record: count 0 to 2 and offset (R13) -/
  disagreements : Nat
  offset : Int
  /-- the REF_DATA receiver: the bytes of the open message from its sync byte on, if one is open (R11) -/
  receiver : Option (List Byte)
  deriving DecidableEq, Repr

/-! ### Rundown Store (chapter 2) -/

/-- Item states (R26). -/
inductive ItemState where
  | pending | standby | taking | onair | done | dropped
  deriving DecidableEq, Repr

/-- Element states (R32). -/
inductive ElementState where
  | idle | waiting | armed | issued | done | missed | failed
  deriving DecidableEq, Repr

/-- Causes (R33). -/
inductive Cause where
  | late | ended | unbound | refused | timeout | garbled | busy
  deriving DecidableEq, Repr

/-- The serial verbs (R149). -/
inductive Verb where
  | load | run | stop
  deriving DecidableEq, Repr

/-- Element kinds, which are the verbs of the arm queue (R30, R112). -/
inductive Kind where
  | serial (verb : Verb) | pulse | cueText
  deriving DecidableEq, Repr

/-- Anchors (R31). -/
inductive Anchor where
  | fromStart | fromEnd
  deriving DecidableEq, Repr

/-- What an element does: its kind with exactly the fields that kind has (R30). -/
inductive Action where
  | serial (verb : Verb) (port : Fin 16) (number : Nat)
  | pulse (port : Fin 16)
  | cueText (displays : BitVec 4) (text : Text) (hold : Nat)
  deriving DecidableEq, Repr

/-- An element record (section 2.3). -/
structure Element where
  tag : Tag
  action : Action
  anchor : Anchor
  offset : Nat
  state : ElementState
  cause : Option Cause
  lateness : Option Nat
  deriving DecidableEq, Repr

/-- The start and end frame an armed item's firings stand against (R113). -/
structure ArmContext where
  start : Frame
  stop : Frame
  deriving DecidableEq, Repr

/-- An item record (section 2.2).  The JUNCTION flag is set exactly when TGT is present (R25), so the
presence of `target` is that flag.  `context` is the Cue Scheduler's arm context of the item (R113). -/
structure Item where
  id : StoryId
  slug : Text
  note : Text
  presenters : BitVec 4
  duration : Nat
  float : Bool
  auto : Bool
  target : Option Frame
  state : ItemState
  nominated : Bool
  captured : Bool
  airFrame : Option Frame
  endFrame : Option Frame
  projectedStart : Option Frame
  backTime : Option Frame
  overUnder : Option Int
  elements : List Element
  context : Option ArmContext
  deriving DecidableEq, Repr

/-! ### Show Sequencer (chapter 4) -/

/-- Show states (R66). -/
inductive ShowState where
  | idle | running | holding | ended
  deriving DecidableEq, Repr

/-- The state of the Show Sequencer (R66), less the slots, which are the item states and marks
themselves. -/
structure Sequencer where
  mode : ShowState
  /-- the cursor; absent is "top" (R67) -/
  cursor : Option StoryId
  nomination : Option StoryId
  /-- last advance frame LA -/
  lastAdvance : Option Frame
  /-- overdue mark of the ONAIR item (R78) -/
  overdue : Bool
  /-- planned start frame PSF -/
  planStart : Frame
  /-- junction margin -/
  margin : Nat
  /-- take guard -/
  takeGuard : Nat
  deriving DecidableEq, Repr

/-! ### Timing Engine (chapter 5) -/

/-- The next junction of the last completed walk, with the TGT and OU it had there (R98, R163). -/
structure NextJunction where
  id : StoryId
  target : Frame
  overUnder : Int
  deriving DecidableEq, Repr

/-- The state of the Timing Engine (R90).  `path` is the run path of the last completed walk less the items retired
since, which the capture test reads (R79); `pathLength` is the length it had at the completion; `cleared` says that
SHOW_CLEAR has freed the items of that walk and no walk has completed since (R185, note 41). -/
structure Engine where
  generation : Nat
  inFlight : Bool
  projectedEnd : Option Frame
  mustEnd : Option Frame
  nextJunction : Option NextJunction
  path : List StoryId
  pathLength : Nat
  pathEnd : Option Frame
  cleared : Bool
  deriving DecidableEq, Repr

/-! ### Cue Scheduler (chapter 6) -/

/-- An arm queue entry (R114). -/
structure ArmEntry where
  story : StoryId
  tag : Tag
  /-- absent for CUE_TEXT -/
  port : Option (Fin 16)
  verb : Kind
  effect : Frame
  issue : Frame
  seq : Nat
  deferred : Bool
  deriving DecidableEq, Repr

/-- The state of the Cue Scheduler (R133): the queue and the arming counter.  The waiting order is the
WAITING elements in the order R117 gives, and the arm contexts stand in the item records. -/
structure Scheduler where
  queue : List ArmEntry
  counter : Nat
  deriving DecidableEq, Repr

/-! ### Port Controller (chapter 7) -/

/-- A timed field, held three ways (R135). -/
structure Timed where
  ms : Nat
  floor : Nat
  effective : Nat
  deriving DecidableEq, Repr

/-- A device profile (R135). -/
structure Profile where
  preroll : Timed
  loadRun : Timed
  portGap : Timed
  replyTimeout : Timed
  pulseWidth : Timed
  lateTolerance : Nat
  channel : Nat
  deriving DecidableEq, Repr

/-- A port group (R139), less its members, which are the ports whose `group` names it. -/
structure Group where
  gap : Timed
  window : Timed
  limit : Nat
  /-- issue history, oldest first: frame and port -/
  history : List (Frame × Fin 16)
  deriving DecidableEq, Repr

/-- Port states (R141). -/
inductive PortState where
  | unbound | ready | await | pulsing | holding | held | fault
  deriving DecidableEq, Repr

/-- An outstanding serial command; the element reference is absent once detached (R134). -/
structure Outstanding where
  verb : Verb
  number : Nat
  issue : Frame
  deadline : Frame
  element : Option (StoryId × Tag)
  deriving DecidableEq, Repr

/-- A port record (R134).  A contact is closed exactly while `pulseEnd` is present.  `transmit` is the
command frame on the line CUE_TXn since its last take (R149), which a reset cuts short (R160). -/
structure Port where
  state : PortState
  profile : Option (Fin 8)
  group : Option (Fin 4)
  lastIssue : Option Frame
  lastLoad : Option Frame
  failures : Nat
  heldFromFault : Bool
  command : Option Outstanding
  pulseEnd : Option Frame
  transmit : List Byte
  deriving DecidableEq, Repr

/-! ### Presenter Display Controller (chapter 8) -/

/-- Field kinds (section 8.2). -/
inductive FieldKind where
  | text | slugOnair | slugNext | note | remain | overUnder | clock | cue
  deriving DecidableEq, Repr

/-- A layout field; `text` is used by TEXT fields only (R162). -/
structure LayoutField where
  kind : FieldKind
  column : Nat
  width : Nat
  text : Text
  deriving DecidableEq, Repr

/-- Cue origins (R167). -/
inductive Origin where
  | control | element
  deriving DecidableEq, Repr

/-- An entry of an urgent cue list (R167). -/
structure Cue where
  text : Text
  origin : Origin
  tag : Nat
  hold : Nat
  expiry : Option Frame
  deriving DecidableEq, Repr

/-- Display states (R161). -/
inductive DisplayState where
  | active | blank | fault
  deriving DecidableEq, Repr

/-- A unit of display line traffic with its content (R175, R218).  A TEXT unit also names where its
codes go, which R177 needs at its completion. -/
inductive DisplayUnit where
  | clear
  | pos (row column : Nat)
  | text (row column : Nat) (codes : List Byte)
  | glyph (number : Nat) (rows : List Nat)
  | icons (states : BitVec 8)
  deriving DecidableEq, Repr

/-- The unit in flight: how many of its bytes have not finished, and whether the first of those waits
for BUSY to fall instead of being sent (R178). -/
structure Flight where
  content : DisplayUnit
  left : Nat
  waiting : Bool
  deriving DecidableEq, Repr

/-- The target image (R161). -/
structure TargetImage where
  row0 : List Byte
  row1 : List Byte
  icons : BitVec 8
  deriving DecidableEq, Repr

/-- The sent image: an absent cell or icon is unknown, and so is an absent cursor (R174). -/
structure SentImage where
  row0 : List (Option Byte)
  row1 : List (Option Byte)
  icons : List (Option Bool)
  cursor : Option (Nat × Nat)
  deriving DecidableEq, Repr

/-- The record of one display (R161). -/
structure Display where
  row0 : List LayoutField
  row1 : List LayoutField
  crawlInterval : Nat
  glyphs : List (List Nat)
  userIcon : Bool
  cues : List Cue
  crawlPosition : Nat
  nextCrawl : Option Frame
  target : TargetImage
  sent : SentImage
  /-- glyph-dirty set: bit n for glyph n -/
  dirty : BitVec 8
  clearPending : Bool
  iconsOffPending : Bool
  state : DisplayState
  blankMark : Bool
  flight : Option Flight
  /-- busy wait: the moment it began, on the model's clock -/
  busyWait : Option Nat
  deriving DecidableEq, Repr

/-! ### Panel Input Unit (chapter 9) -/

/-- Input functions (R186). -/
inductive InputFunction where
  | nothing | take | hold | ack | report
  deriving DecidableEq, Repr

/-- Polarities (R186). -/
inductive Polarity where
  | activeLow | activeHigh
  deriving DecidableEq, Repr

/-- The record of one panel input (R186).  `edgeDue` is the MODEL's own field: the tick under way has
completed the debounce count and the edge of R188 has not been taken yet. -/
structure PanelInput where
  function : InputFunction
  ackDisplay : Fin 4
  polarity : Polarity
  debounce : Nat
  lastSample : Option Level
  level : Level
  candidate : Nat
  edges : Nat
  edgeDue : Bool
  deriving DecidableEq, Repr

/-! ### Control Link (chapter 10) -/

/-- Result codes (section 11.3). -/
inductive Result where
  | ok | crcError | badLength | unknownRequest | badValue | notFound | duplicate | noSpace | state
  | committed | full | badPort | overlap
  deriving DecidableEq, Repr

/-- How a request FIFO entry is marked (R200). -/
inductive EntryMark where
  | good | badLength | crcError
  deriving DecidableEq, Repr

/-- A request FIFO entry (R200). -/
structure RequestEntry where
  mark : EntryMark
  code : Byte
  body : List Byte
  deriving DecidableEq, Repr

/-- A response: the request code as received and the body, which begins with the result code (R202). -/
structure Response where
  code : Byte
  body : List Byte
  deriving DecidableEq, Repr

/-- Notice kinds (section 11.5). -/
inductive NoticeKind where
  | itemOnair | itemDone | itemDropped | standbySet | junctionCaptured | junctionLate | takeRefused
  | showState | elementMissed | elementFailed | elementOrphaned | portState | displayState | cueAcked
  | cueExpired | cueDisplaced | inputEdge | refState
  deriving DecidableEq, Repr

/-- A notice record (R204, section 11.5); `value` is its two bytes as a number. -/
structure Notice where
  kind : NoticeKind
  cfn : Frame
  story : StoryId
  tag : Nat
  port : Nat
  value : Nat
  deriving DecidableEq, Repr

/-- What the first byte of a link frame settles: the type, the bytes the part returns from there on (R198), and
whether they are the answer of a FIFO's head, which a fetch removes (R203, R204). -/
structure TypedFrame where
  type : Byte
  answer : List Byte
  fromHead : Bool
  deriving DecidableEq, Repr

/-- A link frame under way: the status byte as the fall of SPI_CS_N fixed it (R197), and what the first byte
settled once it has ended. -/
structure OpenFrame where
  status : Byte
  typed : Option TypedFrame
  deriving DecidableEq, Repr

/-- The state of the Control Link (R212): the FIFOs, the sticky flags, the mask, whether the link waits
for SPI_CS_N high, the frame under way, and `output`, the bytes SPI_SDO returned in the last frame.  The level flags and
ATTN_N follow from the rest of the state (R205, R206) and are computed. -/
structure Link where
  requests : List RequestEntry
  responses : List Response
  notices : List Notice
  noticeLost : Bool
  crcFault : Bool
  frameFault : Bool
  linkOverrun : Bool
  missed : Bool
  resetSeen : Bool
  /-- bit n set: flag n is masked -/
  mask : BitVec 11
  awaitingCsHigh : Bool
  frame : Option OpenFrame
  output : List Byte
  deriving DecidableEq, Repr

/-! ### The frame tick under way -/

/-- Which step of R72 the sequencer stands at in the tick under way. -/
inductive TickPhase where
  | airFrame | junction | follow | capture | finished
  deriving DecidableEq, Repr

/-- The MODEL's own record of a frame tick whose work is still being handed out (R72, R124, R179):
whether any may be left, where the sequencer stands and whether a step of its has been taken by its row, the
item that was ONAIR before the tick, whether the due scan is still to be made, and the moment of the tick on
the model's clock. -/
structure TickWork where
  unfinished : Bool
  phase : TickPhase
  begun : Bool
  onairBefore : Option StoryId
  scanLeft : Bool
  moment : Nat
  deriving DecidableEq, Repr

end Sys2Proof.Machine
end

