-- ==== Sys2Proof/Machine/State.lean ====
section
/-! DEFINITION. The whole state of the part, the reasons a step could stop, and the state after reset. -/

namespace Sys2Proof.Machine

/-- Reasons the part itself stops.  The spec gives none: every event it describes has an effect in every
state, so no command raises a fault, and the type has no constructor. -/
inductive Fault where
  deriving DecidableEq, Repr

/-- Reasons a command has no meaning in the model. -/
inductive Refusal where
  /-- Raised by an arm of `exec` that has no meaning yet; no arm is one.  Safe: the run stops. -/
  | notModelled (mnemonic : String)
  deriving DecidableEq, Repr

/-- The state of the part, and the queue of the commands that wait to be taken. -/
structure State where
  /-- Reference Timing Unit (R18) -/
  rtu : Rtu
  /-- item table, rundown order, id map and element pool: the item records in rundown order (R19 to
  R23) -/
  items : List Item
  /-- order revision (R22) -/
  revision : Nat
  /-- Show Sequencer (R66) -/
  seq : Sequencer
  /-- Timing Engine (R90) -/
  engine : Engine
  /-- Cue Scheduler (R133) -/
  sched : Scheduler
  /-- device profiles (R135) -/
  profiles : Vector Profile 8
  /-- port groups (R139) -/
  groups : Vector Group 4
  /-- port records (R134) -/
  ports : Vector Port 16
  /-- display records (R161) -/
  displays : Vector Display 4
  /-- panel input records (R186) -/
  inputs : Vector PanelInput 8
  /-- Control Link (R212) -/
  link : Link
  /-- the tick under way (the model's own) -/
  tick : TickWork
  /-- levels of DSP_BUSY0 to DSP_BUSY3 as the part last saw them (R178, R183) -/
  busy : Vector Level 4
  /-- RESET_N is held low (R211) -/
  resetHeld : Bool
  /-- OSC_IN cycles since reset (the model's own clock, R9, R178) -/
  clock : Nat
  /-- commands waiting to be taken, first in, first out (the model's own) -/
  pending : List Instr
  deriving DecidableEq, Repr

/-- A timed field as given by milliseconds, floor and the effective count it has at rate 0 (R136). -/
def timedAt (ms floor effective : Nat) : Timed := ⟨ms, floor, effective⟩

/-- Every profile after reset (R160): REPLY_TIMEOUT 200 ms floor 2 (effective 5 at rate 0), PULSE_WIDTH
80 ms floor 2 (effective 2), tolerance 2. -/
def resetProfile : Profile where
  preroll := timedAt 0 0 0
  loadRun := timedAt 0 0 0
  portGap := timedAt 0 0 0
  replyTimeout := timedAt 200 2 5
  pulseWidth := timedAt 80 2 2
  lateTolerance := 2
  channel := 0

/-- Every group after reset (R160). -/
def resetGroup : Group where
  gap := timedAt 0 0 0
  window := timedAt 0 0 0
  limit := 4
  history := []

/-- Every port after reset (R160). -/
def resetPort : Port where
  state := .unbound
  profile := none
  group := none
  lastIssue := none
  lastLoad := none
  failures := 0
  heldFromFault := false
  command := none
  pulseEnd := none
  transmit := []

/-- Every display after reset (R161).  The target is the reset layout rendered with nothing on air: all
spaces, and the REF icon on because the lock state is UNLOCKED (R165, R18). -/
def resetDisplay : Display where
  row0 := [⟨.slugOnair, 0, 14, []⟩, ⟨.remain, 14, 6, []⟩]
  row1 := [⟨.cue, 0, 20, []⟩]
  crawlInterval := 8
  glyphs := List.replicate 8 (List.replicate 8 0)
  userIcon := false
  cues := []
  crawlPosition := 0
  nextCrawl := none
  target := ⟨List.replicate 20 0x20#8, List.replicate 20 0x20#8, 0x40#8⟩
  sent := ⟨List.replicate 20 none, List.replicate 20 none, List.replicate 8 none, none⟩
  dirty := 0xFF#8
  clearPending := true
  iconsOffPending := false
  state := .active
  blankMark := false
  flight := none
  busyWait := none

/-- Every panel input after reset (R186). -/
def resetInput : PanelInput where
  function := .nothing
  ackDisplay := 0
  polarity := .activeLow
  debounce := 2
  lastSample := none
  level := .high
  candidate := 0
  edges := 0
  edgeDue := false

/-- The part right after reset: R18, R41, R66, R90, R133, R160, R161, R186, R212. -/
def State.reset : State where
  rtu := {
    rate := .r25, cfn := 0, lock := .unlocked, counter := 0, mode := .absent, announced := none,
    disagreements := 0, offset := 0, receiver := none }
  items := []
  revision := 0
  seq := {
    mode := .idle, cursor := none, nomination := none, lastAdvance := none, overdue := false,
    planStart := 0, margin := 250, takeGuard := 5 }
  engine := {
    generation := 0, inFlight := false, projectedEnd := none, mustEnd := none, nextJunction := none,
    path := [], pathLength := 0, pathEnd := none, cleared := false }
  sched := { queue := [], counter := 0 }
  profiles := Vector.replicate 8 resetProfile
  groups := Vector.replicate 4 resetGroup
  ports := Vector.replicate 16 resetPort
  displays := Vector.replicate 4 resetDisplay
  inputs := Vector.replicate 8 resetInput
  link := {
    requests := [], responses := [], notices := [], noticeLost := false, crcFault := false,
    frameFault := false, linkOverrun := false, missed := false, resetSeen := true, mask := 0x7FF#11,
    awaitingCsHigh := true, frame := none, output := [] }
  tick := {
    unfinished := false, phase := .finished, begun := false, onairBefore := none, scanLeft := false, moment := 0 }
  busy := Vector.replicate 4 .low
  resetHeld := false
  clock := 0
  pending := []

end Sys2Proof.Machine
end

