-- ==== Sys2Proof/Machine/Operands.lean ====
section
/-! DEFINITION. The operand arithmetic of the part: rate figures, frame numbers, timecode labels, display
seconds, the byte encoding of fields (R213), the CRC (R215) and the codes of named values (section
11.6). -/

namespace Sys2Proof.Machine

/-! ### Rates (R1) -/

def Rate.ofCode : Nat → Option Rate
  | 0 => some .r25
  | 1 => some .r2997
  | 2 => some .r50
  | 3 => some .r5994
  | _ => none

def Rate.code : Rate → Nat
  | .r25 => 0
  | .r2997 => 1
  | .r50 => 2
  | .r5994 => 3

/-- N of the exact rate N/D. -/
def Rate.num : Rate → Nat
  | .r25 => 25
  | .r2997 => 30000
  | .r50 => 50
  | .r5994 => 60000

/-- D of the exact rate N/D. -/
def Rate.den : Rate → Nat
  | .r25 => 1
  | .r2997 => 1001
  | .r50 => 1
  | .r5994 => 1001

/-- Nominal label rate. -/
def Rate.nominal : Rate → Nat
  | .r25 => 25
  | .r2997 => 30
  | .r50 => 50
  | .r5994 => 60

def Rate.dropFrame : Rate → Bool
  | .r25 => false
  | .r2997 => true
  | .r50 => false
  | .r5994 => true

/-- Frames per day, FPD. -/
def Rate.day : Rate → Nat
  | .r25 => 2160000
  | .r2997 => 2589408
  | .r50 => 4320000
  | .r5994 => 5178816

/-- The frame period P in OSC_IN cycles. -/
def Rate.period : Rate → Nat
  | .r25 => 1080000
  | .r2997 => 900900
  | .r50 => 540000
  | .r5994 => 450450

/-- P/2. -/
def Rate.halfPeriod (r : Rate) : Nat := r.period / 2

/-- 3P/2. -/
def Rate.longPeriod (r : Rate) : Nat := r.period + r.period / 2

/-! ### Frame numbers (R2 to R4) -/

/-- A frame number plus a count of frames (R2). -/
def addFrames (day a n : Nat) : Frame := (a + n) % day

/-- A frame number less a count of frames (R2). -/
def subFrames (day a n : Nat) : Frame := (((a : Int) - n) % day).toNat

/-- A frame number moved by a signed offset (R156, R173). -/
def shiftFrame (day : Nat) (d : Int) (a : Frame) : Frame := (((a : Int) + d) % day).toNat

/-- The signed difference a - b of two frame numbers (R3). -/
def signedDiff (day : Nat) (a b : Frame) : Int :=
  let m : Int := ((a : Int) - b) % day
  if 2 * m < day then m else m - day

/-- A scheduled frame `x` is due at CFN (R4). -/
def isDue (day cfn x : Nat) : Bool := decide (0 ≤ signedDiff day cfn x)

/-! ### Timecode labels (R5 to R7) -/

structure Label where
  hh : Nat
  mm : Nat
  ss : Nat
  ff : Nat
  deriving DecidableEq, Repr

/-- How many frame values a drop-frame minute skips (R1, R5). -/
def Rate.skipped : Rate → Nat
  | .r25 => 0
  | .r2997 => 2
  | .r50 => 0
  | .r5994 => 4

/-- A label is valid for the rate (R5). -/
def labelValid (r : Rate) (l : Label) : Bool :=
  decide (l.hh ≤ 23) && decide (l.mm ≤ 59) && decide (l.ss ≤ 59) && decide (l.ff < r.nominal)
    && !(decide (l.ss = 0) && decide (l.mm % 10 ≠ 0) && decide (l.ff < r.skipped))

/-- A valid label's frame number (R6). -/
def labelToFrame (r : Rate) (l : Label) : Frame :=
  let seconds := 3600 * l.hh + 60 * l.mm + l.ss
  let minutes := 60 * l.hh + l.mm
  seconds * r.nominal + l.ff - r.skipped * (minutes - minutes / 10)

/-- Frames in ten label minutes at a drop-frame rate (R7). -/
def tenMinutes (r : Rate) : Nat := 600 * r.nominal - 9 * r.skipped

/-- Frames in a drop-frame minute that skips (R7: 1,798 at rate 1, 3,596 at rate 3). -/
def dropMinute (r : Rate) : Nat := 60 * r.nominal - r.skipped

/-- The label count of a frame number: the frame number with the skipped values counted (R7). -/
def labelCount (r : Rate) (fn : Frame) : Nat :=
  if r.dropFrame then
    let q := fn / tenMinutes r
    let m := fn % tenMinutes r
    fn + 9 * r.skipped * q + (if r.skipped ≤ m then r.skipped * ((m - r.skipped) / dropMinute r) else 0)
  else fn

/-- The label of a frame number (R7). -/
def frameToLabel (r : Rate) (fn : Frame) : Label :=
  let count := labelCount r fn
  let s := count / r.nominal
  ⟨s / 3600 % 24, s / 60 % 60, s % 60, count % r.nominal⟩

/-! ### Profile timings (R136) -/

/-- The effective frame count of a timed field at a rate (R136). -/
def effectiveFrames (r : Rate) (ms floor : Nat) : Nat :=
  min 255 (max ((ms * r.num + r.den * 1000 - 1) / (r.den * 1000)) floor)

/-- A timed field with its effective count derived anew (R136). -/
def Timed.derive (r : Rate) (t : Timed) : Timed := { t with effective := effectiveFrames r t.ms t.floor }

/-! ### Display seconds and texts (R107 to R109) -/

/-- A display value: its sign code (0x20 for none) and its seconds. -/
structure DisplaySeconds where
  sign : Byte
  seconds : Nat
  deriving DecidableEq, Repr

/-- The seconds and sign of a remaining time (R107). -/
def remainSeconds (rate : Rate) (r : Int) : DisplaySeconds :=
  if 0 ≤ r then ⟨0x20#8, (r.toNat * rate.den + rate.num - 1) / rate.num⟩
  else
    let s := r.natAbs * rate.den / rate.num
    ⟨if s = 0 then 0x20#8 else 0x2B#8, s⟩

/-- The seconds and sign of an over/under (R108). -/
def overUnderSeconds (rate : Rate) (ou : Int) : DisplaySeconds :=
  let s := (2 * ou.natAbs * rate.den + rate.num) / (2 * rate.num)
  ⟨if s = 0 then 0x20#8 else if ou < 0 then 0x2B#8 else 0x2D#8, s⟩

/-- Two decimal digits. -/
def twoDigits (n : Nat) : Text := [BitVec.ofNat 8 (0x30 + n / 10 % 10), BitVec.ofNat 8 (0x30 + n % 10)]

/-- The sign, when present, then MM:SS with the seconds clamped to 5,999 (R109). -/
def minutesText (v : DisplaySeconds) : Text :=
  let s := min v.seconds 5999
  (if v.sign = 0x20#8 then [] else [v.sign]) ++ twoDigits (s / 60) ++ [0x3A#8] ++ twoDigits (s % 60)

/-- HH:MM:SS of CFN's label (R109). -/
def clockText (rate : Rate) (cfn : Frame) : Text :=
  let l := frameToLabel rate cfn
  twoDigits l.hh ++ [0x3A#8] ++ twoDigits l.mm ++ [0x3A#8] ++ twoDigits l.ss

/-- W of R165: one minute of real time in frames, rounded up. -/
def minuteFrames (rate : Rate) : Nat := (60 * rate.num + rate.den - 1) / rate.den

/-! ### Text (R34) -/

/-- The clamping of one text code (R34). -/
def clampCode (b : Byte) : Byte :=
  if b.toNat ≤ 0x07 ∨ (0x20 ≤ b.toNat ∧ b.toNat ≤ 0x7E) then b else 0x3F#8

def clampText (t : Text) : Text := t.map clampCode

/-! ### Encoding of fields (R213) -/

/-- The low `k` bytes of a number, most significant byte first. -/
def beBytes : Nat → Nat → List Byte
  | 0, _ => []
  | k + 1, n => BitVec.ofNat 8 (n / 256 ^ k) :: beBytes k n

/-- The number that bytes spell, most significant byte first. -/
def ofBytes (bs : List Byte) : Nat := bs.foldl (fun n b => 256 * n + b.toNat) 0

/-- A signed number of frames in three bytes of two's complement. -/
def signedBytes (v : Int) : List Byte := beBytes 3 (v % 16777216).toNat

/-- A mark or flag. -/
def flagByte (b : Bool) : List Byte := [if b then 1#8 else 0#8]

/-- A frame number that may be absent, then its presence mark. -/
def optFrame (f : Option Frame) : List Byte := beBytes 3 (f.getD 0) ++ flagByte f.isSome

/-- Text in a response: its length, its codes, and 0x00 up to the capacity. -/
def responseText (capacity : Nat) (t : Text) : List Byte :=
  beBytes 1 t.length ++ t ++ List.replicate (capacity - t.length) 0#8

def labelBytes (l : Label) : List Byte := beBytes 1 l.hh ++ beBytes 1 l.mm ++ beBytes 1 l.ss ++ beBytes 1 l.ff

/-- The two's complement of the modulo-256 sum (R11, R149). -/
def checkByte (bs : List Byte) : Byte := 0#8 - bs.foldl (· + ·) 0#8

/-! ### CRC (R199, R215) -/

/-- One shift of the CRC register. -/
def crcShift (c : BitVec 16) : BitVec 16 := if c.msb then (c <<< 1) ^^^ 0x1021#16 else c <<< 1

/-- One byte folded into the CRC register. -/
def crcByte (c : BitVec 16) (b : Byte) : BitVec 16 :=
  Nat.iterate crcShift 8 (c ^^^ (b.zeroExtend 16 <<< 8))

def crc16 (bs : List Byte) : BitVec 16 := bs.foldl crcByte 0xFFFF#16

def crcBytes (bs : List Byte) : List Byte := beBytes 2 (crc16 bs).toNat

/-- An answer on the link: code, length, body and CRC (R214, R215). -/
def answerBytes (code : Byte) (body : List Byte) : List Byte :=
  let head := code :: BitVec.ofNat 8 body.length :: body
  head ++ crcBytes head

/-- The empty answer (R203). -/
def emptyAnswer : List Byte := answerBytes 0#8 []

/-! ### Codes of named values (section 11.6) -/

def ItemState.code : ItemState → Nat
  | .pending => 0
  | .standby => 1
  | .taking => 2
  | .onair => 3
  | .done => 4
  | .dropped => 5

def Verb.code : Verb → Nat
  | .load => 1
  | .run => 2
  | .stop => 3

def Kind.code : Kind → Nat
  | .serial v => v.code
  | .pulse => 4
  | .cueText => 5

def Kind.ofCode : Nat → Option Kind
  | 1 => some (.serial .load)
  | 2 => some (.serial .run)
  | 3 => some (.serial .stop)
  | 4 => some .pulse
  | 5 => some .cueText
  | _ => none

/-- The verb code on a cue line (R149). -/
def Verb.lineCode : Verb → Byte
  | .load => 0x4C#8
  | .run => 0x52#8
  | .stop => 0x53#8

def Anchor.code : Anchor → Nat
  | .fromStart => 0
  | .fromEnd => 1

def Anchor.ofCode : Nat → Option Anchor
  | 0 => some .fromStart
  | 1 => some .fromEnd
  | _ => none

def ElementState.code : ElementState → Nat
  | .idle => 0
  | .waiting => 1
  | .armed => 2
  | .issued => 3
  | .done => 4
  | .missed => 5
  | .failed => 6

def Cause.code : Cause → Nat
  | .late => 1
  | .ended => 2
  | .unbound => 3
  | .refused => 4
  | .timeout => 5
  | .garbled => 6
  | .busy => 7

def ShowState.code : ShowState → Nat
  | .idle => 0
  | .running => 1
  | .holding => 2
  | .ended => 3

def LockState.code : LockState → Nat
  | .unlocked => 0
  | .locked => 1
  | .freewheel => 2

def PulseMode.code : PulseMode → Nat
  | .absent => 0
  | .present => 1

def PortState.code : PortState → Nat
  | .unbound => 0
  | .ready => 1
  | .await => 2
  | .pulsing => 3
  | .holding => 4
  | .held => 5
  | .fault => 6

def DisplayState.code : DisplayState → Nat
  | .active => 0
  | .blank => 1
  | .fault => 2

def Origin.code : Origin → Nat
  | .control => 0
  | .element => 1

def InputFunction.code : InputFunction → Nat
  | .nothing => 0
  | .take => 1
  | .hold => 2
  | .ack => 3
  | .report => 4

def InputFunction.ofCode : Nat → Option InputFunction
  | 0 => some .nothing
  | 1 => some .take
  | 2 => some .hold
  | 3 => some .ack
  | 4 => some .report
  | _ => none

def Polarity.code : Polarity → Nat
  | .activeLow => 0
  | .activeHigh => 1

def Polarity.ofCode : Nat → Option Polarity
  | 0 => some .activeLow
  | 1 => some .activeHigh
  | _ => none

def levelCode : Level → Nat
  | .low => 0
  | .high => 1

/-- The level of a polarity that is active (R186). -/
def Polarity.activeLevel : Polarity → Level
  | .activeLow => .low
  | .activeHigh => .high

def FieldKind.code : FieldKind → Nat
  | .text => 0
  | .slugOnair => 1
  | .slugNext => 2
  | .note => 3
  | .remain => 4
  | .overUnder => 5
  | .clock => 6
  | .cue => 7

def FieldKind.ofCode : Nat → Option FieldKind
  | 0 => some .text
  | 1 => some .slugOnair
  | 2 => some .slugNext
  | 3 => some .note
  | 4 => some .remain
  | 5 => some .overUnder
  | 6 => some .clock
  | 7 => some .cue
  | _ => none

def Result.code : Result → Byte
  | .ok => 0x00#8
  | .crcError => 0x01#8
  | .badLength => 0x02#8
  | .unknownRequest => 0x03#8
  | .badValue => 0x04#8
  | .notFound => 0x05#8
  | .duplicate => 0x06#8
  | .noSpace => 0x07#8
  | .state => 0x08#8
  | .committed => 0x09#8
  | .full => 0x0A#8
  | .badPort => 0x0B#8
  | .overlap => 0x0C#8

def NoticeKind.code : NoticeKind → Nat
  | .itemOnair => 0x01
  | .itemDone => 0x02
  | .itemDropped => 0x03
  | .standbySet => 0x04
  | .junctionCaptured => 0x05
  | .junctionLate => 0x06
  | .takeRefused => 0x07
  | .showState => 0x08
  | .elementMissed => 0x10
  | .elementFailed => 0x11
  | .elementOrphaned => 0x12
  | .portState => 0x18
  | .displayState => 0x19
  | .cueAcked => 0x20
  | .cueExpired => 0x21
  | .cueDisplaced => 0x22
  | .inputEdge => 0x28
  | .refState => 0x29

/-- The 12-byte notice record (section 11.5). -/
def noticeRecord (n : Notice) : List Byte :=
  beBytes 1 n.kind.code ++ beBytes 3 n.cfn ++ beBytes 4 n.story ++ beBytes 1 n.tag ++ beBytes 1 n.port
    ++ beBytes 2 n.value

/-- The bytes of a display unit on the line (R218). -/
def unitBytes : DisplayUnit → List Byte
  | .clear => [0xC0#8]
  | .pos r c => 0xC1#8 :: beBytes 1 r ++ beBytes 1 c
  | .text _ _ codes => 0xC2#8 :: beBytes 1 codes.length ++ codes
  | .glyph n rows => 0xC3#8 :: beBytes 1 n ++ rows.map (BitVec.ofNat 8)
  | .icons b => [0xC4#8, b]

/-- The unit code, or 0 when no unit is in flight (R213). -/
def unitKindCode : Option Flight → Byte
  | none => 0#8
  | some f => (unitBytes f.content).headD 0#8

/-- The request codes (section 11.3). -/
def requestCodes : List Byte :=
  [0x01#8, 0x02#8, 0x03#8, 0x10#8, 0x11#8, 0x12#8, 0x13#8, 0x14#8, 0x15#8, 0x16#8, 0x17#8, 0x18#8,
    0x19#8, 0x1A#8, 0x1B#8, 0x20#8, 0x21#8, 0x22#8, 0x23#8, 0x24#8, 0x25#8, 0x26#8, 0x27#8, 0x28#8,
    0x29#8, 0x30#8, 0x31#8, 0x32#8, 0x33#8, 0x34#8, 0x35#8, 0x36#8, 0x37#8, 0x40#8, 0x41#8, 0x42#8,
    0x43#8, 0x44#8, 0x45#8, 0x46#8, 0x47#8, 0x48#8, 0x49#8, 0x50#8, 0x51#8, 0x52#8, 0x53#8, 0x54#8]

end Sys2Proof.Machine
end

