-- ==== Sys2Proof/Machine/Flags.lean ====
section
/-! DEFINITION. The eleven status flags, the status byte and the attention line (R197, R205, R206). -/

namespace Sys2Proof.Machine

/-- RESP_READY (R205). -/
def respReady (s : State) : Bool := !s.link.responses.isEmpty

/-- NOTICE_PENDING (R205). -/
def noticePending (s : State) : Bool := !s.link.notices.isEmpty

/-- REF_ALARM (R15, R205). -/
def refAlarm (s : State) : Bool := s.rtu.lock != .locked

/-- PORT_ALARM (R159, R205). -/
def portAlarm (s : State) : Bool := s.ports.toList.any (fun p => p.state == .fault)

/-- DISPLAY_ALARM (R180, R205). -/
def displayAlarm (s : State) : Bool := s.displays.toList.any (fun d => d.state == .fault)

/-- The flags in bit order 0 to 10 (section 11.3). -/
def statusFlags (s : State) : List Bool :=
  [respReady s, noticePending s, s.link.noticeLost, s.link.crcFault, s.link.frameFault, s.link.linkOverrun,
    refAlarm s, portAlarm s, displayAlarm s, s.link.missed, s.link.resetSeen]

/-- Bits, bit 0 first, as a number. -/
def bitsValue (bs : List Bool) : Nat := bs.foldr (fun b n => b.toNat + 2 * n) 0

/-- The status word (R205, section 11.3). -/
def statusWord (s : State) : BitVec 11 := BitVec.ofNat 11 (bitsValue (statusFlags s))

/-- ATTN_N is asserted (R206); while RESET_N is held low it is released (R211). -/
def attentionAsserted (s : State) : Bool := !s.resetHeld && (statusWord s &&& ~~~s.link.mask) != 0#11

/-- At least one sticky flag is set (R197). -/
def stickySet (s : State) : Bool :=
  s.link.noticeLost || s.link.crcFault || s.link.frameFault || s.link.linkOverrun || s.link.missed
    || s.link.resetSeen

/-- The link status byte (R197, section 11.2). -/
def statusByte (s : State) : Byte :=
  BitVec.ofNat 8 (bitsValue [respReady s, noticePending s,
    decide (s.link.requests.length = Config.requestFifo), attentionAsserted s, stickySet s])

/-- The status word or the mask in two bytes (R213). -/
def flagWordBytes (w : BitVec 11) : List Byte := beBytes 2 w.toNat

/-- Clears each sticky flag that a set names; a level flag named is left (R208). -/
def clearSticky (w : BitVec 11) (l : Link) : Link :=
  { l with
    noticeLost := l.noticeLost && !w.getLsbD 2
    crcFault := l.crcFault && !w.getLsbD 3
    frameFault := l.frameFault && !w.getLsbD 4
    linkOverrun := l.linkOverrun && !w.getLsbD 5
    missed := l.missed && !w.getLsbD 9
    resetSeen := l.resetSeen && !w.getLsbD 10 }

end Sys2Proof.Machine
end

