-- ==== Sys2Proof/Machine/Ops.lean ====
section
/-! DEFINITION. The named operations every block shares: time, notices, the item and element records, the
slots of the Show Sequencer, the port, display and input records, and walk triggers. -/

namespace Sys2Proof.Machine

/-! ### Time -/

/-- FPD at the rate in force. -/
def State.day (s : State) : Nat := s.rtu.rate.day

/-- The current frame number. -/
def State.cfn (s : State) : Frame := s.rtu.cfn

/-- A frame is due at CFN (R4). -/
def State.due (s : State) (x : Frame) : Bool := isDue s.day s.cfn x

/-- OSC_IN cycles pass: the tick-phase counter and the model's clock run on (R9). -/
def passCycles (n : Nat) (s : State) : State :=
  { s with rtu := { s.rtu with counter := s.rtu.counter + n }, clock := s.clock + n }

/-! ### Notices and the MISSED flag (R204, R130, R159) -/

/-- A notice joins the FIFO, or is discarded with NOTICE_LOST when the FIFO holds 32 (R204). -/
def pushNotice (n : Notice) (l : Link) : Link :=
  if l.notices.length < Config.noticeFifo then { l with notices := l.notices ++ [n] }
  else { l with noticeLost := true }

/-- A block raises a notice with the CFN of the event (R204). -/
def raiseNotice (kind : NoticeKind) (story tag port value : Nat) (s : State) : State :=
  { s with link := pushNotice ⟨kind, s.cfn, story, tag, port, value⟩ s.link }

/-- The sticky MISSED flag is set (R130, R159). -/
def setMissed (s : State) : State := { s with link := { s.link with missed := true } }

/-! ### Items and elements (chapter 2) -/

/-- The item a story id names (R23). -/
def findItem (s : State) (id : StoryId) : Option Item := s.items.find? (fun i => i.id == id)

/-- The element a tag names in an item (R23). -/
def Item.findElement (i : Item) (tag : Tag) : Option Element := i.elements.find? (fun e => e.tag == tag)

/-- The element that a story id and a tag name. -/
def findElement (s : State) (id : StoryId) (tag : Tag) : Option Element :=
  (findItem s id).bind (fun i => i.findElement tag)

/-- The named item's record is changed in place. -/
def modifyItem (id : StoryId) (f : Item → Item) (s : State) : State :=
  { s with items := s.items.map (fun i => if i.id == id then f i else i) }

/-- The named element's record is changed in place. -/
def modifyElement (id : StoryId) (tag : Tag) (f : Element → Element) (s : State) : State :=
  modifyItem id (fun i => { i with elements := i.elements.map (fun e => if e.tag == tag then f e else e) }) s

/-- The item's JUNCTION flag: TGT is present (R25). -/
def Item.junction (i : Item) : Bool := i.target.isSome

/-- Elements in use in the whole store (R20). -/
def elementsInUse (s : State) : Nat := (s.items.map (fun i => i.elements.length)).sum

/-- The element becomes IDLE, which removes its cause and lateness (R33). -/
def Element.toIdle (e : Element) : Element := { e with state := .idle, cause := none, lateness := none }

/-- The kind of an element (R30). -/
def Action.kind : Action → Kind
  | .serial v _ _ => .serial v
  | .pulse _ => .pulse
  | .cueText _ _ _ => .cueText

/-- The port of an element, absent for CUE_TEXT (R30). -/
def Action.port : Action → Option (Fin 16)
  | .serial _ p _ => some p
  | .pulse p => some p
  | .cueText _ _ _ => none

/-- The port field of notices and summaries: the port, or 255 for CUE_TEXT (R60, R130, R132). -/
def portField (p : Option (Fin 16)) : Nat := (p.map Fin.val).getD 255

/-- The lateness an issue records: CFN - issue frame, 255 when it is greater (R33). -/
def recordedLateness (s : State) (issue : Frame) : Nat := min 255 (signedDiff s.day s.cfn issue).toNat

/-! ### Slots of the Show Sequencer (R66) -/

/-- The item that holds a slot: the one whose state is the slot's. -/
def slotItem (st : ItemState) (s : State) : Option Item := s.items.find? (fun i => i.state == st)

def onairItem (s : State) : Option Item := slotItem .onair s

def takingItem (s : State) : Option Item := slotItem .taking s

def standbyItem (s : State) : Option Item := slotItem .standby s

def onairId (s : State) : Option StoryId := (onairItem s).map Item.id

def takingId (s : State) : Option StoryId := (takingItem s).map Item.id

def standbyId (s : State) : Option StoryId := (standbyItem s).map Item.id

/-- The STANDBY is a captured junction. -/
def standbyCaptured (s : State) : Bool := (standbyItem s).any Item.captured

/-- The item's planned end E = AF + PD (R78). -/
def plannedEnd (s : State) (i : Item) : Frame := addFrames s.day (i.airFrame.getD 0) i.duration

/-! ### Records by number -/

def setPort (p : Fin 16) (r : Port) (s : State) : State := { s with ports := s.ports.set p r }

def modifyPort (p : Fin 16) (f : Port → Port) (s : State) : State := setPort p (f s.ports[p]) s

def setDisplay (d : Fin 4) (r : Display) (s : State) : State := { s with displays := s.displays.set d r }

def modifyDisplay (d : Fin 4) (f : Display → Display) (s : State) : State := setDisplay d (f s.displays[d]) s

def setInput (n : Fin 8) (r : PanelInput) (s : State) : State := { s with inputs := s.inputs.set n r }

def modifyInput (n : Fin 8) (f : PanelInput → PanelInput) (s : State) : State :=
  setInput n (f s.inputs[n]) s

/-- Ports, displays and inputs in ascending order. -/
def allPorts : List (Fin 16) := List.finRange 16

def allDisplays : List (Fin 4) := List.finRange 4

def allInputs : List (Fin 8) := List.finRange 8

/-- Members of a set of displays, ascending (R126, R168). -/
def displaysOf (set : BitVec 4) : List (Fin 4) := allDisplays.filter (fun d => set.getLsbD d.val)

/-! ### Walk triggers (R102, R103) -/

/-- A walk trigger starts a walk, or abandons the walk in flight and starts a new one (R102, R103). -/
def triggerWalk (s : State) : State := { s with engine := { s.engine with inFlight := true } }

end Sys2Proof.Machine
end

