-- ==== Sys2Proof/Machine/Walk.lean ====
section
/-! DEFINITION. The Timing Engine: the run path, the walk and its results (sections 5.2 to 5.5), and the
values it computes on demand (section 5.6). -/

namespace Sys2Proof.Machine

/-! ### The run path (R91) -/

/-- The items that stand after the named one in an order. -/
def itemsAfter (id : StoryId) : List Item → List Item
  | [] => []
  | i :: rest => if i.id == id then rest else itemsAfter id rest

/-- The items after the cursor, or from the top when the cursor is top (R68, R91). -/
def afterCursor (s : State) : List Item :=
  match s.seq.cursor with
  | none => s.items
  | some c => itemsAfter c s.items

/-- An item of step 3 of R91. -/
def waitsForAir (i : Item) : Bool := i.state == .pending && !i.float

/-- The item of step 2 of R91: TAKING, or else STANDBY. -/
def nextItem (s : State) : Option Item := (takingItem s).or (standbyItem s)

/-- The items that step 3 of R91 looks through. -/
def pathTail (s : State) : List Item :=
  match nextItem s, onairItem s with
  | some i, _ => itemsAfter i.id s.items
  | none, some i => itemsAfter i.id s.items
  | none, none => afterCursor s

/-- The run path (R91). -/
def runPath (s : State) : List Item :=
  (onairItem s).toList ++ (nextItem s).toList ++ (pathTail s).filter waitsForAir

/-! ### The walk (R92 to R98) -/

/-- The item pins the path to its target: a junction of the run path (R95), or a TAKING junction, which
back-times the items before it (R97). -/
def junctionTarget (i : Item) : Option Frame := if i.state == .onair then none else i.target

/-- A junction of the run path (R95). -/
def isPathJunction (i : Item) : Bool := i.junction && (i.state == .pending || i.state == .standby)

/-- The frame of the following path's first item from which every planned duration still hits its first
junction: TGT less the sum of PD up to it (R97, R98). -/
def latestStart (day : Nat) : List Item → Option Frame
  | [] => none
  | i :: rest =>
    match junctionTarget i with
    | some t => some t
    | none => (latestStart day rest).map (fun f => subFrames day f i.duration)

/-- The projected end PE of the ONAIR item (R93). -/
def projectedEndOf (s : State) (i : Item) : Frame :=
  match takingItem s with
  | some t => t.airFrame.getD 0
  | none =>
    let af := i.airFrame.getD 0
    let occupied := signedDiff s.day s.cfn af + 1
    shiftFrame s.day (max (i.duration : Int) occupied) af

/-- What a walk records for one item (R99). -/
structure Projection where
  id : StoryId
  start : Frame
  backTime : Option Frame
  overUnder : Option Int
  deriving DecidableEq, Repr

/-- What the walk records for a path item reached at the running frame `p`, with `rest` the path from it
on, and where the running frame goes (R93 to R97). -/
def visitItem (s : State) (p : Frame) (i : Item) (rest : List Item) : Projection × Frame :=
  match i.state with
  | .onair => (⟨i.id, i.airFrame.getD 0, none, none⟩, projectedEndOf s i)
  | .taking =>
    let af := i.airFrame.getD 0
    let ending := addFrames s.day af i.duration
    match i.target with
    | some t => (⟨i.id, af, none, some (signedDiff s.day t af)⟩, ending)
    | none => (⟨i.id, af, latestStart s.day rest, none⟩, ending)
  | _ =>
    match i.target with
    | some t => (⟨i.id, t, none, some (signedDiff s.day t p)⟩, addFrames s.day t i.duration)
    | none => (⟨i.id, p, latestStart s.day rest, none⟩, addFrames s.day p i.duration)

/-- The walk over the path items from the running frame on: the projections in path order and the last
running frame. -/
def walkFrom (s : State) : Frame → List Item → List Projection × Frame
  | p, [] => ([], p)
  | p, i :: rest =>
    let (pr, p') := visitItem s p i (i :: rest)
    let (prs, last) := walkFrom s p' rest
    (pr :: prs, last)

/-- The anchor of the walk (R92). -/
def walkAnchor (s : State) : Frame :=
  match onairItem s with
  | some i => i.airFrame.getD 0
  | none => s.seq.planStart

/-- The path items after the ONAIR item (R98). -/
def pathAfterOnair (s : State) : List Item := (nextItem s).toList ++ (pathTail s).filter waitsForAir

/-- The next junction of a walk's results (R98). -/
def nextJunctionOf (s : State) (prs : List Projection) : Option NextJunction :=
  (pathAfterOnair s).findSome? (fun i =>
    match junctionTarget i with
    | none => none
    | some t =>
      let ou := ((prs.find? (fun pr => pr.id == i.id)).bind Projection.overUnder).getD 0
      some ⟨i.id, t, ou⟩)

/-- The item's projection fields after the walk: those recorded, or none off the path (R99). -/
def projectItem (prs : List Projection) (i : Item) : Item :=
  match prs.find? (fun pr => pr.id == i.id) with
  | some pr => { i with projectedStart := some pr.start, backTime := pr.backTime, overUnder := pr.overUnder }
  | none => { i with projectedStart := none, backTime := none, overUnder := none }

/-- The walk's own results in the completion event: the projections of every item, the walk results, the
generation and the flag (R104). -/
def writeWalk (s : State) : State :=
  let path := runPath s
  let (prs, last) := walkFrom s (walkAnchor s) path
  { s with
    items := s.items.map (projectItem prs)
    engine := {
      generation := (s.engine.generation + 1) % 65536
      inFlight := false
      projectedEnd := (onairItem s).map (projectedEndOf s)
      mustEnd := (onairItem s).bind (fun _ => latestStart s.day (pathAfterOnair s))
      nextJunction := nextJunctionOf s prs
      path := path.map Item.id
      pathLength := path.length
      pathEnd := if path.isEmpty then none else some last
      cleared := false } }

/-! ### Overrun and remaining time (R101, R106) -/

/-- The ONAIR item is overrunning: (CFN - AF) + 1 exceeds PD (R93, R101). -/
def isOverrunning (s : State) (i : Item) : Bool :=
  decide ((i.duration : Int) < signedDiff s.day s.cfn (i.airFrame.getD 0) + 1)

/-- The engine's own trigger at a tick (R101). -/
def overrunTrigger (s : State) : State :=
  match onairItem s, takingItem s with
  | some i, none => if isOverrunning s i then triggerWalk s else s
  | _, _ => s

/-- The remaining time r, present while an ONAIR item exists (R106). -/
def remainingTime (s : State) : Option Int :=
  (onairItem s).map (fun i => signedDiff s.day (plannedEnd s i) s.cfn)

end Sys2Proof.Machine
end

