-- ==== Sys2Proof/Machine/DisplayOps.lean ====
section
/-! DEFINITION. The Presenter Display Controller's shared operations: rendering (section 8.3), the urgent
cue lists and the crawl (section 8.4), and the transfer engine (section 8.5). -/

namespace Sys2Proof.Machine

/-! ### Rendering (R163 to R165) -/

/-- Text placed from the left, cut at the width (R164). -/
def leftField (w : Nat) (t : Text) : Text := t.take w ++ List.replicate (w - t.length) 0x20#8

/-- Text placed to the right, or '#' in every cell when it is too long (R164). -/
def rightField (w : Nat) (t : Text) : Text :=
  if w < t.length then List.replicate w 0x23#8 else List.replicate (w - t.length) 0x20#8 ++ t

/-- The code at a place of the crawl string: the text followed by three spaces, cyclic (R172). -/
def crawlCode (t : Text) (k : Nat) : Byte := t.getD (k % (t.length + 3)) 0x20#8

/-- The head cue in a CUE field: crawling when it is wider than the field (R172). -/
def cueField (w position : Nat) (t : Text) : Text :=
  if w < t.length then (List.range w).map (fun i => crawlCode t (position + i)) else leftField w t

/-- The next junction whose over/under a display shows: that of the last completed walk (R163), and none once SHOW_CLEAR
has freed its items, until the next walk completes (R185).  DEDUCED (note 41). -/
def shownJunction (s : State) : Option NextJunction := if s.engine.cleared then none else s.engine.nextJunction

/-- The codes one layout field shows (R164). -/
def fieldCodes (s : State) (d : Display) (f : LayoutField) : Text :=
  let blanks := List.replicate f.width 0x20#8
  match f.kind with
  | .text => leftField f.width f.text
  | .slugOnair => ((onairItem s).map (fun i => leftField f.width i.slug)).getD blanks
  | .slugNext => ((nextItem s).map (fun i => leftField f.width i.slug)).getD blanks
  | .note => ((onairItem s).map (fun i => leftField f.width i.note)).getD blanks
  | .cue => (d.cues.head?.map (fun c => cueField f.width d.crawlPosition c.text)).getD blanks
  | .remain =>
    ((remainingTime s).map (fun r => rightField f.width (minutesText (remainSeconds s.rtu.rate r)))).getD blanks
  | .overUnder =>
    ((shownJunction s).map
      (fun j => rightField f.width (minutesText (overUnderSeconds s.rtu.rate j.overUnder)))).getD blanks
  | .clock => rightField f.width (clockText s.rtu.rate s.cfn)

/-- A field's codes laid over a row (R163). -/
def overlay (row : List Byte) (column : Nat) (codes : List Byte) : List Byte :=
  (row.take column ++ codes ++ row.drop (column + codes.length)).take Config.rowCells

/-- One row of the target image: spaces with the fields laid over them (R163). -/
def renderRow (s : State) (d : Display) (fields : List LayoutField) : List Byte :=
  fields.foldl (fun row f => overlay row f.column (fieldCodes s d f)) (List.replicate Config.rowCells 0x20#8)

/-- The eight icons of a display, icon 0 first (R165). -/
def renderIcons (s : State) (n : Fin 4) (d : Display) : BitVec 8 :=
  BitVec.ofNat 8 (bitsValue [
    (onairItem s).any (fun i => i.presenters.getLsbD n.val),
    (nextItem s).any (fun i => i.presenters.getLsbD n.val),
    s.seq.mode == .holding,
    !d.cues.isEmpty,
    (remainingTime s).any (fun r => decide (r < 0)),
    s.engine.nextJunction.any
      (fun j => decide (signedDiff s.day j.target s.cfn ≤ (minuteFrames s.rtu.rate : Int))),
    s.rtu.lock != .locked,
    d.userIcon])

/-- The target image of a display as it is at this moment (R163). -/
def targetImage (s : State) (n : Fin 4) : TargetImage :=
  let d := s.displays[n]
  ⟨renderRow s d d.row0, renderRow s d d.row1, renderIcons s n d⟩

/-! ### The transfer engine (R174 to R178) -/

/-- The first and last differing columns of a row, if any cell differs (R174, R176). -/
def differingRun (target : List Byte) (sent : List (Option Byte)) : Option (Nat × Nat) :=
  let diffs := (target.zip sent).map (fun p => p.2 != some p.1)
  if diffs.any id then some (diffs.findIdx id, diffs.length - 1 - diffs.reverse.findIdx id) else none

/-- The unit that brings one row nearer its target (R176, step 5). -/
def rowUnit (d : Display) (r : Nat) (target : List Byte) (sent : List (Option Byte)) : Option DisplayUnit :=
  (differingRun target sent).map (fun (a, b) =>
    if d.sent.cursor = some (r, a) then .text r a ((target.drop a).take (b + 1 - a)) else .pos r a)

/-- Some icon differs: it is unknown or not at its target state (R174). -/
def iconsDiffer (d : Display) : Bool :=
  (List.range 8).any (fun n => d.sent.icons.getD n none != some (d.target.icons.getLsbD n))

/-- The lowest-numbered glyph of the dirty set (R176, step 4). -/
def lowestDirty (dirty : BitVec 8) : Option Nat := (List.range 8).find? (fun n => dirty.getLsbD n)

/-- The choice of the next unit (R176), with the mark or the dirty glyph that the choice takes. -/
def chooseUnit (d : Display) : Option (DisplayUnit × Display) :=
  if d.state = .fault then none
  else if d.clearPending then some (.clear, { d with clearPending := false })
  else if d.blankMark then
    if d.iconsOffPending then some (.icons 0#8, { d with iconsOffPending := false }) else none
  else
    match lowestDirty d.dirty with
    | some n => some (.glyph n (d.glyphs.getD n []), { d with dirty := d.dirty &&& ~~~(1#8 <<< n) })
    | none =>
      match rowUnit d 0 d.target.row0 d.sent.row0 with
      | some u => some (u, d)
      | none =>
        match rowUnit d 1 d.target.row1 d.sent.row1 with
        | some u => some (u, d)
        | none => if iconsDiffer d then some (.icons d.target.icons, d) else none

/-- A byte is due to start: it starts when BUSY is low, and waits when BUSY is high, which begins a busy
wait unless one is under way (R178). -/
def startByte (busy : Level) (now : Nat) (content : DisplayUnit) (left : Nat) (d : Display) : Display :=
  match busy with
  | .low => { d with flight := some ⟨content, left, false⟩ }
  | .high => { d with flight := some ⟨content, left, true⟩, busyWait := d.busyWait.or (some now) }

/-- While the line has no unit in flight the engine chooses the next one and starts it (R176, R178). -/
def driveLine (busy : Level) (now : Nat) (d : Display) : Display :=
  match d.flight with
  | some _ => d
  | none =>
    match chooseUnit d with
    | none => d
    | some (u, d') => startByte busy now u (unitBytes u).length d'

/-- The transfer engine of one display looks for work. -/
def drive (n : Fin 4) (s : State) : State := modifyDisplay n (driveLine s.busy[n] s.clock) s

/-- A render of one display (R163), after which its idle line chooses (R176). -/
def render (n : Fin 4) (s : State) : State :=
  drive n (modifyDisplay n (fun d => { d with target := targetImage s n }) s)

/-- A render of all four displays (R163). -/
def renderAll (s : State) : State := allDisplays.foldl (fun s n => render n s) s

/-- Cells of a sent row from a column on take a unit's codes (R177). -/
def writeCells (sent : List (Option Byte)) (column : Nat) (codes : List Byte) : List (Option Byte) :=
  sent.take column ++ codes.map some ++ sent.drop (column + codes.length)

/-- What the sent image takes from a completed unit (R177). -/
def completeUnit (u : DisplayUnit) (i : SentImage) : SentImage :=
  match u with
  | .clear => { i with cursor := some (0, 0) }
  | .pos r c => { i with cursor := some (r, c) }
  | .text r c codes =>
    let i' := if r = 0 then { i with row0 := writeCells i.row0 c codes }
      else { i with row1 := writeCells i.row1 c codes }
    { i' with cursor := some (r, c + codes.length) }
  | .glyph _ _ => i
  | .icons b => { i with icons := (List.range 8).map (fun n => some (b.getLsbD n)) }

/-- The sent image with every cell, every icon and the cursor unknown (R174). -/
def unknownImage : SentImage :=
  ⟨List.replicate Config.rowCells none, List.replicate Config.rowCells none, List.replicate 8 none, none⟩

/-- A full refresh is set up (R174). -/
def fullRefresh (d : Display) : Display :=
  { d with sent := unknownImage, dirty := 0xFF#8, clearPending := true }

/-- The state field of a display changes, and DISPLAY_STATE is raised (R184). -/
def raiseDisplayState (n : Fin 4) (s : State) : State :=
  raiseNotice .displayState 0 0 n.val s.displays[n].state.code s

/-! ### Urgent cue lists and the crawl (R167 to R172) -/

/-- The crawl runs: the head's text is longer than the width of some CUE field (R172). -/
def crawlRuns (d : Display) : Bool :=
  d.cues.head?.any (fun c =>
    (d.row0 ++ d.row1).any (fun f => f.kind == .cue && decide (f.width < c.text.length)))

/-- A reset of the crawl (R172). -/
def resetCrawl (day cfn : Nat) (d : Display) : Display :=
  { d with
    crawlPosition := 0
    nextCrawl := if crawlRuns d then some (addFrames day cfn d.crawlInterval) else none }

/-- The oldest entry becomes head: it takes its expiry (R167). -/
def headTakesExpiry (day cfn : Nat) : List Cue → List Cue
  | [] => []
  | c :: rest => { c with expiry := if 0 < c.hold then some (addFrames day cfn c.hold) else none } :: rest

/-- A change of head: the new head takes its expiry and the crawl is reset (R167, R172). -/
def changeHead (day cfn : Nat) (cues : List Cue) (d : Display) : Display :=
  resetCrawl day cfn { d with cues := headTakesExpiry day cfn cues }

/-- An entry joins the tail of a list with room; in an empty list it becomes head (R167). -/
def joinCue (day cfn : Nat) (c : Cue) (d : Display) : Display :=
  if d.cues.isEmpty then changeHead day cfn [c] d else { d with cues := d.cues ++ [c] }

/-- The head leaves the list and the next entry becomes head (R167). -/
def dropHead (day cfn : Nat) (d : Display) : Display := changeHead day cfn d.cues.tail d

/-- The notice a list entry leaves with (R184). -/
def raiseCue (kind : NoticeKind) (n : Fin 4) (c : Cue) (s : State) : State :=
  raiseNotice kind 0 c.tag n.val c.origin.code s

/-- An acknowledgement of a display's head, without the render that follows (R171). -/
def acknowledge (n : Fin 4) (s : State) : State :=
  match s.displays[n].cues with
  | [] => s
  | c :: _ => raiseCue .cueAcked n c (modifyDisplay n (dropHead s.day s.cfn) s)

/-- A CUE_TEXT firing reaches one display: a full list first discards its oldest entry with
CUE_DISPLACED (R169). -/
def deliverCue (c : Cue) (s : State) (n : Fin 4) : State :=
  match s.displays[n].cues with
  | [] => modifyDisplay n (joinCue s.day s.cfn c) s
  | oldest :: _ =>
    if s.displays[n].cues.length < Config.cueList then modifyDisplay n (joinCue s.day s.cfn c) s
    else
      raiseCue .cueDisplaced n oldest
        (modifyDisplay n (fun d => joinCue s.day s.cfn c (dropHead s.day s.cfn d)) s)

/-- Some displays are rendered, in ascending order (R163). -/
def renderThose (p : Fin 4 → Bool) (s : State) : State := (allDisplays.filter p).foldl (fun s n => render n s) s

/-! ### Tick work (R170 to R173, R179) -/

/-- The head's expiry is due (R170, step 1). -/
def expiryDue (s : State) (n : Fin 4) : Bool :=
  (s.displays[n].cues.head?.bind Cue.expiry).any s.due

/-- The next crawl frame is due (R170, step 2). -/
def crawlDue (s : State) (n : Fin 4) : Bool := s.displays[n].nextCrawl.any s.due

/-- The busy wait has lasted 500 ms or more at the tick (R179). -/
def busyOverdue (s : State) (n : Fin 4) : Bool :=
  s.displays[n].busyWait.any (fun t => decide (t + Config.busyLimit ≤ s.tick.moment))

/-- Expiry: the head is removed with CUE_EXPIRED when its expiry is due (R170). -/
def expireHead (n : Fin 4) (s : State) : State :=
  match s.displays[n].cues with
  | [] => s
  | c :: _ =>
    if expiryDue s n then raiseCue .cueExpired n c (modifyDisplay n (dropHead s.day s.cfn) s) else s

/-- Crawl: one step when the next crawl frame is due (R172). -/
def advanceCrawl (n : Fin 4) (s : State) : State :=
  if crawlDue s n then
    modifyDisplay n (fun d =>
      let l := ((d.cues.head?.map (fun c => c.text.length)).getD 0) + 3
      { d with
        crawlPosition := (d.crawlPosition + 1) % l
        nextCrawl := some (addFrames s.day s.cfn d.crawlInterval) }) s
  else s

/-- Busy test: a busy wait of 500 ms or more puts the display in FAULT (R179). -/
def busyTest (n : Fin 4) (s : State) : State :=
  if busyOverdue s n then
    raiseDisplayState n (modifyDisplay n (fun d =>
      { d with flight := none, busyWait := none, sent := unknownImage, state := .fault }) s)
  else s

/-- Some of a display's tick work is due. -/
def displayWorkDue (s : State) (n : Fin 4) : Bool := expiryDue s n || crawlDue s n || busyOverdue s n

/-- A jump moves the head's expiry and the next crawl frame (R173). -/
def shiftDisplay (day : Nat) (d : Int) (r : Display) : Display :=
  { r with
    cues := r.cues.map (fun c => { c with expiry := c.expiry.map (shiftFrame day d) })
    nextCrawl := r.nextCrawl.map (shiftFrame day d) }

/-- RATE_SET restates a display's frames against the new count (R173). -/
def restateDisplay (r : Display) : Display :=
  { r with
    cues := r.cues.map (fun c => { c with expiry := c.expiry.map (fun _ => c.hold) })
    nextCrawl := r.nextCrawl.map (fun _ => r.crawlInterval) }

end Sys2Proof.Machine
end

