-- ==== Sys2Proof/Machine/PortOps.lean ====
section
/-! DEFINITION. The Port Controller's shared operations: the offer test, taking a command, detaching, and the
frames it holds (sections 7.5 to 7.8). -/

namespace Sys2Proof.Machine

/-- A port with a serial line (R134). -/
def serialPort (p : Fin 16) : Bool := decide (4 ≤ p.val)

/-- The profile bound to a port (R134). -/
def boundProfile (s : State) (p : Fin 16) : Option Profile := s.ports[p].profile.map (fun k => s.profiles[k])

/-- Ports bound to a profile, ascending (R138). -/
def portsOfProfile (s : State) (k : Fin 8) : List (Fin 16) :=
  allPorts.filter (fun p => s.ports[p].profile == some k)

/-- Members of a group, ascending (R139). -/
def membersOf (s : State) (g : Fin 4) : List (Fin 16) := allPorts.filter (fun p => s.ports[p].group == some g)

/-- The signed difference from a recorded frame lies in [0, span): the spacing is not yet kept (R146). -/
def withinSpan (s : State) (f : Frame) (recorded : Frame) (span : Nat) : Bool :=
  let d := signedDiff s.day f recorded
  decide (0 ≤ d) && decide (d < (span : Int))

/-- Conditions 4 and 5 of the offer test, for a port in a group (R146). -/
def groupAllows (s : State) (p : Fin 16) (g : Fin 4) (f : Frame) : Bool :=
  let grp := s.groups[g]
  let otherEntry := grp.history.reverse.find? (fun e => e.2 != p)
  let gapKept := !(otherEntry.any (fun e => withinSpan s f e.1 grp.gap.effective))
  let inWindow := (grp.history.filter (fun e => withinSpan s f e.1 grp.window.effective)).length
  gapKept && (decide (grp.window.effective = 0) || decide (inWindow < grp.limit))

/-- The offer test: "take" (R146). -/
def offerTakes (s : State) (p : Fin 16) (verb : Kind) (f : Frame) : Bool :=
  let port := s.ports[p]
  port.state == .ready
    && !(port.lastIssue.any (fun l => withinSpan s f l (((boundProfile s p).map (·.portGap.effective)).getD 0)))
    && (verb != .serial .run
      || !(port.lastLoad.any (fun l => withinSpan s f l (((boundProfile s p).map (·.loadRun.effective)).getD 0))))
    && (match port.group with
      | none => true
      | some g => groupAllows s p g f)

/-- The five bytes of a serial command frame (R149). -/
def commandFrame (verb : Verb) (number channel : Nat) : List Byte :=
  let head := verb.lineCode :: beBytes 2 number ++ beBytes 1 channel
  head ++ [checkByte head]

/-- A command joins a group's issue history, and a ninth pushes out the oldest (R139). -/
def recordIssue (f : Frame) (p : Fin 16) (g : Group) : Group :=
  let h := g.history ++ [(f, p)]
  { g with history := h.drop (h.length - Config.groupHistory) }

/-- A port takes a command at frame `f` (R147). -/
def takeCommand (p : Fin 16) (f : Frame) (ref : StoryId × Tag) (a : Action) (s : State) : State :=
  let prof := boundProfile s p
  let s1 : State :=
    match s.ports[p].group with
    | none => s
    | some g => { s with groups := s.groups.set g (recordIssue f p s.groups[g]) }
  modifyPort p (fun r =>
    match a with
    | .serial verb _ number =>
      { r with
        lastIssue := some f
        lastLoad := if verb = .load then some f else r.lastLoad
        command := some {
          verb, number, issue := f, element := some ref
          deadline := addFrames s.day f ((prof.map (·.replyTimeout.effective)).getD 0) }
        state := .await
        transmit := commandFrame verb number ((prof.map (·.channel)).getD 0) }
    | _ =>
      { r with
        lastIssue := some f
        pulseEnd := some (addFrames s.day f ((prof.map (·.pulseWidth.effective)).getD 0))
        state := .pulsing }) s1

/-- A port state notice with the state entered (R159). -/
def raisePortState (p : Fin 16) (s : State) : State :=
  raiseNotice .portState 0 0 p.val s.ports[p].state.code s

/-! ### Detaching (R59) -/

/-- The command's element reference is removed if it names the element. -/
def Port.detachFrom (id : StoryId) (tag : Tag) (r : Port) : Port :=
  { r with command := r.command.map (fun c => if c.element = some (id, tag) then { c with element := none } else c) }

/-- Any outstanding command of an element loses its element reference (R59). -/
def detach (id : StoryId) (tag : Tag) (s : State) : State :=
  { s with ports := s.ports.map (Port.detachFrom id tag) }

/-- Every outstanding command loses its element reference (R40, R160). -/
def detachAll (s : State) : State :=
  { s with ports := s.ports.map (fun r =>
      { r with command := r.command.map (fun c => { c with element := none }) }) }

/-! ### Settling a command (R151, R152, R154) -/

/-- The port record after its command is settled: the command is gone, a failure raises the count, and the
port leaves AWAIT for READY or FAULT, or HOLDING for HELD. -/
def Port.settle (failure : Bool) (r : Port) : Port :=
  let count := if failure then min 3 (r.failures + 1) else 0
  { r with
    command := none
    failures := count
    state :=
      match r.state with
      | .holding => .held
      | .await => if count = 3 then .fault else .ready
      | st => st }

/-- A settled port raises PORT_STATE when it enters HELD or FAULT (R159). -/
def settlePort (p : Fin 16) (failure : Bool) (s : State) : State :=
  let s1 := modifyPort p (Port.settle failure) s
  if s1.ports[p].state = .held ∨ s1.ports[p].state = .fault then raisePortState p s1 else s1

/-- An attached command's element becomes FAILED with ELEMENT_FAILED and the MISSED flag; a detached
command changes no element (R151, R153, R159). -/
def failElement (p : Fin 16) (cause : Cause) (ref : Option (StoryId × Tag)) (s : State) : State :=
  match ref with
  | none => s
  | some (id, tag) =>
    setMissed (raiseNotice .elementFailed id tag p.val cause.code
      (modifyElement id tag (fun e => { e with state := .failed, cause := some cause }) s))

/-- A reply deadline is taken at a tick after the one at which the command was taken (R152). -/
def deadlineDue (s : State) (p : Fin 16) : Bool :=
  s.ports[p].command.any (fun c => s.due c.deadline && c.issue != s.cfn)

/-- The outstanding command times out when its deadline is due (R152). -/
def takeDeadline (p : Fin 16) (s : State) : State :=
  match s.ports[p].command with
  | none => s
  | some c => if deadlineDue s p then settlePort p true (failElement p .timeout c.element s) else s

/-- A pulse end frame is taken at a tick after the one of the take (R155). -/
def pulseEndDue (s : State) (p : Fin 16) : Bool :=
  s.ports[p].pulseEnd.any s.due && s.ports[p].lastIssue != some s.cfn

/-- The contact opens when its pulse end frame is due, and a PULSING port becomes READY (R155). -/
def takePulseEnd (p : Fin 16) (s : State) : State :=
  if pulseEndDue s p then
    modifyPort p (fun r =>
      { r with pulseEnd := none, state := if r.state = .pulsing then .ready else r.state }) s
  else s

/-! ### Jumps and rate changes (R156, R157) -/

/-- A jump moves every frame of a port (R156). -/
def shiftPort (day : Nat) (d : Int) (r : Port) : Port :=
  { r with
    lastIssue := r.lastIssue.map (shiftFrame day d)
    lastLoad := r.lastLoad.map (shiftFrame day d)
    command := r.command.map (fun c =>
      { c with issue := shiftFrame day d c.issue, deadline := shiftFrame day d c.deadline })
    pulseEnd := r.pulseEnd.map (shiftFrame day d) }

/-- A jump moves every entry of a group's issue history (R156). -/
def shiftGroup (day : Nat) (d : Int) (g : Group) : Group :=
  { g with history := g.history.map (fun e => (shiftFrame day d e.1, e.2)) }

/-- A profile's effective values at a rate (R136). -/
def Profile.derive (r : Rate) (k : Profile) : Profile :=
  { k with
    preroll := k.preroll.derive r
    loadRun := k.loadRun.derive r
    portGap := k.portGap.derive r
    replyTimeout := k.replyTimeout.derive r
    pulseWidth := k.pulseWidth.derive r }

/-- RATE_SET on a group: derived anew, its history restated (R157). -/
def restateGroup (r : Rate) (g : Group) : Group :=
  { g with gap := g.gap.derive r, window := g.window.derive r, history := g.history.map (fun e => (0, e.2)) }

/-- RATE_SET on a port, with the profiles already derived anew: every frame it holds is restated and an
outstanding command is kept (R157; DEDUCED against R134, note 36). -/
def restatePort (profiles : Vector Profile 8) (r : Port) : Port :=
  let prof := r.profile.map (fun k => profiles[k])
  { r with
    lastIssue := r.lastIssue.map (fun _ => 0)
    lastLoad := r.lastLoad.map (fun _ => 0)
    command := r.command.map (fun c =>
      { c with issue := 0, deadline := (prof.map (·.replyTimeout.effective)).getD 0 })
    pulseEnd := r.pulseEnd.map (fun _ => (prof.map (·.pulseWidth.effective)).getD 0) }

end Sys2Proof.Machine
end

