-- ==== Sys2Proof/Machine/ArmOps.lean ====
section
/-! DEFINITION. The Cue Scheduler's shared operations: leads, arming, the waiting order, withdrawal,
re-timing, the due scan and the ending of an item (chapter 6), and the orphaning of elements (section
3.4). -/

namespace Sys2Proof.Machine

/-! ### Leads and frames (R112, R113) -/

/-- The lead of a firing (R112). -/
def leadOf (s : State) (a : Action) : Nat :=
  match a with
  | .serial .load p _ => ((boundProfile s p).map (fun k => k.preroll.effective + k.loadRun.effective)).getD 0
  | .serial _ p _ => ((boundProfile s p).map (·.preroll.effective)).getD 0
  | .pulse _ => 0
  | .cueText _ _ _ => 0

/-- The effect frame of an element against an arm context (R113). -/
def effectFrame (day : Nat) (c : ArmContext) (e : Element) : Frame :=
  match e.anchor with
  | .fromStart => addFrames day c.start e.offset
  | .fromEnd => subFrames day c.stop e.offset

/-- An issue frame that equals CFN is set to CFN + 1 (R116). -/
def notNow (s : State) (issue : Frame) : Frame := if issue = s.cfn then addFrames s.day s.cfn 1 else issue

/-! ### The queue (R114 to R116) -/

/-- The entry goes directly behind the last one for which `p` holds, or first (R115). -/
def insertBehind (p : ArmEntry → Bool) (e : ArmEntry) : List ArmEntry → List ArmEntry
  | [] => [e]
  | x :: rest => if (x :: rest).any p then x :: insertBehind p e rest else e :: x :: rest

/-- An entry is placed with the next arming sequence number (R114, R115). -/
def placeEntry (e : ArmEntry) (s : State) : State :=
  let d := signedDiff s.day e.issue s.cfn
  let behind := fun (x : ArmEntry) => decide (signedDiff s.day x.issue s.cfn ≤ d)
  { s with sched := {
      queue := insertBehind behind { e with seq := s.sched.counter } s.sched.queue
      counter := (s.sched.counter + 1) % 65536 } }

/-- The entry belongs to the element. -/
def ArmEntry.isFor (id : StoryId) (tag : Tag) (e : ArmEntry) : Bool := e.story == id && e.tag == tag

/-- The element's entry leaves the queue. -/
def removeEntry (id : StoryId) (tag : Tag) (s : State) : State :=
  { s with sched := { s.sched with queue := s.sched.queue.filter (fun e => !e.isFor id tag) } }

/-- The element's entry (R114). -/
def findEntry (s : State) (id : StoryId) (tag : Tag) : Option ArmEntry :=
  s.sched.queue.find? (fun e => e.isFor id tag)

/-- The queue has room (R116). -/
def queueHasRoom (s : State) : Bool := decide (s.sched.queue.length < Config.armQueue)

/-- The entry of an element armed against a context (R116). -/
def newEntry (s : State) (id : StoryId) (c : ArmContext) (e : Element) : ArmEntry :=
  let effect := effectFrame s.day c e
  { story := id, tag := e.tag, port := e.action.port, verb := e.action.kind, effect
    issue := notNow s (subFrames s.day effect (leadOf s e.action)), seq := 0, deferred := false }

/-- Arming: an entry is placed and the element becomes ARMED, or with the queue full the element becomes
WAITING (R116).  An element of an item without an arm context is not armed (R119). -/
def armElement (id : StoryId) (tag : Tag) (s : State) : State :=
  match findItem s id with
  | none => s
  | some i =>
    match i.context, i.findElement tag with
    | some c, some e =>
      if queueHasRoom s then
        placeEntry (newEntry s id c e) (modifyElement id tag (fun e => { e with state := .armed }) s)
      else modifyElement id tag (fun e => { e with state := .waiting }) s
    | _, _ => s

/-- The tags of an item's elements that are in one of some states, in element-list order. -/
def tagsIn (s : State) (id : StoryId) (p : ElementState → Bool) : List Tag :=
  (((findItem s id).map Item.elements).getD []).filterMap (fun e => if p e.state then some e.tag else none)

/-- The item's IDLE elements are armed in element-list order (R120, R122, R123). -/
def armIdle (id : StoryId) (s : State) : State :=
  (tagsIn s id (· == .idle)).foldl (fun s t => armElement id t s) s

/-! ### The waiting order (R117) -/

/-- The WAITING elements of one item, in element-list order. -/
def waitingOf (i : Item) : List (StoryId × Element) :=
  (i.elements.filter (fun e => e.state == .waiting)).map (fun e => (i.id, e))

/-- The waiting order (R117). -/
def waitingOrder (s : State) : List (StoryId × Element) :=
  ((onairItem s).toList ++ (nextItem s).toList).flatMap waitingOf

/-- Waiting elements are armed into the room there is, first in the waiting order first (R117). -/
def fillFromWaiting (s : State) : State :=
  (waitingOrder s).foldl (fun s w => if queueHasRoom s then armElement w.1 w.2.tag s else s) s

/-! ### Withdrawal and orphaning (R118, R58) -/

/-- One ARMED or WAITING element leaves the queue or the waiting order (R118). -/
def withdrawElement (id : StoryId) (tag : Tag) (s : State) : State :=
  removeEntry id tag (modifyElement id tag Element.toIdle s)

/-- ARMED or WAITING. -/
def ElementState.scheduled : ElementState → Bool
  | .waiting => true
  | .armed => true
  | _ => false

/-- ISSUED or DONE. -/
def ElementState.sentOut : ElementState → Bool
  | .issued => true
  | .done => true
  | _ => false

/-- A whole item is withdrawn: its ARMED and WAITING elements become IDLE, its entries leave the queue and
its arm context is cleared (R118). -/
def withdrawItem (id : StoryId) (s : State) : State :=
  let s1 := (tagsIn s id ElementState.scheduled).foldl (fun s t => withdrawElement id t s) s
  modifyItem id (fun i => { i with context := none }) s1

/-- One element is orphaned: detached if it was ISSUED, IDLE again, and reported (R58, R60). -/
def orphanElement (id : StoryId) (tag : Tag) (s : State) : State :=
  match findElement s id tag with
  | none => s
  | some e =>
    let s1 := if e.state = .issued then detach id tag s else s
    raiseNotice .elementOrphaned id tag (portField e.action.port) e.state.code
      (modifyElement id tag Element.toIdle s1)

/-- The item's ISSUED and DONE elements are orphaned in element-list order (R58, R60). -/
def orphanItem (id : StoryId) (s : State) : State :=
  (tagsIn s id ElementState.sentOut).foldl (fun s t => orphanElement id t s) s

/-! ### Re-timing (R120 to R123) -/

/-- An entry keeps its lead, takes its new effect and issue frames and is placed again.  With `sweep`, an
issue frame already due becomes CFN + 1 (R120, R121). -/
def retimeEntry (sweep : Bool) (effect : Frame) (e : ArmEntry) (s : State) : State :=
  let lead := subFrames s.day e.effect e.issue
  let issue := subFrames s.day effect lead
  let issue' := if sweep && s.due issue then addFrames s.day s.cfn 1 else notNow s issue
  placeEntry { e with effect, issue := issue', deferred := false } (removeEntry e.story e.tag s)

/-- The element's entry is re-timed against a context if its effect frame changes (R120, R122, R123), be it because
the context moved or because an answer BUSY had set the frame (note 40). -/
def retimeElement (id : StoryId) (c : ArmContext) (s : State) (e : Element) : State :=
  match findEntry s id e.tag with
  | none => s
  | some q =>
    let effect := effectFrame s.day c e
    if effect = q.effect then s else retimeEntry false effect q s

/-- The item's arm context is replaced, and each of its entries whose effect frame changes is re-timed in
element-list order; `p` says which elements. -/
def retimeItem (p : Element → Bool) (id : StoryId) (c : ArmContext) (s : State) : State :=
  let s1 := modifyItem id (fun i => { i with context := some c }) s
  ((((findItem s id).map Item.elements).getD []).filter p).foldl (retimeElement id c) s1

/-- The element stands against its item's end. -/
def Element.endAnchored (e : Element) : Bool := e.anchor == .fromEnd

/-- At an accepted TAKE the ONAIR item's END-anchored entries are re-timed to the new end in queue order,
with the sweep (R120 step 1, R121). -/
def sweepToEnd (id : StoryId) (stop : Frame) (s : State) : State :=
  let s1 := modifyItem id (fun i => { i with context := i.context.map (fun c => { c with stop }) }) s
  s.sched.queue.foldl (fun s q =>
    if q.story = id then
      match findElement s id q.tag with
      | some e => if e.endAnchored then retimeEntry true (subFrames s.day stop e.offset) q s else s
      | none => s
    else s) s1

/-! ### The due scan (R124 to R127) -/

/-- The element becomes MISSED with a cause (R33, R124). -/
def missElement (id : StoryId) (tag : Tag) (cause : Cause) (s : State) : State :=
  modifyElement id tag (fun e => { e with state := .missed, cause := some cause }) s

/-- ELEMENT_MISSED is raised for a MISSED element, and the MISSED flag is set (R130). -/
def raiseMissed (id : StoryId) (tag : Tag) (s : State) : State :=
  match findElement s id tag with
  | none => s
  | some e =>
    setMissed (raiseNotice .elementMissed id tag (portField e.action.port) ((e.cause.map Cause.code).getD 0) s)

/-- An issued or delivered element takes its new state and its lateness, and has no cause (R33, R125, R126). -/
def settleIssue (id : StoryId) (tag : Tag) (st : ElementState) (issue : Frame) (s : State) : State :=
  modifyElement id tag (fun e => { e with state := st, lateness := some (recordedLateness s issue) }) s

/-- The deferred mark of the element's entry is set (R114, R125). -/
def deferEntry (id : StoryId) (tag : Tag) (s : State) : State :=
  { s with sched := { s.sched with
      queue := s.sched.queue.map (fun e => if e.isFor id tag then { e with deferred := true } else e) } }

/-- Where a due scan stands: the state, the ports with an entry answered "not yet" or held back earlier in
the scan, the elements it made MISSED, and the displays it delivered to. -/
structure ScanState where
  state : State
  heldPorts : List (Fin 16)
  missed : List (StoryId × Tag)
  delivered : List (Fin 4)

/-- A due CUE_TEXT entry is delivered to its displays (R126). -/
def deliverEntry (q : ArmEntry) (s : State) : State :=
  match findElement s q.story q.tag with
  | none => removeEntry q.story q.tag s
  | some e =>
    match e.action with
    | .cueText displays text hold =>
      settleIssue q.story q.tag .done q.issue
        (removeEntry q.story q.tag
          ((displaysOf displays).foldl (deliverCue ⟨text, .element, e.tag, hold, none⟩) s))
    | _ => removeEntry q.story q.tag s

/-- The displays that a CUE_TEXT entry's element names (R126). -/
def entryDisplays (q : ArmEntry) (s : State) : List (Fin 4) :=
  match (findElement s q.story q.tag).map Element.action with
  | some (.cueText displays _ _) => displaysOf displays
  | _ => []

/-- A due entry is offered to its port (R125): taken, or deferred. -/
def offerEntry (q : ArmEntry) (p : Fin 16) (c : ScanState) : ScanState :=
  match findElement c.state q.story q.tag with
  | none => { c with state := removeEntry q.story q.tag c.state }
  | some e =>
    if offerTakes c.state p q.verb c.state.cfn then
      let s1 := takeCommand p c.state.cfn (q.story, q.tag) e.action (removeEntry q.story q.tag c.state)
      { c with state := settleIssue q.story q.tag (if q.verb = .pulse then .done else .issued) q.issue s1 }
    else { c with state := deferEntry q.story q.tag c.state, heldPorts := p :: c.heldPorts }

/-- A due entry's element becomes MISSED and its entry leaves the queue (R124). -/
def missEntry (q : ArmEntry) (cause : Cause) (c : ScanState) : ScanState :=
  { c with
    state := missElement q.story q.tag cause (removeEntry q.story q.tag c.state)
    missed := c.missed ++ [(q.story, q.tag)] }

/-- A due entry is taken through the first case of R124 that applies. -/
def treatEntry (c : ScanState) (q : ArmEntry) : ScanState :=
  match q.port with
  | none => { c with state := deliverEntry q c.state, delivered := c.delivered ++ entryDisplays q c.state }
  | some p =>
    if c.state.ports[p].state = .unbound then missEntry q .unbound c
    else if ((((boundProfile c.state p).map (·.lateTolerance)).getD 0 : Nat) : Int)
        < signedDiff c.state.day c.state.cfn q.issue then missEntry q .late c
    else if p ∈ c.heldPorts then { c with state := deferEntry q.story q.tag c.state }
    else offerEntry q p c

/-- One entry of a scan: treated if due, with ELEMENT_MISSED raised at once for a missed one (R124, R130). -/
def scanEntry (c : ScanState) (q : ArmEntry) : ScanState :=
  if c.state.due q.issue then
    let c' := treatEntry { c with missed := [] } q
    { c' with state := c'.missed.foldl (fun s m => raiseMissed m.1 m.2 s) c'.state }
  else c

/-- The due scan of a tick (R124), the waiting elements armed into the room it freed (R117), and the
displays it delivered to rendered (R163). -/
def scanQueue (s : State) : State :=
  let c := s.sched.queue.foldl scanEntry ⟨s, [], [], []⟩
  renderThose c.delivered.contains (fillFromWaiting c.state)

/-! ### Ending an item (R128, R84) -/

/-- The item's remaining entries and WAITING elements leave, those elements become MISSED with cause ENDED,
and its arm context is cleared (R128). -/
def missRemaining (id : StoryId) (s : State) : State :=
  let s1 := (tagsIn s id ElementState.scheduled).foldl
    (fun s t => missElement id t .ended (removeEntry id t s)) s
  modifyItem id (fun i => { i with context := none }) s1

/-- ELEMENT_MISSED for those of the given elements that are now MISSED, in element-list order (R130). -/
def reportMissed (id : StoryId) (before : List Tag) (s : State) : State :=
  ((tagsIn s id (· == .missed)).filter (fun t => before.contains t)).foldl
    (fun s t => raiseMissed id t s) s

/-- An item ends by an advance: its due entries are treated as the due scan would treat them, the rest are
missed with cause ENDED, and the notices follow in element-list order (R128, R130). -/
def endItem (id : StoryId) (s : State) : State :=
  let before := tagsIn s id ElementState.scheduled
  let mine := s.sched.queue.filter (fun q => q.story == id && s.due q.issue)
  let c := mine.foldl treatEntry ⟨s, [], [], []⟩
  reportMissed id before (missRemaining id c.state)

/-- SHOW_STOP ends the ONAIR item without treating due entries (R84). -/
def stopItem (id : StoryId) (s : State) : State :=
  let before := tagsIn s id ElementState.scheduled
  reportMissed id before (missRemaining id s)

/-! ### BUSY (R129) -/

/-- The item is ONAIR, TAKING or an armed STANDBY (R119). -/
def Item.isArmed (i : Item) : Bool :=
  i.state == .onair || i.state == .taking || (i.state == .standby && i.context.isSome)

/-- An element whose command was answered BUSY is re-armed at the command's issue frame, or becomes FAILED
with cause BUSY (R129, R130). -/
def rearmBusy (p : Fin 16) (cmd : Outstanding) (id : StoryId) (tag : Tag) (s : State) : State :=
  match findItem s id, findElement s id tag with
  | some i, some e =>
    if i.isArmed && queueHasRoom s then
      let entry : ArmEntry :=
        { story := id, tag, port := some p, verb := .serial cmd.verb, issue := cmd.issue
          effect := addFrames s.day cmd.issue (leadOf s (.serial cmd.verb p cmd.number))
          seq := 0, deferred := false }
      placeEntry entry (modifyElement id tag (fun e => { e with state := .armed }) s)
    else
      setMissed (raiseNotice .elementFailed id tag (portField e.action.port) Cause.busy.code
        (modifyElement id tag (fun e => { e with state := .failed, cause := some .busy }) s))
  | _, _ => s

end Sys2Proof.Machine
end

