-- ==== Sys2Proof/Machine/ShowOps.lean ====
section
/-! DEFINITION. The Show Sequencer's shared operations: the standby choice, the take, the entry to air,
auto-follow, junction capture and the sequencer's work at a tick (chapter 4). -/

namespace Sys2Proof.Machine

/-! ### Notices and notifications -/

/-- How the STANDBY was chosen: the value of STANDBY_SET (R88). -/
def standbyReason (s : State) : Nat :=
  match standbyItem s with
  | none => 3
  | some i => if i.captured then 2 else if i.nominated then 1 else 0

/-- STANDBY_SET with the slot as it stands (R69, R88). -/
def raiseStandby (s : State) : State := raiseNotice .standbySet ((standbyId s).getD 0) 0 255 (standbyReason s) s

/-- STANDBY_SET, if the slot's item differs from the one it held before (R76, R80). -/
def raiseStandbyIfMoved (before : Option StoryId) (s : State) : State :=
  if standbyId s = before then s else raiseStandby s

/-- The show state becomes `m`, with SHOW_STATE when that is a change (R88). -/
def setShow (m : ShowState) (s : State) : State :=
  if s.seq.mode = m then s
  else raiseNotice .showState 0 0 m.code s.seq.mode.code { s with seq := { s.seq with mode := m } }

/-- The end of a sequencer event: the freed room goes to the waiting order (R117), and the displays are
notified, which renders them (R163). -/
def closeShowEvent (s : State) : State := renderAll (fillFromWaiting s)

/-! ### The standby choice (R68, R69) -/

/-- The automatic rule: the first item after the cursor that is PENDING and not FLOAT, the present STANDBY
standing in for the PENDING item it would be (R62, R68, R71). -/
def automaticChoice (s : State) : Option StoryId :=
  ((afterCursor s).find? (fun i => (i.state == .pending || i.state == .standby) && !i.float)).map Item.id

/-- The nomination, while the item it names can stand by (R68). -/
def liveNomination (s : State) : Option StoryId :=
  s.seq.nomination.filter (fun id =>
    (findItem s id).any (fun i => i.state == .pending || i.state == .standby))

/-- The item leaves the STANDBY slot other than by being taken: PENDING with both marks clear, withdrawn and
orphaned (R69). -/
def leaveStandby (id : StoryId) (s : State) : State :=
  orphanItem id (withdrawItem id
    (modifyItem id (fun i => { i with state := .pending, nominated := false, captured := false }) s))

/-- The item takes the STANDBY slot. -/
def enterStandby (nominated captured : Bool) (id : StoryId) (s : State) : State :=
  modifyItem id (fun i => { i with state := .standby, nominated, captured }) s

/-- The standby choice: not made while an item is TAKING or a captured junction keeps the slot; otherwise
the nominated item, or else the automatic choice, fills the slot (R68, R69). -/
def chooseStandby (s : State) : State :=
  if (takingItem s).isSome || standbyCaptured s then s
  else
    let nominated := (liveNomination s).isSome
    let chosen := (liveNomination s).or (automaticChoice s)
    let s1 :=
      match standbyId s with
      | some old => if chosen = some old then s else leaveStandby old s
      | none => s
    match chosen with
    | some id => enterStandby nominated false id s1
    | none => s1

/-- A choice that moves the slot is reported, triggers a walk and notifies the displays; one that gives the
present STANDBY does none of these (R69). -/
def announceStandby (before : Option StoryId) (s : State) : State :=
  if standbyId s = before then s else closeShowEvent (triggerWalk (raiseStandby s))

/-- A reselection request of the store (R62); `before` is the STANDBY the request is compared against. -/
def reselect (before : Option StoryId) (s : State) : State :=
  if (takingItem s).isSome || s.seq.nomination.isSome || standbyCaptured s then announceStandby before s
  else announceStandby before (chooseStandby s)

/-! ### The take (R73 to R75) -/

/-- The take lead of an item (R74). -/
def takeLead (s : State) (i : Item) : Nat :=
  let leads := (i.elements.filter (fun e => !e.endAnchored && !e.state.sentOut)).map
    (fun e => ((leadOf s e.action : Nat) : Int) - e.offset)
  min Config.takeLeadMax (leads.foldl max 0).toNat

/-- What a TAKE comes to (R73). -/
inductive TakeOutcome where
  | ignoredGuard
  | ignoredTaking (id : StoryId)
  | refusedCaptured (id : StoryId)
  | refusedEmpty
  | accepted (i : Item)
  deriving DecidableEq, Repr

/-- The take guard still runs: CFN - LA lies in [0, take guard) (R73). -/
def guardRuns (s : State) : Bool :=
  s.seq.lastAdvance.any (fun la => withinSpan s s.cfn la s.seq.takeGuard)

/-- The checks of a TAKE, in order (R73). -/
def judgeTake (s : State) : TakeOutcome :=
  if guardRuns s then .ignoredGuard
  else
    match takingItem s, standbyItem s with
    | some t, _ => .ignoredTaking t.id
    | none, some i => if i.captured then .refusedCaptured i.id else .accepted i
    | none, none => .refusedEmpty

/-- The nomination ends if it names the item (R75, R76). -/
def endNomination (id : StoryId) (s : State) : State :=
  if s.seq.nomination = some id then { s with seq := { s.seq with nomination := none } } else s

/-- The scheduler's part of an accepted TAKE (R120). -/
def scheduleTake (id : StoryId) (af : Frame) (duration : Nat) (s : State) : State :=
  let s1 := ((onairId s).map (fun o => sweepToEnd o af s)).getD s
  armIdle id (retimeItem (fun _ => true) id ⟨af, addFrames s.day af duration⟩ s1)

/-- An accepted TAKE of the STANDBY item (R75). -/
def acceptTake (i : Item) (s : State) : State :=
  let af := addFrames s.day s.cfn (takeLead s i)
  let s1 := endNomination i.id (modifyItem i.id
    (fun i => { i with state := .taking, nominated := false, captured := false, airFrame := some af }) s)
  let s2 : State := { s1 with seq := { s1.seq with lastAdvance := some s1.cfn } }
  closeShowEvent (setShow .running (raiseStandby (triggerWalk (scheduleTake i.id af i.duration s2))))

/-! ### The entry to air (R76) -/

/-- By which path an item enters air: the value of ITEM_ONAIR (R88). -/
inductive AirPath where
  | take | autoFollow | junction
  deriving DecidableEq, Repr

def AirPath.code : AirPath → Nat
  | .take => 0
  | .autoFollow => 1
  | .junction => 2

/-- The outgoing item ends by an advance at frame `ef` (R76, R128). -/
def finishOutgoing (value : Nat) (ef : Frame) (id : StoryId) (s : State) : State :=
  endItem id (raiseNotice .itemDone id 0 255 value
    (modifyItem id (fun i => { i with state := .done, endFrame := some ef }) s))

/-- The items a junction take drops: below the outgoing item and above the junction, PENDING and not FLOAT
(R82). -/
def skippedItems (outgoing junction : StoryId) (items : List Item) : List StoryId :=
  let below := itemsAfter outgoing items
  if below.any (fun i => i.id == junction) then
    ((below.takeWhile (fun i => i.id != junction)).filter waitsForAir).map Item.id
  else []

/-- An item is dropped; the junction's story id fills the places of tag, port and value (R82, R217). -/
def dropItem (junction : StoryId) (s : State) (id : StoryId) : State :=
  raiseNotice .itemDropped id (junction / 16777216 % 256) (junction / 65536 % 256) (junction % 65536)
    (modifyItem id (fun i => { i with state := .dropped }) s)

/-- The scheduler's part of an entry to air (R122). -/
def scheduleEntry (id : StoryId) (s : State) : State :=
  match findItem s id with
  | none => s
  | some i => armIdle id (retimeItem (fun _ => true) id ⟨i.airFrame.getD 0, plannedEnd s i⟩ s)

/-- The item enters air with AF `af` (R76): it becomes ONAIR, the outgoing item ends, skipped items are
dropped at a junction take, and the standby choice is made.  DESIGN CHOICE: STANDBY_SET is raised against the slot
right before the entry, which in a late capture is the junction itself (R81, note 39). -/
def enterAir (path : AirPath) (id : StoryId) (af : Frame) (s : State) : State :=
  let before := standbyId s
  let outgoing := onairId s
  let dropped :=
    match path, outgoing with
    | .junction, some o => skippedItems o id s.items
    | _, _ => []
  let s1 := outgoing.elim s (fun o =>
    modifyItem o (fun i => { i with state := .done, endFrame := some af }) s)
  let s2 := endNomination id (modifyItem id
    (fun i => { i with state := .onair, nominated := false, captured := false, airFrame := some af }) s1)
  let s3 : State := { s2 with seq := { s2.seq with
    cursor := some id, lastAdvance := some s2.cfn, overdue := false } }
  let s4 := raiseNotice .itemOnair id 0 255 path.code s3
  let s5 := outgoing.elim s4 (fun o => finishOutgoing 0 af o s4)
  let s6 := scheduleEntry id s5
  let s7 := dropped.foldl (dropItem id) s6
  closeShowEvent (triggerWalk (raiseStandbyIfMoved before (chooseStandby s7)))

/-! ### The steps of a tick (R72) -/

/-- Step 1: the TAKING item whose AF is due (R77). -/
def airFrameDue (s : State) : Option Item := (takingItem s).filter (fun i => i.airFrame.any s.due)

/-- Step 2: the captured STANDBY whose TGT is due (R81). -/
def junctionDue (s : State) : Option Item :=
  (standbyItem s).filter (fun i => i.captured && i.target.any s.due)

/-- Step 3: the AUTO item that was ONAIR before the tick and still is, whose planned end is due in RUNNING
with no item TAKING (R72, R78). -/
def followDue (s : State) : Option Item :=
  (onairItem s).filter (fun i =>
    s.tick.onairBefore == some i.id && i.auto && s.seq.mode == .running && (takingItem s).isNone
      && s.due (plannedEnd s i))

/-- Step 1 (R77). -/
def stepAirFrame (s : State) : State :=
  match airFrameDue s with
  | none => s
  | some i => enterAir .take i.id (i.airFrame.getD 0) s

/-- Step 2 (R81). -/
def stepJunction (s : State) : State :=
  match junctionDue s with
  | none => s
  | some i => enterAir .junction i.id (i.target.getD 0) s

/-- Auto-follow with an empty STANDBY slot: the item ends and the show becomes ENDED (R78). -/
def endShow (i : Item) (ef : Frame) (s : State) : State :=
  closeShowEvent (setShow .ended (triggerWalk (finishOutgoing 1 ef i.id s)))

/-- Step 3 (R78). -/
def stepFollow (s : State) : State :=
  match followDue s with
  | none => s
  | some i =>
    let frame := if s.seq.overdue then s.cfn else plannedEnd s i
    match standbyItem s with
    | none => endShow i frame s
    | some n => if n.captured then s else enterAir .autoFollow n.id frame s

/-- Step 4: the overdue mark of the ONAIR item (R78). -/
def stepOverdue (s : State) : State :=
  match onairItem s with
  | none => s
  | some i => { s with seq := { s.seq with overdue := s.due (plannedEnd s i) } }

/-! ### Junction capture (R79 to R81) -/

/-- The items of the last completed walk's path that follow the ONAIR item and have not been retired since, as the
store holds them now; an item inserted since under the id of a retired one is none of them (R79).  DESIGN
CHOICE: when that path does not hold the ONAIR item, every item of it counts (note 38). -/
def capturePath (s : State) : List Item :=
  let ids := s.engine.path
  let tail :=
    match onairId s with
    | none => ids
    | some o => if ids.contains o then (ids.dropWhile (· != o)).tail else ids
  tail.filterMap (findItem s)

/-- The junction the capture test considers (R79). -/
def captureCandidate (s : State) : Option Item :=
  (capturePath s).find? (fun i => i.junction && (i.state == .pending || i.state == .standby))

/-- The capture frame of a junction (R79). -/
def captureFrame (s : State) (j : Item) : Frame :=
  subFrames s.day (j.target.getD 0) (max (takeLead s j) s.seq.margin)

/-- The junction that the capture test captures now (R79). -/
def captureDue (s : State) : Option Item :=
  if (s.seq.mode == .running || s.seq.mode == .holding) && (takingItem s).isNone then
    (captureCandidate s).filter (fun j => !j.captured && s.due (captureFrame s j))
  else none

/-- The capture of a junction, without what a late one adds and without the end of the event (R80, R122). -/
def captureJunction (j : Item) (s : State) : State :=
  let before := standbyId s
  let lead := takeLead s j
  let s1 : State := { s with seq := { s.seq with nomination := none } }
  let s2 :=
    match before with
    | some old => if old = j.id then s1 else leaveStandby old s1
    | none => s1
  let s3 := raiseStandbyIfMoved before (enterStandby false true j.id s2)
  let s4 := raiseNotice .junctionCaptured j.id 0 255 lead s3
  let tgt := j.target.getD 0
  triggerWalk (armIdle j.id (retimeItem (fun _ => true) j.id ⟨tgt, addFrames s.day tgt j.duration⟩ s4))

/-- The capture test: a junction whose capture frame is due is captured, and one whose target is due too
goes to air in the same event, whose end is the entry's (R79 to R81, R117). -/
def captureTest (s : State) : State :=
  match captureDue s with
  | none => s
  | some j =>
    let s1 := captureJunction j s
    let tgt := j.target.getD 0
    if s.due tgt then
      enterAir .junction j.id s.cfn
        (raiseNotice .junctionLate j.id 0 255 (min 65535 (signedDiff s.day s.cfn tgt).toNat) s1)
    else closeShowEvent s1

/-! ### The sequencer's tick work, step by step (R72) -/

/-- Whether the step the sequencer stands at has something to do. -/
def phaseDue (s : State) : Bool :=
  match s.tick.phase with
  | .airFrame => (airFrameDue s).isSome
  | .junction => (junctionDue s).isSome
  | .follow => (followDue s).isSome && !standbyCaptured s
  | .capture => (captureDue s).isSome
  | .finished => false

/-- The step the sequencer stands at is taken; steps 3 and 4 go together. -/
def takePhase (s : State) : State :=
  let at_ := fun (p : TickPhase) (s : State) => { s with tick := { s.tick with phase := p } }
  match s.tick.phase with
  | .airFrame => at_ .junction (stepAirFrame s)
  | .junction => at_ .follow (stepJunction s)
  | .follow => at_ .capture (stepOverdue (stepFollow s))
  | .capture => at_ .finished (captureTest s)
  | .finished => s

/-- Steps with nothing to do are passed until one has something to do. -/
def passPhases : Nat → State → State
  | 0, s => s
  | k + 1, s => if phaseDue s then s else passPhases k (takePhase s)

/-- The sequencer goes on to its next step with something to do. -/
def settlePhases (s : State) : State := passPhases 4 s

/-- Every step still to be taken is taken, in order (R72). -/
def finishPhases (s : State) : State := takePhase (takePhase (takePhase (takePhase s)))

/-- A row that names one step of R72: when that step is the next with something to do, it is taken and the
sequencer has begun; elsewhere the event does not occur. -/
def takeNamedPhase (p : TickPhase) (s : State) : State :=
  let s1 := settlePhases s
  if s1.tick.phase = p ∧ phaseDue s1 = true then
    let s2 := takePhase s1
    { s2 with tick := { s2.tick with begun := true } }
  else s

/-- Before another block takes its part of the tick, the sequencer's steps are completed if it has begun them, so
that the part comes before all of them or after all of them (R72, R105). -/
def settleSteps (s : State) : State := if s.tick.begun then finishPhases s else s

/-! ### The walk completion (R104, R123) -/

/-- The start of the STANDBY, where it is determined (R119). -/
def determinedStart (s : State) : Option Frame :=
  match standbyItem s with
  | none => none
  | some i =>
    if i.captured && (s.seq.mode == .running || s.seq.mode == .holding) then i.target
    else if s.seq.mode == .running && (onairItem s).any Item.auto then i.projectedStart
    else none

/-- The end of the ONAIR item's arm context (R113). -/
def onairEnd (s : State) (i : Item) : Frame :=
  match takingItem s with
  | some t => t.airFrame.getD 0
  | none => plannedEnd s i

/-- An ONAIR or TAKING item's context takes its end, and its END-anchored entries are re-timed if it moved
(R123, steps 1 and 2). -/
def updateEnd (i : Item) (stop : Frame) (s : State) : State :=
  if i.context.map ArmContext.stop = some stop then s
  else retimeItem Element.endAnchored i.id ⟨((i.context.map ArmContext.start).getD (i.airFrame.getD 0)), stop⟩ s

/-- The STANDBY's arming at a walk completion (R123, step 3).  DESIGN CHOICE: an entry that an answer BUSY armed again
stands at an effect frame of its own (R129), and is re-timed here like any other whose effect frame is not its
context's (note 40). -/
def updateStandby (s : State) : State :=
  match standbyItem s with
  | none => s
  | some i =>
    match determinedStart s with
    | some start =>
      let c : ArmContext := ⟨start, addFrames s.day start i.duration⟩
      let s1 := retimeItem (fun _ => true) i.id c s
      if i.context.isSome then s1 else armIdle i.id s1
    | none => if i.context.isSome then withdrawItem i.id s else s

/-- The scheduler's part of a walk completion (R123), before the room it freed is filled (R117). -/
def retimeAtCompletion (s : State) : State :=
  let s1 := (onairItem s).elim s (fun i => updateEnd i (onairEnd s i) s)
  let s2 := (takingItem s1).elim s1 (fun i => updateEnd i (plannedEnd s1 i) s1)
  updateStandby s2

/-- A walk completes: results, scheduler, capture test, then the room freed goes to the waiting order (R117) and
the displays are rendered (R104). -/
def completeWalk (s : State) : State := closeShowEvent (captureTest (retimeAtCompletion (writeWalk s)))

end Sys2Proof.Machine
end

