-- ==== Sys2Proof/Machine/PanelOps.lean ====
section
/-! DEFINITION. The Panel Input Unit's sampling and edges (sections 9.2 and 9.3), and the sequencer's hold
and release, which a panel and the host share (R83). -/

namespace Sys2Proof.Machine

/-- The level that a sampled set of lines gives input `n` (bit set: HIGH). -/
def lineLevel (lines : BitVec 8) (n : Fin 8) : Level := if lines.getLsbD n.val then .high else .low

/-- One input's record at a tick (R187).  A completed count is left for the edge to take (R188). -/
def sampleInput (l : Level) (r : PanelInput) : PanelInput :=
  if l = r.level then { r with lastSample := some l, candidate := 0 }
  else if r.candidate < r.debounce then { r with lastSample := some l, candidate := r.candidate + 1 }
  else { r with lastSample := some l, edgeDue := true }

/-- The eight lines are sampled at a tick (R187). -/
def sampleInputs (lines : BitVec 8) (s : State) : State :=
  { s with inputs := Vector.ofFn (fun n : Fin 8 => sampleInput (lineLevel lines n) s.inputs[n]) }

/-- The level an edge that is due goes to (R187). -/
def edgeLevel (r : PanelInput) : Level := r.lastSample.getD r.level

/-- The edge that is due is an active edge (R188). -/
def edgeActive (r : PanelInput) : Bool := edgeLevel r == r.polarity.activeLevel

/-- An active edge of this function is due on the input (R188). -/
def activeEdgeDue (f : InputFunction) (r : PanelInput) : Bool := r.edgeDue && edgeActive r && r.function == f

/-- An inactive edge is due on the input (R188). -/
def inactiveEdgeDue (r : PanelInput) : Bool := r.edgeDue && !edgeActive r

/-- The edge is taken in the record: the level changes, the count clears, and an active edge raises the edge
count (R187, R188). -/
def takeEdge (r : PanelInput) : PanelInput :=
  { r with
    level := edgeLevel r
    candidate := 0
    edgeDue := false
    edges := if edgeActive r then (r.edges + 1) % 65536 else r.edges }

/-- HOLD of a RUNNING show (R83). -/
def holdShow (s : State) : State :=
  let s1 :=
    match standbyItem s with
    | some i => if i.captured then s else withdrawItem i.id s
    | none => s
  closeShowEvent (triggerWalk (setShow .holding s1))

/-- RELEASE of a HOLDING show (R83). -/
def releaseShow (s : State) : State := closeShowEvent (triggerWalk (setShow .running s))

/-- A panel TAKE on input `n` (R73, R189). -/
def panelTakeShow (n : Fin 8) (s : State) : State :=
  match judgeTake s with
  | .accepted i => acceptTake i s
  | .refusedCaptured id => raiseNotice .takeRefused id 0 n.val 1 s
  | .refusedEmpty => raiseNotice .takeRefused 0 0 n.val 2 s
  | .ignoredGuard => s
  | .ignoredTaking _ => s

/-- A panel HOLD toggles the hold of the show (R190). -/
def panelToggleHold (s : State) : State :=
  match s.seq.mode with
  | .running => holdShow s
  | .holding => releaseShow s
  | .idle => s
  | .ended => s

/-- A panel ACK acknowledges the head of the input's display, which is rendered; on an empty list it does
nothing (R191, R163). -/
def panelAcknowledge (d : Fin 4) (s : State) : State :=
  if s.displays[d].cues.isEmpty then s else render d (acknowledge d s)

/-- A panel REPORT raises INPUT_EDGE with the edge count after the edge (R192). -/
def panelReportEdge (n : Fin 8) (s : State) : State :=
  raiseNotice .inputEdge 0 0 n.val s.inputs[n].edges s

/-- The function of an active edge (R189 to R192). -/
def performFunction (n : Fin 8) (s : State) : State :=
  match s.inputs[n].function with
  | .nothing => s
  | .take => panelTakeShow n s
  | .hold => panelToggleHold s
  | .ack => panelAcknowledge s.inputs[n].ackDisplay s
  | .report => panelReportEdge n s

/-- The edge that is due on an input is taken, and an active edge performs the input's function (R188). -/
def performEdge (n : Fin 8) (s : State) : State :=
  let s1 := modifyInput n takeEdge s
  if edgeActive s.inputs[n] then performFunction n s1 else s1

end Sys2Proof.Machine
end

