-- ==== Sys2Proof/Machine/TickOps.lean ====
section
/-! DEFINITION. The frame tick: the Reference Timing Unit's part of it (R12 to R15), what it hands to the
other blocks, the completion of its work, and the REF_DATA receiver (R11). -/

namespace Sys2Proof.Machine

/-! ### The label check (R12, R13) -/

/-- The Reference Timing Unit after its part of a tick, and the offset of a jump if one was taken (R12,
R13).  CFN has not been advanced yet in `r`. -/
def checkLabel (r : Rtu) : Rtu × Option Int :=
  let day := r.rate.day
  let cfn := addFrames day r.cfn 1
  let present : LockState := if r.mode = .present then .locked else .freewheel
  let base : Rtu := { r with cfn, announced := none }
  match r.lock, r.announced with
  | .unlocked, none => (base, none)
  | .unlocked, some a =>
    ({ base with cfn := a, lock := present, disagreements := 0, offset := 0 }, some (signedDiff day a cfn))
  | .locked, none => ({ base with lock := present }, none)
  | .freewheel, none => ({ base with lock := .freewheel }, none)
  | _, some a =>
    if a = cfn then ({ base with lock := present, disagreements := 0, offset := 0 }, none)
    else
      let d := signedDiff day a cfn
      if d = r.offset ∧ 0 < r.disagreements then
        if r.disagreements + 1 < 3 then
          ({ base with lock := .freewheel, disagreements := r.disagreements + 1 }, none)
        else ({ base with cfn := a, lock := present, disagreements := 0, offset := 0 }, some d)
      else ({ base with lock := .freewheel, disagreements := 1, offset := d }, none)

/-- The two value bytes of REF_STATE for a jump offset (R217). -/
def offsetValue (d : Int) : Nat := ((max (-32768) (min 32767 d)) % 65536).toNat

/-- REF_STATE with the CFN and lock state as they stand (R15). -/
def raiseRefState (d : Int) (s : State) : State :=
  raiseNotice .refState 0 0 s.rtu.lock.code (offsetValue d) s

/-- What a jump does in the blocks that hold frames of real time (R14, R156, R173). -/
def takeJump (d : Int) (s : State) : State :=
  triggerWalk { s with
    ports := s.ports.map (shiftPort s.day d)
    groups := s.groups.map (shiftGroup s.day d)
    displays := s.displays.map (shiftDisplay s.day d) }

/-! ### Completing the work of a tick -/

/-- The due scan of the tick under way, if it is still to be made (R124). -/
def takeScan (s : State) : State :=
  if s.tick.scanLeft then scanQueue { s with tick := { s.tick with scanLeft := false } } else s

/-- A display's tick work, then its render (R170). -/
def displayTick (n : Fin 4) (s : State) : State :=
  if displayWorkDue s n then render n (busyTest n (advanceCrawl n (expireHead n s))) else s

/-- The edge due on an input, if any, is taken. -/
def inputTick (n : Fin 8) (s : State) : State := if s.inputs[n].edgeDue then performEdge n s else s

/-- Everything a tick left is done, block by block: the sequencer's steps (R72), the due scan (R124), the
reply deadlines (R152) and pulse ends (R155), the displays (R170) and the panel edges (R188).  DESIGN
CHOICE: the order of the blocks (note 3). -/
def finishWork (s : State) : State :=
  let s1 := takeScan (finishPhases s)
  let s2 := allPorts.foldl (fun s p => takePulseEnd p (takeDeadline p s)) s1
  let s3 := allDisplays.foldl (fun s n => displayTick n s) s2
  let s4 := allInputs.foldl (fun s n => inputTick n s) s3
  { s4 with tick := { s4.tick with unfinished := false, begun := false } }

/-- The tick under way is complete before a request is judged or the next tick is made (R72, R201). -/
def settleTick (s : State) : State := if s.tick.unfinished then finishWork s else s

/-! ### The frame tick (R12) -/

/-- The Reference Timing Unit's part of a tick: CFN, lock state, a jump, and REF_STATE (R12 to R15). -/
def referenceTick (s : State) : State :=
  let (r, jump) := checkLabel s.rtu
  let s1 : State := { s with rtu := r }
  let s2 := jump.elim s1 (fun d => takeJump d s1)
  if jump.isSome || r.lock != s.rtu.lock then raiseRefState (jump.getD 0) s2 else s2

/-- The displays with no tick work due are rendered (R163); the others render when their work is done. -/
def renderIdleDisplays (s : State) : State :=
  allDisplays.foldl (fun s n => if displayWorkDue s n then s else render n s) s

/-- The tick's work is opened: the sequencer stands at step 1 and the due scan is to be made. -/
def openTick (s : State) : State :=
  { s with tick := {
      unfinished := true, phase := .airFrame, begun := false, onairBefore := onairId s, scanLeft := true
      moment := s.clock } }

/-- A frame tick that samples `lines` (R12): the Reference Timing Unit's part, the panel samples (R187), the
engine's own trigger (R101), steps 1 and 2 of the sequencer as far as nothing is due in them (R72), and the
renders (R163).  What falls due is left for the rows that name it.  An item that a panel makes TAKING at this
tick meets step 1 at the next (R77). -/
def frameTick (lines : BitVec 8) (s : State) : State :=
  renderIdleDisplays (passPhases 2 (overrunTrigger (openTick (sampleInputs lines (referenceTick s)))))

/-- The counter restarts with the pulse mode given (R9, R10). -/
def restartCounter (m : PulseMode) (s : State) : State := { s with rtu := { s.rtu with counter := 0, mode := m } }

/-- The count at which the oscillator makes the next tick: 3P/2 in PRESENT mode and P in ABSENT mode (R9, R10). -/
def tickThreshold (r : Rtu) : Nat :=
  match r.mode with
  | .present => r.rate.longPeriod
  | .absent => r.rate.period

/-- An event `n` cycles on comes before the oscillator's next tick, or with it (R9, R10). -/
def beforeTick (n : Nat) (s : State) : Bool := decide (s.rtu.counter + n ≤ tickThreshold s.rtu)

/-- The cycles left until the counter reaches a threshold. -/
def cyclesTo (threshold : Nat) (s : State) : Nat := threshold - s.rtu.counter

/-! ### The REF_DATA receiver (R11) -/

/-- The label of a complete message, if the message is valid (R11, R218). -/
def validLabel (rate : Rate) (m : List Byte) : Option Label :=
  match m with
  | [b0, hh, mm, ss, ff, flags, code, check] =>
    let l : Label := ⟨hh.toNat, mm.toNat, ss.toNat, ff.toNat⟩
    if check = checkByte [b0, hh, mm, ss, ff, flags, code] ∧ code.toNat = rate.code
        ∧ flags.getLsbD 0 = rate.dropFrame ∧ labelValid rate l = true then some l
    else none
  | _ => none

/-- A complete message: a valid one replaces the pending announcement (R11). -/
def takeMessage (m : List Byte) (r : Rtu) : Rtu :=
  match validLabel r.rate m with
  | some l => { r with receiver := none, announced := some (labelToFrame r.rate l) }
  | none => { r with receiver := none }

/-- One byte with a good stop bit reaches the receiver (R11). -/
def receiveByte (r : Rtu) (b : Byte) : Rtu :=
  match r.receiver with
  | none => if b = 0xE7#8 then { r with receiver := some [b] } else r
  | some m =>
    if m.length + 1 = 8 then takeMessage (m ++ [b]) r else { r with receiver := some (m ++ [b]) }

end Sys2Proof.Machine
end

