-- ==== Sys2Proof/Machine/LinkOps.lean ====
section
/-! DEFINITION. The Control Link's shared operations: judging frames, answering fetches and dispatching
requests (chapter 10). -/

namespace Sys2Proof.Machine

/-- The link takes frames: it has seen SPI_CS_N high since the last reset, and RESET_N is not held low
(R211). -/
def linkListens (s : State) : Bool := !s.link.awaitingCsHigh && !s.resetHeld

/-- `n` bytes of what SPI_SDO returns after the status byte: the answer, then 0x00 (R203). -/
def clockedOut (answer : List Byte) (n : Nat) : List Byte := answer.take n ++ List.replicate (n - answer.length) 0#8

/-- An entry joins the request FIFO (R200). -/
def joinRequest (e : RequestEntry) (l : Link) : Link := { l with requests := l.requests ++ [e] }

/-- The length byte, the body and the CRC of a frame agree with its size (R199, R200). -/
def frameSizeGood (declared : Nat) (rest : List Byte) : Bool :=
  decide (declared ≤ 250) && decide (rest.length = declared + 2)

/-- A REQUEST frame is judged at its end; `bytes` are those after the type byte (R200). -/
def judgeRequest (bytes : List Byte) (l : Link) : Link :=
  match bytes with
  | code :: len :: rest =>
    if Config.requestFifo ≤ l.requests.length then { l with linkOverrun := true }
    else if !frameSizeGood len.toNat rest then
      { joinRequest ⟨.badLength, code, []⟩ l with frameFault := true }
    else
      let body := rest.take len.toNat
      if rest.drop len.toNat = crcBytes (code :: len :: body) then joinRequest ⟨.good, code, body⟩ l
      else { joinRequest ⟨.crcError, code, []⟩ l with crcFault := true }
  | _ => { l with frameFault := true }

/-- The answer a FETCH_RESPONSE frame carries (R203). -/
def responseAnswer (l : Link) : List Byte :=
  match l.responses with
  | [] => emptyAnswer
  | r :: _ => answerBytes r.code r.body

/-- The answer a FETCH_NOTICE frame carries (R204, R214). -/
def noticeAnswer (l : Link) : List Byte :=
  match l.notices with
  | [] => emptyAnswer
  | n :: _ => answerBytes 0xFE#8 (noticeRecord n)

/-! ### A frame, part by part (R196 to R198, R203) -/

/-- The link with its frame under way replaced. -/
def setFrame (f : Option OpenFrame) (s : State) : State := { s with link := { s.link with frame := f } }

/-- The frame under way, or the one that the fall of SPI_CS_N opens now: its status byte is the one of that moment
(R197). -/
def currentFrame (s : State) : OpenFrame := s.link.frame.getD ⟨statusByte s, none⟩

/-- What a type byte settles at its end (R198, R203, R204). -/
def settleType (type : Byte) (l : Link) : TypedFrame :=
  if type = 0xA1#8 then ⟨type, responseAnswer l, !l.responses.isEmpty⟩
  else if type = 0xA2#8 then ⟨type, noticeAnswer l, !l.notices.isEmpty⟩
  else ⟨type, [], false⟩

/-- What the first byte of the frame under way settled, or settles now. -/
def currentType (type : Byte) (s : State) : TypedFrame := (currentFrame s).typed.getD (settleType type s.link)

/-- The frame under way is one of this type, as far as it has come. -/
def frameFits (type : Byte) (s : State) : Bool := (currentFrame s).typed.all (fun t => t.type == type)

/-- The frame ends: SPI_SDO has returned `bytes`, and none is under way. -/
def endFrame (bytes : List Byte) (s : State) : State := { s with link := { s.link with frame := none, output := bytes } }

/-- One part of a frame of a type: its fall fixes the status byte, its first byte's end the answer, and its rise
returns `size` bytes after the status byte and does what `h` says, with what the first byte settled.  A part of a
frame other than the one under way does not occur. -/
def takePart {α : Type} (part : FramePart α) (type : Byte) (size : α → Nat) (h : α → TypedFrame → State → State)
    (s : State) : State :=
  if linkListens s && frameFits type s then
    let status := (currentFrame s).status
    let typed := currentType type s
    match part with
    | .begins => setFrame (some (currentFrame s)) s
    | .typed => setFrame (some ⟨status, some typed⟩) s
    | .ends x => h x typed (endFrame (status :: clockedOut typed.answer (size x)) s)
  else s

/-- The head of the FIFO answered from was returned whole (R203). -/
def headTaken (t : TypedFrame) (clocked : Nat) : Bool := t.fromHead && decide (t.answer.length ≤ clocked)

/-! ### Dispatch (R201, R202) -/

/-- What carrying out a request gives: the state after it and its response body. -/
abbrev Reply := State × List Byte

/-- A request is answered with a result code alone (R213). -/
def refuse (r : Result) (s : State) : Reply := (s, [r.code])

/-- A request is answered OK with its contents. -/
def accept (contents : List Byte) (s : State) : Reply := (s, Result.ok.code :: contents)

/-- The response joins the tail of the response FIFO (R201). -/
def pushResponse (code : Byte) (body : List Byte) (s : State) : State :=
  { s with link := { s.link with responses := s.link.responses ++ [⟨code, body⟩] } }

/-- The head entry leaves the request FIFO, and the tick under way is complete before the request is judged
(R201). -/
def takeHead (rest : List RequestEntry) (s : State) : State :=
  settleTick { s with link := { s.link with requests := rest } }

/-- The response FIFO has room for an answer (R201). -/
def responseRoom (s : State) : Bool := decide (s.link.responses.length < Config.responseFifo)

/-- The dispatch of the head entry when `p` says it is this row's and there is room for its answer; `h`
carries it out.  Elsewhere the event does not occur. -/
def dispatch (p : RequestEntry → Bool) (h : RequestEntry → State → Reply) (s : State) : State :=
  match s.link.requests with
  | [] => s
  | e :: rest =>
    if p e && responseRoom s then
      let r := h e (takeHead rest s)
      pushResponse e.code r.2 r.1
    else s

/-- A good entry of one request code (R202). -/
def isGood (code : Byte) (e : RequestEntry) : Bool := e.mark == .good && e.code == code

/-- The dispatch of a good entry of one request code, carried out from its body (R202). -/
def serve (code : Byte) (h : List Byte → State → Reply) (s : State) : State :=
  dispatch (isGood code) (fun e => h e.body) s

/-- A request that has no body (R202). -/
def bodyless (h : State → Reply) (body : List Byte) (s : State) : Reply :=
  match body with
  | [] => h s
  | _ => refuse .badLength s

/-! ### Reading request bodies (R216) -/

/-- The first `n` bytes of a body as a number, and the bytes after them; none when it is too short. -/
def takeNumber (n : Nat) (body : List Byte) : Option (Nat × List Byte) :=
  if n ≤ body.length then some (ofBytes (body.take n), body.drop n) else none

/-- A request text: its length byte, then that many codes. -/
def takeText (body : List Byte) : Option (Text × List Byte) :=
  match body with
  | [] => none
  | n :: rest => if n.toNat ≤ rest.length then some (rest.take n.toNat, rest.drop n.toNat) else none

/-- A field that a select bit adds (R216). -/
def takeIf {α : Type} (selected : Bool) (p : List Byte → Option (α × List Byte)) (body : List Byte) :
    Option (Option α × List Byte) :=
  if selected then (p body).map (fun r => (some r.1, r.2)) else some (none, body)

/-- The body is used up. -/
def atEnd (body : List Byte) : Option Unit := if body.isEmpty then some () else none

/-- A mark or flag byte holds 0 or 1 (R213). -/
def isFlag (n : Nat) : Bool := decide (n ≤ 1)

/-- A request with a body of one number per width in `widths` and nothing else. -/
def takeNumbers : List Nat → List Byte → Option (List Nat)
  | [], body => (atEnd body).map (fun _ => [])
  | w :: ws, body =>
    match takeNumber w body with
    | none => none
    | some (n, rest) => (takeNumbers ws rest).map (fun ns => n :: ns)

/-! ### Reset (R211) -/

/-- Every block takes its reset values; the lines from outside keep their levels, and the command queue is
no part of the part. -/
def resetPart (s : State) : State := { State.reset with busy := s.busy, resetHeld := s.resetHeld, pending := s.pending }

end Sys2Proof.Machine
end

