-- ==== Sys2Proof/Machine/Rundown.lean ====
section
/-! DEFINITION. The meanings of the Rundown Store's requests: the eight edits, the three reads and SHOW_CLEAR
(chapters 2 and 3, sections 11.4 and 11.5). -/

namespace Sys2Proof.Machine

/-! ### How an edit is answered (R42, R43) -/

/-- A refused edit: its code, the ids it named, and the order revision as it stands (R42). -/
def refuseEdit (r : Result) (ids : List Byte) (s : State) : Reply := (s, r.code :: ids ++ beBytes 2 s.revision)

/-- An accepted edit: OK, the ids it named, the order revision after it, and what else it returns (R42). -/
def acceptEdit (ids more : List Byte) (s : State) : Reply := accept (ids ++ beBytes 2 s.revision ++ more) s

/-- The code of the first check that does not hold (R43). -/
def firstFailure (checks : List (Bool × Result)) : Option Result :=
  (checks.find? (fun c => !c.1)).map Prod.snd

/-- An edit is judged by its checks in order, and refused whole at the first that does not hold (R42, R43). -/
def judgeEdit (ids : List Byte) (checks : List (Bool × Result)) (act : State → Reply) (s : State) : Reply :=
  match firstFailure checks with
  | some r => refuseEdit r ids s
  | none => act s

/-! ### The rundown order (R21, R22) -/

/-- The item is placed at the top (0) or immediately after the named one (R21). -/
def placeItem (place : StoryId) (i : Item) (items : List Item) : List Item :=
  if place = 0 then i :: items else items.flatMap (fun x => if x.id == place then [x, i] else [x])

/-- An item's position, counted from the top (R21). -/
def positionOf (s : State) (id : StoryId) : Nat := s.items.findIdx (fun i => i.id == id)

/-- The order revision goes up by 1 (R22). -/
def bumpRevision (s : State) : State := { s with revision := (s.revision + 1) % 65536 }

/-- The item leaves the order (R21) and, being retired, the path that the capture test reads (R79). -/
def removeItem (id : StoryId) (s : State) : State :=
  { s with
    items := s.items.filter (fun i => i.id != id)
    engine := { s.engine with path := s.engine.path.filter (fun x => x != id) } }

/-- The place is "top" or names an item (R21). -/
def placeExists (s : State) (place : StoryId) : Bool := place == 0 || (findItem s place).isSome

/-- The walk trigger and the reselection request of an item edit (R61, R62). -/
def closeItemEdit (before : Option StoryId) (s : State) : State := reselect before (triggerWalk s)

/-! ### ITEM_INSERT (R45) -/

/-- The fields of an ITEM_INSERT as carried (section 11.4). -/
structure InsertBody where
  id : Nat
  place : Nat
  presenters : Nat
  duration : Nat
  flags : Nat
  mark : Nat
  target : Nat
  slug : Text
  note : Text
  deriving DecidableEq, Repr

/-- The body of ITEM_INSERT (section 11.4). -/
def readInsert (body : List Byte) : Option InsertBody :=
  (takeNumber 4 body).bind fun (id, b1) =>
  (takeNumber 4 b1).bind fun (place, b2) =>
  (takeNumber 1 b2).bind fun (presenters, b3) =>
  (takeNumber 3 b3).bind fun (duration, b4) =>
  (takeNumber 1 b4).bind fun (flags, b5) =>
  (takeNumber 1 b5).bind fun (mark, b6) =>
  (takeNumber 3 b6).bind fun (target, b7) =>
  (takeText b7).bind fun (slug, b8) =>
  (takeText b8).bind fun (note, b9) =>
  (atEnd b9).map fun _ => ⟨id, place, presenters, duration, flags, mark, target, slug, note⟩

/-- Step 1 of R43 for an insert. -/
def insertInRange (day : Nat) (b : InsertBody) : Bool :=
  decide (b.id ≠ 0) && decide (b.presenters < 16) && decide (b.duration ≤ Config.durationMax)
    && decide (b.flags < 8) && isFlag b.mark && (decide (b.mark = 0) || decide (b.target < day))
    && decide (b.slug.length ≤ 24) && decide (b.note.length ≤ 40)

/-- The record of a new item (R19, R45). -/
def newItem (b : InsertBody) : Item where
  id := b.id
  slug := clampText b.slug
  note := clampText b.note
  presenters := BitVec.ofNat 4 b.presenters
  duration := b.duration
  float := b.flags.testBit 0
  auto := b.flags.testBit 1
  target := if b.mark = 1 then some b.target else none
  state := .pending
  nominated := false
  captured := false
  airFrame := none
  endFrame := none
  projectedStart := none
  backTime := none
  overUnder := none
  elements := []
  context := none

/-- TGT is present exactly when JUNCTION is set, and FLOAT and JUNCTION are not both set (R45). -/
def insertConsistent (b : InsertBody) : Bool :=
  (b.flags.testBit 2 == decide (b.mark = 1)) && !(b.flags.testBit 0 && b.flags.testBit 2)

def insertItem (b : InsertBody) (s : State) : State :=
  closeItemEdit (standbyId s) (bumpRevision { s with items := placeItem b.place (newItem b) s.items })

/-- ITEM_INSERT carried out from its body (R45). -/
def carryItemInsert (body : List Byte) (s : State) : Reply :=
  match readInsert body with
  | none => refuse .badLength s
  | some b =>
    judgeEdit (beBytes 4 b.id)
      [(insertInRange s.day b, .badValue), (placeExists s b.place, .notFound),
        ((findItem s b.id).isNone, .duplicate), (insertConsistent b, .badValue),
        (decide (s.items.length < Config.itemSlots), .noSpace)]
      (fun s =>
        let s1 := insertItem b s
        acceptEdit (beBytes 4 b.id) (beBytes 2 (positionOf s1 b.id)) s1) s

def execItemInsert (s : State) : Host.Outcome State Fault Refusal := .next (serve 0x10#8 carryItemInsert s)

/-! ### ITEM_AMEND (R46, R47) -/

/-- The fields an amend selects; an absent one is not selected. -/
structure AmendBody where
  id : Nat
  slug : Option Text
  note : Option Text
  presenters : Option Nat
  duration : Option Nat
  float : Option Nat
  auto : Option Nat
  junction : Option Nat
  target : Option Nat
  deriving DecidableEq, Repr

/-- The body of ITEM_AMEND with its select byte (section 11.4). -/
def readAmend (body : List Byte) : Option (Nat × AmendBody) :=
  (takeNumber 4 body).bind fun (id, b1) =>
  (takeNumber 1 b1).bind fun (select, b2) =>
  (takeIf (select.testBit 0) takeText b2).bind fun (slug, b3) =>
  (takeIf (select.testBit 1) takeText b3).bind fun (note, b4) =>
  (takeIf (select.testBit 2) (takeNumber 1) b4).bind fun (presenters, b5) =>
  (takeIf (select.testBit 3) (takeNumber 3) b5).bind fun (duration, b6) =>
  (takeIf (select.testBit 4) (takeNumber 1) b6).bind fun (float, b7) =>
  (takeIf (select.testBit 5) (takeNumber 1) b7).bind fun (auto, b8) =>
  (takeIf (select.testBit 6) (takeNumber 1) b8).bind fun (junction, b9) =>
  (takeIf (select.testBit 7) (takeNumber 3) b9).bind fun (target, b10) =>
  (atEnd b10).map fun _ => (select, ⟨id, slug, note, presenters, duration, float, auto, junction, target⟩)

/-- Step 1 of R43 for an amend, with the select set not empty (R44). -/
def amendInRange (day select : Nat) (b : AmendBody) : Bool :=
  decide (b.id ≠ 0) && decide (select ≠ 0) && b.slug.all (fun t => decide (t.length ≤ 24))
    && b.note.all (fun t => decide (t.length ≤ 40)) && b.presenters.all (fun n => decide (n < 16))
    && b.duration.all (fun n => decide (n ≤ Config.durationMax)) && b.float.all isFlag && b.auto.all isFlag
    && b.junction.all isFlag && b.target.all (fun n => decide (n < day))

/-- JUNCTION as it would stand after the amend (R46). -/
def junctionAfter (b : AmendBody) (i : Item) : Bool := (b.junction.map (· == 1)).getD i.junction

def floatAfter (b : AmendBody) (i : Item) : Bool := (b.float.map (· == 1)).getD i.float

/-- TGT as it would stand after the amend: clearing JUNCTION removes it (R25, R46). -/
def targetAfter (b : AmendBody) (i : Item) : Option Frame :=
  if junctionAfter b i then b.target.or i.target else none

/-- The record as it would stand is consistent (R46). -/
def amendConsistent (b : AmendBody) (i : Item) : Bool :=
  !(floatAfter b i && junctionAfter b i) && !(junctionAfter b i && (targetAfter b i).isNone)
    && !(b.target.isSome && !junctionAfter b i)

/-- The locks of the item's state, per selected field (R47). -/
def amendAllowed (b : AmendBody) (i : Item) : Bool :=
  let junctionFields := b.junction.isSome || b.target.isSome
  match i.state with
  | .pending => true
  | .standby => !(i.captured && junctionFields)
  | .taking => !(junctionFields || b.float.isSome || b.auto.isSome)
  | .onair => !(junctionFields || b.float.isSome)
  | .done => true
  | .dropped => true

/-- The item with the selected fields replaced (R46). -/
def amendRecord (b : AmendBody) (i : Item) : Item :=
  { i with
    slug := (b.slug.map clampText).getD i.slug
    note := (b.note.map clampText).getD i.note
    presenters := (b.presenters.map (BitVec.ofNat 4)).getD i.presenters
    duration := b.duration.getD i.duration
    float := floatAfter b i
    auto := (b.auto.map (· == 1)).getD i.auto
    target := targetAfter b i }

/-- STANDBY, TAKING or ONAIR: the items the displays show and the scheduler serves (R56, R63, R64). -/
def ItemState.near : ItemState → Bool
  | .pending => false
  | .standby => true
  | .taking => true
  | .onair => true
  | .done => false
  | .dropped => false

/-- An accepted amend and the triggers it sets off (R46, R61, R62, R64). -/
def amendItem (b : AmendBody) (i : Item) (s : State) : State :=
  let before := standbyId s
  let s1 := modifyItem b.id (amendRecord b) s
  let s2 :=
    if b.duration.isSome || b.float.isSome || b.auto.isSome || b.junction.isSome || b.target.isSome
    then triggerWalk s1 else s1
  let s3 := if b.float.isSome then reselect before s2 else s2
  if i.state.near && (b.slug.isSome || b.note.isSome || b.presenters.isSome) then renderAll s3 else s3

/-- ITEM_AMEND carried out from its body (R46). -/
def carryItemAmend (body : List Byte) (s : State) : Reply :=
  match readAmend body with
  | none => refuse .badLength s
  | some (select, b) =>
    let found := findItem s b.id
    judgeEdit (beBytes 4 b.id)
      [(amendInRange s.day select b, .badValue), (found.isSome, .notFound),
        (found.all (amendConsistent b), .badValue), (found.all (amendAllowed b), .state)]
      (fun s => acceptEdit (beBytes 4 b.id) [] (found.elim s (fun i => amendItem b i s))) s

def execItemAmend (s : State) : Host.Outcome State Fault Refusal := .next (serve 0x11#8 carryItemAmend s)

/-! ### ITEM_MOVE, ITEM_RETIRE, ITEM_RESET (R49 to R52) -/

/-- The item may be moved or retired (R47). -/
def Item.movable (i : Item) : Bool :=
  match i.state with
  | .pending => true
  | .standby => !i.captured
  | .taking => false
  | .onair => false
  | .done => true
  | .dropped => true

/-- An accepted move (R49): the record leaves the order and is placed again. -/
def moveItem (i : Item) (place : StoryId) (s : State) : State :=
  closeItemEdit (standbyId s)
    (bumpRevision { s with items := placeItem place i (s.items.filter (fun x => x.id != i.id)) })

/-- ITEM_MOVE carried out from its body (R49). -/
def carryItemMove (body : List Byte) (s : State) : Reply :=
  match takeNumbers [4, 4] body with
  | some [id, place] =>
    let found := findItem s id
    judgeEdit (beBytes 4 id)
      [(decide (id ≠ 0), .badValue), (found.isSome, .notFound), (placeExists s place, .notFound),
        (decide (place ≠ id), .badValue), (found.all Item.movable, .state)]
      (fun s =>
        let s1 := found.elim s (fun i => moveItem i place s)
        acceptEdit (beBytes 4 id) (beBytes 2 (positionOf s1 id)) s1) s
  | _ => refuse .badLength s

def execItemMove (s : State) : Host.Outcome State Fault Refusal := .next (serve 0x12#8 carryItemMove s)

/-- The item that stands immediately above the named one (R51). -/
def itemAbove (id : StoryId) : List Item → Option StoryId
  | [] => none
  | [_] => none
  | a :: b :: rest => if b.id == id then some a.id else itemAbove id (b :: rest)

/-- The sequencer's references to a retired item: the nomination ends, and the cursor moves to the item above
or to top (R51). -/
def releaseReferences (id : StoryId) (s : State) : State :=
  let s1 := endNomination id s
  if s1.seq.cursor = some id then { s1 with seq := { s1.seq with cursor := itemAbove id s1.items } } else s1

/-- What a retirement does to the item's elements (R50). -/
def retireElements (i : Item) (s : State) : State :=
  let s1 := withdrawItem i.id s
  if i.state = .standby then orphanItem i.id s1
  else (tagsIn s1 i.id (· == .issued)).foldl (fun s t => detach i.id t s) s1

/-- An accepted retirement (R50, R51). -/
def retireItem (i : Item) (s : State) : State :=
  closeItemEdit (standbyId s) (bumpRevision (removeItem i.id (releaseReferences i.id (retireElements i s))))

/-- The elements a retirement orphans (R50, R58). -/
def orphanCount (i : Item) : Nat :=
  if i.state = .standby then (i.elements.filter (fun e => e.state.sentOut)).length else 0

/-- ITEM_RETIRE carried out from its body (R50). -/
def carryItemRetire (body : List Byte) (s : State) : Reply :=
  match takeNumbers [4] body with
  | some [id] =>
    let found := findItem s id
    judgeEdit (beBytes 4 id)
      [(decide (id ≠ 0), .badValue), (found.isSome, .notFound), (found.all Item.movable, .state)]
      (fun s => found.elim (acceptEdit (beBytes 4 id) [] s) (fun i =>
        acceptEdit (beBytes 4 id) (beBytes 1 i.elements.length ++ beBytes 1 (orphanCount i)) (retireItem i s))) s
  | _ => refuse .badLength s

def execItemRetire (s : State) : Host.Outcome State Fault Refusal := .next (serve 0x13#8 carryItemRetire s)

/-- The item may be reset (R47, R52). -/
def Item.resettable (i : Item) : Bool := i.state == .done || i.state == .dropped

/-- The record after ITEM_RESET (R52). -/
def resetRecord (i : Item) : Item :=
  { i with state := .pending, airFrame := none, endFrame := none, elements := i.elements.map Element.toIdle }

/-- An accepted ITEM_RESET (R52). -/
def resetItem (id : StoryId) (s : State) : State :=
  let s1 := (tagsIn s id (· == .issued)).foldl (fun s t => detach id t s) s
  closeItemEdit (standbyId s) (modifyItem id resetRecord s1)

/-- ITEM_RESET carried out from its body (R52). -/
def carryItemReset (body : List Byte) (s : State) : Reply :=
  match takeNumbers [4] body with
  | some [id] =>
    let found := findItem s id
    judgeEdit (beBytes 4 id)
      [(decide (id ≠ 0), .badValue), (found.isSome, .notFound), (found.all Item.resettable, .state)]
      (fun s => acceptEdit (beBytes 4 id) [] (resetItem id s)) s
  | _ => refuse .badLength s

def execItemReset (s : State) : Host.Outcome State Fault Refusal := .next (serve 0x14#8 carryItemReset s)

/-! ### Element fields (R30, R53, R54) -/

/-- A payload, in the form it is carried or held in. -/
inductive Payload where
  | number (n : Nat)
  | text (t : Text)
  deriving DecidableEq, Repr

/-- Element fields that a request carries, or that a record holds. -/
structure ElementFields where
  kind : Option Nat
  port : Option Nat
  displays : Option Nat
  anchor : Option Nat
  offset : Option Nat
  payload : Option Payload
  hold : Option Nat
  deriving DecidableEq, Repr

/-- A payload's text is within its capacity (R35). -/
def Payload.inRange : Payload → Bool
  | .number _ => true
  | .text t => decide (t.length ≤ 20)

/-- Step 1 of R43 for the fields carried. -/
def ElementFields.inRange (f : ElementFields) : Bool :=
  f.kind.all (fun k => (Kind.ofCode k).isSome) && f.port.all (fun p => decide (p ≤ 15))
    && f.displays.all (fun d => decide (d < 16)) && f.anchor.all (fun a => (Anchor.ofCode a).isSome)
    && f.payload.all Payload.inRange

/-- No field is held. -/
def ElementFields.empty : ElementFields := ⟨none, none, none, none, none, none, none⟩

/-- The fields a record holds. -/
def Element.fields (e : Element) : ElementFields :=
  let base : ElementFields :=
    { kind := some e.action.kind.code, port := none, displays := none, anchor := some e.anchor.code,
      offset := some e.offset, payload := none, hold := none }
  match e.action with
  | .serial _ p n => { base with port := some p.val, payload := some (.number n) }
  | .pulse p => { base with port := some p.val }
  | .cueText d t h => { base with displays := some d.toNat, payload := some (.text t), hold := some h }

/-- The fields that stand for those an amend does not select: the record's own while the kind stays (R44, R54), and none
when the amend changes the kind, since the same request must then carry the fields the new kind requires (R30).  DEDUCED:
both rules hold, and an amend that does not carry them is BAD_VALUE (note 24). -/
def heldFor (k : Kind) (e : Element) : ElementFields := if e.action.kind = k then e.fields else .empty

/-- The record that the carried fields would leave in place of the held ones, or the code of the check of step
4 that it fails (R30, R53, R54). -/
def buildAction (k : Kind) (carried held : ElementFields) : Except Result Action :=
  let port := carried.port.or held.port
  let payload := carried.payload.or held.payload
  match k with
  | .serial v =>
    if carried.displays.isSome || carried.hold.isSome then .error .badValue
    else
      match port, payload with
      | some p, some (.number n) => if 4 ≤ p then .ok (.serial v (Fin.ofNat 16 p) n) else .error .badPort
      | _, _ => .error .badValue
  | .pulse =>
    if carried.displays.isSome || carried.hold.isSome || carried.payload.isSome then .error .badValue
    else
      match port with
      | some p => if p ≤ 3 then .ok (.pulse (Fin.ofNat 16 p)) else .error .badPort
      | none => .error .badValue
  | .cueText =>
    if carried.port.isSome then .error .badValue
    else
      match carried.displays.or held.displays, payload, carried.hold.or held.hold with
      | some d, some (.text t), some h =>
        if d = 0 then .error .badValue else .ok (.cueText (BitVec.ofNat 4 d) (clampText t) h)
      | _, _, _ => .error .badValue

/-- The first check of step 4 that fails, if one does. -/
def actionFailure : Except Result Action → Option Result
  | .ok _ => none
  | .error r => some r

/-- A step of R43 whose code depends on what failed. -/
def stepChecks (r : Option Result) : List (Bool × Result) := r.toList.map (fun c => (false, c))

/-- The ids an element edit names (R42). -/
def elementIds (id tag : Nat) : List Byte := beBytes 4 id ++ beBytes 1 tag

/-! ### ELEMENT_ADD (R53) -/

/-- The head of ELEMENT_ADD: story id, new tag, before tag. -/
structure AddHead where
  id : Nat
  tag : Nat
  before : Nat
  deriving DecidableEq, Repr

/-- The fields after the head, laid out by the kind; an undefined kind has no layout (R216). -/
def readAddFields (kind : Nat) (b : List Byte) : Option ElementFields :=
  match Kind.ofCode kind with
  | none => none
  | some (.serial _) =>
    (takeNumbers [1, 1, 2, 2] b).bind fun
      | [p, a, o, n] => some ⟨some kind, some p, none, some a, some o, some (.number n), none⟩
      | _ => none
  | some .pulse =>
    (takeNumbers [1, 1, 2] b).bind fun
      | [p, a, o] => some ⟨some kind, some p, none, some a, some o, none, none⟩
      | _ => none
  | some .cueText =>
    (takeNumber 1 b).bind fun (d, b1) =>
    (takeNumber 1 b1).bind fun (a, b2) =>
    (takeNumber 2 b2).bind fun (o, b3) =>
    (takeNumber 2 b3).bind fun (h, b4) =>
    (takeText b4).bind fun (t, b5) =>
    (atEnd b5).map fun _ => ⟨some kind, none, some d, some a, some o, some (.text t), some h⟩

def readAdd (body : List Byte) : Option (AddHead × ElementFields) :=
  (takeNumber 4 body).bind fun (id, b1) =>
  (takeNumber 1 b1).bind fun (tag, b2) =>
  (takeNumber 1 b2).bind fun (before, b3) =>
  (takeNumber 1 b3).bind fun (kind, b4) =>
  (readAddFields kind b4).map fun f => (⟨id, tag, before⟩, f)

/-- The kind that the fields name. -/
def ElementFields.kindOr (f : ElementFields) (k : Kind) : Kind := (f.kind.bind Kind.ofCode).getD k

/-- The element enters the list at the end, or immediately before the named tag (R29). -/
def enterElement (before : Tag) (e : Element) (es : List Element) : List Element :=
  if before = 0 then es ++ [e] else es.flatMap (fun x => if x.tag == before then [e, x] else [x])

/-- A new element (R53). -/
def newElement (tag : Tag) (f : ElementFields) (a : Action) : Element where
  tag := tag
  action := a
  anchor := (f.anchor.bind Anchor.ofCode).getD .fromStart
  offset := f.offset.getD 0
  state := .idle
  cause := none
  lateness := none

/-- An accepted ELEMENT_ADD (R53), with the arm request of R63. -/
def addElement (h : AddHead) (i : Item) (e : Element) (s : State) : State :=
  let s1 := modifyItem h.id (fun i => { i with elements := enterElement h.before e i.elements }) s
  if i.state.near then armElement h.id h.tag s1 else s1

/-- The position of an element in its item's list. -/
def Item.elementPosition (i : Item) (tag : Tag) : Nat := i.elements.findIdx (fun e => e.tag == tag)

/-- ELEMENT_ADD carried out from its body (R53). -/
def carryElementAdd (body : List Byte) (s : State) : Reply :=
  match readAdd body with
  | none => refuse .badLength s
  | some (h, f) =>
    let found := findItem s h.id
    let action := buildAction (f.kindOr .pulse) f .empty
    judgeEdit (elementIds h.id h.tag)
      ([(decide (h.id ≠ 0) && decide (h.tag ≠ 0) && f.inRange, .badValue), (found.isSome, .notFound),
        (decide (h.before = 0) || found.all (fun i => (i.findElement h.before).isSome), .notFound),
        (found.all (fun i => (i.findElement h.tag).isNone), .duplicate)]
        ++ stepChecks (actionFailure action)
        ++ [(found.all (fun i => decide (i.elements.length < Config.elementsPerItem))
          && decide (elementsInUse s < Config.elementPool), .noSpace)])
      (fun s =>
        match found, action with
        | some i, .ok a =>
          let s1 := addElement h i (newElement h.tag f a) s
          acceptEdit (elementIds h.id h.tag)
            (beBytes 1 (((findItem s1 h.id).map (fun i => i.elementPosition h.tag)).getD 0)) s1
        | _, _ => acceptEdit (elementIds h.id h.tag) [] s) s
  
def execElementAdd (s : State) : Host.Outcome State Fault Refusal := .next (serve 0x15#8 carryElementAdd s)

/-! ### ELEMENT_AMEND (R54) and ELEMENT_REMOVE (R55) -/

/-- A selected payload: its form byte, then a number or a text; an undefined form has no size (R216). -/
def takePayload (body : List Byte) : Option (Payload × List Byte) :=
  (takeNumber 1 body).bind fun (form, b) =>
    if form = 0 then (takeNumber 2 b).map fun (n, b') => (.number n, b')
    else if form = 1 then (takeText b).map fun (t, b') => (.text t, b')
    else none

/-- The head of ELEMENT_AMEND: story id, tag, select byte. -/
structure AmendHead where
  id : Nat
  tag : Nat
  select : Nat
  deriving DecidableEq, Repr

/-- The body of ELEMENT_AMEND (section 11.4). -/
def readElementAmend (body : List Byte) : Option (AmendHead × ElementFields) :=
  (takeNumber 4 body).bind fun (id, b1) =>
  (takeNumber 1 b1).bind fun (tag, b2) =>
  (takeNumber 1 b2).bind fun (select, b3) =>
  (takeIf (select.testBit 0) (takeNumber 1) b3).bind fun (kind, b4) =>
  (takeIf (select.testBit 1) (takeNumber 1) b4).bind fun (port, b5) =>
  (takeIf (select.testBit 2) (takeNumber 1) b5).bind fun (displays, b6) =>
  (takeIf (select.testBit 3) (takeNumber 1) b6).bind fun (anchor, b7) =>
  (takeIf (select.testBit 4) (takeNumber 2) b7).bind fun (offset, b8) =>
  (takeIf (select.testBit 5) takePayload b8).bind fun (payload, b9) =>
  (takeIf (select.testBit 6) (takeNumber 2) b9).bind fun (hold, b10) =>
  (atEnd b10).map fun _ => (⟨id, tag, select⟩, ⟨kind, port, displays, anchor, offset, payload, hold⟩)

/-- The element may be amended or removed (R56). -/
def editable (i : Item) (e : Element) : Bool :=
  !i.state.near || e.state == .idle || e.state == .waiting || e.state == .armed

/-- The record with the selected fields replaced (R54). -/
def amendElementRecord (f : ElementFields) (a : Action) (e : Element) : Element :=
  { e with
    action := a
    anchor := (f.anchor.bind Anchor.ofCode).getD e.anchor
    offset := f.offset.getD e.offset }

/-- An accepted ELEMENT_AMEND (R54), with the request to the scheduler of R63. -/
def amendElement (id : StoryId) (tag : Tag) (i : Item) (e : Element) (f : ElementFields) (a : Action)
    (s : State) : State :=
  let s1 := modifyElement id tag (amendElementRecord f a) s
  if i.state.near then
    if e.state = .idle then armElement id tag s1
    else if e.state = .armed then armElement id tag (removeEntry id tag s1)
    else s1
  else s1

/-- ELEMENT_AMEND carried out from its body (R54). -/
def carryElementAmend (body : List Byte) (s : State) : Reply :=
  match readElementAmend body with
  | none => refuse .badLength s
  | some (h, f) =>
    let found := findItem s h.id
    let element := findElement s h.id h.tag
    let kindAfter := fun (e : Element) => f.kindOr e.action.kind
    let action := element.map (fun e => buildAction (kindAfter e) f (heldFor (kindAfter e) e))
    judgeEdit (elementIds h.id h.tag)
      ([(decide (h.id ≠ 0) && decide (h.tag ≠ 0) && decide (h.select ≠ 0) && decide (h.select < 128)
          && f.inRange, .badValue),
        (element.isSome, .notFound)]
        ++ stepChecks (action.bind actionFailure)
        ++ [(found.all (fun i => element.all (editable i)), .committed)])
      (fun s =>
        match found, element, action with
        | some i, some e, some (.ok a) =>
          acceptEdit (elementIds h.id h.tag) [] (amendElement h.id h.tag i e f a s)
        | _, _, _ => acceptEdit (elementIds h.id h.tag) [] s) s

def execElementAmend (s : State) : Host.Outcome State Fault Refusal := .next (serve 0x16#8 carryElementAmend s)

/-- The element leaves its item's list (R55). -/
def dropElement (id : StoryId) (tag : Tag) (s : State) : State :=
  modifyItem id (fun i => { i with elements := i.elements.filter (fun e => e.tag != tag) }) s

/-- An accepted ELEMENT_REMOVE (R55, R63): withdrawn or detached, and room freed goes to the waiting order
(R117). -/
def removeElement (id : StoryId) (tag : Tag) (e : Element) (s : State) : State :=
  match e.state with
  | .issued => dropElement id tag (detach id tag s)
  | .armed => fillFromWaiting (dropElement id tag (withdrawElement id tag s))
  | _ => dropElement id tag s

/-- ELEMENT_REMOVE carried out from its body (R55). -/
def carryElementRemove (body : List Byte) (s : State) : Reply :=
  match takeNumbers [4, 1] body with
  | some [id, tag] =>
    let found := findItem s id
    let element := findElement s id tag
    judgeEdit (elementIds id tag)
      [(decide (id ≠ 0) && decide (tag ≠ 0), .badValue), (element.isSome, .notFound),
        (found.all (fun i => element.all (editable i)), .committed)]
      (fun s => acceptEdit (elementIds id tag) [] (element.elim s (fun e => removeElement id tag e s))) s
  | _ => refuse .badLength s

def execElementRemove (s : State) : Host.Outcome State Fault Refusal := .next (serve 0x17#8 carryElementRemove s)

/-! ### The reads (R36 to R38) -/

/-- The generation and the walk-in-flight flag, which end many responses. -/
def walkBytes (s : State) : List Byte := beBytes 2 s.engine.generation ++ flagByte s.engine.inFlight

/-- A set of flags in one byte, bit 0 first. -/
def bitsByte (bs : List Bool) : List Byte := beBytes 1 (bitsValue bs)

/-- The ITEM_READ image (section 11.5). -/
def itemImage (s : State) (i : Item) : List Byte :=
  beBytes 4 i.id ++ beBytes 2 (positionOf s i.id) ++ responseText 24 i.slug ++ responseText 40 i.note
    ++ beBytes 1 i.presenters.toNat ++ beBytes 3 i.duration
    ++ bitsByte [i.float, i.auto, i.junction, i.nominated, i.captured] ++ beBytes 1 i.state.code
    ++ bitsByte [i.target.isSome, i.airFrame.isSome, i.endFrame.isSome, i.projectedStart.isSome,
      i.backTime.isSome, i.overUnder.isSome]
    ++ beBytes 3 (i.target.getD 0) ++ beBytes 3 (i.airFrame.getD 0) ++ beBytes 3 (i.endFrame.getD 0)
    ++ beBytes 3 (i.projectedStart.getD 0) ++ beBytes 3 (i.backTime.getD 0)
    ++ signedBytes (i.overUnder.getD 0) ++ walkBytes s ++ beBytes 1 i.elements.length
    ++ i.elements.flatMap (fun e => beBytes 1 e.tag ++ beBytes 1 e.action.kind.code ++ beBytes 1 e.state.code)

/-- ITEM_READ carried out from its body (R36). -/
def carryItemRead (body : List Byte) (s : State) : Reply :=
  match takeNumbers [4] body with
  | some [id] =>
    if id = 0 then refuse .badValue s
    else
      match findItem s id with
      | none => refuse .notFound s
      | some i => accept (itemImage s i) s
  | _ => refuse .badLength s

def execItemRead (s : State) : Host.Outcome State Fault Refusal := .next (serve 0x18#8 carryItemRead s)

/-- The payload number that a record holds. -/
def Action.number : Action → Option Nat
  | .serial _ _ n => some n
  | .pulse _ => none
  | .cueText _ _ _ => none

/-- The display set, text and hold of a CUE_TEXT record. -/
def Action.cue : Action → Option (BitVec 4 × Text × Nat)
  | .serial _ _ _ => none
  | .pulse _ => none
  | .cueText d t h => some (d, t, h)

/-- The ELEMENT_READ image (section 11.5). -/
def elementImage (i : Item) (e : Element) : List Byte :=
  let cue := e.action.cue
  beBytes 4 i.id ++ beBytes 1 e.tag ++ beBytes 1 (i.elementPosition e.tag) ++ beBytes 1 e.action.kind.code
    ++ beBytes 1 (portField e.action.port) ++ beBytes 1 ((cue.map (fun c => c.1.toNat)).getD 0)
    ++ beBytes 1 e.anchor.code ++ beBytes 2 e.offset ++ beBytes 2 (e.action.number.getD 0)
    ++ responseText 20 ((cue.map (fun c => c.2.1)).getD []) ++ beBytes 2 ((cue.map (fun c => c.2.2)).getD 0)
    ++ bitsByte [e.action.port.isSome, cue.isSome, e.action.number.isSome, cue.isSome, cue.isSome,
      e.cause.isSome, e.lateness.isSome]
    ++ beBytes 1 e.state.code ++ beBytes 1 ((e.cause.map Cause.code).getD 0) ++ beBytes 1 (e.lateness.getD 0)

/-- ELEMENT_READ carried out from its body (R37). -/
def carryElementRead (body : List Byte) (s : State) : Reply :=
  match takeNumbers [4, 1] body with
  | some [id, tag] =>
    if id = 0 ∨ tag = 0 then refuse .badValue s
    else
      match findItem s id with
      | none => refuse .notFound s
      | some i =>
        match i.findElement tag with
        | none => refuse .notFound s
        | some e => accept (elementImage i e) s
  | _ => refuse .badLength s

def execElementRead (s : State) : Host.Outcome State Fault Refusal := .next (serve 0x19#8 carryElementRead s)

/-- One summary of RUNDOWN_READ (R38). -/
def itemSummary (i : Item) : List Byte :=
  beBytes 4 i.id ++ beBytes 1 i.state.code ++ flagByte i.float ++ flagByte i.auto ++ flagByte i.junction
    ++ flagByte i.nominated ++ flagByte i.captured ++ beBytes 3 i.duration ++ optFrame i.projectedStart
    ++ beBytes 1 i.elements.length

/-- RUNDOWN_READ carried out from its body (R38). -/
def carryRundownRead (body : List Byte) (s : State) : Reply :=
  match takeNumbers [2, 1] body with
  | some [start, count] =>
    let n := s.items.length
    if count = 0 ∨ 8 < count ∨ n < start then refuse .badValue s
    else
      let shown := (s.items.drop start).take count
      accept (beBytes 2 n ++ beBytes 2 s.revision ++ beBytes 2 start ++ beBytes 1 shown.length
        ++ shown.flatMap itemSummary ++ walkBytes s) s
  | _ => refuse .badLength s

def execRundownRead (s : State) : Host.Outcome State Fault Refusal := .next (serve 0x1A#8 carryRundownRead s)

/-! ### SHOW_CLEAR (R40, R89, R133, R160, R185) -/

/-- An accepted SHOW_CLEAR.  The slug, note and timing fields show spaces from the render it makes (R185); the JUNCTION
icon follows the last completed walk (R165), until the walk triggered here completes (note 41). -/
def clearShow (s : State) : State :=
  let s1 := detachAll s
  renderAll (triggerWalk { s1 with
    items := []
    engine := { s1.engine with path := [], cleared := true }
    revision := if s.items.isEmpty then s.revision else (s.revision + 1) % 65536
    seq := { s1.seq with cursor := none, nomination := none, lastAdvance := none }
    sched := { s1.sched with queue := [] }
    displays := s1.displays.map (fun d => resetCrawl s.day s.cfn { d with cues := [] }) })

/-- SHOW_CLEAR carried out (R40): only in IDLE. -/
def carryShowClear (s : State) : Reply :=
  if s.seq.mode = .idle then accept [] (clearShow s) else refuse .state s

def execShowClear (s : State) : Host.Outcome State Fault Refusal :=
  .next (serve 0x1B#8 (bodyless carryShowClear) s)

end Sys2Proof.Machine
end

