-- ==== Sys2Proof/Machine/Displays.lean ====
section
/-! DEFINITION. The meanings of the Presenter Display Controller's requests and of the events on the display
lines (chapter 8). -/

namespace Sys2Proof.Machine

def displayNumber (n : Nat) : Option (Fin 4) := if h : n < 4 then some ⟨n, h⟩ else none

/-- A request whose body is one display number; a number above 3 is BAD_VALUE. -/
def displayRequest (h : Fin 4 → State → Reply) (body : List Byte) (s : State) : Reply :=
  match takeNumbers [1] body with
  | some [n] =>
    match displayNumber n with
    | none => refuse .badValue s
    | some d => h d s
  | _ => refuse .badLength s

/-! ### LAYOUT_SET (R162) -/

/-- A layout field as carried. -/
structure FieldBody where
  kind : Nat
  column : Nat
  width : Nat
  text : Text
  deriving DecidableEq, Repr

/-- One field: kind, column, width, and a TEXT field's text (section 11.1). -/
def takeField (body : List Byte) : Option (FieldBody × List Byte) :=
  (takeNumber 1 body).bind fun (kind, b1) =>
  (takeNumber 1 b1).bind fun (column, b2) =>
  (takeNumber 1 b2).bind fun (width, b3) =>
    if kind = 0 then (takeText b3).map fun (t, b4) => (⟨kind, column, width, t⟩, b4)
    else some (⟨kind, column, width, []⟩, b3)

/-- As many fields as the row's count says. -/
def takeFields : Nat → List Byte → Option (List FieldBody × List Byte)
  | 0, b => some ([], b)
  | k + 1, b => (takeField b).bind fun (f, b1) => (takeFields k b1).map fun (fs, b2) => (f :: fs, b2)

/-- A row: its count, then its fields. -/
def takeRow (body : List Byte) : Option (List FieldBody × List Byte) :=
  (takeNumber 1 body).bind fun (k, b) => takeFields k b

/-- A layout as carried (section 11.4). -/
structure LayoutBody where
  display : Nat
  interval : Nat
  row0 : List FieldBody
  row1 : List FieldBody
  deriving DecidableEq, Repr

/-- The body of LAYOUT_SET (section 11.4). -/
def readLayout (body : List Byte) : Option LayoutBody :=
  (takeNumber 1 body).bind fun (d, b1) =>
  (takeNumber 1 b1).bind fun (interval, b2) =>
  (takeRow b2).bind fun (row0, b3) =>
  (takeRow b3).bind fun (row1, b4) =>
  (atEnd b4).map fun _ => ⟨d, interval, row0, row1⟩

/-- The values of one field lie in their ranges (R162). -/
def fieldInRange (f : FieldBody) : Bool :=
  (FieldKind.ofCode f.kind).isSome && decide (f.column ≤ 19) && decide (1 ≤ f.width) && decide (f.width ≤ 20)
    && decide (f.text.length ≤ 20)

/-- A row has 1 to 6 fields, each in range (R162). -/
def rowInRange (fs : List FieldBody) : Bool :=
  decide (1 ≤ fs.length) && decide (fs.length ≤ 6) && fs.all fieldInRange

/-- Two fields share a cell (R162). -/
def fieldsMeet (a b : FieldBody) : Bool :=
  decide (a.column < b.column + b.width) && decide (b.column < a.column + a.width)

/-- No field runs past column 19 and no two share a cell (R162). -/
def rowFits : List FieldBody → Bool
  | [] => true
  | f :: fs => decide (f.column + f.width ≤ Config.rowCells) && !fs.any (fieldsMeet f) && rowFits fs

/-- A field as the layout holds it; its text is clamped (R34, R162). -/
def layoutField (f : FieldBody) : LayoutField :=
  ⟨(FieldKind.ofCode f.kind).getD .text, f.column, f.width, clampText f.text⟩

/-- An accepted LAYOUT_SET (R162): the layout and interval are replaced, the crawl reset, the display
rendered. -/
def setLayout (d : Fin 4) (b : LayoutBody) (s : State) : State :=
  render d (modifyDisplay d (fun r => resetCrawl s.day s.cfn
    { r with row0 := b.row0.map layoutField, row1 := b.row1.map layoutField, crawlInterval := b.interval }) s)

/-- LAYOUT_SET carried out from its body (R162). -/
def carryLayoutSet (body : List Byte) (s : State) : Reply :=
  match readLayout body with
  | none => refuse .badLength s
  | some b =>
    match displayNumber b.display with
    | none => refuse .badValue s
    | some d =>
      if b.interval < 2 ∨ 50 < b.interval ∨ rowInRange b.row0 = false ∨ rowInRange b.row1 = false then
        refuse .badValue s
      else if rowFits b.row0 && rowFits b.row1 then accept [] (setLayout d b s)
      else refuse .overlap s

def execLayoutSet (s : State) : Host.Outcome State Fault Refusal := .next (serve 0x40#8 carryLayoutSet s)

/-! ### GLYPH_SET and ICON_SET (R165, R166) -/

/-- An accepted GLYPH_SET (R166): the rows are replaced, the glyph is dirty, and the display is rendered
(R163). -/
def setGlyph (d : Fin 4) (g : Nat) (rows : List Nat) (s : State) : State :=
  render d (modifyDisplay d (fun r =>
    { r with glyphs := r.glyphs.set g rows, dirty := r.dirty ||| (1#8 <<< g) }) s)

/-- GLYPH_SET carried out from its body (R166). -/
def carryGlyphSet (body : List Byte) (s : State) : Reply :=
  match takeNumbers [1, 1, 1, 1, 1, 1, 1, 1, 1, 1] body with
  | some (n :: g :: rows) =>
    match displayNumber n with
    | none => refuse .badValue s
    | some d =>
      if 7 < g ∨ rows.any (fun r => decide (31 < r)) = true then refuse .badValue s
      else accept [] (setGlyph d g rows s)
  | _ => refuse .badLength s

def execGlyphSet (s : State) : Host.Outcome State Fault Refusal := .next (serve 0x41#8 carryGlyphSet s)

/-- ICON_SET carried out from its body (R165). -/
def carryIconSet (body : List Byte) (s : State) : Reply :=
  match takeNumbers [1, 1] body with
  | some [n, v] =>
    match displayNumber n with
    | none => refuse .badValue s
    | some d =>
      if 1 < v then refuse .badValue s
      else accept [] (render d (modifyDisplay d (fun r => { r with userIcon := v == 1 }) s))
  | _ => refuse .badLength s

def execIconSet (s : State) : Host.Outcome State Fault Refusal := .next (serve 0x42#8 carryIconSet s)

/-! ### CUE_PUSH and CUE_CLEAR (R168, R171) -/

/-- The fields of a CUE_PUSH as carried (section 11.4). -/
structure PushBody where
  displays : Nat
  text : Text
  tag : Nat
  hold : Nat
  deriving DecidableEq, Repr

/-- The body of CUE_PUSH (section 11.4). -/
def readPush (body : List Byte) : Option PushBody :=
  (takeNumber 1 body).bind fun (displays, b1) =>
  (takeText b1).bind fun (text, b2) =>
  (takeNumber 1 b2).bind fun (tag, b3) =>
  (takeNumber 2 b3).bind fun (hold, b4) =>
  (atEnd b4).map fun _ => ⟨displays, text, tag, hold⟩

/-- An accepted CUE_PUSH (R168): one entry at the tail of each named list, each display rendered (R163). -/
def pushCue (b : PushBody) (s : State) : State :=
  let c : Cue := ⟨clampText b.text, .control, b.tag, b.hold, none⟩
  (displaysOf (BitVec.ofNat 4 b.displays)).foldl
    (fun s d => render d (modifyDisplay d (joinCue s.day s.cfn c) s)) s

/-- CUE_PUSH carried out from its body (R168). -/
def carryCuePush (body : List Byte) (s : State) : Reply :=
  match readPush body with
  | none => refuse .badLength s
  | some b =>
    if b.displays = 0 ∨ 15 < b.displays ∨ 40 < b.text.length then refuse .badValue s
    else if (displaysOf (BitVec.ofNat 4 b.displays)).any
        (fun d => decide (Config.cueList ≤ s.displays[d].cues.length)) then refuse .full s
    else accept [] (pushCue b s)

def execCuePush (s : State) : Host.Outcome State Fault Refusal := .next (serve 0x43#8 carryCuePush s)

/-- CUE_CLEAR carried out (R171): a mark, then the removed entry's tag and origin. -/
def judgeCueClear (d : Fin 4) (s : State) : Reply :=
  match s.displays[d].cues with
  | [] => accept [0#8, 0#8, 0#8] s
  | c :: _ => accept (flagByte true ++ beBytes 1 c.tag ++ beBytes 1 c.origin.code) (render d (acknowledge d s))

def execCueClear (s : State) : Host.Outcome State Fault Refusal :=
  .next (serve 0x44#8 (displayRequest judgeCueClear) s)

/-! ### DISPLAY_BLANK and DISPLAY_UNBLANK (R181, R182) -/

/-- The answer: the state and blank mark after the request. -/
def acceptDisplay (d : Fin 4) (s : State) : Reply :=
  accept (beBytes 1 s.displays[d].state.code ++ flagByte s.displays[d].blankMark) s

/-- The closing units are set up on an unknown screen (R180, R181). -/
def closingUnits (r : Display) : Display :=
  { r with clearPending := true, iconsOffPending := true, sent := unknownImage }

/-- DISPLAY_BLANK carried out, by the display's state (R181). -/
def judgeBlank (d : Fin 4) (s : State) : Reply :=
  match s.displays[d].state with
  | .active =>
    acceptDisplay d (drive d (raiseDisplayState d (modifyDisplay d (fun r =>
      closingUnits { r with state := .blank, blankMark := true }) s)))
  | .fault => acceptDisplay d (modifyDisplay d (fun r => { r with blankMark := true }) s)
  | .blank => acceptDisplay d s

def execDisplayBlank (s : State) : Host.Outcome State Fault Refusal :=
  .next (serve 0x45#8 (displayRequest judgeBlank) s)

/-- DISPLAY_UNBLANK carried out, by the display's state (R182). -/
def judgeUnblank (d : Fin 4) (s : State) : Reply :=
  match s.displays[d].state with
  | .blank =>
    acceptDisplay d (drive d (raiseDisplayState d (modifyDisplay d (fun r =>
      fullRefresh { r with state := .active, blankMark := false, iconsOffPending := false }) s)))
  | .fault => acceptDisplay d (modifyDisplay d (fun r => { r with blankMark := false }) s)
  | .active => acceptDisplay d s

def execDisplayUnblank (s : State) : Host.Outcome State Fault Refusal :=
  .next (serve 0x46#8 (displayRequest judgeUnblank) s)

/-! ### DISPLAY_READ (R183, R213) -/

/-- The sent image: its cells with 0 where unknown, its icons, the unknown marks, and its cursor (R213). -/
def sentBytes (i : SentImage) : List Byte :=
  let cells := i.row0 ++ i.row1
  cells.map (fun c => c.getD 0#8) ++ bitsByte (i.icons.map (fun c => c.getD false))
    ++ cells.flatMap (fun c => flagByte c.isNone) ++ bitsByte (i.icons.map Option.isNone)
    ++ (match i.cursor with
      | none => [0xFF#8, 0xFF#8]
      | some (r, c) => beBytes 1 r ++ beBytes 1 c)

/-- Section 0. -/
def displaySection0 (s : State) (n : Fin 4) : List Byte :=
  let d := s.displays[n]
  beBytes 1 d.state.code ++ flagByte d.blankMark ++ beBytes 1 (levelCode s.busy[n]) ++ flagByte d.busyWait.isSome
    ++ [unitKindCode d.flight] ++ flagByte d.clearPending ++ flagByte d.iconsOffPending ++ [d.dirty]
    ++ d.target.row0 ++ d.target.row1 ++ [d.target.icons] ++ sentBytes d.sent

/-- A layout field in a response; TEXT has its text as a response text. -/
def fieldBytes (f : LayoutField) : List Byte :=
  beBytes 1 f.kind.code ++ beBytes 1 f.column ++ beBytes 1 f.width
    ++ (if f.kind = .text then beBytes 1 f.text.length ++ f.text else [])

/-- A row's fields, as sections 1 and 2 hold them.  DESIGN CHOICE: the crawl interval, which the spec lists before
row 0's fields, stands in section 1 alone (note 27). -/
def displayRowSection (fs : List LayoutField) : List Byte := beBytes 1 fs.length ++ fs.flatMap fieldBytes

/-- Section 3. -/
def displaySection3 (d : Display) : List Byte :=
  flagByte d.userIcon ++ d.glyphs.flatMap (fun g => g.flatMap (beBytes 1))

/-- One list entry; the head is followed by its expiry with a presence mark. -/
def cueBytes (c : Cue) : List Byte :=
  responseText 40 c.text ++ beBytes 1 c.origin.code ++ beBytes 1 c.tag ++ beBytes 2 c.hold

/-- Section 4. -/
def displaySection4 (d : Display) : List Byte :=
  beBytes 1 d.cues.length
    ++ (match d.cues with
      | [] => []
      | c :: rest => cueBytes c ++ optFrame c.expiry ++ rest.flatMap cueBytes)
    ++ beBytes 2 d.crawlPosition ++ optFrame d.nextCrawl

/-- The section asked for. -/
def displaySection (s : State) (n : Fin 4) (k : Nat) : List Byte :=
  let d := s.displays[n]
  match k with
  | 0 => displaySection0 s n
  | 1 => beBytes 1 d.crawlInterval ++ displayRowSection d.row0
  | 2 => displayRowSection d.row1
  | 3 => displaySection3 d
  | _ => displaySection4 d

/-- DISPLAY_READ carried out from its body (R183). -/
def carryDisplayRead (body : List Byte) (s : State) : Reply :=
  match takeNumbers [1, 1] body with
  | some [n, k] =>
    match displayNumber n with
    | none => refuse .badValue s
    | some d =>
      if 4 < k then refuse .badValue s
      else accept (beBytes 1 n ++ beBytes 1 k ++ beBytes 3 s.cfn ++ displaySection s d k) s
  | _ => refuse .badLength s

def execDisplayRead (s : State) : Host.Outcome State Fault Refusal := .next (serve 0x47#8 carryDisplayRead s)

/-! ### Tick work on a display (R170, R172, R179) -/

/-- CUE_EXPIRY (R170): when the head's expiry is due. -/
def execCueExpiry (d : Fin 4) (s : State) : Host.Outcome State Fault Refusal :=
  let s1 := settleSteps s
  if expiryDue s1 d then .next (render d (expireHead d s1)) else .next s

/-- CRAWL (R172): when the next crawl frame is due, after any expiry (R170). -/
def execCrawl (d : Fin 4) (s : State) : Host.Outcome State Fault Refusal :=
  let s1 := settleSteps s
  if !expiryDue s1 d && crawlDue s1 d then .next (render d (advanceCrawl d s1)) else .next s

/-- DISPLAY_FAULT (R179): when the busy wait has lasted 500 ms at the tick, after any expiry and crawl (R170). -/
def execDisplayFault (d : Fin 4) (s : State) : Host.Outcome State Fault Refusal :=
  let s1 := settleSteps s
  if !expiryDue s1 d && !crawlDue s1 d && busyOverdue s1 d then .next (render d (busyTest d s1)) else .next s

/-! ### The display line (R177, R178, R180) -/

/-- Recovery from FAULT (R180). -/
def recover (r : Display) : Display :=
  if r.blankMark then { r with state := .blank, clearPending := true, iconsOffPending := true }
  else fullRefresh { r with state := .active }

/-- A waiting byte starts as BUSY falls, and the busy wait ends (R178). -/
def startWaiting (r : Display) : Display :=
  { r with
    flight := r.flight.map (fun f => { f with waiting := false })
    busyWait := none }

/-- The level of a DSP_BUSY line as the part sees it. -/
def setBusy (d : Fin 4) (l : Level) (s : State) : State := { s with busy := s.busy.set d l }

/-- BUSY_FALL (R178, R180): a fault ends, or a waiting byte starts.  What the tick under way still has to do on
the display is done first, with its render (R163, R170). -/
def execBusyFall (d : Fin 4) (s : State) : Host.Outcome State Fault Refusal :=
  let s0 := displayTick d (settleSteps s)
  let s1 := setBusy d .low s0
  if s0.displays[d].state = .fault then .next (drive d (raiseDisplayState d (modifyDisplay d recover s1)))
  else .next (modifyDisplay d startWaiting s1)

/-- A unit completes: the sent image takes its content and the line falls idle (R177). -/
def finishUnit (u : DisplayUnit) (r : Display) : Display := { r with sent := completeUnit u r.sent, flight := none }

/-- UNIT_COMPLETION (R177): the unit being sent completes, and the engine chooses again (R176), finding BUSY
at `busy`.  A unit whose byte waits does not complete, and one whose cycles would pass the oscillator's next tick
does not occur before that tick (R9, R10, note 5).  DESIGN CHOICE: given between a tick row and the display's own
CUE_EXPIRY or CRAWL that is due, it leaves that work, and the engine chooses against the target as it stood before the
tick's render (R163, R170, note 4). -/
def execUnitCompletion (d : Fin 4) (elapsed : Nat) (busy : Level) (s : State) : Host.Outcome State Fault Refusal :=
  match s.displays[d].flight with
  | none => .next s
  | some f =>
    if f.waiting || !beforeTick elapsed s then .next s
    else .next (drive d (modifyDisplay d (finishUnit f.content) (setBusy d busy (passCycles elapsed s))))

/-- DISPLAY_BYTE (R178): a byte of the unit ends and the next starts, or waits for BUSY.  On an idle line the
level of BUSY alone is seen: a BUSY that is high while no byte waits starts no busy wait.  One whose cycles would
pass the oscillator's next tick does not occur before that tick (R9, R10, note 5).  DESIGN CHOICE: given between a tick
row and the display's own CUE_EXPIRY or CRAWL that is due, it leaves that work and the render after it as they stand
(R163, R170, note 4). -/
def execDisplayByte (d : Fin 4) (elapsed : Nat) (busy : Level) (s : State) : Host.Outcome State Fault Refusal :=
  match s.displays[d].flight with
  | none =>
    if busy = .high && beforeTick elapsed s then .next (setBusy d .high (passCycles elapsed s)) else .next s
  | some f =>
    if f.waiting || decide (f.left ≤ 1) || !beforeTick elapsed s then .next s
    else
      let s1 := setBusy d busy (passCycles elapsed s)
      .next (modifyDisplay d (startByte busy s1.clock f.content (f.left - 1)) s1)

end Sys2Proof.Machine
end

