-- ==== Sys2Proof/Machine/LinkCommands.lean ====
section
/-! DEFINITION. The meanings of the link's frames and of the requests the link owns (chapter 10). -/

namespace Sys2Proof.Machine

/-- REQUEST_FRAME (R200): the status byte and 0x00 on every later byte are returned, and the frame is judged
at its end. -/
def execRequestFrame (part : FramePart (List Byte)) (s : State) : Host.Outcome State Fault Refusal :=
  .next (takePart part 0x5A#8 List.length (fun bytes _ s => { s with link := judgeRequest bytes s.link }) s)

/-- FETCH_RESPONSE (R203): the answer fixed at the end of the first byte is returned, and the head it was is
removed if all of it was clocked. -/
def execFetchResponse (part : FramePart Nat) (s : State) : Host.Outcome State Fault Refusal :=
  .next (takePart part 0xA1#8 id (fun clocked t s =>
    if headTaken t clocked then { s with link := { s.link with responses := s.link.responses.tail } } else s) s)

/-- FETCH_NOTICE (R204). -/
def execFetchNotice (part : FramePart Nat) (s : State) : Host.Outcome State Fault Refusal :=
  .next (takePart part 0xA2#8 id (fun clocked t s =>
    if headTaken t clocked then { s with link := { s.link with notices := s.link.notices.tail } } else s) s)

/-- A frame is discarded: it is not a whole number of bytes, or its type is undefined (R196, R198). -/
def frameDiscarded (frameType : Byte) (bits : Nat) : Bool :=
  decide (bits % 8 ≠ 0) || !(frameType == 0x5A#8 || frameType == 0xA1#8 || frameType == 0xA2#8)

/-- The frame was faulty (R196, R198). -/
def setFrameFault (s : State) : State := { s with link := { s.link with frameFault := true } }

/-- A frame that ends inside its first byte, so that it has no type, is discarded (R196). -/
def endShortFrame (s : State) : State :=
  if linkListens s && (currentFrame s).typed.isNone then setFrameFault (endFrame [] s) else s

/-- The frame ends as one to be discarded, or has not ended yet. -/
def discardFits (frameType : Byte) (part : FramePart Nat) : Bool :=
  match part with
  | .begins => true
  | .typed => true
  | .ends bits => decide (bits ≠ 0) && frameDiscarded frameType bits

/-- The frame ends with less than its first byte. -/
def endsShort (part : FramePart Nat) : Bool :=
  match part with
  | .begins => false
  | .typed => false
  | .ends bits => decide (bits < 8)

/-- DISCARDED_FRAME (R196, R198): FRAME_FAULT is set at its end and nothing else of the link changes; a frame
without a clock edge changes nothing. -/
def execDiscardedFrame (frameType : Byte) (part : FramePart Nat) (s : State) : Host.Outcome State Fault Refusal :=
  if discardFits frameType part then
    if endsShort part then .next (endShortFrame s)
    else .next (takePart part frameType (fun bits => bits / 8 - 1) (fun _ _ => setFrameFault) s)
  else .next s

/-- UNKNOWN_REQUEST (R202). -/
def execUnknownRequest (s : State) : Host.Outcome State Fault Refusal :=
  .next (dispatch (fun e => e.mark == .good && !requestCodes.contains e.code)
    (fun _ => refuse .unknownRequest) s)

/-- FAULTED_ENTRY (R202): the mark's result code alone. -/
def execFaultedEntry (s : State) : Host.Outcome State Fault Refusal :=
  .next (dispatch (fun e => e.mark != .good)
    (fun e => refuse (if e.mark = .crcError then .crcError else .badLength)) s)

/-! ### STATUS_READ, STATUS_CLEAR, MASK_SET, IDENT (R207 to R210) -/

/-- DESIGN CHOICE: the status word of this answer, as that of STATUS_CLEAR and MASK_SET, is taken before the answer
joins the response FIFO, so its own response does not set RESP_READY in it (note 42). -/
def statusReadContents (s : State) : List Byte :=
  flagWordBytes (statusWord s) ++ flagWordBytes s.link.mask ++ beBytes 1 s.link.requests.length
    ++ beBytes 1 s.link.responses.length ++ beBytes 1 s.link.notices.length ++ beBytes 3 s.cfn

def carryStatusRead (s : State) : Reply := accept (statusReadContents s) s

def execStatusRead (s : State) : Host.Outcome State Fault Refusal :=
  .next (serve 0x50#8 (bodyless carryStatusRead) s)

/-- STATUS_CLEAR carried out from its body (R208). -/
def carryStatusClear (body : List Byte) (s : State) : Reply :=
  match takeNumbers [2] body with
  | some [w] =>
    if w < 2048 then
      let s1 : State := { s with link := clearSticky (BitVec.ofNat 11 w) s.link }
      accept (flagWordBytes (statusWord s1)) s1
    else refuse .badValue s
  | _ => refuse .badLength s

def execStatusClear (s : State) : Host.Outcome State Fault Refusal := .next (serve 0x51#8 carryStatusClear s)

/-- MASK_SET carried out from its body (R209). -/
def carryMaskSet (body : List Byte) (s : State) : Reply :=
  match takeNumbers [2] body with
  | some [w] =>
    if w < 2048 then
      let s1 : State := { s with link := { s.link with mask := BitVec.ofNat 11 w } }
      accept (flagWordBytes s1.link.mask ++ flagWordBytes (statusWord s1)) s1
    else refuse .badValue s
  | _ => refuse .badLength s

def execMaskSet (s : State) : Host.Outcome State Fault Refusal := .next (serve 0x52#8 carryMaskSet s)

/-- IDENT (R210): vendor code, part number, revision. -/
def carryIdent (s : State) : Reply := accept (beBytes 2 0x4C17 ++ beBytes 2 4816 ++ beBytes 1 1) s

def execIdent (s : State) : Host.Outcome State Fault Refusal := .next (serve 0x53#8 (bodyless carryIdent) s)

/-! ### Reset (R211) -/

/-- DEVICE_RESET (R211): a good one with no body resets the part whatever the response FIFO holds and has no
response; one with a body is answered BAD_LENGTH like any other request. -/
def execDeviceReset (s : State) : Host.Outcome State Fault Refusal :=
  match s.link.requests with
  | [] => .next s
  | e :: _ =>
    if isGood 0x54#8 e && e.body.isEmpty then .next (resetPart s)
    else .next (serve 0x54#8 (fun _ => refuse .badLength) s)

/-- SPI_CS_N_HIGH (R196, R211): the link begins to take frames again, and a frame whose first byte has not ended
is over with nothing done. -/
def execSpiCsNHigh (s : State) : Host.Outcome State Fault Refusal :=
  .next { s with link := { s.link with
    awaitingCsHigh := false
    frame := s.link.frame.filter (fun f => f.typed.isSome) } }

end Sys2Proof.Machine
end

