-- ==== Sys2Proof/Machine/Panel.lean ====
section
/-! DEFINITION. The meanings of the Panel Input Unit's requests and of the edges at the tick under way
(chapter 9). -/

namespace Sys2Proof.Machine

def inputNumber (n : Nat) : Option (Fin 8) := if h : n < 8 then some ⟨n, h⟩ else none

/-- The debounced level is the active level (R186). -/
def PanelInput.isActive (r : PanelInput) : Bool := r.level == r.polarity.activeLevel

/-! ### INPUT_SET and INPUT_READ (R194, R195) -/

/-- The ACK display that an INPUT_SET stores: the one carried for ACK, else 0; none when out of range (R194). -/
def ackDisplayFor (f : InputFunction) (n : Nat) : Option (Fin 4) :=
  if f = .ack then (if h : n < 4 then some ⟨n, h⟩ else none) else some 0

/-- The record of an accepted INPUT_SET (R194).  The settled tick has no edge due. -/
def setInputRecord (f : InputFunction) (a : Fin 4) (p : Polarity) (debounce : Nat) (r : PanelInput) : PanelInput :=
  { r with function := f, ackDisplay := a, polarity := p, debounce, candidate := 0, edgeDue := false }

def configBytes (r : PanelInput) : List Byte :=
  beBytes 1 r.function.code ++ beBytes 1 r.ackDisplay.val ++ beBytes 1 r.polarity.code ++ beBytes 1 r.debounce

/-- INPUT_SET carried out from its body (R194). -/
def carryInputSet (body : List Byte) (s : State) : Reply :=
  match takeNumbers [1, 1, 1, 1, 1] body with
  | some [n, fc, an, pc, debounce] =>
    match inputNumber n, InputFunction.ofCode fc, Polarity.ofCode pc with
    | some i, some f, some p =>
      match ackDisplayFor f an with
      | none => refuse .badValue s
      | some a =>
        if 15 < debounce then refuse .badValue s
        else
          let s1 := modifyInput i (setInputRecord f a p debounce) s
          let r := s1.inputs[i]
          accept (configBytes r ++ beBytes 1 (levelCode r.level) ++ flagByte r.isActive) s1
    | _, _, _ => refuse .badValue s
  | _ => refuse .badLength s

def execInputSet (s : State) : Host.Outcome State Fault Refusal := .next (serve 0x48#8 carryInputSet s)

def inputReadContents (s : State) (n : Fin 8) : List Byte :=
  let r := s.inputs[n]
  beBytes 3 s.cfn ++ configBytes r ++ beBytes 1 ((r.lastSample.map levelCode).getD 0)
    ++ flagByte r.lastSample.isSome ++ beBytes 1 (levelCode r.level) ++ flagByte r.isActive
    ++ beBytes 1 r.candidate ++ beBytes 2 r.edges

/-- INPUT_READ carried out from its body (R195). -/
def carryInputRead (body : List Byte) (s : State) : Reply :=
  match takeNumbers [1] body with
  | some [n] =>
    match inputNumber n with
    | none => refuse .badValue s
    | some i => accept (inputReadContents s i) s
  | _ => refuse .badLength s

def execInputRead (s : State) : Host.Outcome State Fault Refusal := .next (serve 0x49#8 carryInputRead s)

/-! ### Edges at the tick under way (R188 to R192) -/

/-- An active edge of one function is taken when it is due. -/
def takeActiveEdge (f : InputFunction) (n : Fin 8) (s : State) : State :=
  let s1 := settleSteps s
  if activeEdgeDue f s1.inputs[n] then performEdge n s1 else s

/-- ACTIVE_EDGE (R188): an active edge on an input whose function is NONE. -/
def execActiveEdge (n : Fin 8) (s : State) : Host.Outcome State Fault Refusal := .next (takeActiveEdge .nothing n s)

/-- INACTIVE_EDGE (R188). -/
def execInactiveEdge (n : Fin 8) (s : State) : Host.Outcome State Fault Refusal :=
  let s1 := settleSteps s
  if inactiveEdgeDue s1.inputs[n] then .next (performEdge n s1) else .next s

/-- PANEL_TAKE (R189): an active edge on an input whose function is TAKE. -/
def execPanelTake (n : Fin 8) (s : State) : Host.Outcome State Fault Refusal := .next (takeActiveEdge .take n s)

/-- PANEL_HOLD (R190): an active edge on an input whose function is HOLD. -/
def execPanelHold (n : Fin 8) (s : State) : Host.Outcome State Fault Refusal := .next (takeActiveEdge .hold n s)

/-- PANEL_ACK (R191): an active edge on an input whose function is ACK. -/
def execPanelAck (n : Fin 8) (s : State) : Host.Outcome State Fault Refusal := .next (takeActiveEdge .ack n s)

/-- PANEL_REPORT (R192): an active edge on an input whose function is REPORT. -/
def execPanelReport (n : Fin 8) (s : State) : Host.Outcome State Fault Refusal := .next (takeActiveEdge .report n s)

end Sys2Proof.Machine
end

