-- ==== Sys2Proof/Machine/Ports.lean ====
section
/-! DEFINITION. The meanings of the Port Controller's requests and of the events on the cue ports (chapter
7). -/

namespace Sys2Proof.Machine

/-! ### Numbered records named by a request -/

def profileNumber (n : Nat) : Option (Fin 8) := if h : n < 8 then some ⟨n, h⟩ else none

def groupNumber (n : Nat) : Option (Fin 4) := if h : n < 4 then some ⟨n, h⟩ else none

def portNumber (n : Nat) : Option (Fin 16) := if h : n < 16 then some ⟨n, h⟩ else none

/-- A request whose body is one port number; a number above 15 is BAD_VALUE. -/
def portRequest (h : Fin 16 → State → Reply) (body : List Byte) (s : State) : Reply :=
  match takeNumbers [1] body with
  | some [n] =>
    match portNumber n with
    | none => refuse .badValue s
    | some p => h p s
  | _ => refuse .badLength s

/-! ### PROFILE_SET and PROFILE_READ (R137, R138) -/

/-- A timed field as given, with its effective count at the rate in force (R136). -/
def givenTimed (r : Rate) (ms floor : Nat) : Timed := ⟨ms, floor, effectiveFrames r ms floor⟩

/-- The effective values of a profile's timed fields, in field order (R137). -/
def effectiveBytes (k : Profile) : List Byte :=
  beBytes 1 k.preroll.effective ++ beBytes 1 k.loadRun.effective ++ beBytes 1 k.portGap.effective
    ++ beBytes 1 k.replyTimeout.effective ++ beBytes 1 k.pulseWidth.effective

/-- A port bound to the profile stops a PROFILE_SET (R137). -/
def profileBusy (s : State) (k : Fin 8) : Bool :=
  (portsOfProfile s k).any (fun p =>
    s.ports[p].state == .ready || s.ports[p].state == .await || s.ports[p].state == .pulsing)

/-- The profile that a PROFILE_SET body gives (R135, R136), from its numbers after the profile number. -/
def profileGiven (r : Rate) : List Nat → Option Profile
  | [preMs, preFloor, loadMs, loadFloor, gapMs, gapFloor, replyMs, replyFloor, pulseMs, pulseFloor, tol, chan] =>
    some {
      preroll := givenTimed r preMs preFloor
      loadRun := givenTimed r loadMs loadFloor
      portGap := givenTimed r gapMs gapFloor
      replyTimeout := givenTimed r replyMs replyFloor
      pulseWidth := givenTimed r pulseMs pulseFloor
      lateTolerance := tol
      channel := chan }
  | _ => none

/-- PROFILE_SET carried out from its body (R137). -/
def carryProfileSet (body : List Byte) (s : State) : Reply :=
  match takeNumbers [1, 2, 1, 2, 1, 2, 1, 2, 1, 2, 1, 1, 1] body with
  | some (n :: numbers) =>
    match profileGiven s.rtu.rate numbers with
    | none => refuse .badLength s
    | some given =>
      match profileNumber n with
      | none => refuse .badValue s
      | some k =>
        if 15 < given.channel then refuse .badValue s
        else if profileBusy s k then refuse .state s
        else accept (effectiveBytes given) { s with profiles := s.profiles.set k given }
  | _ => refuse .badLength s

def execProfileSet (s : State) : Host.Outcome State Fault Refusal := .next (serve 0x30#8 carryProfileSet s)

/-- A timed field as the host gave it. -/
def timedBytes (t : Timed) : List Byte := beBytes 2 t.ms ++ beBytes 1 t.floor

/-- Ports as a counted list. -/
def portList (ps : List (Fin 16)) : List Byte := beBytes 1 ps.length ++ ps.flatMap (fun p => beBytes 1 p.val)

def profileReadContents (s : State) (k : Fin 8) : List Byte :=
  let prof := s.profiles[k]
  timedBytes prof.preroll ++ timedBytes prof.loadRun ++ timedBytes prof.portGap
    ++ timedBytes prof.replyTimeout ++ timedBytes prof.pulseWidth ++ beBytes 1 prof.lateTolerance
    ++ beBytes 1 prof.channel ++ effectiveBytes prof ++ portList (portsOfProfile s k)

/-- PROFILE_READ carried out from its body (R138). -/
def carryProfileRead (body : List Byte) (s : State) : Reply :=
  match takeNumbers [1] body with
  | some [n] =>
    match profileNumber n with
    | none => refuse .badValue s
    | some k => accept (profileReadContents s k) s
  | _ => refuse .badLength s

def execProfileRead (s : State) : Host.Outcome State Fault Refusal := .next (serve 0x31#8 carryProfileRead s)

/-! ### GROUP_SET (R140) -/

/-- The group with its settings replaced (R140). -/
def setGroupLimits (r : Rate) (gapMs gapFloor windowMs windowFloor limit : Nat) (g : Group) : Group :=
  { g with
    gap := givenTimed r gapMs gapFloor
    window := givenTimed r windowMs windowFloor
    limit }

/-- GROUP_SET carried out from its body (R140). -/
def carryGroupSet (body : List Byte) (s : State) : Reply :=
  match takeNumbers [1, 2, 1, 2, 1, 1] body with
  | some [n, gapMs, gapFloor, windowMs, windowFloor, limit] =>
    match groupNumber n with
    | none => refuse .badValue s
    | some g =>
      if limit = 0 ∨ 8 < limit then refuse .badValue s
      else if (membersOf s g).any (fun p => s.ports[p].state != .held) then refuse .state s
      else
        let grp := setGroupLimits s.rtu.rate gapMs gapFloor windowMs windowFloor limit s.groups[g]
        accept (beBytes 1 grp.gap.effective ++ beBytes 1 grp.window.effective)
          { s with groups := s.groups.set g grp }
  | _ => refuse .badLength s

def execGroupSet (s : State) : Host.Outcome State Fault Refusal := .next (serve 0x32#8 carryGroupSet s)

/-! ### PORT_BIND, PORT_UNBIND, PORT_HOLD, PORT_RELEASE (R142 to R145) -/

/-- Back in service: READY, or PULSING while a pulse is in progress (R142, R144). -/
def inService (r : Port) : PortState := if r.pulseEnd.isSome then .pulsing else .ready

/-- The record of an accepted PORT_BIND (R142). -/
def bindRecord (k : Fin 8) (g : Option (Fin 4)) (r : Port) : Port :=
  { r with profile := some k, group := g, failures := 0, heldFromFault := false, state := inService r }

/-- An accepted PORT_BIND, with PORT_STATE when it ends a hold from fault (R142, R159). -/
def bindPort (p : Fin 16) (k : Fin 8) (g : Option (Fin 4)) (s : State) : State :=
  let s1 := modifyPort p (bindRecord k g) s
  if s.ports[p].heldFromFault then raisePortState p s1 else s1

/-- Members of the group other than the port (R142). -/
def otherMembers (s : State) (p : Fin 16) (g : Fin 4) : Nat := ((membersOf s g).filter (· != p)).length

/-- The answer of a port request: OK with the port's state after it. -/
def acceptPort (p : Fin 16) (s : State) : Reply := accept (beBytes 1 s.ports[p].state.code) s

/-- The checks of PORT_BIND after its values, in order (R142). -/
def judgeBind (p : Fin 16) (k : Fin 8) (g : Option (Fin 4)) (s : State) : Reply :=
  if !serialPort p && g.isSome then refuse .badPort s
  else if s.ports[p].state ≠ .unbound ∧ s.ports[p].state ≠ .held then refuse .state s
  else if g.any (fun g => decide (Config.groupMembers ≤ otherMembers s p g)) then refuse .noSpace s
  else acceptPort p (bindPort p k g s)

/-- PORT_BIND carried out from its body (R142). -/
def carryPortBind (body : List Byte) (s : State) : Reply :=
  match takeNumbers [1, 1, 1] body with
  | some [pn, kn, gn] =>
    match portNumber pn, profileNumber kn with
    | some p, some k =>
      if gn = 255 then judgeBind p k none s
      else
        match groupNumber gn with
        | none => refuse .badValue s
        | some g => judgeBind p k (some g) s
    | _, _ => refuse .badValue s
  | _ => refuse .badLength s

def execPortBind (s : State) : Host.Outcome State Fault Refusal := .next (serve 0x33#8 carryPortBind s)

/-- The record of an accepted PORT_UNBIND (R145). -/
def unbindRecord (r : Port) : Port :=
  { r with state := .unbound, profile := none, group := none, failures := 0, heldFromFault := false, pulseEnd := none }

/-- PORT_UNBIND carried out (R145): only in HELD. -/
def judgeUnbind (p : Fin 16) (s : State) : Reply :=
  if s.ports[p].state = .held then accept [] (modifyPort p unbindRecord s) else refuse .state s

def execPortUnbind (s : State) : Host.Outcome State Fault Refusal :=
  .next (serve 0x34#8 (portRequest judgeUnbind) s)

/-- The port becomes HELD, with PORT_STATE (R143, R159). -/
def enterHeld (fromFault : Bool) (p : Fin 16) (s : State) : State :=
  raisePortState p (modifyPort p (fun r =>
    { r with state := .held, heldFromFault := fromFault || r.heldFromFault }) s)

/-- PORT_HOLD carried out, by the port's state (R143). -/
def judgeHold (p : Fin 16) (s : State) : Reply :=
  match s.ports[p].state with
  | .unbound => refuse .state s
  | .ready => acceptPort p (enterHeld false p s)
  | .pulsing => acceptPort p (enterHeld false p s)
  | .await => acceptPort p (modifyPort p (fun r => { r with state := .holding }) s)
  | .fault => acceptPort p (enterHeld true p s)
  | .holding => acceptPort p s
  | .held => acceptPort p s

def execPortHold (s : State) : Host.Outcome State Fault Refusal := .next (serve 0x35#8 (portRequest judgeHold) s)

/-- A held port is released, with PORT_STATE when it had been held from fault (R144, R159). -/
def releaseHeld (p : Fin 16) (s : State) : State :=
  let s1 := modifyPort p (fun r => { r with state := inService r, failures := 0, heldFromFault := false }) s
  if s.ports[p].heldFromFault then raisePortState p s1 else s1

/-- PORT_RELEASE carried out, by the port's state (R144). -/
def judgeRelease (p : Fin 16) (s : State) : Reply :=
  match s.ports[p].state with
  | .unbound => refuse .state s
  | .fault => refuse .state s
  | .held => acceptPort p (releaseHeld p s)
  | .holding => acceptPort p (modifyPort p (fun r => { r with state := .await }) s)
  | .ready => acceptPort p s
  | .await => acceptPort p s
  | .pulsing => acceptPort p s

def execPortRelease (s : State) : Host.Outcome State Fault Refusal :=
  .next (serve 0x36#8 (portRequest judgeRelease) s)

/-! ### PORT_READ (R158) -/

/-- The outstanding command with its presence mark first.  DESIGN CHOICE: story id, tag and detached mark are sent in
every answer, in that order; the ids of a detached command are 0, and its mark is set (R158).  DESIGN CHOICE: the verb is sent by the codes that
section 11.6 gives for a kind and for the verb of ARM_READ, 1 to 3, not by those of the line (R149) (note 27). -/
def commandBytes (c : Option Outstanding) : List Byte :=
  let ref := c.bind Outstanding.element
  flagByte c.isSome ++ beBytes 1 ((c.map (fun c => c.verb.code)).getD 0) ++ beBytes 2 ((c.map (·.number)).getD 0)
    ++ beBytes 3 ((c.map (·.issue)).getD 0) ++ beBytes 3 ((c.map (·.deadline)).getD 0)
    ++ beBytes 4 ((ref.map Prod.fst).getD 0) ++ beBytes 1 ((ref.map Prod.snd).getD 0)
    ++ flagByte (c.isSome && ref.isNone)

/-- The group part of PORT_READ; all zero but the number when the port is in no group.  DESIGN CHOICE: the length of
the issue history stands before its entries (note 27). -/
def groupBytes (s : State) (g : Option (Fin 4)) : List Byte :=
  let grp := g.map (fun g => s.groups[g])
  let history := (grp.map (·.history)).getD []
  beBytes 1 ((g.map Fin.val).getD 255) ++ beBytes 1 ((grp.map (·.gap.effective)).getD 0)
    ++ beBytes 1 ((grp.map (·.window.effective)).getD 0) ++ beBytes 1 ((grp.map (·.limit)).getD 0)
    ++ portList ((g.map (membersOf s)).getD []) ++ beBytes 1 history.length
    ++ history.flatMap (fun e => beBytes 3 e.1 ++ beBytes 1 e.2.val)

/-- What PORT_READ answers, in the order of R158.  DESIGN CHOICE: the byte that says whether the contact is closed is
sent for a serial port too, where it is 0 (note 27). -/
def portReadContents (s : State) (p : Fin 16) : List Byte :=
  let r := s.ports[p]
  let prof := boundProfile s p
  beBytes 3 s.cfn ++ beBytes 1 r.state.code ++ flagByte r.heldFromFault ++ flagByte r.pulseEnd.isSome
    ++ beBytes 1 ((r.profile.map Fin.val).getD 255) ++ (prof.map effectiveBytes).getD (List.replicate 5 0#8)
    ++ beBytes 1 ((prof.map (·.lateTolerance)).getD 0) ++ beBytes 1 ((prof.map (·.channel)).getD 0)
    ++ beBytes 1 r.failures ++ optFrame r.lastIssue ++ optFrame r.lastLoad ++ commandBytes r.command
    ++ optFrame r.pulseEnd ++ groupBytes s r.group

/-- PORT_READ carried out (R158). -/
def judgePortRead (p : Fin 16) (s : State) : Reply := accept (portReadContents s p) s

def execPortRead (s : State) : Host.Outcome State Fault Refusal :=
  .next (serve 0x37#8 (portRequest judgePortRead) s)

/-! ### Replies, deadlines and pulse ends (R150 to R155) -/

/-- Classes of a received byte (R150). -/
inductive ReplyClass where
  | accept | refuse | busy | garbled
  deriving DecidableEq, Repr

/-- The class of a received byte (R150). -/
def replyClass (value : Byte) (parityOk stopHigh : Bool) : ReplyClass :=
  if !(parityOk && stopHigh) then .garbled
  else if value = 0x4B#8 then .accept
  else if value = 0x4E#8 then .refuse
  else if value = 0x42#8 then .busy
  else .garbled

/-- A reply byte settles the outstanding command by its class (R151, R153). -/
def settleReply (p : Fin 16) (c : Outstanding) (k : ReplyClass) (s : State) : State :=
  match k with
  | .accept =>
    settlePort p false (c.element.elim s (fun ref =>
      modifyElement ref.1 ref.2 (fun e => { e with state := .done }) s))
  | .refuse => settlePort p false (failElement p .refused c.element s)
  | .busy => settlePort p false (c.element.elim s (fun ref => rearmBusy p c ref.1 ref.2 s))
  | .garbled => settlePort p true (failElement p .garbled c.element s)

/-- REPLY_BYTE (R150): without an outstanding command the byte is discarded. -/
def execReplyByte (p : Fin 16) (value : Byte) (parityOk stopHigh : Bool) (s : State) :
    Host.Outcome State Fault Refusal :=
  let s1 := settleSteps s
  match s1.ports[p].command with
  | none => .next s
  | some c => .next (settleReply p c (replyClass value parityOk stopHigh) s1)

/-- REPLY_TIMEOUT (R152): when the deadline is due. -/
def execReplyTimeout (p : Fin 16) (s : State) : Host.Outcome State Fault Refusal :=
  let s1 := settleSteps s
  if deadlineDue s1 p then .next (takeDeadline p s1) else .next s

/-- PULSE_END (R155): when the pulse end frame is due. -/
def execPulseEnd (p : Fin 16) (s : State) : Host.Outcome State Fault Refusal :=
  let s1 := settleSteps s
  if pulseEndDue s1 p then .next (takePulseEnd p s1) else .next s

end Sys2Proof.Machine
end

