-- ==== Sys2Proof/Machine/Reference.lean ====
section
/-! DEFINITION. The meanings of the reset input, the house reference and the Reference Timing Unit's requests
(chapter 1, R211). -/

namespace Sys2Proof.Machine

/-- A tick `n` cycles on: the tick under way is completed, the counter restarts in mode `m`, and the tick is
made (R9, R10, R12). -/
def makeTick (n : Nat) (m : PulseMode) (lines : BitVec 8) (s : State) : State :=
  frameTick lines (restartCounter m (passCycles n (settleTick s)))

/-- RESET_N (R211): low holds the link off and releases ATTN_N; the rise gives every block its reset
values.  DESIGN CHOICE: a high level gives them too when RESET_N is high already and nothing rises (note 9). -/
def execResetN (level : Level) (s : State) : Host.Outcome State Fault Refusal :=
  match level with
  | .low => .next { s with resetHeld := true }
  | .high => .next { resetPart s with resetHeld := false }

/-- REF_FRAME_PULSE (R9, R10).  A pulse that would carry the counter past the tick due before it, at 3P/2 in
PRESENT mode and at P in ABSENT mode, does not occur (note 5). -/
def execRefFramePulse (elapsed : Nat) (lines : BitVec 8) (s : State) : Host.Outcome State Fault Refusal :=
  let c := s.rtu.counter + elapsed
  match s.rtu.mode with
  | .present =>
    if c < s.rtu.rate.halfPeriod then .next (passCycles elapsed s)
    else if c < s.rtu.rate.longPeriod then .next (makeTick elapsed .present lines s)
    else .next s
  | .absent =>
    if c < s.rtu.rate.halfPeriod then .next (restartCounter .present (passCycles elapsed s))
    else if c ≤ s.rtu.rate.period then .next (makeTick elapsed .present lines s)
    else .next s

/-- SUBSTITUTE_TICK (R9): only in PRESENT mode. -/
def execSubstituteTick (lines : BitVec 8) (s : State) : Host.Outcome State Fault Refusal :=
  match s.rtu.mode with
  | .present => .next (makeTick (cyclesTo s.rtu.rate.longPeriod s) .absent lines s)
  | .absent => .next s

/-- OSCILLATOR_TICK (R10): only in ABSENT mode. -/
def execOscillatorTick (lines : BitVec 8) (s : State) : Host.Outcome State Fault Refusal :=
  match s.rtu.mode with
  | .present => .next s
  | .absent => .next (makeTick (cyclesTo s.rtu.rate.period s) .absent lines s)

/-- REF_DATA_MESSAGE (R11): the bytes reach the receiver one by one. -/
def execRefDataMessage (bytes : List Byte) (s : State) : Host.Outcome State Fault Refusal :=
  .next { s with rtu := bytes.foldl receiveByte s.rtu }

/-- REF_DATA_TIMEOUT (R11): the open message is abandoned as incomplete. -/
def execRefDataTimeout (s : State) : Host.Outcome State Fault Refusal :=
  .next { s with rtu := { s.rtu with receiver := none } }

/-- LOW_STOP_BIT (R11): the open message is abandoned as incomplete.  DESIGN CHOICE: with none open the byte, be it
of the sync value, opens none (note 37). -/
def execLowStopBit (s : State) : Host.Outcome State Fault Refusal :=
  .next { s with rtu := { s.rtu with receiver := none } }

/-! ### RATE_SET (R17) -/

/-- The Reference Timing Unit after an accepted RATE_SET (R17). -/
def rateSetRtu (r : Rate) : Rtu :=
  { rate := r, cfn := 0, lock := .unlocked, counter := 0, mode := .absent, announced := none,
    disagreements := 0, offset := 0, receiver := none }

/-- An accepted RATE_SET (R17, R157, R173, R86). -/
def setRate (r : Rate) (s : State) : State :=
  let profiles := s.profiles.map (Profile.derive r)
  let s1 : State := { s with
    rtu := rateSetRtu r
    seq := { s.seq with planStart := 0, lastAdvance := none }
    profiles := profiles
    groups := s.groups.map (restateGroup r)
    ports := s.ports.map (restatePort profiles)
    displays := s.displays.map restateDisplay }
  let s2 := triggerWalk s1
  if s.rtu.lock = .unlocked then s2 else raiseRefState 0 s2

/-- RATE_SET carried out from its body (R17). -/
def carryRateSet (body : List Byte) (s : State) : Reply :=
  match takeNumbers [1] body with
  | some [code] =>
    match Rate.ofCode code with
    | none => refuse .badValue s
    | some r =>
      if s.seq.mode ≠ .idle ∨ s.items ≠ [] then refuse .state s else accept [] (setRate r s)
  | _ => refuse .badLength s

def execRateSet (s : State) : Host.Outcome State Fault Refusal := .next (serve 0x01#8 carryRateSet s)

/-! ### REF_READ (R16) and TC_CONVERT (R8) -/

def refReadContents (s : State) : List Byte :=
  let r := s.rtu
  beBytes 3 r.cfn ++ labelBytes (frameToLabel r.rate r.cfn) ++ flagByte r.rate.dropFrame
    ++ beBytes 1 r.lock.code ++ beBytes 1 r.rate.code ++ beBytes 1 r.mode.code ++ beBytes 1 r.disagreements
    ++ signedBytes (if r.disagreements = 0 then 0 else r.offset)

def carryRefRead (s : State) : Reply := accept (refReadContents s) s

def execRefRead (s : State) : Host.Outcome State Fault Refusal := .next (serve 0x02#8 (bodyless carryRefRead) s)

/-- The contents both directions of TC_CONVERT answer with (R8). -/
def convertContents (r : Rate) (f : Frame) : List Byte :=
  beBytes 3 f ++ labelBytes (frameToLabel r f) ++ flagByte r.dropFrame

/-- TC_CONVERT carried out from its body (R8): direction 0 has a label after it, direction 1 a frame number.
An undefined direction is BAD_VALUE; DESIGN CHOICE: with a body of neither size it is BAD_LENGTH (note 8). -/
def carryTcConvert (body : List Byte) (s : State) : Reply :=
  match body with
  | [d, hh, mm, ss, ff] =>
    if d.toNat = 0 then
      let l : Label := ⟨hh.toNat, mm.toNat, ss.toNat, ff.toNat⟩
      if labelValid s.rtu.rate l then accept (convertContents s.rtu.rate (labelToFrame s.rtu.rate l)) s
      else refuse .badValue s
    else if d.toNat = 1 then refuse .badLength s
    else refuse .badValue s
  | [d, f2, f1, f0] =>
    if d.toNat = 1 then
      let f := ofBytes [f2, f1, f0]
      if f < s.day then accept (convertContents s.rtu.rate f) s else refuse .badValue s
    else if d.toNat = 0 then refuse .badLength s
    else refuse .badValue s
  | _ => refuse .badLength s

def execTcConvert (s : State) : Host.Outcome State Fault Refusal := .next (serve 0x03#8 carryTcConvert s)

end Sys2Proof.Machine
end

