-- ==== Sys2Proof/Machine/Show.lean ====
section
/-! DEFINITION. The meanings of the Show Sequencer's requests and of its steps at a tick (chapter 4), of the
walk completion and TIMING_READ (chapter 5), and of the due scan and ARM_READ (chapter 6). -/

namespace Sys2Proof.Machine

/-- A story id, or 0 for none. -/
def idBytes (id : Option StoryId) : List Byte := beBytes 4 (id.getD 0)

/-! ### TAKE (R73, R75) -/

/-- TAKE carried out (R73): TAKEN with the id, AF and lead; IGNORED with the reason and the TAKING id; or
STATE. -/
def carryTake (s : State) : Reply :=
  match judgeTake s with
  | .ignoredGuard => accept (beBytes 1 1 ++ beBytes 1 1 ++ idBytes (takingId s)) s
  | .ignoredTaking id => accept (beBytes 1 1 ++ beBytes 1 2 ++ beBytes 4 id) s
  | .refusedCaptured _ => refuse .state s
  | .refusedEmpty => refuse .state s
  | .accepted i =>
    let lead := takeLead s i
    accept (beBytes 1 0 ++ beBytes 4 i.id ++ beBytes 3 (addFrames s.day s.cfn lead) ++ beBytes 2 lead)
      (acceptTake i s)

def execTakeRequest (s : State) : Host.Outcome State Fault Refusal := .next (serve 0x20#8 (bodyless carryTake) s)

/-! ### NEXT_SET and NEXT_AUTO (R70, R71) -/

/-- The nomination names the item, and the standby choice is made if no item is TAKING (R70). -/
def nominate (id : StoryId) (s : State) : State :=
  announceStandby (standbyId s) (chooseStandby { s with seq := { s.seq with nomination := some id } })

/-- NEXT_SET carried out from its body (R70). -/
def carryNextSet (body : List Byte) (s : State) : Reply :=
  match takeNumbers [4] body with
  | some [id] =>
    if id = 0 then refuse .badValue s
    else
      match findItem s id with
      | none => refuse .notFound s
      | some i =>
        if (i.state ≠ .pending ∧ i.state ≠ .standby) ∨ standbyCaptured s = true then refuse .state s
        else
          let s1 := if s.seq.nomination = some id then s else nominate id s
          accept (idBytes (standbyId s1)) s1
  | _ => refuse .badLength s

def execNextSet (s : State) : Host.Outcome State Fault Refusal := .next (serve 0x21#8 carryNextSet s)

/-- The nomination is removed, with the mark of the STANDBY it named, and the standby choice is made (R71). -/
def unnominate (id : StoryId) (s : State) : State :=
  let s1 := modifyItem id (fun i => { i with nominated := false }) s
  announceStandby (standbyId s) (chooseStandby { s1 with seq := { s1.seq with nomination := none } })

/-- NEXT_AUTO carried out (R71): without a nomination it changes nothing. -/
def carryNextAuto (s : State) : Reply :=
  let s1 := s.seq.nomination.elim s (fun id => unnominate id s)
  accept (idBytes (standbyId s1)) s1

def execNextAuto (s : State) : Host.Outcome State Fault Refusal :=
  .next (serve 0x22#8 (bodyless carryNextAuto) s)

/-! ### HOLD, RELEASE and SHOW_STOP (R83, R84) -/

/-- HOLD carried out (R83). -/
def carryHold (s : State) : Reply :=
  match s.seq.mode with
  | .running => accept [] (holdShow s)
  | .holding => accept [] s
  | .idle => refuse .state s
  | .ended => refuse .state s

def execHoldRequest (s : State) : Host.Outcome State Fault Refusal := .next (serve 0x23#8 (bodyless carryHold) s)

/-- RELEASE carried out (R83). -/
def carryRelease (s : State) : Reply :=
  match s.seq.mode with
  | .running => accept [] s
  | .holding => accept [] (releaseShow s)
  | .idle => refuse .state s
  | .ended => refuse .state s

def execReleaseRequest (s : State) : Host.Outcome State Fault Refusal :=
  .next (serve 0x24#8 (bodyless carryRelease) s)

/-- SHOW_STOP on the ONAIR item: DONE with EF = CFN, ITEM_DONE, and its remaining elements missed with cause
ENDED (R84). -/
def stopOnair (i : Item) (s : State) : State :=
  stopItem i.id (raiseNotice .itemDone i.id 0 255 2
    (modifyItem i.id (fun i => { i with state := .done, endFrame := some s.cfn }) s))

/-- SHOW_STOP on the TAKING item: PENDING without AF, withdrawn and orphaned (R84). -/
def stopTaking (i : Item) (s : State) : State :=
  orphanItem i.id (withdrawItem i.id
    (modifyItem i.id (fun i => { i with state := .pending, airFrame := none }) s))

/-- SHOW_STOP on the STANDBY: withdrawn, its captured mark cleared (R84). -/
def stopStandby (i : Item) (s : State) : State :=
  withdrawItem i.id (modifyItem i.id (fun i => { i with captured := false }) s)

/-- SHOW_STOP in RUNNING or HOLDING (R84). -/
def stopShow (s : State) : State :=
  let before := standbyId s
  let s1 := (onairItem s).elim s (fun i => stopOnair i s)
  let s2 := (takingItem s1).elim s1 (fun i => stopTaking i s1)
  let s3 := (standbyItem s2).elim s2 (fun i => stopStandby i s2)
  closeShowEvent (setShow .idle (raiseStandbyIfMoved before (chooseStandby (triggerWalk s3))))

/-- SHOW_STOP carried out (R84). -/
def carryShowStop (s : State) : Reply :=
  match s.seq.mode with
  | .idle => refuse .state s
  | .ended => accept [] (closeShowEvent (setShow .idle (triggerWalk s)))
  | .running => accept [] (stopShow s)
  | .holding => accept [] (stopShow s)

def execShowStop (s : State) : Host.Outcome State Fault Refusal := .next (serve 0x25#8 (bodyless carryShowStop) s)

/-! ### SHOW_PLAN and SHOW_READ (R86, R87) -/

/-- The plan parameters a SHOW_PLAN selects. -/
structure PlanBody where
  planStart : Option Nat
  margin : Option Nat
  takeGuard : Option Nat
  deriving DecidableEq, Repr

/-- The body of SHOW_PLAN with its select byte (section 11.4). -/
def readPlan (body : List Byte) : Option (Nat × PlanBody) :=
  (takeNumber 1 body).bind fun (select, b1) =>
  (takeIf (select.testBit 0) (takeNumber 3) b1).bind fun (start, b2) =>
  (takeIf (select.testBit 1) (takeNumber 2) b2).bind fun (margin, b3) =>
  (takeIf (select.testBit 2) (takeNumber 1) b3).bind fun (takeGuard, b4) =>
  (atEnd b4).map fun _ => (select, ⟨start, margin, takeGuard⟩)

/-- The ranges of R86. -/
def planInRange (day select : Nat) (b : PlanBody) : Bool :=
  decide (select ≠ 0) && decide (select < 8) && b.planStart.all (fun n => decide (n < day))
    && b.margin.all (fun n => decide (n ≤ 1500)) && b.takeGuard.all (fun n => decide (n ≤ 50))

/-- An accepted SHOW_PLAN (R86). -/
def setPlan (b : PlanBody) (s : State) : State :=
  let s1 : State := { s with seq := { s.seq with
    planStart := b.planStart.getD s.seq.planStart
    margin := b.margin.getD s.seq.margin
    takeGuard := b.takeGuard.getD s.seq.takeGuard } }
  if b.planStart.isSome then triggerWalk s1 else s1

/-- SHOW_PLAN carried out from its body (R86). -/
def carryShowPlan (body : List Byte) (s : State) : Reply :=
  match readPlan body with
  | none => refuse .badLength s
  | some (select, b) => if planInRange s.day select b then accept [] (setPlan b s) else refuse .badValue s

def execShowPlan (s : State) : Host.Outcome State Fault Refusal := .next (serve 0x26#8 carryShowPlan s)

def showReadContents (s : State) : List Byte :=
  beBytes 1 s.seq.mode.code ++ idBytes (onairId s) ++ idBytes (takingId s) ++ idBytes (standbyId s)
    ++ flagByte ((standbyItem s).any Item.nominated) ++ flagByte (standbyCaptured s) ++ idBytes s.seq.cursor
    ++ idBytes s.seq.nomination ++ optFrame s.seq.lastAdvance ++ flagByte s.seq.overdue
    ++ beBytes 3 s.seq.planStart ++ beBytes 2 s.seq.margin ++ beBytes 1 s.seq.takeGuard ++ beBytes 3 s.cfn
    ++ walkBytes s

/-- SHOW_READ carried out (R87). -/
def carryShowRead (s : State) : Reply := accept (showReadContents s) s

def execShowRead (s : State) : Host.Outcome State Fault Refusal := .next (serve 0x27#8 (bodyless carryShowRead) s)

/-! ### The steps of the tick under way (R72) -/

/-- TAKING_AIR_FRAME (R77). -/
def execTakingAirFrame (s : State) : Host.Outcome State Fault Refusal := .next (takeNamedPhase .airFrame s)

/-- JUNCTION_TAKE (R81). -/
def execJunctionTake (s : State) : Host.Outcome State Fault Refusal := .next (takeNamedPhase .junction s)

/-- AUTO_FOLLOW (R78). -/
def execAutoFollow (s : State) : Host.Outcome State Fault Refusal := .next (takeNamedPhase .follow s)

/-- CAPTURE (R79 to R81). -/
def execCapture (s : State) : Host.Outcome State Fault Refusal := .next (takeNamedPhase .capture s)

/-! ### The walk completion and TIMING_READ (R104, R110) -/

/-- WALK_COMPLETION (R104): only a walk in flight completes.  The tick under way is complete before it, so that the
completion falls before a tick or after it and not among its steps (R101, R105). -/
def execWalkCompletion (s : State) : Host.Outcome State Fault Refusal :=
  let s1 := settleTick s
  if s1.engine.inFlight then .next (completeWalk s1) else .next s

/-- A display value: its seconds and its sign, or zeros when there is none.  DESIGN CHOICE: the pair has no presence
mark of its own; the mark of r or of OU before it stands for it (note 27). -/
def secondsBytes (v : Option DisplaySeconds) : List Byte :=
  match v with
  | none => [0#8, 0#8, 0#8]
  | some v => beBytes 2 v.seconds ++ [v.sign]

/-- A signed number of frames that may be absent, then its presence mark. -/
def optSigned (v : Option Int) : List Byte := signedBytes (v.getD 0) ++ flagByte v.isSome

def timingReadContents (s : State) : List Byte :=
  let i := onairItem s
  let r := remainingTime s
  let j := s.engine.nextJunction
  beBytes 3 s.cfn ++ labelBytes (frameToLabel s.rtu.rate s.cfn) ++ idBytes (i.map Item.id)
    ++ optFrame (i.bind Item.airFrame) ++ optFrame (i.map Item.duration) ++ flagByte (i.any (isOverrunning s))
    ++ optSigned r ++ secondsBytes (r.map (remainSeconds s.rtu.rate)) ++ optFrame s.engine.projectedEnd
    ++ optFrame s.engine.mustEnd ++ idBytes (j.map NextJunction.id) ++ optFrame (j.map NextJunction.target)
    ++ optSigned (j.map NextJunction.overUnder)
    ++ secondsBytes (j.map (fun j => overUnderSeconds s.rtu.rate j.overUnder))
    ++ beBytes 2 s.engine.pathLength ++ optFrame s.engine.pathEnd ++ walkBytes s

/-- TIMING_READ carried out (R110). -/
def carryTimingRead (s : State) : Reply := accept (timingReadContents s) s

def execTimingRead (s : State) : Host.Outcome State Fault Refusal :=
  .next (serve 0x28#8 (bodyless carryTimingRead) s)

/-! ### The due scan and ARM_READ (R124, R132) -/

/-- DUE_SCAN (R124): the one scan of the tick under way. -/
def execDueScan (s : State) : Host.Outcome State Fault Refusal :=
  let s1 := settleSteps s
  if s1.tick.scanLeft then .next (takeScan s1) else .next s

def entrySummary (e : ArmEntry) : List Byte :=
  beBytes 4 e.story ++ beBytes 1 e.tag ++ beBytes 1 (portField e.port) ++ beBytes 1 e.verb.code
    ++ beBytes 3 e.effect ++ beBytes 3 e.issue ++ beBytes 2 e.seq ++ flagByte e.deferred

/-- The summary of a WAITING element (R132).  DESIGN CHOICE: its port byte is 255 for a CUE_TEXT, as R132 has it in the
queue summary (note 27). -/
def waitingSummary (w : StoryId × Element) : List Byte :=
  beBytes 4 w.1 ++ beBytes 1 w.2.tag ++ beBytes 1 (portField w.2.action.port) ++ beBytes 1 w.2.action.kind.code

/-- The summaries of a list from a start position, with the numbers that precede them. -/
def listPart {α : Type} (summary : α → List Byte) (start count : Nat) (l : List α) : List Byte :=
  let shown := (l.drop start).take count
  beBytes 2 start ++ beBytes 1 shown.length ++ shown.flatMap summary

/-- ARM_READ carried out from its body (R132). -/
def carryArmRead (body : List Byte) (s : State) : Reply :=
  match takeNumbers [1, 2, 1] body with
  | some [selector, start, count] =>
    let waiting := waitingOrder s
    let length := if selector = 0 then s.sched.queue.length else waiting.length
    if 1 < selector ∨ count = 0 ∨ 8 < count ∨ length < start then refuse .badValue s
    else
      accept (beBytes 3 s.cfn ++ beBytes 1 s.sched.queue.length ++ beBytes 1 waiting.length
        ++ beBytes 2 s.sched.counter
        ++ (if selector = 0 then listPart entrySummary start count s.sched.queue
          else listPart waitingSummary start count waiting)) s
  | _ => refuse .badLength s

def execArmRead (s : State) : Host.Outcome State Fault Refusal := .next (serve 0x29#8 carryArmRead s)

end Sys2Proof.Machine
end

