-- ==== Sys2Proof/Machine/Dispatch.lean ====
section
/-! DEFINITION. One arm per command: each is one call of that command's meaning. -/

namespace Sys2Proof.Machine

def exec (i : Instr) (s : State) : Host.Outcome State Fault Refusal :=
  match i with
  | .resetN level => Sys2Proof.Machine.execResetN level s
  | .refFramePulse elapsed lines => Sys2Proof.Machine.execRefFramePulse elapsed lines s
  | .substituteTick lines => Sys2Proof.Machine.execSubstituteTick lines s
  | .oscillatorTick lines => Sys2Proof.Machine.execOscillatorTick lines s
  | .refDataMessage bytes => Sys2Proof.Machine.execRefDataMessage bytes s
  | .refDataTimeout => Sys2Proof.Machine.execRefDataTimeout s
  | .requestFrame part => Sys2Proof.Machine.execRequestFrame part s
  | .fetchResponse part => Sys2Proof.Machine.execFetchResponse part s
  | .fetchNotice part => Sys2Proof.Machine.execFetchNotice part s
  | .discardedFrame frameType part => Sys2Proof.Machine.execDiscardedFrame frameType part s
  | .unknownRequest => Sys2Proof.Machine.execUnknownRequest s
  | .rateSet => Sys2Proof.Machine.execRateSet s
  | .refRead => Sys2Proof.Machine.execRefRead s
  | .tcConvert => Sys2Proof.Machine.execTcConvert s
  | .itemInsert => Sys2Proof.Machine.execItemInsert s
  | .itemAmend => Sys2Proof.Machine.execItemAmend s
  | .itemMove => Sys2Proof.Machine.execItemMove s
  | .itemRetire => Sys2Proof.Machine.execItemRetire s
  | .itemReset => Sys2Proof.Machine.execItemReset s
  | .elementAdd => Sys2Proof.Machine.execElementAdd s
  | .elementAmend => Sys2Proof.Machine.execElementAmend s
  | .elementRemove => Sys2Proof.Machine.execElementRemove s
  | .itemRead => Sys2Proof.Machine.execItemRead s
  | .elementRead => Sys2Proof.Machine.execElementRead s
  | .rundownRead => Sys2Proof.Machine.execRundownRead s
  | .showClear => Sys2Proof.Machine.execShowClear s
  | .takeRequest => Sys2Proof.Machine.execTakeRequest s
  | .nextSet => Sys2Proof.Machine.execNextSet s
  | .nextAuto => Sys2Proof.Machine.execNextAuto s
  | .holdRequest => Sys2Proof.Machine.execHoldRequest s
  | .releaseRequest => Sys2Proof.Machine.execReleaseRequest s
  | .showStop => Sys2Proof.Machine.execShowStop s
  | .showPlan => Sys2Proof.Machine.execShowPlan s
  | .showRead => Sys2Proof.Machine.execShowRead s
  | .timingRead => Sys2Proof.Machine.execTimingRead s
  | .armRead => Sys2Proof.Machine.execArmRead s
  | .profileSet => Sys2Proof.Machine.execProfileSet s
  | .profileRead => Sys2Proof.Machine.execProfileRead s
  | .groupSet => Sys2Proof.Machine.execGroupSet s
  | .portBind => Sys2Proof.Machine.execPortBind s
  | .portUnbind => Sys2Proof.Machine.execPortUnbind s
  | .portHold => Sys2Proof.Machine.execPortHold s
  | .portRelease => Sys2Proof.Machine.execPortRelease s
  | .portRead => Sys2Proof.Machine.execPortRead s
  | .layoutSet => Sys2Proof.Machine.execLayoutSet s
  | .glyphSet => Sys2Proof.Machine.execGlyphSet s
  | .iconSet => Sys2Proof.Machine.execIconSet s
  | .cuePush => Sys2Proof.Machine.execCuePush s
  | .cueClear => Sys2Proof.Machine.execCueClear s
  | .displayBlank => Sys2Proof.Machine.execDisplayBlank s
  | .displayUnblank => Sys2Proof.Machine.execDisplayUnblank s
  | .displayRead => Sys2Proof.Machine.execDisplayRead s
  | .inputSet => Sys2Proof.Machine.execInputSet s
  | .inputRead => Sys2Proof.Machine.execInputRead s
  | .statusRead => Sys2Proof.Machine.execStatusRead s
  | .statusClear => Sys2Proof.Machine.execStatusClear s
  | .maskSet => Sys2Proof.Machine.execMaskSet s
  | .ident => Sys2Proof.Machine.execIdent s
  | .deviceReset => Sys2Proof.Machine.execDeviceReset s
  | .takingAirFrame => Sys2Proof.Machine.execTakingAirFrame s
  | .junctionTake => Sys2Proof.Machine.execJunctionTake s
  | .autoFollow => Sys2Proof.Machine.execAutoFollow s
  | .capture => Sys2Proof.Machine.execCapture s
  | .walkCompletion => Sys2Proof.Machine.execWalkCompletion s
  | .dueScan => Sys2Proof.Machine.execDueScan s
  | .replyByte port value parityOk stopHigh => Sys2Proof.Machine.execReplyByte port value parityOk stopHigh s
  | .replyTimeout port => Sys2Proof.Machine.execReplyTimeout port s
  | .pulseEnd port => Sys2Proof.Machine.execPulseEnd port s
  | .cueExpiry display => Sys2Proof.Machine.execCueExpiry display s
  | .crawl display => Sys2Proof.Machine.execCrawl display s
  | .displayFault display => Sys2Proof.Machine.execDisplayFault display s
  | .busyFall display => Sys2Proof.Machine.execBusyFall display s
  | .unitCompletion display elapsed busy => Sys2Proof.Machine.execUnitCompletion display elapsed busy s
  | .activeEdge input => Sys2Proof.Machine.execActiveEdge input s
  | .inactiveEdge input => Sys2Proof.Machine.execInactiveEdge input s
  | .panelTake input => Sys2Proof.Machine.execPanelTake input s
  | .panelHold input => Sys2Proof.Machine.execPanelHold input s
  | .panelAck input => Sys2Proof.Machine.execPanelAck input s
  | .panelReport input => Sys2Proof.Machine.execPanelReport input s
  | .faultedEntry => Sys2Proof.Machine.execFaultedEntry s
  | .lowStopBit => Sys2Proof.Machine.execLowStopBit s
  | .displayByte display elapsed busy => Sys2Proof.Machine.execDisplayByte display elapsed busy s
  | .spiCsNHigh => Sys2Proof.Machine.execSpiCsNHigh s

end Sys2Proof.Machine
end

