-- ==== Sys2Proof/Safety.lean ====
section
/-! DEFINITION. The terms that statements about the part are made in: what the host put in the rundown, which
parts of the state a command leaves alone, when a request waits at the head of its FIFO, the bytes of request
bodies, and the bounds and invariants of a safe run. -/

namespace Sys2Proof.Machine

/-! ### The host's part of the rundown -/

/-- The fields of an element that only element edits write (section 2.3). -/
structure HostedElement where
  tag : Tag
  action : Action
  anchor : Anchor
  offset : Nat
  deriving DecidableEq, Repr

/-- The fields of an item that only edits write (section 2.2). -/
structure HostedItem where
  id : StoryId
  slug : Text
  note : Text
  presenters : BitVec 4
  duration : Nat
  float : Bool
  auto : Bool
  target : Option Frame
  elements : List HostedElement
  deriving DecidableEq, Repr

def Element.hosted (e : Element) : HostedElement := ⟨e.tag, e.action, e.anchor, e.offset⟩

def Item.hosted (i : Item) : HostedItem :=
  ⟨i.id, i.slug, i.note, i.presenters, i.duration, i.float, i.auto, i.target, i.elements.map Element.hosted⟩

/-- The rundown as the host made it: its items in order, with their elements in order. -/
def rundown (s : State) : List HostedItem := s.items.map Item.hosted

/-! ### What is left alone -/

/-- Left alone by every event of chapters 2 to 9: the Reference Timing Unit, the profiles, the lines from
outside, the clock, the command queue, and the link but for its FIFOs, NOTICE_LOST and MISSED. -/
structure Outside (s t : State) : Prop where
  rtu : t.rtu = s.rtu
  profiles : t.profiles = s.profiles
  busy : t.busy = s.busy
  resetHeld : t.resetHeld = s.resetHeld
  clock : t.clock = s.clock
  pending : t.pending = s.pending
  crcFault : t.link.crcFault = s.link.crcFault
  frameFault : t.link.frameFault = s.link.frameFault
  linkOverrun : t.link.linkOverrun = s.link.linkOverrun
  resetSeen : t.link.resetSeen = s.link.resetSeen
  mask : t.link.mask = s.link.mask
  awaitingCsHigh : t.link.awaitingCsHigh = s.link.awaitingCsHigh
  frame : t.link.frame = s.link.frame
  output : t.link.output = s.link.output

/-- Left alone too by every event that is no edit: the host's part of the rundown, the order revision, the
request and response FIFOs, and the bound of the notice FIFO. -/
structure Fixed (s t : State) : Prop extends Outside s t where
  revision : t.revision = s.revision
  rundown : rundown t = rundown s
  requests : t.link.requests = s.link.requests
  responses : t.link.responses = s.link.responses
  notices : s.link.notices.length ≤ Config.noticeFifo → t.link.notices.length ≤ Config.noticeFifo

/-- Left alone too by events that are no part of a tick and issue nothing: the groups, the inputs and the tick
under way. -/
structure Quiet (s t : State) : Prop extends Fixed s t where
  groups : t.groups = s.groups
  inputs : t.inputs = s.inputs
  tick : t.tick = s.tick

/-- What every request of chapters 2 to 9 leaves alone beside the response FIFO it joins. -/
structure RequestFrame (s t : State) : Prop extends Outside s t where
  groups : t.groups = s.groups
  inputs : t.inputs = s.inputs
  tick : t.tick = s.tick
  requests : t.link.requests = s.link.requests

/-! ### Requests -/

/-- A good entry with this code and body stands at the head of the request FIFO, with `rest` behind it, and
its answer has room (R200, R201). -/
abbrev Waiting (code : Byte) (body : List Byte) (rest : List RequestEntry) (s : State) : Prop :=
  s.link.requests = ⟨.good, code, body⟩ :: rest ∧ s.link.responses.length < Config.responseFifo

/-- From `s`, where the request is judged, to `t`: the answer has joined the response FIFO. -/
abbrev Answered (code : Byte) (body : List Byte) (s t : State) : Prop :=
  t.link.responses = s.link.responses ++ [⟨code, body⟩]

/-- The body of ITEM_INSERT (section 11.4). -/
def insertBytes (b : InsertBody) : List Byte :=
  beBytes 4 b.id ++ beBytes 4 b.place ++ beBytes 1 b.presenters ++ beBytes 3 b.duration ++ beBytes 1 b.flags
    ++ beBytes 1 b.mark ++ beBytes 3 b.target ++ beBytes 1 b.slug.length ++ b.slug
    ++ beBytes 1 b.note.length ++ b.note

/-- The fields of an insert fit their bytes; the ranges of R43 are narrower. -/
abbrev InsertBody.fits (b : InsertBody) : Prop :=
  b.id < 256 ^ 4 ∧ b.place < 256 ^ 4 ∧ b.presenters < 256 ∧ b.duration < 256 ^ 3 ∧ b.flags < 256 ∧ b.mark < 256
    ∧ b.target < 256 ^ 3 ∧ b.slug.length < 256 ∧ b.note.length < 256

/-- The body of ELEMENT_ADD for a serial element (section 11.4). -/
def addSerialBytes (h : AddHead) (v : Verb) (port anchor offset number : Nat) : List Byte :=
  beBytes 4 h.id ++ beBytes 1 h.tag ++ beBytes 1 h.before ++ beBytes 1 v.code ++ beBytes 1 port
    ++ beBytes 1 anchor ++ beBytes 2 offset ++ beBytes 2 number

/-- The body of ELEMENT_ADD for a PULSE. -/
def addPulseBytes (h : AddHead) (port anchor offset : Nat) : List Byte :=
  beBytes 4 h.id ++ beBytes 1 h.tag ++ beBytes 1 h.before ++ beBytes 1 4 ++ beBytes 1 port
    ++ beBytes 1 anchor ++ beBytes 2 offset

/-- The body of ELEMENT_ADD for a CUE_TEXT. -/
def addCueBytes (h : AddHead) (displays anchor offset hold : Nat) (text : Text) : List Byte :=
  beBytes 4 h.id ++ beBytes 1 h.tag ++ beBytes 1 h.before ++ beBytes 1 5 ++ beBytes 1 displays
    ++ beBytes 1 anchor ++ beBytes 2 offset ++ beBytes 2 hold ++ beBytes 1 text.length ++ text

/-- A text as a request carries it: its length byte, then its codes (R216). -/
def textBytes (t : Text) : List Byte := beBytes 1 t.length ++ t

/-- The bytes of a field that a select bit adds, none when it is not selected (R216). -/
def ifSelected {α : Type} (f : α → List Byte) (x : Option α) : List Byte := (x.map f).getD []

/-- The select byte of an ITEM_AMEND (section 11.4). -/
def AmendBody.select (b : AmendBody) : Nat :=
  bitsValue [b.slug.isSome, b.note.isSome, b.presenters.isSome, b.duration.isSome, b.float.isSome, b.auto.isSome,
    b.junction.isSome, b.target.isSome]

/-- The body of ITEM_AMEND. -/
def amendBytes (b : AmendBody) : List Byte :=
  beBytes 4 b.id ++ beBytes 1 b.select ++ ifSelected textBytes b.slug ++ ifSelected textBytes b.note
    ++ ifSelected (beBytes 1) b.presenters ++ ifSelected (beBytes 3) b.duration ++ ifSelected (beBytes 1) b.float
    ++ ifSelected (beBytes 1) b.auto ++ ifSelected (beBytes 1) b.junction ++ ifSelected (beBytes 3) b.target

/-- A number that a field may hold fits its bytes. -/
abbrev fitsIn (k : Nat) (x : Option Nat) : Prop := x.all (fun n => decide (n < 256 ^ k)) = true

/-- A text that a field may hold has a length that fits its byte. -/
abbrev textFits (t : Option Text) : Prop := t.all (fun t => decide (t.length < 256)) = true

/-- The fields of an amend fit their bytes. -/
abbrev AmendBody.fits (b : AmendBody) : Prop :=
  b.id < 256 ^ 4 ∧ textFits b.slug ∧ textFits b.note ∧ fitsIn 1 b.presenters ∧ fitsIn 3 b.duration
    ∧ fitsIn 1 b.float ∧ fitsIn 1 b.auto ∧ fitsIn 1 b.junction ∧ fitsIn 3 b.target

/-- A payload with its form byte (section 11.4). -/
def payloadBytes : Payload → List Byte
  | .number n => beBytes 1 0 ++ beBytes 2 n
  | .text t => beBytes 1 1 ++ textBytes t

/-- The select byte of an ELEMENT_AMEND (section 11.4). -/
def ElementFields.select (f : ElementFields) : Nat :=
  bitsValue [f.kind.isSome, f.port.isSome, f.displays.isSome, f.anchor.isSome, f.offset.isSome, f.payload.isSome,
    f.hold.isSome]

/-- The body of ELEMENT_AMEND. -/
def elementAmendBytes (id tag : Nat) (f : ElementFields) : List Byte :=
  beBytes 4 id ++ beBytes 1 tag ++ beBytes 1 f.select ++ ifSelected (beBytes 1) f.kind
    ++ ifSelected (beBytes 1) f.port ++ ifSelected (beBytes 1) f.displays ++ ifSelected (beBytes 1) f.anchor
    ++ ifSelected (beBytes 2) f.offset ++ ifSelected payloadBytes f.payload ++ ifSelected (beBytes 2) f.hold

/-- A payload fits its bytes. -/
abbrev Payload.fits (p : Payload) : Prop :=
  match p with
  | .number n => n < 65536
  | .text t => t.length < 256

/-- Element fields fit their bytes. -/
abbrev ElementFields.fits (f : ElementFields) : Prop :=
  fitsIn 1 f.kind ∧ fitsIn 1 f.port ∧ fitsIn 1 f.displays ∧ fitsIn 1 f.anchor ∧ fitsIn 2 f.offset
    ∧ (∀ p, f.payload = some p → p.fits) ∧ fitsIn 2 f.hold

/-- A layout field as LAYOUT_SET carries it: a TEXT field has its text (section 11.1). -/
def layoutFieldBytes (f : FieldBody) : List Byte :=
  beBytes 1 f.kind ++ beBytes 1 f.column ++ beBytes 1 f.width ++ (if f.kind = 0 then textBytes f.text else [])

/-- The body of LAYOUT_SET. -/
def layoutBytes (b : LayoutBody) : List Byte :=
  beBytes 1 b.display ++ beBytes 1 b.interval ++ beBytes 1 b.row0.length ++ b.row0.flatMap layoutFieldBytes
    ++ beBytes 1 b.row1.length ++ b.row1.flatMap layoutFieldBytes

/-- A layout field fits its bytes, and only TEXT has a text. -/
abbrev FieldBody.fits (f : FieldBody) : Prop :=
  f.kind < 256 ∧ f.column < 256 ∧ f.width < 256 ∧ f.text.length < 256 ∧ (f.kind ≠ 0 → f.text = [])

/-- The fields of a layout fit their bytes. -/
abbrev LayoutBody.fits (b : LayoutBody) : Prop :=
  b.display < 256 ∧ b.interval < 256 ∧ b.row0.length < 256 ∧ b.row1.length < 256
    ∧ (∀ f ∈ b.row0, f.fits) ∧ (∀ f ∈ b.row1, f.fits)

/-- The select byte of a SHOW_PLAN (section 11.4). -/
def PlanBody.select (b : PlanBody) : Nat := bitsValue [b.planStart.isSome, b.margin.isSome, b.takeGuard.isSome]

/-- The body of SHOW_PLAN. -/
def planBytes (b : PlanBody) : List Byte :=
  beBytes 1 b.select ++ ifSelected (beBytes 3) b.planStart ++ ifSelected (beBytes 2) b.margin
    ++ ifSelected (beBytes 1) b.takeGuard

/-- The fields of a plan fit their bytes. -/
abbrev PlanBody.fits (b : PlanBody) : Prop := fitsIn 3 b.planStart ∧ fitsIn 2 b.margin ∧ fitsIn 1 b.takeGuard

/-- The body of CUE_PUSH. -/
def pushBytes (b : PushBody) : List Byte :=
  beBytes 1 b.displays ++ beBytes 1 b.text.length ++ b.text ++ beBytes 1 b.tag ++ beBytes 2 b.hold

/-! ### Ticks, takes and the arm queue -/

/-- The pulse mode that a command's tick leaves and the lines it samples, if the command makes a tick (R9, R10). -/
def tickMade (c : Instr) (s : State) : Option (PulseMode × BitVec 8) :=
  match c, s.rtu.mode with
  | .refFramePulse n lines, .present =>
    if s.rtu.rate.halfPeriod ≤ s.rtu.counter + n ∧ s.rtu.counter + n < s.rtu.rate.longPeriod
    then some (.present, lines) else none
  | .refFramePulse n lines, .absent =>
    if s.rtu.rate.halfPeriod ≤ s.rtu.counter + n ∧ s.rtu.counter + n ≤ s.rtu.rate.period
    then some (.present, lines) else none
  | .substituteTick lines, .present => some (.absent, lines)
  | .oscillatorTick lines, .absent => some (.absent, lines)
  | _, _ => none

/-- The count at which the oscillator makes the next tick: 3P/2 in PRESENT mode, P in ABSENT mode (R9, R10). -/
abbrev oscillatorCount (s : State) : Nat :=
  if s.rtu.mode = .present then s.rtu.rate.longPeriod else s.rtu.rate.period

/-- The take guard still runs (R73). -/
abbrev GuardRuns (s : State) : Prop :=
  ∃ la, s.seq.lastAdvance = some la ∧ 0 ≤ signedDiff s.rtu.rate.day s.rtu.cfn la
    ∧ signedDiff s.rtu.rate.day s.rtu.cfn la < s.seq.takeGuard

/-- The lead of a firing, by the rule: pre-roll and load-to-run for LOAD, pre-roll for RUN and STOP, 0 for the
rest (R112). -/
def leadByRule (s : State) (a : Action) : Nat :=
  let held (f : Profile → Timed) (p : Fin 16) : Nat :=
    match s.ports[p].profile with
    | some k => (f s.profiles[k]).effective
    | none => 0
  match a with
  | .serial .load p _ => held Profile.preroll p + held Profile.loadRun p
  | .serial .run p _ => held Profile.preroll p
  | .serial .stop p _ => held Profile.preroll p
  | .pulse _ => 0
  | .cueText _ _ _ => 0

/-- The entry of an element armed from `start` and `stop`: its effect frame, and its issue frame a lead before it,
or CFN + 1 when that equals CFN (R112, R113, R116). -/
structure ArmedEntry (s : State) (id : StoryId) (start stop : Frame) (e : Element) (q : ArmEntry) : Prop where
  story : q.story = id
  tag : q.tag = e.tag
  port : q.port = e.action.port
  verb : q.verb = e.action.kind
  effect : q.effect = match e.anchor with
    | .fromStart => (start + e.offset) % s.rtu.rate.day
    | .fromEnd => (((stop : Int) - e.offset) % s.rtu.rate.day).toNat
  issue : let f := (((q.effect : Int) - leadByRule s e.action) % s.rtu.rate.day).toNat
    q.issue = if f = s.rtu.cfn then (s.rtu.cfn + 1) % s.rtu.rate.day else f
  deferred : q.deferred = false

/-- The entry stands behind the last one of the old queue whose issue frame is not later, or first (R115). -/
def PlacedInOrder (s : State) (q : ArmEntry) (queue : List ArmEntry) : Prop :=
  let ahead (x : ArmEntry) : Int := signedDiff s.rtu.rate.day x.issue s.rtu.cfn
  ∃ l r, s.sched.queue = l ++ r ∧ queue = l ++ q :: r ∧ (∀ x ∈ l.getLast?, ahead x ≤ ahead q)
    ∧ ∀ x ∈ r, ahead q < ahead x

/-- A spacing from a recorded frame to CFN is kept: the difference is negative or reaches the span (R146). -/
abbrev Apart (s : State) (recorded : Frame) (span : Nat) : Prop :=
  signedDiff s.rtu.rate.day s.rtu.cfn recorded < 0 ∨ (span : Int) ≤ signedDiff s.rtu.rate.day s.rtu.cfn recorded

/-- The five conditions on which a port with profile `k` takes a command of kind `v` at CFN (R146). -/
structure TakesByRule (s : State) (p : Fin 16) (k : Profile) (v : Kind) : Prop where
  ready : s.ports[p].state = .ready
  portGap : ∀ f, s.ports[p].lastIssue = some f → Apart s f k.portGap.effective
  loadToRun : v = .serial .run → ∀ f, s.ports[p].lastLoad = some f → Apart s f k.loadRun.effective
  groupGap : ∀ (g : Fin 4) (l r : List (Frame × Fin 16)) (e : Frame × Fin 16), s.ports[p].group = some g →
    s.groups[g].history = l ++ e :: r → e.2 ≠ p → (∀ x ∈ r, x.2 = p) → Apart s e.1 s.groups[g].gap.effective
  burst : ∀ g : Fin 4, s.ports[p].group = some g → 0 < s.groups[g].window.effective →
    (s.groups[g].history.filter (fun e => !decide (Apart s e.1 s.groups[g].window.effective))).length
      < s.groups[g].limit

/-- No entry of the arm queue is left for the element of an entry. -/
abbrev Gone (t : State) (q : ArmEntry) : Prop := ∀ y ∈ t.sched.queue, (y.story, y.tag) ≠ (q.story, q.tag)

/-- How many of the arm queue's entries an event leaves in it: those whose element still has one. -/
def staying (s t : State) : Nat :=
  (s.sched.queue.filter (fun q => t.sched.queue.any (fun y => y.isFor q.story q.tag))).length

/-- The projected end of a path item by a walk's results: of the item on air the walk's own, of any other its PS
plus its PD (R93 to R96). -/
def endOf (t : State) (i : Item) : Option Frame :=
  if i.state = .onair then t.engine.projectedEnd
  else ((findItem t i.id).bind Item.projectedStart).map (fun ps => (ps + i.duration) % t.rtu.rate.day)

/-- The over/under that the results give an item (R95, R99). -/
def overUnderOf (t : State) (i : Item) : Option Int := (findItem t i.id).bind Item.overUnder

/-- An item stands between two others in the rundown order (R82). -/
abbrev Between (s : State) (above below i : Item) : Prop :=
  positionOf s above.id < positionOf s i.id ∧ positionOf s i.id < positionOf s below.id

/-! ### Invariants -/

/-- The link's FIFOs hold no more than their capacities (R200, R201, R204). -/
abbrev LinkBounded (s : State) : Prop :=
  s.link.requests.length ≤ Config.requestFifo ∧ s.link.responses.length ≤ Config.responseFifo
    ∧ s.link.notices.length ≤ Config.noticeFifo

/-- The arm queue holds at most 48 entries (R114). -/
abbrev QueueBounded (s : State) : Prop := s.sched.queue.length ≤ Config.armQueue

/-- The arm queue and the elements agree: each entry belongs to one ARMED element, each ARMED element has one entry,
an entry's verb is PULSE only where its element's kind is, ARMED and WAITING elements belong to items near air with an
arm context, every ONAIR or TAKING item has a context, and the attached commands name ISSUED elements, no two the same
one (R113, R114, R116, R117, R119, R134). -/
abbrev ArmedOk (s : State) : Prop :=
  (s.sched.queue.map (fun q => (q.story, q.tag))).Nodup
    ∧ (∀ q ∈ s.sched.queue, (findElement s q.story q.tag).any
        (fun e => e.state == .armed && (q.port.isSome || e.action.port.isNone)
          && (q.verb != .pulse || e.action.kind == .pulse)) = true)
    ∧ (∀ i ∈ s.items, ∀ e ∈ i.elements, e.state = .armed → i.state.near = true ∧ i.context.isSome = true
        ∧ ∃ q ∈ s.sched.queue, q.story = i.id ∧ q.tag = e.tag)
    ∧ (∀ i ∈ s.items, ∀ e ∈ i.elements, e.state = .waiting → i.state.near = true ∧ i.context.isSome = true)
    ∧ (∀ i ∈ s.items, i.state = .onair ∨ i.state = .taking → i.context.isSome = true)
    ∧ (∀ p : Fin 16, (s.ports[p].command.bind Outstanding.element).all
        (fun r => (findElement s r.1 r.2).any (fun e => e.state == .issued)) = true)
    ∧ (∀ p x : Fin 16, p ≠ x → s.ports[p].command.bind Outstanding.element
        = s.ports[x].command.bind Outstanding.element → s.ports[p].command.bind Outstanding.element = none)

/-- Every urgent cue list holds at most 4 entries (R167). -/
abbrev CuesBounded (s : State) : Prop := ∀ d : Fin 4, s.displays[d].cues.length ≤ Config.cueList

/-- The store is within its capacities (R19, R20). -/
abbrev StoreBounded (s : State) : Prop :=
  s.items.length ≤ Config.itemSlots ∧ elementsInUse s ≤ Config.elementPool
    ∧ ∀ i ∈ s.items, i.elements.length ≤ Config.elementsPerItem

/-- No two items share a story id, none has id 0, and no two elements of one item share a tag (R23). -/
abbrev IdsUnique (s : State) : Prop :=
  (s.items.map Item.id).Nodup ∧ (∀ i ∈ s.items, i.id ≠ 0)
    ∧ ∀ i ∈ s.items, (i.elements.map Element.tag).Nodup

/-- Items in a state. -/
def inState (st : ItemState) (s : State) : Nat := (s.items.filter (fun i => i.state == st)).length

/-- The slots of the Show Sequencer (R66): at most one item each, never TAKING beside STANDBY, nothing on air
or taken in IDLE and ENDED, and a captured junction only in RUNNING and HOLDING (R79, R84). -/
abbrev SlotsOk (s : State) : Prop :=
  inState .onair s ≤ 1 ∧ inState .taking s ≤ 1 ∧ inState .standby s ≤ 1
    ∧ (inState .taking s = 0 ∨ inState .standby s = 0)
    ∧ (s.seq.mode = .idle ∨ s.seq.mode = .ended → inState .onair s = 0 ∧ inState .taking s = 0)
    ∧ (standbyCaptured s = true → s.seq.mode = .running ∨ s.seq.mode = .holding)

/-- The counters and parameters are in their ranges; the tick-phase counter has not passed the count at which the
oscillator makes a tick (R2, R9, R10, R13, R22, R66, R114, R188). -/
abbrev CountersOk (s : State) : Prop :=
  s.rtu.counter ≤ oscillatorCount s ∧ s.rtu.cfn < s.rtu.rate.day
    ∧ s.rtu.announced.all (fun a => decide (a < s.rtu.rate.day)) = true
    ∧ s.rtu.disagreements ≤ 2 ∧ s.revision < 65536 ∧ s.engine.generation < 65536 ∧ s.sched.counter < 65536
    ∧ s.seq.planStart < s.rtu.rate.day ∧ s.seq.margin ≤ 1500 ∧ s.seq.takeGuard ≤ 50

/-- A port's failure count is at most 3, and only AWAIT and HOLDING hold an outstanding command (R134). -/
abbrev PortsOk (s : State) : Prop :=
  ∀ p : Fin 16, s.ports[p].failures ≤ 3
    ∧ (s.ports[p].command ≠ none → s.ports[p].state = .await ∨ s.ports[p].state = .holding)

end Sys2Proof.Machine
end

