-- ==== Sys2Proof/WellFormed.lean ====
section
/-! DEFINITION. Which terms of `Instr` name an event the part's lines can carry.  Every other operand is
in range by its type. -/

namespace Sys2Proof

/-- Ports 4 to 15 are serial ports; ports 0 to 3 are contact ports (00_scope.md, R134). -/
def isSerialPort (p : Fin 16) : Bool := decide (4 ≤ p.val)

/-- The three frame types of R214. -/
def isFrameType (b : Byte) : Bool := b == 0x5A#8 || b == 0xA1#8 || b == 0xA2#8

/-- Bytes arrive, replies come and deadlines are kept on serial ports only (R134, R150); pulses end on
contact ports only (R155); a discarded frame has a clocked bit and either is not a whole number of bytes
or has an undefined type byte (R196, R198). -/
def Instr.wellFormed : Instr → Bool
  | .replyByte p _ _ _ => isSerialPort p
  | .replyTimeout p => isSerialPort p
  | .pulseEnd p => !isSerialPort p
  | .discardedFrame ty (.ends bits) => bits != 0 && (bits % 8 != 0 || !isFrameType ty)
  | _ => true

end Sys2Proof
end

