-- ==== Sys2Proof/Certificates/Slice0/Obligations.lean ====
section
/-! DEFINITION. The statements about the part, for the provers.  In a statement about a request, `rest` is
what stands behind it in the request FIFO and `s0` is the state it is judged on: the head has left the FIFO
and the tick under way is complete (R201). -/

open Sys2Proof Sys2Proof.Machine

/-! ### The machine -/

/-- A step takes the command at the front of the queue, on the state with the queue's rest. -/
def Obligations.StepTakesFrontCommand : Prop :=
  ∀ (c : Instr) (rest : List Instr) (s : State), s.pending = c :: rest →
    step s = exec c { s with pending := rest }

/-- Every command answers a next state in every state, never a fault or a refusal, and leaves the command queue alone.
The model's choice: a row whose event cannot occur in the state it meets answers a next state too (note 2), and a reset
keeps the command queue (note 9); file 95 says what each command's step holds and neither of these. -/
def Obligations.EveryCommandCompletes : Prop :=
  ∀ (c : Instr) (s : State), ∃ t, exec c s = .next t ∧ t.pending = s.pending

/-- The state after reset meets every invariant stated below (R18, R41, R211).  The rise of RESET_N gives it to every
block, whatever the part was doing (R211).  The model's choice: what RESET_N low leaves and that the rise keeps
the levels of the BUSY lines and the command queue (note 9), and the reset values of the model's own fields
(note 35). -/
def Obligations.ResetMeetsInvariants : Prop :=
  (LinkBounded State.reset ∧ QueueBounded State.reset ∧ ArmedOk State.reset ∧ CuesBounded State.reset
    ∧ StoreBounded State.reset ∧ IdsUnique State.reset ∧ SlotsOk State.reset ∧ CountersOk State.reset
    ∧ PortsOk State.reset)
  ∧ (∀ s : State, exec (.resetN .high) s = .next { State.reset with busy := s.busy, pending := s.pending })
  ∧ (∀ s : State, exec (.resetN .low) s = .next { s with resetHeld := true })

/-- Every step keeps the link's FIFOs within 4, 4 and 32 entries (R200, R201, R204). -/
def Obligations.StepKeepsLinkBounds : Prop :=
  ∀ s t : State, LinkBounded s → step s = .next t → LinkBounded t

/-- Every step keeps the arm queue within 48 entries (R114), and keeps queue and elements in agreement: each entry
belongs to one ARMED element, and to a PULSE element if its verb is PULSE, each ARMED element has exactly one entry,
ARMED and WAITING elements stand in items near air with an arm context, every ONAIR or TAKING item has a context, and
attached commands name ISSUED elements, no two the same (R113, R114, R116 to R119, R128, R134). -/
def Obligations.StepKeepsQueueBound : Prop :=
  (∀ s t : State, QueueBounded s → step s = .next t → QueueBounded t)
  ∧ (∀ s t : State, IdsUnique s → ArmedOk s → step s = .next t → ArmedOk t)

/-- Every step keeps every urgent cue list within 4 entries (R167). -/
def Obligations.StepKeepsCueListBounds : Prop :=
  ∀ s t : State, CuesBounded s → step s = .next t → CuesBounded t

/-- Every step keeps the store within 512 items, 2048 elements and 32 elements an item, with story ids and
tags unique (R19, R20, R23). -/
def Obligations.StepKeepsStore : Prop :=
  ∀ s t : State, StoreBounded s → IdsUnique s → step s = .next t → StoreBounded t ∧ IdsUnique t

/-- Every step keeps at most one item ONAIR, one TAKING and one STANDBY, never TAKING beside STANDBY, and
nothing on air or taken in IDLE or ENDED (R66). -/
def Obligations.StepKeepsSlots : Prop :=
  ∀ s t : State, IdsUnique s → SlotsOk s → step s = .next t → SlotsOk t

/-- Every step keeps in their ranges the tick-phase counter (3P/2 in PRESENT mode, P in ABSENT, R9, R10), CFN and the
pending announcement (R2), the disagreement count (R13), the order revision (R22), the walk generation (R90), the
arming counter (R114), PSF (R1, R86), margin and guard (R86). -/
def Obligations.StepKeepsCounters : Prop :=
  ∀ s t : State, CountersOk s → step s = .next t → CountersOk t

/-- Every step keeps the failure counts at most 3, and commands outstanding in AWAIT and HOLDING only. -/
def Obligations.StepKeepsPorts : Prop :=
  ∀ s t : State, PortsOk s → step s = .next t → PortsOk t

/-- Only RATE_SET and a reset change the rate in force, and only STATUS_CLEAR clears RESET_SEEN. -/
def Obligations.RateAndResetSeenChangers : Prop :=
  ∀ (c : Instr) (s t : State), exec c s = .next t →
    (t.rtu.rate ≠ s.rtu.rate → c = .rateSet ∨ c = .deviceReset ∨ c = .resetN .high)
      ∧ (s.link.resetSeen = true → t.link.resetSeen = false → c = .statusClear)

/-- Nothing but an edit, SHOW_CLEAR or a reset changes what the host put in the rundown: the order, the
items' descriptive and planning fields, and the elements' fields. -/
def Obligations.OnlyEditsChangeRundown : Prop :=
  ∀ (c : Instr) (s t : State), exec c s = .next t → rundown t ≠ rundown s →
    c ∈ [.itemInsert, .itemAmend, .itemMove, .itemRetire, .elementAdd, .elementAmend, .elementRemove,
      .showClear, .deviceReset, .resetN .high]

/-- A request that is answered with any code but OK changes nothing but the FIFOs it passes through: every request of
section 11.3, and a DEVICE_RESET with a body, which is answered BAD_LENGTH (R42, R43, R202, R211).  That such a
DEVICE_RESET is answered so is the model's reading (note 10). -/
def Obligations.RefusedRequestsChangeNothing : Prop :=
  (∀ (c : Instr) (code : Byte) (s t : State) (rest : List RequestEntry) (body : List Byte) (r : Byte)
      (more : List Byte),
    Waiting code body rest s → exec c s = .next t → t ≠ s →
    (code, c) ∈ [(0x01#8, .rateSet), (0x02#8, .refRead), (0x03#8, .tcConvert), (0x10#8, .itemInsert),
      (0x11#8, .itemAmend), (0x12#8, .itemMove), (0x13#8, .itemRetire), (0x14#8, .itemReset),
      (0x15#8, .elementAdd), (0x16#8, .elementAmend), (0x17#8, .elementRemove), (0x18#8, .itemRead),
      (0x19#8, .elementRead), (0x1A#8, .rundownRead), (0x1B#8, .showClear), (0x20#8, .takeRequest),
      (0x21#8, .nextSet), (0x22#8, .nextAuto), (0x23#8, .holdRequest), (0x24#8, .releaseRequest),
      (0x25#8, .showStop), (0x26#8, .showPlan), (0x27#8, .showRead), (0x28#8, .timingRead),
      (0x29#8, .armRead), (0x30#8, .profileSet), (0x31#8, .profileRead), (0x32#8, .groupSet),
      (0x33#8, .portBind), (0x34#8, .portUnbind), (0x35#8, .portHold), (0x36#8, .portRelease),
      (0x37#8, .portRead), (0x40#8, .layoutSet), (0x41#8, .glyphSet), (0x42#8, .iconSet), (0x43#8, .cuePush),
      (0x44#8, .cueClear), (0x45#8, .displayBlank), (0x46#8, .displayUnblank), (0x47#8, .displayRead),
      (0x48#8, .inputSet), (0x49#8, .inputRead), (0x50#8, .statusRead), (0x51#8, .statusClear),
      (0x52#8, .maskSet), (0x53#8, .ident), (0x54#8, .deviceReset)] →
    t.link.responses = s.link.responses ++ [⟨code, r :: more⟩] → r ≠ 0#8 →
      t = pushResponse code (r :: more) (takeHead rest s))
  ∧ (∀ (s : State) (rest : List RequestEntry) (b : Byte) (bs : List Byte), Waiting 0x54#8 (b :: bs) rest s →
    exec .deviceReset s = .next (pushResponse 0x54#8 [0x02#8] (takeHead rest s)))

/-- While the response FIFO is full, no request is dispatched, a DEVICE_RESET with a body among them; a good
DEVICE_RESET alone resets the part all the same (R201, R211).  The model's choice: a row whose request waits
changes nothing (note 2), a DEVICE_RESET with a body waits too (note 10), and what a reset keeps (note 9). -/
def Obligations.RequestsWaitForRoom : Prop :=
  (∀ (c : Instr) (s : State), Config.responseFifo ≤ s.link.responses.length →
    c ∈ [.unknownRequest, .faultedEntry, .rateSet, .refRead, .tcConvert, .itemInsert, .itemAmend, .itemMove,
      .itemRetire, .itemReset, .elementAdd, .elementAmend, .elementRemove, .itemRead, .elementRead,
      .rundownRead, .showClear, .takeRequest, .nextSet, .nextAuto, .holdRequest, .releaseRequest, .showStop,
      .showPlan, .showRead, .timingRead, .armRead, .profileSet, .profileRead, .groupSet, .portBind,
      .portUnbind, .portHold, .portRelease, .portRead, .layoutSet, .glyphSet, .iconSet, .cuePush, .cueClear,
      .displayBlank, .displayUnblank, .displayRead, .inputSet, .inputRead, .statusRead, .statusClear,
      .maskSet, .ident] → exec c s = .next s)
  ∧ (∀ (s : State) (rest : List RequestEntry) (b : Byte) (bs : List Byte),
    Config.responseFifo ≤ s.link.responses.length → s.link.requests = ⟨.good, 0x54#8, b :: bs⟩ :: rest →
    exec .deviceReset s = .next s)
  ∧ (∀ (s : State) (rest : List RequestEntry), s.link.requests = ⟨.good, 0x54#8, []⟩ :: rest →
    exec .deviceReset s
      = .next { State.reset with busy := s.busy, pending := s.pending, resetHeld := s.resetHeld })

/-! ### Frame time (chapter 1) -/

/-- The label of every frame number of the day is valid, and converts back to it (R6, R7). -/
def Obligations.LabelOfFrameConvertsBack : Prop :=
  ∀ (r : Rate) (f : Frame), f < r.day →
    labelValid r (frameToLabel r f) = true ∧ labelToFrame r (frameToLabel r f) = f

/-- The frame number of every valid label lies in the day, and converts back to the label (R5 to R7). -/
def Obligations.FrameOfLabelConvertsBack : Prop :=
  ∀ (r : Rate) (l : Label), labelValid r l = true →
    labelToFrame r l < r.day ∧ frameToLabel r (labelToFrame r l) = l

/-- The signed difference is a - b modulo FPD, less FPD when that is FPD/2 or more; it lies in
[-FPD/2, FPD/2) and is the way round the day from b to a (R3). -/
def Obligations.SignedDifferenceIsShorterWay : Prop :=
  ∀ (r : Rate) (a b : Frame), a < r.day → b < r.day →
    let m : Int := ((a : Int) - b) % r.day
    (2 * m < r.day → signedDiff r.day a b = m) ∧ ((r.day : Int) ≤ 2 * m → signedDiff r.day a b = m - r.day)
      ∧ -(r.day : Int) ≤ 2 * signedDiff r.day a b ∧ 2 * signedDiff r.day a b < r.day
      ∧ shiftFrame r.day (signedDiff r.day a b) b = a

/-- A tick with no announcement counts CFN on, restarts the counter and sets the pulse mode; a LOCKED part stays
LOCKED at a pulse and becomes FREEWHEEL at a substitute or oscillator tick, which raises REF_STATE (R9, R10, R12,
R13, R15).  A pulse before P/2 makes no tick.  The model's choice: a pulse that would pass 3P/2 in PRESENT mode,
or P in ABSENT mode, does not occur (note 5), nor a tick row of the other mode (note 2). -/
def Obligations.TicksWithoutAnnouncement : Prop :=
  (∀ (c : Instr) (s : State) (m : PulseMode) (lines : BitVec 8), tickMade c s = some (m, lines) →
    s.rtu.announced = none →
    let s1 := settleTick s
    let cfn := (s.rtu.cfn + 1) % s.rtu.rate.day
    let lock : LockState := if s.rtu.lock = .unlocked then .unlocked
      else if m = .present then s.rtu.lock else .freewheel
    ∃ t, exec c s = .next t ∧ t.rtu = { s.rtu with cfn := cfn, counter := 0, lock := lock, mode := m }
      ∧ t.link = (if lock = s.rtu.lock then s1.link else pushNotice ⟨.refState, cfn, 0, 0, lock.code, 0⟩ s1.link)
      ∧ rundown t = rundown s ∧ t.profiles = s.profiles ∧ t.pending = s.pending)
  ∧ (∀ (s : State) (n : Nat) (lines : BitVec 8),
    let c := s.rtu.counter + n
    (s.rtu.mode = .present → c < s.rtu.rate.halfPeriod →
      exec (.refFramePulse n lines) s
        = .next { s with rtu := { s.rtu with counter := c }, clock := s.clock + n })
    ∧ (s.rtu.mode = .absent → c < s.rtu.rate.halfPeriod →
      exec (.refFramePulse n lines) s
        = .next { s with rtu := { s.rtu with counter := 0, mode := .present }, clock := s.clock + n })
    ∧ (s.rtu.mode = .present → s.rtu.rate.longPeriod ≤ c → exec (.refFramePulse n lines) s = .next s)
    ∧ (s.rtu.mode = .absent → s.rtu.rate.period < c → exec (.refFramePulse n lines) s = .next s)
    ∧ (s.rtu.mode = .absent → exec (.substituteTick lines) s = .next s)
    ∧ (s.rtu.mode = .present → exec (.oscillatorTick lines) s = .next s))

/-- A tick with an announcement A, be it made by a pulse, a substitute or the oscillator: UNLOCKED takes A at once;
agreement clears the record; the third disagreement of one offset takes A; any other is counted in FREEWHEEL
(R12, R13).  The lock is LOCKED after a pulse and FREEWHEEL otherwise, and a jump or a change of lock raises
REF_STATE with the jump's offset, the CFN and the lock after it (R15). -/
def Obligations.TicksWithAnnouncement : Prop :=
  ∀ (c : Instr) (s : State) (m : PulseMode) (lines : BitVec 8) (a : Frame), tickMade c s = some (m, lines) →
    s.rtu.announced = some a →
    let s1 := settleTick s
    let cfn := (s.rtu.cfn + 1) % s.rtu.rate.day
    let d := signedDiff s.rtu.rate.day a cfn
    let lock : LockState := if m = .present then .locked else .freewheel
    let after : Rtu := { s.rtu with counter := 0, mode := m, announced := none }
    let taken : Rtu := { after with cfn := a, lock := lock, disagreements := 0, offset := 0 }
    let offset := ((max (-32768) (min 32767 d)) % 65536).toNat
    let kept (f : Frame) (l : LockState) : Link :=
      if l = s.rtu.lock then s1.link else pushNotice ⟨.refState, f, 0, 0, l.code, 0⟩ s1.link
    ∃ t, exec c s = .next t
      ∧ (s.rtu.lock = .unlocked →
        t.rtu = taken ∧ t.link = pushNotice ⟨.refState, a, 0, 0, lock.code, offset⟩ s1.link)
      ∧ (s.rtu.lock ≠ .unlocked → a = cfn → t.rtu = taken ∧ t.link = kept a lock)
      ∧ (s.rtu.lock ≠ .unlocked → a ≠ cfn → s.rtu.disagreements = 2 → s.rtu.offset = d →
        t.rtu = taken ∧ t.link = pushNotice ⟨.refState, a, 0, 0, lock.code, offset⟩ s1.link)
      ∧ (s.rtu.lock ≠ .unlocked → a ≠ cfn → s.rtu.disagreements = 1 → s.rtu.offset = d →
        t.rtu = { after with cfn := cfn, lock := .freewheel, disagreements := 2 } ∧ t.link = kept cfn .freewheel)
      ∧ (s.rtu.lock ≠ .unlocked → a ≠ cfn → (s.rtu.disagreements = 0 ∨ s.rtu.offset ≠ d) →
        t.rtu = { after with cfn := cfn, lock := .freewheel, disagreements := 1, offset := d }
          ∧ t.link = kept cfn .freewheel)

/-- A valid label message replaces the pending announcement by its label's frame number; a long gap or a low
stop bit abandons the open message (R11).  The model's choice: with no message open, a byte with a low stop bit opens
none, whatever its value (note 37). -/
def Obligations.LabelMessagesAnnounce : Prop :=
  (∀ (s : State) (hh mm ss ff flags : Byte), s.rtu.receiver = none →
    labelValid s.rtu.rate ⟨hh.toNat, mm.toNat, ss.toNat, ff.toNat⟩ = true →
    flags.getLsbD 0 = s.rtu.rate.dropFrame →
    let m : List Byte := [0xE7#8, hh, mm, ss, ff, flags, BitVec.ofNat 8 s.rtu.rate.code]
    exec (.refDataMessage (m ++ [checkByte m])) s = .next { s with rtu := { s.rtu with
      announced := some (labelToFrame s.rtu.rate ⟨hh.toNat, mm.toNat, ss.toNat, ff.toNat⟩) } })
  ∧ (∀ s : State, exec .refDataTimeout s = .next { s with rtu := { s.rtu with receiver := none } }
    ∧ (∀ m : List Byte, s.rtu.receiver = some m →
      exec .lowStopBit s = .next { s with rtu := { s.rtu with receiver := none } })
    ∧ (s.rtu.receiver = none → exec .lowStopBit s = .next s))

/-- A jump, taken from UNLOCKED or at the third disagreement of one offset, moves every frame that the ports and
groups hold and every cue expiry and next crawl frame of the displays by its offset, leaves the arm queue in
house time, and triggers a walk (R14, R156, R173).  The frames are those that the tick before left, whose work is
complete first (note 4). -/
def Obligations.JumpsShiftPortFrames : Prop :=
  ∀ (c : Instr) (s : State) (m : PulseMode) (lines : BitVec 8) (a : Frame), tickMade c s = some (m, lines) →
    s.rtu.announced = some a →
    let s1 := settleTick s
    let day := s.rtu.rate.day
    let next := (s.rtu.cfn + 1) % day
    let d := signedDiff day a next
    (s.rtu.lock = .unlocked ∨ (a ≠ next ∧ s.rtu.disagreements = 2 ∧ s.rtu.offset = d)) →
    ∃ t, exec c s = .next t ∧ t.rtu.cfn = a
      ∧ t.ports = s1.ports.map (shiftPort day d) ∧ t.groups = s1.groups.map (shiftGroup day d)
      ∧ (∀ x : Fin 4, t.displays[x].cues
            = s1.displays[x].cues.map (fun k => { k with expiry := k.expiry.map (shiftFrame day d) })
          ∧ t.displays[x].nextCrawl = s1.displays[x].nextCrawl.map (shiftFrame day d))
      ∧ t.sched = s1.sched ∧ t.engine.inFlight = true

/-- At every tick, be it made by a pulse, a substitute or the oscillator, each input stores its line's level and
counts it against the debounced level (R187).  The model's choice: a complete count leaves an edge due, which a
row of section 9.3 or the end of the tick takes, the edges of the tick before among them (notes 4 and 33). -/
def Obligations.TicksSampleInputs : Prop :=
  ∀ (c : Instr) (s : State) (m : PulseMode) (lines : BitVec 8), tickMade c s = some (m, lines) →
    ∃ t, exec c s = .next t ∧ ∀ n : Fin 8,
      let r := (settleTick s).inputs[n]
      let l := lineLevel lines n
      (l = r.level → t.inputs[n] = { r with lastSample := some l, candidate := 0 })
      ∧ (l ≠ r.level → r.candidate < r.debounce →
        t.inputs[n] = { r with lastSample := some l, candidate := r.candidate + 1 })
      ∧ (l ≠ r.level → r.candidate = r.debounce →
        t.inputs[n] = { r with lastSample := some l, edgeDue := true })

/-- An accepted RATE_SET puts the Reference Timing Unit at CFN 0, UNLOCKED, at the new rate, derives profiles
and groups anew and restates every frame held (R17, R86, R157, R173).  The model's choice: an outstanding command is
kept and restated as R157 says, where R134 has RATE_SET end it (note 36). -/
def Obligations.RateSetRestates : Prop :=
  ∀ (r : Rate) (s : State) (rest : List RequestEntry), Waiting 0x01#8 (beBytes 1 r.code) rest s →
    let s0 := takeHead rest s
    s0.seq.mode = .idle → s0.items = [] →
    ∃ t, exec .rateSet s = .next t ∧ Answered 0x01#8 [0#8] s0 t
      ∧ t.rtu = { rate := r, cfn := 0, lock := .unlocked, counter := 0, mode := .absent, announced := none,
                  disagreements := 0, offset := 0, receiver := none }
      ∧ t.seq = { s0.seq with planStart := 0, lastAdvance := none }
      ∧ t.profiles = s0.profiles.map (Profile.derive r) ∧ t.groups = s0.groups.map (restateGroup r)
      ∧ t.ports = s0.ports.map (restatePort (s0.profiles.map (Profile.derive r)))
      ∧ t.displays = s0.displays.map restateDisplay ∧ t.engine = { s0.engine with inFlight := true }
      ∧ t.items = [] ∧ t.inputs = s0.inputs ∧ t.sched = s0.sched ∧ t.link.mask = s0.link.mask

/-! ### The control link (chapter 10) -/

/-- The fall of SPI_CS_N fixes the status byte, the end of the first byte the type, and at the rise a well-formed
REQUEST frame joins the request FIFO as a good entry; the part returns the status byte of the fall and 0x00 on
every later byte (R197 to R200).  Once SPI_CS_N has been high the link listens (R211).  A frame's rise alone is
the whole frame in one moment, by the model's choice (note 6). -/
def Obligations.GoodRequestsJoinFifo : Prop :=
  (∀ s : State, exec .spiCsNHigh s = .next { s with link := { s.link with
    awaitingCsHigh := false, frame := s.link.frame.filter (fun f => f.typed.isSome) } })
  ∧ (∀ (s : State) (ty : Byte) (c : Instr), linkListens s = true → s.link.frame = none →
    c ∈ [.requestFrame .begins, .fetchResponse .begins, .fetchNotice .begins, .discardedFrame ty .begins] →
    exec c s = .next { s with link := { s.link with frame := some ⟨statusByte s, none⟩ } })
  ∧ (∀ (s : State) (b : Byte), linkListens s = true → s.link.frame = some ⟨b, none⟩ →
    exec (.requestFrame .typed) s
      = .next { s with link := { s.link with frame := some ⟨b, some ⟨0x5A#8, [], false⟩⟩ } })
  ∧ (∀ (s : State) (code : Byte) (body : List Byte), s.link.awaitingCsHigh = false → s.resetHeld = false →
    body.length ≤ 250 → s.link.requests.length < Config.requestFifo →
    let f := currentFrame s
    (f.typed = none ∨ f.typed = some ⟨0x5A#8, [], false⟩) →
    let head := code :: BitVec.ofNat 8 body.length :: body
    exec (.requestFrame (.ends (head ++ crcBytes head))) s = .next { s with link := { s.link with
      requests := s.link.requests ++ [⟨.good, code, body⟩], frame := none
      output := f.status :: List.replicate (body.length + 4) 0#8 } })

/-- REQUEST frames that are too short, meet a full FIFO, have a wrong size or a wrong CRC, and frames that are
discarded, set their flag at their end; only the mis-sized and CRC-failed ones leave a marked entry (R196, R198,
R200).  The model's choice: the bytes returned for a frame of an undefined type, 0x00, and those for a frame that
breaks off inside a byte, its whole bytes, with the answer that a fetch type settled; a rise alone is the whole frame
in one moment (note 6). -/
def Obligations.BadFramesAreMarked : Prop :=
  ∀ (s : State), linkListens s = true →
    let f := currentFrame s
    ((f.typed = none ∨ f.typed = some ⟨0x5A#8, [], false⟩) →
      (∀ bytes : List Byte, bytes.length < 2 → exec (.requestFrame (.ends bytes)) s = .next { s with
        link := { s.link with
          frameFault := true, frame := none, output := f.status :: List.replicate bytes.length 0#8 } })
      ∧ (∀ (code len : Byte) (more : List Byte), Config.requestFifo ≤ s.link.requests.length →
        exec (.requestFrame (.ends (code :: len :: more))) s = .next { s with link := { s.link with
          linkOverrun := true, frame := none, output := f.status :: List.replicate (more.length + 2) 0#8 } })
      ∧ (∀ (code len : Byte) (more : List Byte), s.link.requests.length < Config.requestFifo →
        (250 < len.toNat ∨ more.length ≠ len.toNat + 2) →
        exec (.requestFrame (.ends (code :: len :: more))) s = .next { s with link := { s.link with
          requests := s.link.requests ++ [⟨.badLength, code, []⟩], frameFault := true, frame := none
          output := f.status :: List.replicate (more.length + 2) 0#8 } })
      ∧ (∀ (code len : Byte) (body check : List Byte), s.link.requests.length < Config.requestFifo →
        len.toNat ≤ 250 → body.length = len.toNat → check.length = 2 → check ≠ crcBytes (code :: len :: body) →
        exec (.requestFrame (.ends (code :: len :: body ++ check))) s = .next { s with link := { s.link with
          requests := s.link.requests ++ [⟨.crcError, code, []⟩], crcFault := true, frame := none
          output := f.status :: List.replicate (body.length + 4) 0#8 } }))
    ∧ (∀ (ty : Byte) (bits : Nat), (Instr.discardedFrame ty (.ends bits)).wellFormed = true →
      (bits < 8 → f.typed = none → exec (.discardedFrame ty (.ends bits)) s = .next { s with link := { s.link with
        frameFault := true, frame := none, output := [] } })
      ∧ (8 ≤ bits → (ty = 0x5A#8 ∨ isFrameType ty = false) → (f.typed = none ∨ f.typed = some ⟨ty, [], false⟩) →
        exec (.discardedFrame ty (.ends bits)) s = .next { s with link := { s.link with
          frameFault := true, frame := none, output := f.status :: List.replicate (bits / 8 - 1) 0#8 } })
      ∧ (8 ≤ bits → f.typed = none →
        let returns (a : List Byte) : Prop := exec (.discardedFrame ty (.ends bits)) s
          = .next { s with link := { s.link with
            frameFault := true, frame := none
            output := f.status :: (a.take (bits / 8 - 1) ++ List.replicate (bits / 8 - 1 - a.length) 0#8) } }
        (∀ (r : Response) (rs : List Response), ty = 0xA1#8 → s.link.responses = r :: rs →
          returns (answerBytes r.code r.body))
        ∧ (ty = 0xA1#8 → s.link.responses = [] → returns emptyAnswer)
        ∧ (∀ (m : Notice) (ms : List Notice), ty = 0xA2#8 → s.link.notices = m :: ms →
          returns (answerBytes 0xFE#8 (noticeRecord m)))
        ∧ (ty = 0xA2#8 → s.link.notices = [] → returns emptyAnswer))
      ∧ (∀ (a : List Byte) (head : Bool), 8 ≤ bits → f.typed = some ⟨ty, a, head⟩ →
        exec (.discardedFrame ty (.ends bits)) s = .next { s with link := { s.link with
          frameFault := true, frame := none
          output := f.status :: (a.take (bits / 8 - 1) ++ List.replicate (bits / 8 - 1 - a.length) 0#8) } }))

/-- A fetch answers with the head as it stands at the end of the first byte, or with the empty answer, whatever joins
the FIFO later in the frame; it returns that answer and then 0x00, and removes the head when the whole of its
answer was clocked (R203, R204).  The status byte is the one of the fall (R197).  The model's choice: a rise with no
part before it is a whole fetch frame in one moment, whose status byte and answer are those of that moment (note 6, the
last group). -/
def Obligations.FetchesReturnHeads : Prop :=
  ∀ (s : State) (n : Nat), linkListens s = true →
    let f := currentFrame s
    let settled (t : TypedFrame) : State := { s with link := { s.link with frame := some ⟨f.status, some t⟩ } }
    let bytes (a : List Byte) : List Byte := f.status :: (a.take n ++ List.replicate (n - a.length) 0#8)
    (f.typed = none →
      (∀ (r : Response) (rs : List Response), s.link.responses = r :: rs →
        exec (.fetchResponse .typed) s = .next (settled ⟨0xA1#8, answerBytes r.code r.body, true⟩))
      ∧ (s.link.responses = [] → exec (.fetchResponse .typed) s = .next (settled ⟨0xA1#8, emptyAnswer, false⟩))
      ∧ (∀ (m : Notice) (ms : List Notice), s.link.notices = m :: ms →
        exec (.fetchNotice .typed) s = .next (settled ⟨0xA2#8, answerBytes 0xFE#8 (noticeRecord m), true⟩))
      ∧ (s.link.notices = [] → exec (.fetchNotice .typed) s = .next (settled ⟨0xA2#8, emptyAnswer, false⟩)))
    ∧ (∀ (a : List Byte) (head : Bool), f.typed = some ⟨0xA1#8, a, head⟩ →
      exec (.fetchResponse (.ends n)) s = .next { s with link := { s.link with
        responses := if head = true ∧ a.length ≤ n then s.link.responses.tail else s.link.responses
        frame := none, output := bytes a } })
    ∧ (∀ (a : List Byte) (head : Bool), f.typed = some ⟨0xA2#8, a, head⟩ →
      exec (.fetchNotice (.ends n)) s = .next { s with link := { s.link with
        notices := if head = true ∧ a.length ≤ n then s.link.notices.tail else s.link.notices
        frame := none, output := bytes a } })
    ∧ (f.typed = none →
      (∀ (r : Response) (rs : List Response), s.link.responses = r :: rs →
        let a := answerBytes r.code r.body
        exec (.fetchResponse (.ends n)) s = .next { s with link := { s.link with
          responses := if a.length ≤ n then rs else r :: rs, frame := none, output := bytes a } })
      ∧ (s.link.responses = [] → exec (.fetchResponse (.ends n)) s = .next { s with link := { s.link with
          frame := none, output := bytes emptyAnswer } })
      ∧ (∀ (m : Notice) (ms : List Notice), s.link.notices = m :: ms →
        let a := answerBytes 0xFE#8 (noticeRecord m)
        exec (.fetchNotice (.ends n)) s = .next { s with link := { s.link with
          notices := if a.length ≤ n then ms else m :: ms, frame := none, output := bytes a } })
      ∧ (s.link.notices = [] → exec (.fetchNotice (.ends n)) s = .next { s with link := { s.link with
          frame := none, output := bytes emptyAnswer } }))

/-- A faulted entry is answered with its mark's code alone, and a good entry of an undefined code with
UNKNOWN_REQUEST alone; neither reaches a block (R202). -/
def Obligations.FaultyEntriesAnswered : Prop :=
  ∀ (s : State) (e : RequestEntry) (rest : List RequestEntry), s.link.requests = e :: rest →
    s.link.responses.length < Config.responseFifo →
    (e.mark = .crcError → exec .faultedEntry s = .next (pushResponse e.code [0x01#8] (takeHead rest s)))
    ∧ (e.mark = .badLength → exec .faultedEntry s = .next (pushResponse e.code [0x02#8] (takeHead rest s)))
    ∧ (e.mark = .good → e.code ∉ requestCodes →
      exec .unknownRequest s = .next (pushResponse e.code [0x03#8] (takeHead rest s)))

/-- ATTN_N is asserted exactly when some status flag is set and unmasked, RESET_N being high (R206, R211). -/
def Obligations.AttentionFollowsMask : Prop :=
  ∀ s : State, attentionAsserted s = true ↔
    s.resetHeld = false ∧ ∃ n, n < 11 ∧ (statusFlags s).getD n false = true ∧ s.link.mask.getLsbD n = false

/-- IDENT is answered OK with the vendor code, the part number and the revision, in every state, and changes
nothing; it has no body (R210). -/
def Obligations.IdentAnswersInEveryState : Prop :=
  ∀ (s : State) (rest : List RequestEntry),
    (Waiting 0x53#8 [] rest s → exec .ident s
      = .next (pushResponse 0x53#8 [0x00#8, 0x4C#8, 0x17#8, 0x12#8, 0xD0#8, 0x01#8] (takeHead rest s)))
    ∧ (∀ (b : Byte) (bs : List Byte), Waiting 0x53#8 (b :: bs) rest s →
      exec .ident s = .next (pushResponse 0x53#8 [0x02#8] (takeHead rest s)))

/-- STATUS_READ answers the flags, the mask, the FIFO counts and CFN; STATUS_CLEAR clears the sticky flags it
names; MASK_SET replaces the mask; a set outside the eleven flags is BAD_VALUE (R207 to R209).  The model's choice:
the status word of all three answers is taken before the answer joins the response FIFO, so it does not count it in
RESP_READY (note 42). -/
def Obligations.StatusRequests : Prop :=
  ∀ (s : State) (rest : List RequestEntry) (w : Nat), w < 65536 →
    let s0 := takeHead rest s
    (Waiting 0x50#8 [] rest s → exec .statusRead s = .next (pushResponse 0x50#8
      (0#8 :: flagWordBytes (statusWord s0) ++ flagWordBytes s0.link.mask ++ beBytes 1 s0.link.requests.length
        ++ beBytes 1 s0.link.responses.length ++ beBytes 1 s0.link.notices.length ++ beBytes 3 s0.rtu.cfn) s0))
    ∧ (w < 2048 → Waiting 0x51#8 (beBytes 2 w) rest s →
      let s1 : State := { s0 with link := clearSticky (BitVec.ofNat 11 w) s0.link }
      exec .statusClear s = .next (pushResponse 0x51#8 (0#8 :: flagWordBytes (statusWord s1)) s1))
    ∧ (w < 2048 → Waiting 0x52#8 (beBytes 2 w) rest s →
      let s1 : State := { s0 with link := { s0.link with mask := BitVec.ofNat 11 w } }
      exec .maskSet s = .next (pushResponse 0x52#8
        (0#8 :: flagWordBytes (BitVec.ofNat 11 w) ++ flagWordBytes (statusWord s1)) s1))
    ∧ (2048 ≤ w → Waiting 0x51#8 (beBytes 2 w) rest s →
      exec .statusClear s = .next (pushResponse 0x51#8 [0x04#8] s0))
    ∧ (2048 ≤ w → Waiting 0x52#8 (beBytes 2 w) rest s →
      exec .maskSet s = .next (pushResponse 0x52#8 [0x04#8] s0))

/-- After the rise of RESET_N and after a good DEVICE_RESET the store is empty at revision 0, no notice is
left, the blocks that referred to records stand at their own reset values, and RESET_SEEN is set (R41, R211, R212).  The
model's choice: a high level of RESET_N resets without a rise too (note 9), and the reset value of the model's own fields,
the ports' transmit record and the engine's mark of a SHOW_CLEAR among them (note 35). -/
def Obligations.ResetsEmptyTheStore : Prop :=
  ∀ (s : State) (rest : List RequestEntry) (c : Instr),
    (c = .resetN .high ∨ (c = .deviceReset ∧ s.link.requests = ⟨.good, 0x54#8, []⟩ :: rest)) →
    ∃ t, exec c s = .next t ∧ t.items = [] ∧ t.revision = 0 ∧ t.link.notices = []
      ∧ (∀ id, findItem t id = none) ∧ elementsInUse t = 0
      ∧ t.seq = State.reset.seq ∧ t.engine = State.reset.engine ∧ t.sched = State.reset.sched
      ∧ t.ports = State.reset.ports ∧ t.displays = State.reset.displays ∧ t.link.resetSeen = true

/-! ### Reads -/

/-- The reads of the reference, the store, the sequencer, the engine and the scheduler answer from the state
they are judged on and change nothing else (R8, R16, R36 to R38, R87, R110, R132).  The model's choice: the places of the
bytes in the answers, a value before its mark and one byte a flag (note 27). -/
def Obligations.ShowReadsOnlyAnswer : Prop :=
  ∀ (s : State) (rest : List RequestEntry),
    let s0 := takeHead rest s
    (Waiting 0x02#8 [] rest s → exec .refRead s = .next (pushResponse 0x02#8 (0#8 :: refReadContents s0) s0))
    ∧ (∀ l : Label, l.hh < 256 → l.mm < 256 → l.ss < 256 → l.ff < 256 → labelValid s0.rtu.rate l = true →
      Waiting 0x03#8 (0#8 :: labelBytes l) rest s → exec .tcConvert s = .next (pushResponse 0x03#8
        (0#8 :: convertContents s0.rtu.rate (labelToFrame s0.rtu.rate l)) s0))
    ∧ (∀ f : Frame, f < s0.rtu.rate.day → Waiting 0x03#8 (1#8 :: beBytes 3 f) rest s →
      exec .tcConvert s = .next (pushResponse 0x03#8 (0#8 :: convertContents s0.rtu.rate f) s0))
    ∧ (∀ (id : StoryId) (i : Item), id ≠ 0 → id < 256 ^ 4 → findItem s0 id = some i →
      Waiting 0x18#8 (beBytes 4 id) rest s →
      exec .itemRead s = .next (pushResponse 0x18#8 (0#8 :: itemImage s0 i) s0))
    ∧ (∀ (id : StoryId) (tag : Tag) (i : Item) (e : Element), id ≠ 0 → tag ≠ 0 → id < 256 ^ 4 → tag < 256 →
      findItem s0 id = some i → i.findElement tag = some e → Waiting 0x19#8 (beBytes 4 id ++ beBytes 1 tag) rest s →
      exec .elementRead s = .next (pushResponse 0x19#8 (0#8 :: elementImage i e) s0))
    ∧ (∀ start count : Nat, start < 65536 → start ≤ s0.items.length → 1 ≤ count → count ≤ 8 →
      Waiting 0x1A#8 (beBytes 2 start ++ beBytes 1 count) rest s →
      let shown := (s0.items.drop start).take count
      exec .rundownRead s = .next (pushResponse 0x1A#8 (0#8 :: (beBytes 2 s0.items.length ++ beBytes 2 s0.revision
        ++ beBytes 2 start ++ beBytes 1 shown.length ++ shown.flatMap itemSummary ++ walkBytes s0)) s0))
    ∧ (Waiting 0x27#8 [] rest s → exec .showRead s = .next (pushResponse 0x27#8 (0#8 :: showReadContents s0) s0))
    ∧ (Waiting 0x28#8 [] rest s →
      exec .timingRead s = .next (pushResponse 0x28#8 (0#8 :: timingReadContents s0) s0))
    ∧ (∀ start count : Nat, start < 65536 → start ≤ s0.sched.queue.length → 1 ≤ count → count ≤ 8 →
      Waiting 0x29#8 (beBytes 1 0 ++ beBytes 2 start ++ beBytes 1 count) rest s →
      exec .armRead s = .next (pushResponse 0x29#8 (0#8 :: (beBytes 3 s0.rtu.cfn
        ++ beBytes 1 s0.sched.queue.length ++ beBytes 1 (waitingOrder s0).length ++ beBytes 2 s0.sched.counter
        ++ listPart entrySummary start count s0.sched.queue)) s0))
    ∧ (∀ start count : Nat, start < 65536 → start ≤ (waitingOrder s0).length → 1 ≤ count → count ≤ 8 →
      Waiting 0x29#8 (beBytes 1 1 ++ beBytes 2 start ++ beBytes 1 count) rest s →
      exec .armRead s = .next (pushResponse 0x29#8 (0#8 :: (beBytes 3 s0.rtu.cfn
        ++ beBytes 1 s0.sched.queue.length ++ beBytes 1 (waitingOrder s0).length ++ beBytes 2 s0.sched.counter
        ++ listPart waitingSummary start count (waitingOrder s0))) s0))

/-- The reads of profiles, ports, displays and inputs answer for every number in range, and refuse one out of
range with BAD_VALUE; they change nothing else (R138, R158, R183, R195).  The model's choice: the places of the bytes
in the answers, a value before its mark and zeros where it is absent (note 27). -/
def Obligations.DeviceReadsOnlyAnswer : Prop :=
  ∀ (s : State) (rest : List RequestEntry) (n k : Nat), n < 256 → k < 256 →
    let s0 := takeHead rest s
    (Waiting 0x31#8 (beBytes 1 n) rest s → exec .profileRead s = .next (pushResponse 0x31#8
      (if h : n < 8 then 0#8 :: profileReadContents s0 ⟨n, h⟩ else [0x04#8]) s0))
    ∧ (Waiting 0x37#8 (beBytes 1 n) rest s → exec .portRead s = .next (pushResponse 0x37#8
      (if h : n < 16 then 0#8 :: portReadContents s0 ⟨n, h⟩ else [0x04#8]) s0))
    ∧ (Waiting 0x47#8 (beBytes 1 n ++ beBytes 1 k) rest s → exec .displayRead s = .next (pushResponse 0x47#8
      (if h : n < 4 then
        if k ≤ 4 then 0#8 :: (beBytes 1 n ++ beBytes 1 k ++ beBytes 3 s0.rtu.cfn ++ displaySection s0 ⟨n, h⟩ k)
        else [0x04#8]
      else [0x04#8]) s0))
    ∧ (Waiting 0x49#8 (beBytes 1 n) rest s → exec .inputRead s = .next (pushResponse 0x49#8
      (if h : n < 8 then 0#8 :: inputReadContents s0 ⟨n, h⟩ else [0x04#8]) s0))

/-! ### Changing the rundown (chapters 2 and 3) -/

/-- The bodies with texts, marks, lists or select bytes are read back field by field: those of ITEM_INSERT, ITEM_AMEND,
ELEMENT_ADD by kind and ELEMENT_AMEND, which section 11.4 lays out, and those of SHOW_PLAN, LAYOUT_SET and CUE_PUSH,
whose fields R86, R162 and R168 list and R213 encodes (R216). -/
def Obligations.RequestBodiesReadBack : Prop :=
  (∀ b : InsertBody, b.fits → readInsert (insertBytes b) = some b)
  ∧ (∀ b : AmendBody, b.fits → readAmend (amendBytes b) = some (b.select, b))
  ∧ (∀ (h : AddHead) (v : Verb) (p a o n : Nat), h.id < 256 ^ 4 → h.tag < 256 → h.before < 256 → p < 256 →
      a < 256 → o < 65536 → n < 65536 → readAdd (addSerialBytes h v p a o n)
        = some (h, ⟨some v.code, some p, none, some a, some o, some (.number n), none⟩))
  ∧ (∀ (h : AddHead) (p a o : Nat), h.id < 256 ^ 4 → h.tag < 256 → h.before < 256 → p < 256 → a < 256 →
      o < 65536 → readAdd (addPulseBytes h p a o)
        = some (h, ⟨some 4, some p, none, some a, some o, none, none⟩))
  ∧ (∀ (h : AddHead) (d a o k : Nat) (t : Text), h.id < 256 ^ 4 → h.tag < 256 → h.before < 256 → d < 256 →
      a < 256 → o < 65536 → k < 65536 → t.length < 256 → readAdd (addCueBytes h d a o k t)
        = some (h, ⟨some 5, none, some d, some a, some o, some (.text t), some k⟩))
  ∧ (∀ (id tag : Nat) (f : ElementFields), id < 256 ^ 4 → tag < 256 → f.fits →
      readElementAmend (elementAmendBytes id tag f) = some (⟨id, tag, f.select⟩, f))
  ∧ (∀ b : PlanBody, b.fits → readPlan (planBytes b) = some (b.select, b))
  ∧ (∀ b : LayoutBody, b.fits → readLayout (layoutBytes b) = some b)
  ∧ (∀ b : PushBody, b.displays < 256 → b.text.length < 256 → b.tag < 256 → b.hold < 65536 →
      readPush (pushBytes b) = some b)

/-- An accepted ITEM_INSERT places a new item at the top or after the named one, raises the revision by 1,
triggers a walk and answers with the new position (R19, R21, R22, R45).  The model's choice: a TGT whose mark is clear is
not looked at, so the insert is accepted with any bytes there (note 25). -/
def Obligations.InsertPlacesItem : Prop :=
  ∀ (s : State) (rest : List RequestEntry) (body : List Byte) (b : InsertBody),
    Waiting 0x10#8 body rest s → readInsert body = some b →
    let s0 := takeHead rest s
    insertInRange s0.day b = true → placeExists s0 b.place = true → findItem s0 b.id = none →
    insertConsistent b = true → s0.items.length < Config.itemSlots →
    ∃ t, exec .itemInsert s = .next t
      ∧ Answered 0x10#8 (0#8 :: (beBytes 4 b.id ++ beBytes 2 t.revision ++ beBytes 2 (positionOf t b.id))) s0 t
      ∧ rundown t = (placeItem b.place (newItem b) s0.items).map Item.hosted
      ∧ t.revision = (s0.revision + 1) % 65536 ∧ t.engine.inFlight = true ∧ RequestFrame s0 t

/-- An accepted ITEM_AMEND changes the selected fields of the named item alone, keeps the revision, and
triggers a walk exactly when PD, a flag or TGT is selected (R46, R61). -/
def Obligations.AmendChangesSelectedFields : Prop :=
  ∀ (s : State) (rest : List RequestEntry) (body : List Byte) (select : Nat) (b : AmendBody) (i : Item),
    Waiting 0x11#8 body rest s → readAmend body = some (select, b) →
    let s0 := takeHead rest s
    amendInRange s0.day select b = true → findItem s0 b.id = some i → amendConsistent b i = true →
    amendAllowed b i = true →
    ∃ t, exec .itemAmend s = .next t
      ∧ Answered 0x11#8 (0#8 :: (beBytes 4 b.id ++ beBytes 2 s0.revision)) s0 t
      ∧ rundown t = (s0.items.map (fun x => if x.id == b.id then amendRecord b x else x)).map Item.hosted
      ∧ t.revision = s0.revision ∧ RequestFrame s0 t
      ∧ t.engine = { s0.engine with inFlight := s0.engine.inFlight || b.duration.isSome || b.float.isSome
          || b.auto.isSome || b.junction.isSome || b.target.isSome }

/-- An accepted ITEM_MOVE takes the item out of the order and places it again, raises the revision by 1 and
triggers a walk (R22, R49). -/
def Obligations.MovePlacesItemAgain : Prop :=
  ∀ (s : State) (rest : List RequestEntry) (id place : StoryId) (i : Item), id < 256 ^ 4 → place < 256 ^ 4 →
    Waiting 0x12#8 (beBytes 4 id ++ beBytes 4 place) rest s →
    let s0 := takeHead rest s
    id ≠ 0 → findItem s0 id = some i → placeExists s0 place = true → place ≠ id → i.movable = true →
    ∃ t, exec .itemMove s = .next t
      ∧ Answered 0x12#8 (0#8 :: (beBytes 4 id ++ beBytes 2 t.revision ++ beBytes 2 (positionOf t id))) s0 t
      ∧ rundown t = (placeItem place i (s0.items.filter (fun x => x.id != id))).map Item.hosted
      ∧ t.revision = (s0.revision + 1) % 65536 ∧ t.engine.inFlight = true ∧ RequestFrame s0 t

/-- An accepted ITEM_RETIRE takes the item and its elements out of the store, raises the revision by 1,
triggers a walk, leaves neither cursor nor nomination on it, takes it out of the path that the capture test reads,
and answers the counts (R50, R51, R79).  The model's choice: the path is held as story ids that a retired item leaves
(`path`, note 20). -/
def Obligations.RetireRemovesItem : Prop :=
  ∀ (s : State) (rest : List RequestEntry) (id : StoryId) (i : Item), id < 256 ^ 4 →
    Waiting 0x13#8 (beBytes 4 id) rest s →
    let s0 := takeHead rest s
    IdsUnique s0 → id ≠ 0 → findItem s0 id = some i → i.movable = true →
    ∃ t, exec .itemRetire s = .next t
      ∧ Answered 0x13#8 (0#8 :: (beBytes 4 id ++ beBytes 2 t.revision
          ++ (beBytes 1 i.elements.length ++ beBytes 1 (orphanCount i)))) s0 t
      ∧ rundown t = (s0.items.filter (fun x => x.id != id)).map Item.hosted ∧ findItem t id = none
      ∧ t.seq.cursor ≠ some id ∧ t.seq.nomination ≠ some id
      ∧ t.engine.path = s0.engine.path.filter (· != id) ∧ t.engine.pathLength = s0.engine.pathLength
      ∧ t.revision = (s0.revision + 1) % 65536 ∧ t.engine.inFlight = true ∧ RequestFrame s0 t

/-- An accepted ITEM_RESET returns the item to PENDING, or to STANDBY where the choice then picks it, without
AF or EF and with every element IDLE; order, fields and revision stay (R52). -/
def Obligations.ItemResetReturnsItem : Prop :=
  ∀ (s : State) (rest : List RequestEntry) (id : StoryId) (i : Item), id < 256 ^ 4 →
    Waiting 0x14#8 (beBytes 4 id) rest s →
    let s0 := takeHead rest s
    id ≠ 0 → findItem s0 id = some i → (i.state = .done ∨ i.state = .dropped) →
    ∃ t j, exec .itemReset s = .next t
      ∧ Answered 0x14#8 (0#8 :: (beBytes 4 id ++ beBytes 2 s0.revision)) s0 t
      ∧ findItem t id = some j ∧ (j.state = .pending ∨ j.state = .standby) ∧ j.airFrame = none
      ∧ j.endFrame = none ∧ (∀ e ∈ j.elements, e.state = .idle ∧ e.cause = none ∧ e.lateness = none)
      ∧ rundown t = rundown s0 ∧ t.revision = s0.revision ∧ t.engine.inFlight = true ∧ RequestFrame s0 t

/-- An accepted ELEMENT_ADD enters the new element at the end of the list or before the named tag, answers its
position, and keeps revision, sequencer and engine (R53).  In an item near air with an arm context it is armed:
with room in the queue the element is ARMED with an entry of the rule's effect and issue frame, placed in order
with the next sequence number, and with none it is WAITING (R63, R112 to R116); elsewhere it is IDLE and the queue
stays. -/
def Obligations.ElementAddEntersElement : Prop :=
  ∀ (s : State) (rest : List RequestEntry) (body : List Byte) (h : AddHead) (f : ElementFields) (i : Item)
      (a : Action),
    Waiting 0x15#8 body rest s → readAdd body = some (h, f) →
    let s0 := takeHead rest s
    h.id ≠ 0 → h.tag ≠ 0 → f.inRange = true → findItem s0 h.id = some i →
    (h.before = 0 ∨ (i.findElement h.before).isSome = true) → i.findElement h.tag = none →
    buildAction (f.kindOr .pulse) f .empty = .ok a → i.elements.length < Config.elementsPerItem →
    elementsInUse s0 < Config.elementPool →
    let e := newElement h.tag f a
    ∃ t j, exec .elementAdd s = .next t ∧ findItem t h.id = some j
      ∧ Answered 0x15#8 (0#8 :: (elementIds h.id h.tag ++ beBytes 2 s0.revision
          ++ beBytes 1 (j.elementPosition h.tag))) s0 t
      ∧ rundown t = (s0.items.map (fun x => if x.id == h.id then
          { x with elements := enterElement h.before e x.elements } else x)).map Item.hosted
      ∧ (∀ k : ArmContext, i.state.near = true → i.context = some k →
        (s0.sched.queue.length < Config.armQueue → j.findElement h.tag = some { e with state := .armed }
          ∧ t.sched.counter = (s0.sched.counter + 1) % 65536
          ∧ ∃ q, ArmedEntry s0 h.id k.start k.stop e q ∧ q.seq = s0.sched.counter ∧ PlacedInOrder s0 q t.sched.queue)
        ∧ (Config.armQueue ≤ s0.sched.queue.length →
          j.findElement h.tag = some { e with state := .waiting } ∧ t.sched = s0.sched))
      ∧ ((i.state.near = false ∨ i.context = none) → j.findElement h.tag = some e ∧ t.sched = s0.sched)
      ∧ t.revision = s0.revision ∧ t.seq = s0.seq ∧ t.engine = s0.engine ∧ t.ports = s0.ports ∧ RequestFrame s0 t

/-- An accepted ELEMENT_AMEND changes the selected fields of the one element, and an accepted ELEMENT_REMOVE
takes it out of its list; both keep revision, sequencer and engine (R54, R55).  A field the resulting kind requires
that is neither stored nor selected, and one selected that it does not have, are BAD_VALUE; a record that fails a check
is refused with its code, before COMMITTED (R43, R54, R56).  An amend that changes the kind must carry the fields the
new kind requires (R30); that it is BAD_VALUE when it does not, be they stored, is the model's reading (note 24). -/
def Obligations.ElementAmendAndRemove : Prop :=
  ∀ (s : State) (rest : List RequestEntry) (i : Item) (e : Element),
    let s0 := takeHead rest s
    (∀ (body : List Byte) (h : AmendHead) (f : ElementFields), Waiting 0x16#8 body rest s →
      readElementAmend body = some (h, f) → h.id ≠ 0 → h.tag ≠ 0 → h.select ≠ 0 → h.select < 128 →
      f.inRange = true → findItem s0 h.id = some i → i.findElement h.tag = some e →
      let k := f.kindOr e.action.kind
      let held : ElementFields := if e.action.kind = k then e.fields else .empty
      let answer (r : Result) : Host.Outcome State Fault Refusal :=
        .next (pushResponse 0x16#8 (r.code :: elementIds h.id h.tag ++ beBytes 2 s0.revision) s0)
      (∀ a : Action, buildAction k f held = .ok a → editable i e = true →
        ∃ t, exec .elementAmend s = .next t
          ∧ Answered 0x16#8 (0#8 :: (elementIds h.id h.tag ++ beBytes 2 s0.revision)) s0 t
          ∧ rundown t = (s0.items.map (fun x => if x.id == h.id then
              { x with elements := x.elements.map (fun y => if y.tag == h.tag then amendElementRecord f a y else y) }
              else x)).map Item.hosted
          ∧ t.revision = s0.revision ∧ t.seq = s0.seq ∧ t.engine = s0.engine ∧ t.ports = s0.ports
          ∧ RequestFrame s0 t)
      ∧ (∀ r : Result, buildAction k f held = .error r → exec .elementAmend s = answer r)
      ∧ (k ≠ .cueText → f.port = none → e.fields.port = none → exec .elementAmend s = answer .badValue)
      ∧ (k = .cueText → (f.displays.or e.fields.displays = none ∨ f.hold.or e.fields.hold = none) →
        exec .elementAmend s = answer .badValue)
      ∧ (k ≠ .cueText → (f.displays.isSome = true ∨ f.hold.isSome = true) → exec .elementAmend s = answer .badValue)
      ∧ (k = .cueText → f.port.isSome = true → exec .elementAmend s = answer .badValue)
      ∧ (k = .pulse → f.payload.isSome = true → exec .elementAmend s = answer .badValue)
      ∧ (k ≠ e.action.kind → k ≠ .cueText → (f.port = none ∨ (k ≠ .pulse ∧ f.payload = none)) →
        exec .elementAmend s = answer .badValue)
      ∧ (k ≠ e.action.kind → k = .cueText → (f.displays = none ∨ f.payload = none ∨ f.hold = none) →
        exec .elementAmend s = answer .badValue)
      ∧ (∀ a : Action, buildAction k f held = .ok a → editable i e = false →
        exec .elementAmend s = answer .committed))
    ∧ (∀ (id : StoryId) (tag : Tag), id < 256 ^ 4 → tag < 256 → Waiting 0x17#8 (beBytes 4 id ++ beBytes 1 tag) rest s →
      id ≠ 0 → tag ≠ 0 → findItem s0 id = some i → i.findElement tag = some e → editable i e = true →
      ∃ t, exec .elementRemove s = .next t
        ∧ Answered 0x17#8 (0#8 :: (elementIds id tag ++ beBytes 2 s0.revision)) s0 t
        ∧ rundown t = (s0.items.map (fun x => if x.id == id then
            { x with elements := x.elements.filter (fun y => y.tag != tag) } else x)).map Item.hosted
        ∧ t.revision = s0.revision ∧ t.seq = s0.seq ∧ t.engine = s0.engine ∧ RequestFrame s0 t)

/-- SHOW_CLEAR in IDLE empties the store, the arm queue and the cue lists, detaches every command and moves the
cursor to top; in any other show state it is refused with STATE (R40, R89, R133, R160, R185).  A walk is triggered.
Every display is rendered, and its slug, note and timing fields show spaces, those of R164 but CLOCK (R185).  The model's
choice: the path that the engine holds for the capture test is emptied with the store (the clause `path := []`, note 20,
DEDUCED from R79 and R98), and the engine's mark `cleared` keeps OVERUNDER blank until a walk completes (note 41). -/
def Obligations.ShowClearEmpties : Prop :=
  ∀ (s : State) (rest : List RequestEntry), Waiting 0x1B#8 [] rest s →
    let s0 := takeHead rest s
    (s0.seq.mode = .idle → ∃ t, exec .showClear s = .next t ∧ Answered 0x1B#8 [0#8] s0 t ∧ t.items = []
      ∧ t.revision = (if s0.items = [] then s0.revision else (s0.revision + 1) % 65536)
      ∧ t.seq = { s0.seq with cursor := none, nomination := none, lastAdvance := none }
      ∧ t.sched = { s0.sched with queue := [] } 
      ∧ t.engine = { s0.engine with inFlight := true, path := [], cleared := true }
      ∧ (∀ d : Fin 4, t.displays[d].cues = [] ∧ t.displays[d].nextCrawl = none ∧ t.displays[d].crawlPosition = 0
        ∧ t.displays[d].target = targetImage t d
        ∧ ∀ f : LayoutField, f.kind ∈ [.slugOnair, .slugNext, .note, .remain, .overUnder, .cue] →
          fieldCodes t t.displays[d] f = List.replicate f.width 0x20#8)
      ∧ (∀ p : Fin 16, t.ports[p]
          = { s0.ports[p] with command := s0.ports[p].command.map (fun c => { c with element := none }) })
      ∧ t.link.notices = s0.link.notices ∧ RequestFrame s0 t)
    ∧ (s0.seq.mode ≠ .idle → exec .showClear s = .next (pushResponse 0x1B#8 [0x08#8] s0))

/-! ### Show sequencing (chapter 4) -/

/-- A TAKE, judged in its order: the running guard and a TAKING item make it IGNORED, a captured STANDBY and an empty
slot refuse it with STATE; else the STANDBY becomes TAKING with AF = CFN + take lead, LA is set and the show is
RUNNING (R73, R75).  The taken item's IDLE elements are armed against AF, or wait while the queue is full, and the
outgoing item's END-anchored entries are re-timed to AF with the sweep (R116, R120, R121).  The model's choice: the
bytes of the TAKEN and IGNORED answers (note 27), that every END-anchored entry of the outgoing item is re-timed, also
one whose effect frame does not move (note 16), and that an entry keeps the lead it stands with, also after a move to
CFN + 1 (note 15). -/
def Obligations.TakeMakesStandbyTaking : Prop :=
  ∀ (s : State) (rest : List RequestEntry), Waiting 0x20#8 [] rest s →
    let s0 := takeHead rest s
    let day := s0.rtu.rate.day
    let unchanged (body : List Byte) : Prop := exec .takeRequest s = .next (pushResponse 0x20#8 body s0)
    (GuardRuns s0 → unchanged (0#8 :: (beBytes 1 1 ++ beBytes 1 1 ++ beBytes 4 ((takingId s0).getD 0))))
    ∧ (∀ k : Item, ¬ GuardRuns s0 → takingItem s0 = some k →
      unchanged (0#8 :: (beBytes 1 1 ++ beBytes 1 2 ++ beBytes 4 k.id)))
    ∧ (¬ GuardRuns s0 → takingItem s0 = none → standbyCaptured s0 = true → unchanged [0x08#8])
    ∧ (¬ GuardRuns s0 → takingItem s0 = none → standbyItem s0 = none → unchanged [0x08#8])
    ∧ (∀ i : Item, ¬ GuardRuns s0 → takingItem s0 = none → standbyItem s0 = some i → i.captured = false →
      let lead := takeLead s0 i
      let af := (s0.rtu.cfn + lead) % day
      let stop := (af + i.duration) % day
      ∃ t j, exec .takeRequest s = .next t
        ∧ Answered 0x20#8 (0#8 :: (beBytes 1 0 ++ beBytes 4 i.id ++ beBytes 3 af ++ beBytes 2 lead)) s0 t
        ∧ findItem t i.id = some j ∧ j.state = .taking ∧ j.airFrame = some af ∧ j.nominated = false
        ∧ j.captured = false ∧ t.seq.mode = .running ∧ t.seq.lastAdvance = some s0.rtu.cfn
        ∧ t.seq.cursor = s0.seq.cursor ∧ t.engine.inFlight = true ∧ t.ports = s0.ports
        ∧ rundown t = rundown s0 ∧ t.revision = s0.revision ∧ RequestFrame s0 t
        ∧ (IdsUnique s0 → ArmedOk s0 →
          (∀ e ∈ i.elements, e.state = .idle →
            (s0.sched.queue.length + (i.elements.filter (fun x => x.state == .idle)).length ≤ Config.armQueue →
              findElement t i.id e.tag = some { e with state := .armed }
              ∧ ∃ q ∈ t.sched.queue, ArmedEntry s0 i.id af stop e q)
            ∧ (Config.armQueue ≤ s0.sched.queue.length →
              findElement t i.id e.tag = some { e with state := .waiting }))
          ∧ (∀ (o : Item) (e : Element), onairItem s0 = some o → ∀ q ∈ s0.sched.queue, q.story = o.id →
            o.findElement q.tag = some e →
            (e.anchor = .fromStart → q ∈ t.sched.queue)
            ∧ (e.anchor = .fromEnd →
              let effect := subFrames day af e.offset
              let issue := subFrames day effect (subFrames day q.effect q.issue)
              ∃ x ∈ t.sched.queue, { x with seq := q.seq } = { q with
                effect := effect, deferred := false
                issue := if s0.due issue then (s0.rtu.cfn + 1) % day else issue }))))

/-- NEXT_SET nominates the item, which becomes the STANDBY unless an item is TAKING, and changes nothing when it is the
one already nominated; NEXT_AUTO removes the nomination, and without one changes nothing (R70, R71). -/
def Obligations.NominationRequests : Prop :=
  ∀ (s : State) (rest : List RequestEntry),
    let s0 := takeHead rest s
    IdsUnique s0 → SlotsOk s0 →
    (∀ (id : StoryId) (i : Item), id < 256 ^ 4 → Waiting 0x21#8 (beBytes 4 id) rest s → id ≠ 0 →
      findItem s0 id = some i → (i.state = .pending ∨ i.state = .standby) → standbyCaptured s0 = false →
      s0.seq.nomination ≠ some id →
      ∃ t, exec .nextSet s = .next t ∧ Answered 0x21#8 (0#8 :: idBytes (standbyId t)) s0 t
        ∧ t.seq = { s0.seq with nomination := some id } ∧ (takingItem s0 = none → standbyId t = some id)
        ∧ (takingItem s0 ≠ none → standbyId t = none) ∧ rundown t = rundown s0 ∧ t.revision = s0.revision
        ∧ RequestFrame s0 t)
    ∧ (∀ (id : StoryId) (i : Item), id < 256 ^ 4 → Waiting 0x21#8 (beBytes 4 id) rest s → id ≠ 0 →
      findItem s0 id = some i → (i.state = .pending ∨ i.state = .standby) → standbyCaptured s0 = false →
      s0.seq.nomination = some id → exec .nextSet s = .next (pushResponse 0x21#8 (0#8 :: idBytes (standbyId s0)) s0)
        ∧ (takingItem s0 ≠ none → standbyId s0 = none))
    ∧ (∀ id : StoryId, Waiting 0x22#8 [] rest s → s0.seq.nomination = some id →
      ∃ t, exec .nextAuto s = .next t ∧ Answered 0x22#8 (0#8 :: idBytes (standbyId t)) s0 t
        ∧ t.seq = { s0.seq with nomination := none } ∧ rundown t = rundown s0 ∧ t.revision = s0.revision
        ∧ RequestFrame s0 t)
    ∧ (Waiting 0x22#8 [] rest s → s0.seq.nomination = none →
      exec .nextAuto s = .next (pushResponse 0x22#8 (0#8 :: idBytes (standbyId s0)) s0))

/-- HOLD makes a RUNNING show HOLDING and RELEASE a HOLDING show RUNNING, each with a walk trigger; each is
answered OK without effect in the state it would enter, and refused with STATE in IDLE and ENDED (R83). -/
def Obligations.HoldAndRelease : Prop :=
  ∀ (s : State) (rest : List RequestEntry),
    let s0 := takeHead rest s
    (Waiting 0x23#8 [] rest s →
      (s0.seq.mode = .running → ∃ t, exec .holdRequest s = .next t ∧ Answered 0x23#8 [0#8] s0 t
        ∧ t.seq = { s0.seq with mode := .holding } ∧ t.engine = { s0.engine with inFlight := true }
        ∧ t.ports = s0.ports ∧ rundown t = rundown s0 ∧ t.revision = s0.revision ∧ RequestFrame s0 t)
      ∧ (s0.seq.mode = .holding → exec .holdRequest s = .next (pushResponse 0x23#8 [0#8] s0))
      ∧ (s0.seq.mode = .idle ∨ s0.seq.mode = .ended →
        exec .holdRequest s = .next (pushResponse 0x23#8 [0x08#8] s0)))
    ∧ (Waiting 0x24#8 [] rest s →
      (s0.seq.mode = .holding → ∃ t, exec .releaseRequest s = .next t ∧ Answered 0x24#8 [0#8] s0 t
        ∧ t.seq = { s0.seq with mode := .running } ∧ t.engine = { s0.engine with inFlight := true }
        ∧ t.ports = s0.ports ∧ rundown t = rundown s0 ∧ t.revision = s0.revision ∧ RequestFrame s0 t)
      ∧ (s0.seq.mode = .running → exec .releaseRequest s = .next (pushResponse 0x24#8 [0#8] s0))
      ∧ (s0.seq.mode = .idle ∨ s0.seq.mode = .ended →
        exec .releaseRequest s = .next (pushResponse 0x24#8 [0x08#8] s0)))

/-- SHOW_STOP leaves the show IDLE with nothing on air or taken, keeps the cursor, the nomination and LA, and
in IDLE is refused with STATE (R84).  The model's choice: a walk is triggered in ENDED too, and the overdue mark is
kept (note 22). -/
def Obligations.ShowStopIdlesShow : Prop :=
  ∀ (s : State) (rest : List RequestEntry), Waiting 0x25#8 [] rest s →
    let s0 := takeHead rest s
    (IdsUnique s0 → SlotsOk s0 → s0.seq.mode ≠ .idle → ∃ t, exec .showStop s = .next t
      ∧ Answered 0x25#8 [0#8] s0 t ∧ t.seq = { s0.seq with mode := .idle }
      ∧ inState .onair t = 0 ∧ inState .taking t = 0 ∧ standbyCaptured t = false
      ∧ (∀ i ∈ s0.items, i.state = .onair → ∃ j, findItem t i.id = some j ∧ j.state = .done
          ∧ j.endFrame = some s0.rtu.cfn ∧ j.airFrame = i.airFrame)
      ∧ t.engine = { s0.engine with inFlight := true } ∧ rundown t = rundown s0 ∧ t.revision = s0.revision
      ∧ RequestFrame s0 t)
    ∧ (s0.seq.mode = .idle → exec .showStop s = .next (pushResponse 0x25#8 [0x08#8] s0))

/-- An accepted SHOW_PLAN sets the parameters it selects and triggers a walk when PSF is one of them (R86). -/
def Obligations.ShowPlanSetsParameters : Prop :=
  ∀ (s : State) (rest : List RequestEntry) (body : List Byte) (select : Nat) (b : PlanBody),
    Waiting 0x26#8 body rest s → readPlan body = some (select, b) →
    let s0 := takeHead rest s
    planInRange s0.day select b = true →
    exec .showPlan s = .next (pushResponse 0x26#8 [0#8] { s0 with
      seq := { s0.seq with
        planStart := b.planStart.getD s0.seq.planStart
        margin := b.margin.getD s0.seq.margin
        takeGuard := b.takeGuard.getD s0.seq.takeGuard }
      engine := { s0.engine with inFlight := s0.engine.inFlight || b.planStart.isSome } })

/-- The steps of a tick, each taken by its row: a due TAKING item, a due captured junction and an auto-follow put
their item on air with its air frame, and the outgoing item becomes DONE with EF equal to it; a junction take drops
the PENDING items between the two that are not FLOAT; an auto-follow without STANDBY ends the show; a due capture
frame captures the junction, and a late capture takes it to air (R72, R76 to R82).  The model's choice: how the tick is
divided among the rows (note 4), and, in the capture clause, that every item of the last walk's path is considered
when that path does not hold the ONAIR item, where R79 does not say which items follow it (note 38). -/
def Obligations.TickStepsAdvanceShow : Prop :=
  ∀ s : State, IdsUnique s → SlotsOk s →
    let s1 := settlePhases s
    let onAir (t : State) (i : Item) (af : Frame) : Prop :=
      (∃ j, findItem t i.id = some j ∧ j.state = .onair ∧ j.airFrame = some af ∧ j.nominated = false
        ∧ j.captured = false)
      ∧ t.seq.cursor = some i.id ∧ t.seq.lastAdvance = some s.rtu.cfn ∧ t.engine.inFlight = true ∧ Fixed s t
      ∧ ∀ o : Item, onairItem s = some o →
        ∃ k, findItem t o.id = some k ∧ k.state = .done ∧ k.endFrame = some af ∧ k.airFrame = o.airFrame
    let dropped (t : State) (i : Item) (p : ItemState → Bool) : Prop :=
      ∀ x ∈ s.items, x.id ≠ i.id → (∃ k, findItem t x.id = some k ∧ (k.state = .dropped ↔
        x.state = .dropped ∨ (p x.state = true ∧ x.float = false
          ∧ ∃ o, onairItem s = some o ∧ Between s o i x)))
    (∀ (i : Item) (f : Frame), s1.tick.phase = .airFrame → takingItem s1 = some i → i.airFrame = some f →
      s.due f = true → ∃ t, exec .takingAirFrame s = .next t ∧ onAir t i f ∧ t.seq.mode = s.seq.mode)
    ∧ (∀ (i : Item) (f : Frame), s1.tick.phase = .junction → standbyItem s1 = some i → i.captured = true →
      i.target = some f → s.due f = true → ∃ t, exec .junctionTake s = .next t ∧ onAir t i f
        ∧ t.seq.mode = s.seq.mode ∧ dropped t i (· == .pending))
    ∧ (∀ i : Item, s1.tick.phase = .follow → onairItem s1 = some i → s1.tick.onairBefore = some i.id →
      i.auto = true → s1.seq.mode = .running → takingItem s1 = none → s.due (plannedEnd s i) = true →
      let frame := if s1.seq.overdue then s.rtu.cfn else plannedEnd s i
      (∀ n : Item, standbyItem s1 = some n → n.captured = false →
        ∃ t, exec .autoFollow s = .next t ∧ onAir t n frame ∧ t.seq.mode = s.seq.mode)
      ∧ (standbyItem s1 = none →
        ∃ t k, exec .autoFollow s = .next t ∧ findItem t i.id = some k ∧ k.state = .done ∧ k.endFrame = some frame
          ∧ t.seq.mode = .ended ∧ t.engine.inFlight = true ∧ Fixed s t))
    ∧ (∀ (i : Item) (f : Frame), s1.tick.phase = .capture → (s1.seq.mode = .running ∨ s1.seq.mode = .holding) →
      takingItem s1 = none → captureCandidate s1 = some i → i.captured = false → i.target = some f →
      s.due (subFrames s.rtu.rate.day f (max (takeLead s1 i) s1.seq.margin)) = true →
      (s.due f = false → ∃ t j, exec .capture s = .next t ∧ findItem t i.id = some j ∧ j.state = .standby
        ∧ j.captured = true ∧ j.nominated = false ∧ t.seq.nomination = none ∧ t.engine.inFlight = true ∧ Fixed s t)
      ∧ (s.due f = true → ∃ t, exec .capture s = .next t ∧ onAir t i s.rtu.cfn
        ∧ dropped t i (fun st => st == .pending || st == .standby)))

/-! ### The timing engine and the arm queue (chapters 5 and 6) -/

/-- A walk in flight completes with every projection and the walk results written at once and the generation
raised by 1 (R98, R99, R104): PS runs along the path from AF or PSF, each item starting at the end of the one
before and a junction at its target; OU is the target less the end before it, or less AF for a TAKING junction;
BT - PS is OU of the next junction, and ME - PE for the item on air; off the path all three are absent (R91 to
R97).  The model's choice: the tick under way is complete first (note 4), re-timing precedes the capture test
(note 21), the walk is made at its completion (note 12), and without a walk the event does not occur (note 2); the held
path of story ids that the capture test reads (`path`, note 20) and the mark of a SHOW_CLEAR that the completion clears
(`cleared`, note 41) are the model's own fields. -/
def Obligations.WalkCompletionWritesResults : Prop :=
  ∀ s : State,
    let s1 := settleTick s
    (s1.engine.inFlight = false → exec .walkCompletion s = .next s)
    ∧ (s1.engine.inFlight = true → ∃ t, exec .walkCompletion s = .next t
      ∧ t.engine.generation = (s1.engine.generation + 1) % 65536 ∧ Fixed s1 t
      ∧ (captureDue (retimeAtCompletion (writeWalk s1)) = none → t.engine.inFlight = false ∧ t.seq = s1.seq
        ∧ t.ports = s1.ports ∧ t.groups = s1.groups)
      ∧ (IdsUnique s1 → SlotsOk s1 →
        let day := s1.rtu.rate.day
        let path := runPath s1
        let start (x : Item) : Option Frame := (findItem t x.id).bind Item.projectedStart
        let back (x : Item) : Option Frame := (findItem t x.id).bind Item.backTime
        let pinned (x : Item) : Bool := x.state != .onair && x.junction
        t.engine.path = path.map Item.id ∧ t.engine.pathLength = path.length
        ∧ t.engine.pathEnd = path.getLast?.bind (endOf t) ∧ t.engine.cleared = false
        ∧ (∀ x ∈ s1.items, (∀ y ∈ path, y.id ≠ x.id) →
          start x = none ∧ back x = none ∧ overUnderOf t x = none)
        ∧ (∀ x ∈ path, x.state = .onair → start x = some (x.airFrame.getD 0) ∧ back x = none ∧ overUnderOf t x = none
          ∧ t.engine.projectedEnd = some (match takingItem s1 with
            | some k => k.airFrame.getD 0
            | none => shiftFrame day (max (x.duration : Int) (signedDiff day s1.rtu.cfn (x.airFrame.getD 0) + 1))
              (x.airFrame.getD 0)))
        ∧ (∀ x ∈ path, x.state = .taking → start x = some (x.airFrame.getD 0)
          ∧ overUnderOf t x = x.target.map (fun g => signedDiff day g (x.airFrame.getD 0)))
        ∧ (∀ (x : Item) (r : List Item), path = x :: r → x.state ≠ .onair → x.state ≠ .taking →
          start x = some (x.target.getD s1.seq.planStart)
          ∧ overUnderOf t x = x.target.map (fun g => signedDiff day g s1.seq.planStart))
        ∧ (∀ (l r : List Item) (a x : Item), path = l ++ a :: x :: r → x.state ≠ .taking →
          start x = (match x.target with
            | some g => some g
            | none => endOf t a)
          ∧ overUnderOf t x = x.target.bind (fun g => (endOf t a).map (fun u => signedDiff day g u)))
        ∧ (∀ x ∈ path, pinned x = true → back x = none)
        ∧ (∀ (l m r : List Item) (x k : Item), path = l ++ x :: m ++ k :: r → x.state ≠ .onair →
          (∀ y ∈ x :: m, pinned y = false) → pinned k = true →
          ∃ b p, back x = some b ∧ start x = some p ∧ overUnderOf t k = some (signedDiff day b p))
        ∧ (∀ (l r : List Item) (x : Item), path = l ++ x :: r → (∀ y ∈ x :: r, pinned y = false) → back x = none)
        ∧ (∀ (m r : List Item) (o k : Item), path = o :: m ++ k :: r → o.state = .onair →
          (∀ y ∈ m, pinned y = false) → pinned k = true → ∃ me pe, t.engine.mustEnd = some me
            ∧ t.engine.projectedEnd = some pe ∧ overUnderOf t k = some (signedDiff day me pe))
        ∧ (∀ (l r : List Item) (k : Item), path = l ++ k :: r → (∀ y ∈ l, pinned y = false) → pinned k = true →
          ∃ g u, k.target = some g ∧ overUnderOf t k = some u ∧ t.engine.nextJunction = some ⟨k.id, g, u⟩)
        ∧ ((∀ y ∈ path, pinned y = false) → t.engine.nextJunction = none ∧ t.engine.mustEnd = none)))

/-- The due scan: a port that meets the five conditions of R146 takes a serial command or closes its contact and
joins its group's history; a late entry and one for an unbound port are MISSED; "not yet" defers the entry and holds
back later ones of the port; a CUE_TEXT is delivered to each of its displays (R124 to R126, R130, R146, R147, R169).
First with one or two entries, with all that the scan does; then with any queue and waiting order: the fate of every
entry that is not due, delivered or missed, of the first due one of a port and of those behind it, and the waiting
elements armed into the room that is free (R116, R117).  With the sequencer's steps begun, these are completed first
(note 4). -/
def Obligations.DueScanIssuesOrMisses : Prop :=
  ∀ s : State,
    let s1 := settleSteps s
    let cfn := s1.rtu.cfn
    let day := s1.rtu.rate.day
    s1.tick.scanLeft = true →
    (∀ (q : ArmEntry) (p : Fin 16) (e : Element), waitingOrder s1 = [] → s1.sched.queue = [q] → q.port = some p →
      s1.due q.issue = true →
      findElement s1 q.story q.tag = some e → q.verb = e.action.kind → e.action.port = some p →
      let r := s1.ports[p]
      let late := signedDiff day cfn q.issue
      let missed (t : State) (cause : Cause) : Prop := t.sched.queue = [] ∧ t.ports = s1.ports ∧ t.groups = s1.groups
        ∧ findElement t q.story q.tag = some { e with state := .missed, cause := some cause }
        ∧ t.link = { pushNotice ⟨.elementMissed, cfn, q.story, q.tag, portField e.action.port, cause.code⟩ s1.link with
            missed := true }
        ∧ t.seq = s1.seq ∧ t.engine = s1.engine ∧ Fixed s1 t
      (r.state = .unbound → ∃ t, exec .dueScan s = .next t ∧ t.tick.scanLeft = false ∧ missed t .unbound)
      ∧ (∀ k : Fin 8, r.profile = some k → r.state ≠ .unbound →
        ((s1.profiles[k].lateTolerance : Int) < late →
          ∃ t, exec .dueScan s = .next t ∧ t.tick.scanLeft = false ∧ missed t .late)
        ∧ (late ≤ s1.profiles[k].lateTolerance → ¬ TakesByRule s1 p s1.profiles[k] q.verb →
          exec .dueScan s = .next { s1 with
            tick := { s1.tick with scanLeft := false }
            sched := { s1.sched with queue := [{ q with deferred := true }] } })
        ∧ (late ≤ s1.profiles[k].lateTolerance → TakesByRule s1 p s1.profiles[k] q.verb →
          ∃ t, exec .dueScan s = .next t ∧ t.tick.scanLeft = false ∧ t.sched.queue = []
            ∧ (∀ (v : Verb) (x : Fin 16) (number : Nat), e.action = .serial v x number →
              t.ports = s1.ports.set p { r with
                state := .await, lastIssue := some cfn
                lastLoad := if v = .load then some cfn else r.lastLoad
                command := some ⟨v, number, cfn, (cfn + s1.profiles[k].replyTimeout.effective) % day,
                  some (q.story, q.tag)⟩
                transmit := commandFrame v number s1.profiles[k].channel }
              ∧ findElement t q.story q.tag
                = some { e with state := .issued, lateness := some (min 255 late.toNat) })
            ∧ (∀ x : Fin 16, e.action = .pulse x →
              t.ports = s1.ports.set p { r with
                state := .pulsing, lastIssue := some cfn
                pulseEnd := some ((cfn + s1.profiles[k].pulseWidth.effective) % day) }
              ∧ findElement t q.story q.tag
                = some { e with state := .done, lateness := some (min 255 late.toNat) })
            ∧ (∀ g : Fin 4, r.group = some g →
              let h := s1.groups[g].history ++ [(cfn, p)]
              t.groups = s1.groups.set g { s1.groups[g] with history := h.drop (h.length - 8) })
            ∧ (r.group = none → t.groups = s1.groups)
            ∧ t.link = s1.link ∧ t.seq = s1.seq ∧ t.engine = s1.engine ∧ Fixed s1 t)))
    ∧ (∀ (q x : ArmEntry) (p : Fin 16) (k : Fin 8), waitingOrder s1 = [] → s1.sched.queue = [q, x] →
      q.port = some p → x.port = some p →
      s1.due q.issue = true → s1.due x.issue = true → (q.story, q.tag) ≠ (x.story, x.tag) →
      (findElement s1 q.story q.tag).isSome = true → s1.ports[p].profile = some k → s1.ports[p].state ≠ .unbound →
      signedDiff day cfn q.issue ≤ s1.profiles[k].lateTolerance →
      signedDiff day cfn x.issue ≤ s1.profiles[k].lateTolerance → ¬ TakesByRule s1 p s1.profiles[k] q.verb →
      exec .dueScan s = .next { s1 with
        tick := { s1.tick with scanLeft := false }
        sched := { s1.sched with queue := [{ q with deferred := true }, { x with deferred := true }] } })
    ∧ (∀ (q : ArmEntry) (e : Element) (set : BitVec 4) (text : Text) (hold : Nat), waitingOrder s1 = [] →
      s1.sched.queue = [q] → q.port = none → s1.due q.issue = true → findElement s1 q.story q.tag = some e →
      e.action = .cueText set text hold → CuesBounded s1 →
      ∃ t, exec .dueScan s = .next t ∧ t.tick.scanLeft = false ∧ t.sched.queue = [] ∧ t.ports = s1.ports
        ∧ findElement t q.story q.tag
          = some { e with state := .done, lateness := some (min 255 (signedDiff day cfn q.issue).toNat) }
        ∧ (∀ d : Fin 4, let shown (x : State) := x.displays[d].cues.map (fun c => (c.text, c.origin, c.tag, c.hold))
          (set.getLsbD d.val = false → t.displays[d] = s1.displays[d])
          ∧ (set.getLsbD d.val = true → t.displays[d].cues.length ≤ 4
            ∧ shown t = (if (shown s1).length < 4 then shown s1 else (shown s1).tail)
              ++ [(text, .element, e.tag, hold)]))
        ∧ t.seq = s1.seq ∧ t.engine = s1.engine ∧ Fixed s1 t)
    ∧ (IdsUnique s1 → ArmedOk s1 → ∃ t, exec .dueScan s = .next t ∧ t.tick.scanLeft = false ∧ t.seq = s1.seq
      ∧ t.engine = s1.engine ∧ Fixed s1 t
      ∧ (∀ q ∈ s1.sched.queue, s1.due q.issue = false →
        q ∈ t.sched.queue ∧ findElement t q.story q.tag = findElement s1 q.story q.tag)
      ∧ (∀ q ∈ s1.sched.queue, ∀ e : Element, s1.due q.issue = true → findElement s1 q.story q.tag = some e →
        let late := signedDiff day cfn q.issue
        let missed (cause : Cause) : Prop := Gone t q ∧ t.link.missed = true
          ∧ findElement t q.story q.tag = some { e with state := .missed, cause := some cause }
        (q.port = none → Gone t q
          ∧ findElement t q.story q.tag = some { e with state := .done, lateness := some (min 255 late.toNat) })
        ∧ (∀ p : Fin 16, q.port = some p → s1.ports[p].state = .unbound → missed .unbound)
        ∧ (∀ (p : Fin 16) (k : Fin 8), q.port = some p → s1.ports[p].state ≠ .unbound → s1.ports[p].profile = some k →
          (s1.profiles[k].lateTolerance : Int) < late → missed .late))
      ∧ (∀ (l r : List ArmEntry) (q : ArmEntry) (p : Fin 16) (k : Fin 8) (e : Element), s1.sched.queue = l ++ q :: r →
        q.port = some p → s1.due q.issue = true → findElement s1 q.story q.tag = some e → q.verb = e.action.kind →
        e.action.port = some p → s1.ports[p].state ≠ .unbound → s1.ports[p].profile = some k →
        signedDiff day cfn q.issue ≤ s1.profiles[k].lateTolerance →
        (∀ x ∈ l, s1.due x.issue = true → ∀ y : Fin 16, x.port = some y →
          y ≠ p ∧ (s1.ports[p].group = none ∨ s1.ports[y].group ≠ s1.ports[p].group)) →
        let lateness : Option Nat := some (min 255 (signedDiff day cfn q.issue).toNat)
        (TakesByRule s1 p s1.profiles[k] q.verb → Gone t q
          ∧ (∀ (v : Verb) (x : Fin 16) (number : Nat), e.action = .serial v x number →
            t.ports[p] = { s1.ports[p] with
              state := .await, lastIssue := some cfn
              lastLoad := if v = .load then some cfn else s1.ports[p].lastLoad
              command := some ⟨v, number, cfn, (cfn + s1.profiles[k].replyTimeout.effective) % day,
                some (q.story, q.tag)⟩
              transmit := commandFrame v number s1.profiles[k].channel }
            ∧ findElement t q.story q.tag = some { e with state := .issued, lateness := lateness })
          ∧ (∀ x : Fin 16, e.action = .pulse x →
            t.ports[p] = { s1.ports[p] with
              state := .pulsing, lastIssue := some cfn
              pulseEnd := some ((cfn + s1.profiles[k].pulseWidth.effective) % day) }
            ∧ findElement t q.story q.tag = some { e with state := .done, lateness := lateness }))
        ∧ (¬ TakesByRule s1 p s1.profiles[k] q.verb → { q with deferred := true } ∈ t.sched.queue
          ∧ t.ports[p] = s1.ports[p] ∧ findElement t q.story q.tag = some e)
        ∧ (∀ x ∈ r, s1.due x.issue = true → x.port = some p →
          signedDiff day cfn x.issue ≤ s1.profiles[k].lateTolerance →
          { x with deferred := true } ∈ t.sched.queue
            ∧ findElement t x.story x.tag = findElement s1 x.story x.tag))
      ∧ (∀ (l r : List (StoryId × Element)) (id : StoryId) (e : Element), waitingOrder s1 = l ++ (id, e) :: r →
        (staying s1 t + l.length < Config.armQueue → findElement t id e.tag = some { e with state := .armed }
          ∧ ∃ i c, findItem s1 id = some i ∧ i.context = some c
            ∧ ∃ q ∈ t.sched.queue, ArmedEntry s1 id c.start c.stop e q)
        ∧ (Config.armQueue ≤ staying s1 t + l.length → findElement t id e.tag = some e)))

/-! ### Cue ports (chapter 7) -/

/-- PROFILE_SET and GROUP_SET replace the record they name, derive its effective values at the rate in force,
and answer with them; a port in service stops them with STATE, and values out of range are BAD_VALUE (R137,
R140). -/
def Obligations.ProfileAndGroupSet : Prop :=
  ∀ (s : State) (rest : List RequestEntry),
    let s0 := takeHead rest s
    (∀ (body : List Byte) (n : Nat) (numbers : List Nat) (g : Profile), Waiting 0x30#8 body rest s →
      takeNumbers [1, 2, 1, 2, 1, 2, 1, 2, 1, 2, 1, 1, 1] body = some (n :: numbers) →
      profileGiven s0.rtu.rate numbers = some g →
      ((7 < n ∨ 15 < g.channel) → exec .profileSet s = .next (pushResponse 0x30#8 [0x04#8] s0))
      ∧ (∀ k : Fin 8, n = k.val → g.channel ≤ 15 →
        (profileBusy s0 k = false → exec .profileSet s = .next (pushResponse 0x30#8 (0#8 :: effectiveBytes g)
          { s0 with profiles := s0.profiles.set k g }))
        ∧ (profileBusy s0 k = true → exec .profileSet s = .next (pushResponse 0x30#8 [0x08#8] s0))))
    ∧ (∀ (n gm gf wm wf limit : Nat), n < 256 → gm < 65536 → gf < 256 → wm < 65536 → wf < 256 → limit < 256 →
      Waiting 0x32#8 (beBytes 1 n ++ beBytes 2 gm ++ beBytes 1 gf ++ beBytes 2 wm ++ beBytes 1 wf
        ++ beBytes 1 limit) rest s →
      let gap := effectiveFrames s0.rtu.rate gm gf
      let window := effectiveFrames s0.rtu.rate wm wf
      ((3 < n ∨ limit = 0 ∨ 8 < limit) → exec .groupSet s = .next (pushResponse 0x32#8 [0x04#8] s0))
      ∧ (∀ g : Fin 4, n = g.val → 1 ≤ limit → limit ≤ 8 →
        ((∀ p ∈ membersOf s0 g, s0.ports[p].state = .held) →
          exec .groupSet s = .next (pushResponse 0x32#8 (0#8 :: (beBytes 1 gap ++ beBytes 1 window))
            { s0 with groups := s0.groups.set g { s0.groups[g] with
                gap := ⟨gm, gf, gap⟩, window := ⟨wm, wf, window⟩, limit := limit } }))
        ∧ ((∃ p ∈ membersOf s0 g, s0.ports[p].state ≠ .held) →
          exec .groupSet s = .next (pushResponse 0x32#8 [0x08#8] s0))))

/-- PORT_BIND, check by check in its order: BAD_VALUE, BAD_PORT, STATE, NO_SPACE; an accepted one binds the
profile, moves the port to the group named, clears the failure count and the held-from-fault mark, puts the
port in service and keeps the last issue and last LOAD frames, with PORT_STATE when the mark was set (R142). -/
def Obligations.PortBindInOrder : Prop :=
  ∀ (s : State) (rest : List RequestEntry),
    let s0 := takeHead rest s
    (∀ pn kn gn : Nat, pn < 256 → kn < 256 → gn < 256 →
      Waiting 0x33#8 (beBytes 1 pn ++ beBytes 1 kn ++ beBytes 1 gn) rest s →
      (15 < pn ∨ 7 < kn ∨ (3 < gn ∧ gn ≠ 255)) → exec .portBind s = .next (pushResponse 0x33#8 [0x04#8] s0))
    ∧ (∀ (p : Fin 16) (k : Fin 8) (g : Option (Fin 4)),
      Waiting 0x33#8 (beBytes 1 p.val ++ beBytes 1 k.val ++ beBytes 1 ((g.map Fin.val).getD 255)) rest s →
      let r := s0.ports[p]
      let st : PortState := if r.pulseEnd.isSome then .pulsing else .ready
      let bound : Port :=
        { r with profile := some k, group := g, failures := 0, heldFromFault := false, state := st }
      let s1 : State := { s0 with ports := s0.ports.set p bound }
      (p.val < 4 ∧ g ≠ none → exec .portBind s = .next (pushResponse 0x33#8 [0x0B#8] s0))
      ∧ ((4 ≤ p.val ∨ g = none) → r.state ≠ .unbound → r.state ≠ .held →
        exec .portBind s = .next (pushResponse 0x33#8 [0x08#8] s0))
      ∧ ((4 ≤ p.val ∨ g = none) → (r.state = .unbound ∨ r.state = .held) →
        (∃ x, g = some x ∧ Config.groupMembers ≤ otherMembers s0 p x) →
        exec .portBind s = .next (pushResponse 0x33#8 [0x07#8] s0))
      ∧ ((4 ≤ p.val ∨ g = none) → (r.state = .unbound ∨ r.state = .held) →
        (∀ x, g = some x → otherMembers s0 p x < Config.groupMembers) →
        exec .portBind s = .next (pushResponse 0x33#8 [0#8, BitVec.ofNat 8 st.code]
          (if r.heldFromFault then raiseNotice .portState 0 0 p.val st.code s1 else s1))))

/-- PORT_HOLD, PORT_RELEASE and PORT_UNBIND in each state of the port: the state entered, the failure count and
held-from-fault mark, the PORT_STATE notice, the answer, and BAD_VALUE or STATE where refused (R143 to
R145). -/
def Obligations.PortHoldReleaseUnbind : Prop :=
  ∀ (s : State) (rest : List RequestEntry),
    let s0 := takeHead rest s
    (∀ n : Nat, 15 < n → n < 256 →
      (Waiting 0x34#8 (beBytes 1 n) rest s → exec .portUnbind s = .next (pushResponse 0x34#8 [0x04#8] s0))
      ∧ (Waiting 0x35#8 (beBytes 1 n) rest s → exec .portHold s = .next (pushResponse 0x35#8 [0x04#8] s0))
      ∧ (Waiting 0x36#8 (beBytes 1 n) rest s → exec .portRelease s = .next (pushResponse 0x36#8 [0x04#8] s0)))
    ∧ (∀ p : Fin 16,
      let r := s0.ports[p]
      let put (x : Port) : State := { s0 with ports := s0.ports.set p x }
      (Waiting 0x35#8 (beBytes 1 p.val) rest s →
        (r.state = .unbound → exec .portHold s = .next (pushResponse 0x35#8 [0x08#8] s0))
        ∧ ((r.state = .ready ∨ r.state = .pulsing) → exec .portHold s = .next (pushResponse 0x35#8 [0#8, 0x05#8]
          (raiseNotice .portState 0 0 p.val 5 (put { r with state := .held }))))
        ∧ (r.state = .fault → exec .portHold s = .next (pushResponse 0x35#8 [0#8, 0x05#8]
          (raiseNotice .portState 0 0 p.val 5 (put { r with state := .held, heldFromFault := true }))))
        ∧ (r.state = .await → exec .portHold s = .next (pushResponse 0x35#8 [0#8, 0x04#8]
          (put { r with state := .holding })))
        ∧ ((r.state = .holding ∨ r.state = .held) →
          exec .portHold s = .next (pushResponse 0x35#8 [0#8, BitVec.ofNat 8 r.state.code] s0)))
      ∧ (Waiting 0x36#8 (beBytes 1 p.val) rest s →
        ((r.state = .unbound ∨ r.state = .fault) →
          exec .portRelease s = .next (pushResponse 0x36#8 [0x08#8] s0))
        ∧ (r.state = .held →
          let st : PortState := if r.pulseEnd.isSome then .pulsing else .ready
          let s1 := put { r with state := st, failures := 0, heldFromFault := false }
          exec .portRelease s = .next (pushResponse 0x36#8 [0#8, BitVec.ofNat 8 st.code]
            (if r.heldFromFault then raiseNotice .portState 0 0 p.val st.code s1 else s1)))
        ∧ (r.state = .holding → exec .portRelease s = .next (pushResponse 0x36#8 [0#8, 0x02#8]
          (put { r with state := .await })))
        ∧ ((r.state = .ready ∨ r.state = .await ∨ r.state = .pulsing) →
          exec .portRelease s = .next (pushResponse 0x36#8 [0#8, BitVec.ofNat 8 r.state.code] s0)))
      ∧ (Waiting 0x34#8 (beBytes 1 p.val) rest s →
        (r.state = .held → exec .portUnbind s = .next (pushResponse 0x34#8 [0#8] (put { r with
          state := .unbound, profile := none, group := none, failures := 0
          heldFromFault := false, pulseEnd := none })))
        ∧ (r.state ≠ .held → exec .portUnbind s = .next (pushResponse 0x34#8 [0x08#8] s0))))

/-- A reply byte settles the outstanding command by its class: ACCEPT, REFUSE and BUSY clear the failure
count, a garbled byte raises it to FAULT at 3; HOLDING passes to HELD; without a command the byte is
discarded (R150, R151, R154).  A detached command changes the port in the same way and no element, and raises no
ELEMENT_FAILED and no MISSED flag (R153).  With the sequencer's steps begun, these are completed first (note 4). -/
def Obligations.ReplySettlesCommand : Prop :=
  ∀ (s : State) (p : Fin 16) (value : Byte) (parityOk stopHigh : Bool),
    let s1 := settleSteps s
    let r := s1.ports[p]
    let good := parityOk && stopHigh
    let idle : PortState := if r.state = .holding then .held else .ready
    let settled : Port := { r with command := none, failures := 0, state := idle }
    let count := min 3 (r.failures + 1)
    let failed : PortState := if r.state = .holding then .held else if count = 3 then .fault else .ready
    let garbled := good = false ∨ (value ≠ 0x4B#8 ∧ value ≠ 0x4E#8 ∧ value ≠ 0x42#8)
    (r.command = none → exec (.replyByte p value parityOk stopHigh) s = .next s)
    ∧ (∀ c : Outstanding, r.command = some c → c.element = none → (r.state = .await ∨ r.state = .holding) →
      (good = true → (value = 0x4B#8 ∨ value = 0x4E#8 ∨ value = 0x42#8) →
        let s2 : State := { s1 with ports := s1.ports.set p settled }
        exec (.replyByte p value parityOk stopHigh) s
          = .next (if idle = .held then raiseNotice .portState 0 0 p.val 5 s2 else s2))
      ∧ (garbled →
        let s2 : State := { s1 with ports := s1.ports.set p { r with
          command := none, failures := count, state := failed } }
        exec (.replyByte p value parityOk stopHigh) s
          = .next (if failed = .ready then s2 else raiseNotice .portState 0 0 p.val failed.code s2)))
    ∧ (∀ (c : Outstanding) (id : StoryId) (tag : Tag), r.command = some c → c.element = some (id, tag) →
      (r.state = .await ∨ r.state = .holding) →
      (good = true → value = 0x4B#8 → ∃ t, exec (.replyByte p value parityOk stopHigh) s = .next t
        ∧ t.ports = s1.ports.set p settled
        ∧ findElement t id tag = (findElement s1 id tag).map (fun e => { e with state := .done }) ∧ Quiet s1 t)
      ∧ (good = true → value = 0x4E#8 → ∃ t, exec (.replyByte p value parityOk stopHigh) s = .next t
        ∧ t.ports = s1.ports.set p settled ∧ t.link.missed = true
        ∧ findElement t id tag
          = (findElement s1 id tag).map (fun e => { e with state := .failed, cause := some .refused })
        ∧ Quiet s1 t)
      ∧ (∀ (i : Item) (e : Element), good = true → value = 0x42#8 → findItem s1 id = some i →
        i.findElement tag = some e → i.isArmed = true → s1.sched.queue.length < Config.armQueue →
        ∃ t, exec (.replyByte p value parityOk stopHigh) s = .next t ∧ t.ports = s1.ports.set p settled
        ∧ findElement t id tag = some { e with state := .armed }
        ∧ (∃ q ∈ t.sched.queue, q.story = id ∧ q.tag = tag ∧ q.issue = c.issue ∧ q.deferred = false
          ∧ q.effect = (c.issue + leadByRule s1 (.serial c.verb p c.number)) % s1.rtu.rate.day)
        ∧ Quiet s1 t)
      ∧ (good = true → value = 0x42#8 → findElement s1 id tag ≠ none →
        (∀ i, findItem s1 id = some i → i.isArmed = false ∨ Config.armQueue ≤ s1.sched.queue.length) →
        ∃ t, exec (.replyByte p value parityOk stopHigh) s = .next t ∧ t.ports = s1.ports.set p settled
        ∧ findElement t id tag
          = (findElement s1 id tag).map (fun e => { e with state := .failed, cause := some .busy })
        ∧ t.link.missed = true ∧ Quiet s1 t)
      ∧ (garbled → ∃ t, exec (.replyByte p value parityOk stopHigh) s = .next t
        ∧ t.ports = s1.ports.set p { r with command := none, failures := count, state := failed }
        ∧ findElement t id tag
          = (findElement s1 id tag).map (fun e => { e with state := .failed, cause := some .garbled })
        ∧ t.link.missed = true ∧ Quiet s1 t))

/-- A due reply deadline times the command out: the element FAILED with TIMEOUT, the count raised, FAULT at 3
or HELD from HOLDING (R152, R154); a detached command changes the port alone (R153).  A due pulse end opens the
contact (R155).  With the sequencer's steps begun, these are completed first (note 4). -/
def Obligations.DeadlineAndPulseEnd : Prop :=
  ∀ (s : State) (p : Fin 16),
    let s1 := settleSteps s
    let r := s1.ports[p]
    let count := min 3 (r.failures + 1)
    let failed : PortState := if r.state = .holding then .held else if count = 3 then .fault else .ready
    let out := s1.ports.set p { r with command := none, failures := count, state := failed }
    (∀ c : Outstanding, r.command = some c → (r.state = .await ∨ r.state = .holding) → s1.due c.deadline = true →
      c.issue ≠ s1.rtu.cfn →
      (∀ (id : StoryId) (tag : Tag), c.element = some (id, tag) → ∃ t, exec (.replyTimeout p) s = .next t
        ∧ t.ports = out
        ∧ findElement t id tag
          = (findElement s1 id tag).map (fun e => { e with state := .failed, cause := some .timeout })
        ∧ t.link.missed = true ∧ Quiet s1 t)
      ∧ (c.element = none →
        let s2 : State := { s1 with ports := out }
        exec (.replyTimeout p) s
          = .next (if failed = .ready then s2 else raiseNotice .portState 0 0 p.val failed.code s2)))
    ∧ (∀ f : Frame, r.pulseEnd = some f → s1.due f = true → r.lastIssue ≠ some s1.rtu.cfn →
      exec (.pulseEnd p) s = .next { s1 with ports := s1.ports.set p { r with
        pulseEnd := none, state := if r.state = .pulsing then .ready else r.state } })

/-! ### Presenter displays (chapter 8) -/

/-- LAYOUT_SET, GLYPH_SET and ICON_SET replace the layout, a glyph and the user icon of the display they name; the
glyph set is dirty or already being sent anew (R162, R165, R166).  DISPLAY_BLANK and DISPLAY_UNBLANK move the display
between ACTIVE and BLANK with DISPLAY_STATE, or set and clear the blank mark in FAULT (R181, R182, R184).  A number
or value out of range is BAD_VALUE, and no other display changes. -/
def Obligations.DisplayRequests : Prop :=
  ∀ (s : State) (rest : List RequestEntry) (d : Fin 4),
    let s0 := takeHead rest s
    let r := s0.displays[d]
    let others (t : State) : Prop :=
      (∀ x : Fin 4, x ≠ d → t.displays[x] = s0.displays[x]) ∧ t.items = s0.items ∧ t.ports = s0.ports
        ∧ t.seq = s0.seq ∧ RequestFrame s0 t
    let stateNotice (t : State) (code : Nat) : Prop :=
      t.link.notices = (pushNotice ⟨.displayState, s0.rtu.cfn, 0, 0, d.val, code⟩ s0.link).notices
        ∧ t.link.noticeLost = (pushNotice ⟨.displayState, s0.rtu.cfn, 0, 0, d.val, code⟩ s0.link).noticeLost
    (∀ (body : List Byte) (b : LayoutBody), Waiting 0x40#8 body rest s → readLayout body = some b →
      (b.display = d.val → 2 ≤ b.interval → b.interval ≤ 50 → rowInRange b.row0 = true → rowInRange b.row1 = true →
        (rowFits b.row0 = true → rowFits b.row1 = true → ∃ t, exec .layoutSet s = .next t
          ∧ Answered 0x40#8 [0#8] s0 t ∧ t.displays[d].row0 = b.row0.map layoutField
          ∧ t.displays[d].row1 = b.row1.map layoutField ∧ t.displays[d].crawlInterval = b.interval
          ∧ t.displays[d].crawlPosition = 0 ∧ t.displays[d].cues = r.cues ∧ others t)
        ∧ ((rowFits b.row0 = false ∨ rowFits b.row1 = false) →
          exec .layoutSet s = .next (pushResponse 0x40#8 [0x0C#8] s0)))
      ∧ ((3 < b.display ∨ b.interval < 2 ∨ 50 < b.interval ∨ rowInRange b.row0 = false ∨ rowInRange b.row1 = false) →
        exec .layoutSet s = .next (pushResponse 0x40#8 [0x04#8] s0)))
    ∧ (∀ (n g : Nat) (rows : List Nat), n < 256 → g < 256 → rows.length = 8 → (∀ x ∈ rows, x < 256) →
      Waiting 0x41#8 (beBytes 1 n ++ beBytes 1 g ++ rows.flatMap (beBytes 1)) rest s →
      (n = d.val → g ≤ 7 → (∀ x ∈ rows, x ≤ 31) → ∃ t, exec .glyphSet s = .next t ∧ Answered 0x41#8 [0#8] s0 t
        ∧ t.displays[d].glyphs = r.glyphs.set g rows ∧ t.displays[d].row0 = r.row0 ∧ t.displays[d].row1 = r.row1
        ∧ (t.displays[d].dirty.getLsbD g = true
          ∨ t.displays[d].flight.map Flight.content = some (.glyph g (t.displays[d].glyphs.getD g [])))
        ∧ others t)
      ∧ ((3 < n ∨ 7 < g ∨ ∃ x ∈ rows, 31 < x) → exec .glyphSet s = .next (pushResponse 0x41#8 [0x04#8] s0)))
    ∧ (∀ n v : Nat, n < 256 → v < 256 → Waiting 0x42#8 (beBytes 1 n ++ beBytes 1 v) rest s →
      (n = d.val → v ≤ 1 → ∃ t, exec .iconSet s = .next t ∧ Answered 0x42#8 [0#8] s0 t
        ∧ t.displays[d].userIcon = (v == 1) ∧ t.displays[d].target.icons.getLsbD 7 = (v == 1) ∧ others t)
      ∧ ((3 < n ∨ 1 < v) → exec .iconSet s = .next (pushResponse 0x42#8 [0x04#8] s0)))
    ∧ (∀ n : Nat, 3 < n → n < 256 →
      (Waiting 0x45#8 (beBytes 1 n) rest s → exec .displayBlank s = .next (pushResponse 0x45#8 [0x04#8] s0))
      ∧ (Waiting 0x46#8 (beBytes 1 n) rest s → exec .displayUnblank s = .next (pushResponse 0x46#8 [0x04#8] s0)))
    ∧ (Waiting 0x45#8 (beBytes 1 d.val) rest s →
      (r.state = .active → ∃ t, exec .displayBlank s = .next t ∧ Answered 0x45#8 [0#8, 1#8, 1#8] s0 t
        ∧ t.displays[d].state = .blank ∧ t.displays[d].blankMark = true ∧ t.displays[d].sent = unknownImage
        ∧ t.displays[d].iconsOffPending = true ∧ t.displays[d].cues = r.cues ∧ stateNotice t 1 ∧ others t)
      ∧ (r.state = .fault → exec .displayBlank s = .next (pushResponse 0x45#8 [0#8, 2#8, 1#8]
        { s0 with displays := s0.displays.set d { r with blankMark := true } }))
      ∧ (r.state = .blank → exec .displayBlank s
        = .next (pushResponse 0x45#8 (0#8 :: 1#8 :: flagByte r.blankMark) s0)))
    ∧ (Waiting 0x46#8 (beBytes 1 d.val) rest s →
      (r.state = .blank → ∃ t, exec .displayUnblank s = .next t ∧ Answered 0x46#8 [0#8, 0#8, 0#8] s0 t
        ∧ t.displays[d].state = .active ∧ t.displays[d].blankMark = false ∧ t.displays[d].sent = unknownImage
        ∧ t.displays[d].iconsOffPending = false ∧ t.displays[d].dirty = 0xFF#8 ∧ stateNotice t 0 ∧ others t)
      ∧ (r.state = .fault → exec .displayUnblank s = .next (pushResponse 0x46#8 [0#8, 2#8, 0#8]
        { s0 with displays := s0.displays.set d { r with blankMark := false } }))
      ∧ (r.state = .active → exec .displayUnblank s
        = .next (pushResponse 0x46#8 (0#8 :: 0#8 :: flagByte r.blankMark) s0)))

/-- CUE_PUSH adds one entry at the tail of each named list, or is refused with FULL; CUE_CLEAR and a due
expiry remove the head; a due crawl frame moves the crawl on by one (R168, R170 to R172).  The model's choice: the
zeros for tag and origin that CUE_CLEAR answers on an empty list (note 27), and that steps begun by the sequencer
are completed first (note 4). -/
def Obligations.CueListEvents : Prop :=
  (∀ (s : State) (rest : List RequestEntry) (b : PushBody), b.displays ≠ 0 → b.displays ≤ 15 →
    b.text.length ≤ 40 → b.tag < 256 → b.hold < 65536 → Waiting 0x43#8 (pushBytes b) rest s →
    let s0 := takeHead rest s
    ((∀ d : Fin 4, b.displays.testBit d.val = true → s0.displays[d].cues.length < Config.cueList) →
      ∃ t, exec .cuePush s = .next t ∧ Answered 0x43#8 [0#8] s0 t
        ∧ (∀ d : Fin 4, b.displays.testBit d.val = true →
          t.displays[d].cues.map (fun c => (c.text, c.origin, c.tag, c.hold))
            = s0.displays[d].cues.map (fun c => (c.text, c.origin, c.tag, c.hold))
              ++ [(clampText b.text, .control, b.tag, b.hold)])
        ∧ (∀ d : Fin 4, b.displays.testBit d.val = false → t.displays[d] = s0.displays[d])
        ∧ t.items = s0.items ∧ t.ports = s0.ports ∧ t.seq = s0.seq ∧ RequestFrame s0 t)
    ∧ ((∃ d : Fin 4, b.displays.testBit d.val = true ∧ Config.cueList ≤ s0.displays[d].cues.length) →
      exec .cuePush s = .next (pushResponse 0x43#8 [0x0A#8] s0)))
  ∧ (∀ (s : State) (rest : List RequestEntry) (d : Fin 4), Waiting 0x44#8 (beBytes 1 d.val) rest s →
    let s0 := takeHead rest s
    (∀ (c : Cue) (cs : List Cue), s0.displays[d].cues = c :: cs → ∃ t, exec .cueClear s = .next t
      ∧ Answered 0x44#8 (0#8 :: 1#8 :: (beBytes 1 c.tag ++ beBytes 1 c.origin.code)) s0 t
      ∧ t.displays[d].cues = headTakesExpiry s0.rtu.rate.day s0.rtu.cfn cs
      ∧ (∀ x : Fin 4, x ≠ d → t.displays[x] = s0.displays[x]) ∧ t.items = s0.items ∧ RequestFrame s0 t)
    ∧ (s0.displays[d].cues = [] → exec .cueClear s = .next (pushResponse 0x44#8 [0#8, 0#8, 0#8, 0#8] s0)))
  ∧ (∀ (s : State) (d : Fin 4) (c : Cue) (cs : List Cue) (f : Frame),
    let s1 := settleSteps s
    s1.displays[d].cues = c :: cs → c.expiry = some f → s1.due f = true → ∃ t, exec (.cueExpiry d) s = .next t
      ∧ t.displays[d].cues = headTakesExpiry s1.rtu.rate.day s1.rtu.cfn cs
      ∧ (∀ x : Fin 4, x ≠ d → t.displays[x] = s1.displays[x]) ∧ t.items = s1.items ∧ Quiet s1 t)
  ∧ (∀ (s : State) (d : Fin 4) (c : Cue) (cs : List Cue) (f : Frame),
    let s1 := settleSteps s
    s1.displays[d].cues = c :: cs → expiryDue s1 d = false → s1.displays[d].nextCrawl = some f → s1.due f = true →
    ∃ t, exec (.crawl d) s = .next t
      ∧ t.displays[d].crawlPosition = (s1.displays[d].crawlPosition + 1) % (c.text.length + 3)
      ∧ t.displays[d].nextCrawl = some ((s1.rtu.cfn + s1.displays[d].crawlInterval) % s1.rtu.rate.day)
      ∧ t.displays[d].cues = c :: cs
      ∧ (∀ x : Fin 4, x ≠ d → t.displays[x] = s1.displays[x]) ∧ t.items = s1.items ∧ Quiet s1 t)

/-- A busy wait of 500 ms puts the display in FAULT with its unit abandoned and its sent image unknown, after any
expiry and crawl of the tick; the fall of BUSY ends the fault with a CLEAR, starts the waiting byte, or with none
changes the level alone; a byte and a unit end as the line carries them (R170, R177 to R180).  The model's choice:
UNIT_COMPLETION stands for all bytes left and DISPLAY_BYTE for one that does not end its unit (note 30), the
cycles they pass, which cannot carry the tick-phase counter past the oscillator's next tick (R9, R10, note 5), and that a
fall of BUSY finds the tick's work on its display done, while a unit or byte that ends finds it as it stands (note 4). -/
def Obligations.DisplayLineEvents : Prop :=
  ∀ (s : State) (d : Fin 4) (elapsed : Nat),
    let r := s.displays[d]
    (let s1 := settleSteps s
    expiryDue s1 d = false → crawlDue s1 d = false → busyOverdue s1 d = true → ∃ t, exec (.displayFault d) s = .next t
      ∧ t.displays[d] = { s1.displays[d] with flight := none, busyWait := none, sent := unknownImage, state := .fault,
                                              target := t.displays[d].target } ∧ Quiet s1 t)
    ∧ (let s0 := displayTick d (settleSteps s)
      let x := s0.displays[d]
      (x.state = .fault → x.flight = none → ∃ t, exec (.busyFall d) s = .next t
        ∧ t.displays[d].state = (if x.blankMark then .blank else .active)
        ∧ t.displays[d].flight = some ⟨.clear, 1, false⟩ ∧ t.displays[d].clearPending = false
        ∧ t.displays[d].target = x.target ∧ t.busy = s0.busy.set d .low ∧ t.items = s0.items)
      ∧ (∀ (u : DisplayUnit) (k : Nat), x.state ≠ .fault → x.flight = some ⟨u, k, true⟩ →
        exec (.busyFall d) s = .next { s0 with
          busy := s0.busy.set d .low
          displays := s0.displays.set d { x with flight := some ⟨u, k, false⟩, busyWait := none } })
      ∧ (x.state ≠ .fault → (∀ f, x.flight = some f → f.waiting = false) → x.busyWait = none →
        exec (.busyFall d) s = .next { s0 with busy := s0.busy.set d .low }))
    ∧ (∀ busy : Level, oscillatorCount s < s.rtu.counter + elapsed →
      exec (.unitCompletion d elapsed busy) s = .next s ∧ exec (.displayByte d elapsed busy) s = .next s)
    ∧ (∀ (u : DisplayUnit) (k : Nat) (busy : Level), s.rtu.counter + elapsed ≤ oscillatorCount s →
      r.flight = some ⟨u, k, false⟩ →
      (∃ t, exec (.unitCompletion d elapsed busy) s = .next t
        ∧ t.displays[d].sent = completeUnit u r.sent ∧ t.displays[d].target = r.target
        ∧ t.clock = s.clock + elapsed ∧ t.busy = s.busy.set d busy
        ∧ (∀ x : Fin 4, x ≠ d → t.displays[x] = s.displays[x]) ∧ t.items = s.items ∧ t.link = s.link)
      ∧ (2 ≤ k → exec (.displayByte d elapsed .low) s = .next { s with
        rtu := { s.rtu with counter := s.rtu.counter + elapsed }, clock := s.clock + elapsed
        busy := s.busy.set d .low
        displays := s.displays.set d { r with flight := some ⟨u, k - 1, false⟩ } })
      ∧ (2 ≤ k → r.busyWait = none → exec (.displayByte d elapsed .high) s = .next { s with
        rtu := { s.rtu with counter := s.rtu.counter + elapsed }, clock := s.clock + elapsed
        busy := s.busy.set d .high
        displays := s.displays.set d
          { r with flight := some ⟨u, k - 1, true⟩, busyWait := some (s.clock + elapsed) } }))

/-! ### Panel inputs (chapter 9) -/

/-- INPUT_SET replaces the configuration and clears the candidate count, keeping level, sample and edge count.  With
an input number above 7, an undefined function or polarity, a debounce above 15, or for ACK a display above 3, it is
refused with BAD_VALUE and changes nothing; for a function other than ACK the display is not checked and stored as 0
(R194).  The field edgeDue is the model's own (note 4). -/
def Obligations.InputSetConfigures : Prop :=
  (∀ (s : State) (rest : List RequestEntry) (n : Fin 8) (f : InputFunction) (a : Nat) (pol : Polarity) (deb : Nat)
      (ack : Fin 4), a < 256 → deb ≤ 15 → ackDisplayFor f a = some ack →
    Waiting 0x48#8 (beBytes 1 n.val ++ beBytes 1 f.code ++ beBytes 1 a ++ beBytes 1 pol.code ++ beBytes 1 deb) rest s →
    let s0 := takeHead rest s
    let r := s0.inputs[n]
    exec .inputSet s = .next (pushResponse 0x48#8
      (0#8 :: (beBytes 1 f.code ++ beBytes 1 ack.val ++ beBytes 1 pol.code ++ beBytes 1 deb
        ++ beBytes 1 (levelCode r.level) ++ flagByte (r.level == pol.activeLevel)))
      { s0 with inputs := s0.inputs.set n { r with
          function := f, ackDisplay := ack, polarity := pol, debounce := deb, candidate := 0, edgeDue := false } }))
  ∧ (∀ (s : State) (rest : List RequestEntry) (n fc a pc deb : Nat),
      n < 256 → fc < 256 → a < 256 → pc < 256 → deb < 256 →
    Waiting 0x48#8 (beBytes 1 n ++ beBytes 1 fc ++ beBytes 1 a ++ beBytes 1 pc ++ beBytes 1 deb) rest s →
    (7 < n ∨ InputFunction.ofCode fc = none ∨ Polarity.ofCode pc = none ∨ 15 < deb
      ∨ (InputFunction.ofCode fc = some .ack ∧ 3 < a)) →
    exec .inputSet s = .next (pushResponse 0x48#8 [0x04#8] (takeHead rest s)))

/-- A due edge changes the debounced level and clears the count; an active edge raises the edge count and
performs its function: NONE nothing, TAKE a take judged by R73 in its order, HOLD a toggle of the hold, ACK an
acknowledgement, REPORT a notice (R188 to R192).  With the sequencer's steps begun, these are completed first
(note 4), and an edge is taken by its row (note 33). -/
def Obligations.EdgesPerformFunctions : Prop :=
  ∀ (s : State) (n : Fin 8),
    let s1 := settleSteps s
    let r := s1.inputs[n]
    let pressed : PanelInput :=
      { r with level := edgeLevel r, candidate := 0, edgeDue := false, edges := (r.edges + 1) % 65536 }
    let s2 : State := { s1 with inputs := s1.inputs.set n pressed }
    (activeEdgeDue .nothing r = true → exec (.activeEdge n) s = .next s2)
    ∧ (inactiveEdgeDue r = true → exec (.inactiveEdge n) s = .next { s1 with
        inputs := s1.inputs.set n { r with level := edgeLevel r, candidate := 0, edgeDue := false } })
    ∧ (activeEdgeDue .take r = true → (GuardRuns s1 ∨ takingItem s1 ≠ none) → exec (.panelTake n) s = .next s2)
    ∧ (activeEdgeDue .take r = true → ¬ GuardRuns s1 → takingItem s1 = none →
        (∀ i : Item, standbyItem s1 = some i → i.captured = false → ∃ t j, exec (.panelTake n) s = .next t
          ∧ t.inputs = s1.inputs.set n pressed ∧ findItem t i.id = some j ∧ j.state = .taking
          ∧ j.airFrame = some ((s1.rtu.cfn + takeLead s1 i) % s1.rtu.rate.day) ∧ t.seq.mode = .running
          ∧ t.seq.lastAdvance = some s1.rtu.cfn ∧ Fixed s1 t)
        ∧ (∀ i : Item, standbyItem s1 = some i → i.captured = true →
          exec (.panelTake n) s = .next (raiseNotice .takeRefused i.id 0 n.val 1 s2))
        ∧ (standbyItem s1 = none → exec (.panelTake n) s = .next (raiseNotice .takeRefused 0 0 n.val 2 s2)))
    ∧ (activeEdgeDue .hold r = true → ∃ t, exec (.panelHold n) s = .next t ∧ t.inputs = s1.inputs.set n pressed
        ∧ t.seq = { s1.seq with mode := match s1.seq.mode with
            | .running => .holding
            | .holding => .running
            | .idle => .idle
            | .ended => .ended } ∧ Fixed s1 t)
    ∧ (∀ (c : Cue) (cs : List Cue), activeEdgeDue .ack r = true → s1.displays[r.ackDisplay].cues = c :: cs →
        ∃ t, exec (.panelAck n) s = .next t ∧ t.inputs = s1.inputs.set n pressed
          ∧ t.displays[r.ackDisplay].cues = headTakesExpiry s1.rtu.rate.day s1.rtu.cfn cs
          ∧ (∀ x : Fin 4, x ≠ r.ackDisplay → t.displays[x] = s1.displays[x]) ∧ Fixed s1 t)
    ∧ (activeEdgeDue .ack r = true → s1.displays[r.ackDisplay].cues = [] → exec (.panelAck n) s = .next s2)
    ∧ (activeEdgeDue .report r = true → exec (.panelReport n) s
        = .next (raiseNotice .inputEdge 0 0 n.val ((r.edges + 1) % 65536) s2))
end

