-- ==== Sys2Proof/Laws/State.lean ====
section
/-! SUPPORT. What each record update leaves in every other field of the state: one lemma per field, true by
rfl. -/

namespace Sys2Proof.Machine

@[simp] theorem passCycles_items (n : Nat) (s : State) : (passCycles n s).items = s.items := rfl
@[simp] theorem passCycles_revision (n : Nat) (s : State) : (passCycles n s).revision = s.revision := rfl
@[simp] theorem passCycles_seq (n : Nat) (s : State) : (passCycles n s).seq = s.seq := rfl
@[simp] theorem passCycles_engine (n : Nat) (s : State) : (passCycles n s).engine = s.engine := rfl
@[simp] theorem passCycles_sched (n : Nat) (s : State) : (passCycles n s).sched = s.sched := rfl
@[simp] theorem passCycles_profiles (n : Nat) (s : State) : (passCycles n s).profiles = s.profiles := rfl
@[simp] theorem passCycles_groups (n : Nat) (s : State) : (passCycles n s).groups = s.groups := rfl
@[simp] theorem passCycles_ports (n : Nat) (s : State) : (passCycles n s).ports = s.ports := rfl
@[simp] theorem passCycles_displays (n : Nat) (s : State) : (passCycles n s).displays = s.displays := rfl
@[simp] theorem passCycles_inputs (n : Nat) (s : State) : (passCycles n s).inputs = s.inputs := rfl
@[simp] theorem passCycles_link (n : Nat) (s : State) : (passCycles n s).link = s.link := rfl
@[simp] theorem passCycles_tick (n : Nat) (s : State) : (passCycles n s).tick = s.tick := rfl
@[simp] theorem passCycles_busy (n : Nat) (s : State) : (passCycles n s).busy = s.busy := rfl
@[simp] theorem passCycles_resetHeld (n : Nat) (s : State) : (passCycles n s).resetHeld = s.resetHeld := rfl
@[simp] theorem passCycles_pending (n : Nat) (s : State) : (passCycles n s).pending = s.pending := rfl

@[simp] theorem raiseNotice_rtu (k : NoticeKind) (a b c d : Nat) (s : State) : (raiseNotice k a b c d s).rtu = s.rtu := rfl
@[simp] theorem raiseNotice_items (k : NoticeKind) (a b c d : Nat) (s : State) : (raiseNotice k a b c d s).items = s.items := rfl
@[simp] theorem raiseNotice_revision (k : NoticeKind) (a b c d : Nat) (s : State) : (raiseNotice k a b c d s).revision = s.revision := rfl
@[simp] theorem raiseNotice_seq (k : NoticeKind) (a b c d : Nat) (s : State) : (raiseNotice k a b c d s).seq = s.seq := rfl
@[simp] theorem raiseNotice_engine (k : NoticeKind) (a b c d : Nat) (s : State) : (raiseNotice k a b c d s).engine = s.engine := rfl
@[simp] theorem raiseNotice_sched (k : NoticeKind) (a b c d : Nat) (s : State) : (raiseNotice k a b c d s).sched = s.sched := rfl
@[simp] theorem raiseNotice_profiles (k : NoticeKind) (a b c d : Nat) (s : State) : (raiseNotice k a b c d s).profiles = s.profiles := rfl
@[simp] theorem raiseNotice_groups (k : NoticeKind) (a b c d : Nat) (s : State) : (raiseNotice k a b c d s).groups = s.groups := rfl
@[simp] theorem raiseNotice_ports (k : NoticeKind) (a b c d : Nat) (s : State) : (raiseNotice k a b c d s).ports = s.ports := rfl
@[simp] theorem raiseNotice_displays (k : NoticeKind) (a b c d : Nat) (s : State) : (raiseNotice k a b c d s).displays = s.displays := rfl
@[simp] theorem raiseNotice_inputs (k : NoticeKind) (a b c d : Nat) (s : State) : (raiseNotice k a b c d s).inputs = s.inputs := rfl
@[simp] theorem raiseNotice_tick (k : NoticeKind) (a b c d : Nat) (s : State) : (raiseNotice k a b c d s).tick = s.tick := rfl
@[simp] theorem raiseNotice_busy (k : NoticeKind) (a b c d : Nat) (s : State) : (raiseNotice k a b c d s).busy = s.busy := rfl
@[simp] theorem raiseNotice_resetHeld (k : NoticeKind) (a b c d : Nat) (s : State) : (raiseNotice k a b c d s).resetHeld = s.resetHeld := rfl
@[simp] theorem raiseNotice_clock (k : NoticeKind) (a b c d : Nat) (s : State) : (raiseNotice k a b c d s).clock = s.clock := rfl
@[simp] theorem raiseNotice_pending (k : NoticeKind) (a b c d : Nat) (s : State) : (raiseNotice k a b c d s).pending = s.pending := rfl

@[simp] theorem setMissed_rtu (s : State) : (setMissed s).rtu = s.rtu := rfl
@[simp] theorem setMissed_items (s : State) : (setMissed s).items = s.items := rfl
@[simp] theorem setMissed_revision (s : State) : (setMissed s).revision = s.revision := rfl
@[simp] theorem setMissed_seq (s : State) : (setMissed s).seq = s.seq := rfl
@[simp] theorem setMissed_engine (s : State) : (setMissed s).engine = s.engine := rfl
@[simp] theorem setMissed_sched (s : State) : (setMissed s).sched = s.sched := rfl
@[simp] theorem setMissed_profiles (s : State) : (setMissed s).profiles = s.profiles := rfl
@[simp] theorem setMissed_groups (s : State) : (setMissed s).groups = s.groups := rfl
@[simp] theorem setMissed_ports (s : State) : (setMissed s).ports = s.ports := rfl
@[simp] theorem setMissed_displays (s : State) : (setMissed s).displays = s.displays := rfl
@[simp] theorem setMissed_inputs (s : State) : (setMissed s).inputs = s.inputs := rfl
@[simp] theorem setMissed_tick (s : State) : (setMissed s).tick = s.tick := rfl
@[simp] theorem setMissed_busy (s : State) : (setMissed s).busy = s.busy := rfl
@[simp] theorem setMissed_resetHeld (s : State) : (setMissed s).resetHeld = s.resetHeld := rfl
@[simp] theorem setMissed_clock (s : State) : (setMissed s).clock = s.clock := rfl
@[simp] theorem setMissed_pending (s : State) : (setMissed s).pending = s.pending := rfl

@[simp] theorem modifyItem_rtu (id : StoryId) (f : Item → Item) (s : State) : (modifyItem id f s).rtu = s.rtu := rfl
@[simp] theorem modifyItem_revision (id : StoryId) (f : Item → Item) (s : State) : (modifyItem id f s).revision = s.revision := rfl
@[simp] theorem modifyItem_seq (id : StoryId) (f : Item → Item) (s : State) : (modifyItem id f s).seq = s.seq := rfl
@[simp] theorem modifyItem_engine (id : StoryId) (f : Item → Item) (s : State) : (modifyItem id f s).engine = s.engine := rfl
@[simp] theorem modifyItem_sched (id : StoryId) (f : Item → Item) (s : State) : (modifyItem id f s).sched = s.sched := rfl
@[simp] theorem modifyItem_profiles (id : StoryId) (f : Item → Item) (s : State) : (modifyItem id f s).profiles = s.profiles := rfl
@[simp] theorem modifyItem_groups (id : StoryId) (f : Item → Item) (s : State) : (modifyItem id f s).groups = s.groups := rfl
@[simp] theorem modifyItem_ports (id : StoryId) (f : Item → Item) (s : State) : (modifyItem id f s).ports = s.ports := rfl
@[simp] theorem modifyItem_displays (id : StoryId) (f : Item → Item) (s : State) : (modifyItem id f s).displays = s.displays := rfl
@[simp] theorem modifyItem_inputs (id : StoryId) (f : Item → Item) (s : State) : (modifyItem id f s).inputs = s.inputs := rfl
@[simp] theorem modifyItem_link (id : StoryId) (f : Item → Item) (s : State) : (modifyItem id f s).link = s.link := rfl
@[simp] theorem modifyItem_tick (id : StoryId) (f : Item → Item) (s : State) : (modifyItem id f s).tick = s.tick := rfl
@[simp] theorem modifyItem_busy (id : StoryId) (f : Item → Item) (s : State) : (modifyItem id f s).busy = s.busy := rfl
@[simp] theorem modifyItem_resetHeld (id : StoryId) (f : Item → Item) (s : State) : (modifyItem id f s).resetHeld = s.resetHeld := rfl
@[simp] theorem modifyItem_clock (id : StoryId) (f : Item → Item) (s : State) : (modifyItem id f s).clock = s.clock := rfl
@[simp] theorem modifyItem_pending (id : StoryId) (f : Item → Item) (s : State) : (modifyItem id f s).pending = s.pending := rfl

@[simp] theorem modifyElement_rtu (id : StoryId) (tag : Tag) (f : Element → Element) (s : State) : (modifyElement id tag f s).rtu = s.rtu := rfl
@[simp] theorem modifyElement_revision (id : StoryId) (tag : Tag) (f : Element → Element) (s : State) : (modifyElement id tag f s).revision = s.revision := rfl
@[simp] theorem modifyElement_seq (id : StoryId) (tag : Tag) (f : Element → Element) (s : State) : (modifyElement id tag f s).seq = s.seq := rfl
@[simp] theorem modifyElement_engine (id : StoryId) (tag : Tag) (f : Element → Element) (s : State) : (modifyElement id tag f s).engine = s.engine := rfl
@[simp] theorem modifyElement_sched (id : StoryId) (tag : Tag) (f : Element → Element) (s : State) : (modifyElement id tag f s).sched = s.sched := rfl
@[simp] theorem modifyElement_profiles (id : StoryId) (tag : Tag) (f : Element → Element) (s : State) : (modifyElement id tag f s).profiles = s.profiles := rfl
@[simp] theorem modifyElement_groups (id : StoryId) (tag : Tag) (f : Element → Element) (s : State) : (modifyElement id tag f s).groups = s.groups := rfl
@[simp] theorem modifyElement_ports (id : StoryId) (tag : Tag) (f : Element → Element) (s : State) : (modifyElement id tag f s).ports = s.ports := rfl
@[simp] theorem modifyElement_displays (id : StoryId) (tag : Tag) (f : Element → Element) (s : State) : (modifyElement id tag f s).displays = s.displays := rfl
@[simp] theorem modifyElement_inputs (id : StoryId) (tag : Tag) (f : Element → Element) (s : State) : (modifyElement id tag f s).inputs = s.inputs := rfl
@[simp] theorem modifyElement_link (id : StoryId) (tag : Tag) (f : Element → Element) (s : State) : (modifyElement id tag f s).link = s.link := rfl
@[simp] theorem modifyElement_tick (id : StoryId) (tag : Tag) (f : Element → Element) (s : State) : (modifyElement id tag f s).tick = s.tick := rfl
@[simp] theorem modifyElement_busy (id : StoryId) (tag : Tag) (f : Element → Element) (s : State) : (modifyElement id tag f s).busy = s.busy := rfl
@[simp] theorem modifyElement_resetHeld (id : StoryId) (tag : Tag) (f : Element → Element) (s : State) : (modifyElement id tag f s).resetHeld = s.resetHeld := rfl
@[simp] theorem modifyElement_clock (id : StoryId) (tag : Tag) (f : Element → Element) (s : State) : (modifyElement id tag f s).clock = s.clock := rfl
@[simp] theorem modifyElement_pending (id : StoryId) (tag : Tag) (f : Element → Element) (s : State) : (modifyElement id tag f s).pending = s.pending := rfl

@[simp] theorem setPort_rtu (p : Fin 16) (r : Port) (s : State) : (setPort p r s).rtu = s.rtu := rfl
@[simp] theorem setPort_items (p : Fin 16) (r : Port) (s : State) : (setPort p r s).items = s.items := rfl
@[simp] theorem setPort_revision (p : Fin 16) (r : Port) (s : State) : (setPort p r s).revision = s.revision := rfl
@[simp] theorem setPort_seq (p : Fin 16) (r : Port) (s : State) : (setPort p r s).seq = s.seq := rfl
@[simp] theorem setPort_engine (p : Fin 16) (r : Port) (s : State) : (setPort p r s).engine = s.engine := rfl
@[simp] theorem setPort_sched (p : Fin 16) (r : Port) (s : State) : (setPort p r s).sched = s.sched := rfl
@[simp] theorem setPort_profiles (p : Fin 16) (r : Port) (s : State) : (setPort p r s).profiles = s.profiles := rfl
@[simp] theorem setPort_groups (p : Fin 16) (r : Port) (s : State) : (setPort p r s).groups = s.groups := rfl
@[simp] theorem setPort_displays (p : Fin 16) (r : Port) (s : State) : (setPort p r s).displays = s.displays := rfl
@[simp] theorem setPort_inputs (p : Fin 16) (r : Port) (s : State) : (setPort p r s).inputs = s.inputs := rfl
@[simp] theorem setPort_link (p : Fin 16) (r : Port) (s : State) : (setPort p r s).link = s.link := rfl
@[simp] theorem setPort_tick (p : Fin 16) (r : Port) (s : State) : (setPort p r s).tick = s.tick := rfl
@[simp] theorem setPort_busy (p : Fin 16) (r : Port) (s : State) : (setPort p r s).busy = s.busy := rfl
@[simp] theorem setPort_resetHeld (p : Fin 16) (r : Port) (s : State) : (setPort p r s).resetHeld = s.resetHeld := rfl
@[simp] theorem setPort_clock (p : Fin 16) (r : Port) (s : State) : (setPort p r s).clock = s.clock := rfl
@[simp] theorem setPort_pending (p : Fin 16) (r : Port) (s : State) : (setPort p r s).pending = s.pending := rfl

@[simp] theorem modifyPort_rtu (p : Fin 16) (f : Port → Port) (s : State) : (modifyPort p f s).rtu = s.rtu := rfl
@[simp] theorem modifyPort_items (p : Fin 16) (f : Port → Port) (s : State) : (modifyPort p f s).items = s.items := rfl
@[simp] theorem modifyPort_revision (p : Fin 16) (f : Port → Port) (s : State) : (modifyPort p f s).revision = s.revision := rfl
@[simp] theorem modifyPort_seq (p : Fin 16) (f : Port → Port) (s : State) : (modifyPort p f s).seq = s.seq := rfl
@[simp] theorem modifyPort_engine (p : Fin 16) (f : Port → Port) (s : State) : (modifyPort p f s).engine = s.engine := rfl
@[simp] theorem modifyPort_sched (p : Fin 16) (f : Port → Port) (s : State) : (modifyPort p f s).sched = s.sched := rfl
@[simp] theorem modifyPort_profiles (p : Fin 16) (f : Port → Port) (s : State) : (modifyPort p f s).profiles = s.profiles := rfl
@[simp] theorem modifyPort_groups (p : Fin 16) (f : Port → Port) (s : State) : (modifyPort p f s).groups = s.groups := rfl
@[simp] theorem modifyPort_displays (p : Fin 16) (f : Port → Port) (s : State) : (modifyPort p f s).displays = s.displays := rfl
@[simp] theorem modifyPort_inputs (p : Fin 16) (f : Port → Port) (s : State) : (modifyPort p f s).inputs = s.inputs := rfl
@[simp] theorem modifyPort_link (p : Fin 16) (f : Port → Port) (s : State) : (modifyPort p f s).link = s.link := rfl
@[simp] theorem modifyPort_tick (p : Fin 16) (f : Port → Port) (s : State) : (modifyPort p f s).tick = s.tick := rfl
@[simp] theorem modifyPort_busy (p : Fin 16) (f : Port → Port) (s : State) : (modifyPort p f s).busy = s.busy := rfl
@[simp] theorem modifyPort_resetHeld (p : Fin 16) (f : Port → Port) (s : State) : (modifyPort p f s).resetHeld = s.resetHeld := rfl
@[simp] theorem modifyPort_clock (p : Fin 16) (f : Port → Port) (s : State) : (modifyPort p f s).clock = s.clock := rfl
@[simp] theorem modifyPort_pending (p : Fin 16) (f : Port → Port) (s : State) : (modifyPort p f s).pending = s.pending := rfl

@[simp] theorem setDisplay_rtu (d : Fin 4) (r : Display) (s : State) : (setDisplay d r s).rtu = s.rtu := rfl
@[simp] theorem setDisplay_items (d : Fin 4) (r : Display) (s : State) : (setDisplay d r s).items = s.items := rfl
@[simp] theorem setDisplay_revision (d : Fin 4) (r : Display) (s : State) : (setDisplay d r s).revision = s.revision := rfl
@[simp] theorem setDisplay_seq (d : Fin 4) (r : Display) (s : State) : (setDisplay d r s).seq = s.seq := rfl
@[simp] theorem setDisplay_engine (d : Fin 4) (r : Display) (s : State) : (setDisplay d r s).engine = s.engine := rfl
@[simp] theorem setDisplay_sched (d : Fin 4) (r : Display) (s : State) : (setDisplay d r s).sched = s.sched := rfl
@[simp] theorem setDisplay_profiles (d : Fin 4) (r : Display) (s : State) : (setDisplay d r s).profiles = s.profiles := rfl
@[simp] theorem setDisplay_groups (d : Fin 4) (r : Display) (s : State) : (setDisplay d r s).groups = s.groups := rfl
@[simp] theorem setDisplay_ports (d : Fin 4) (r : Display) (s : State) : (setDisplay d r s).ports = s.ports := rfl
@[simp] theorem setDisplay_inputs (d : Fin 4) (r : Display) (s : State) : (setDisplay d r s).inputs = s.inputs := rfl
@[simp] theorem setDisplay_link (d : Fin 4) (r : Display) (s : State) : (setDisplay d r s).link = s.link := rfl
@[simp] theorem setDisplay_tick (d : Fin 4) (r : Display) (s : State) : (setDisplay d r s).tick = s.tick := rfl
@[simp] theorem setDisplay_busy (d : Fin 4) (r : Display) (s : State) : (setDisplay d r s).busy = s.busy := rfl
@[simp] theorem setDisplay_resetHeld (d : Fin 4) (r : Display) (s : State) : (setDisplay d r s).resetHeld = s.resetHeld := rfl
@[simp] theorem setDisplay_clock (d : Fin 4) (r : Display) (s : State) : (setDisplay d r s).clock = s.clock := rfl
@[simp] theorem setDisplay_pending (d : Fin 4) (r : Display) (s : State) : (setDisplay d r s).pending = s.pending := rfl

@[simp] theorem modifyDisplay_rtu (d : Fin 4) (f : Display → Display) (s : State) : (modifyDisplay d f s).rtu = s.rtu := rfl
@[simp] theorem modifyDisplay_items (d : Fin 4) (f : Display → Display) (s : State) : (modifyDisplay d f s).items = s.items := rfl
@[simp] theorem modifyDisplay_revision (d : Fin 4) (f : Display → Display) (s : State) : (modifyDisplay d f s).revision = s.revision := rfl
@[simp] theorem modifyDisplay_seq (d : Fin 4) (f : Display → Display) (s : State) : (modifyDisplay d f s).seq = s.seq := rfl
@[simp] theorem modifyDisplay_engine (d : Fin 4) (f : Display → Display) (s : State) : (modifyDisplay d f s).engine = s.engine := rfl
@[simp] theorem modifyDisplay_sched (d : Fin 4) (f : Display → Display) (s : State) : (modifyDisplay d f s).sched = s.sched := rfl
@[simp] theorem modifyDisplay_profiles (d : Fin 4) (f : Display → Display) (s : State) : (modifyDisplay d f s).profiles = s.profiles := rfl
@[simp] theorem modifyDisplay_groups (d : Fin 4) (f : Display → Display) (s : State) : (modifyDisplay d f s).groups = s.groups := rfl
@[simp] theorem modifyDisplay_ports (d : Fin 4) (f : Display → Display) (s : State) : (modifyDisplay d f s).ports = s.ports := rfl
@[simp] theorem modifyDisplay_inputs (d : Fin 4) (f : Display → Display) (s : State) : (modifyDisplay d f s).inputs = s.inputs := rfl
@[simp] theorem modifyDisplay_link (d : Fin 4) (f : Display → Display) (s : State) : (modifyDisplay d f s).link = s.link := rfl
@[simp] theorem modifyDisplay_tick (d : Fin 4) (f : Display → Display) (s : State) : (modifyDisplay d f s).tick = s.tick := rfl
@[simp] theorem modifyDisplay_busy (d : Fin 4) (f : Display → Display) (s : State) : (modifyDisplay d f s).busy = s.busy := rfl
@[simp] theorem modifyDisplay_resetHeld (d : Fin 4) (f : Display → Display) (s : State) : (modifyDisplay d f s).resetHeld = s.resetHeld := rfl
@[simp] theorem modifyDisplay_clock (d : Fin 4) (f : Display → Display) (s : State) : (modifyDisplay d f s).clock = s.clock := rfl
@[simp] theorem modifyDisplay_pending (d : Fin 4) (f : Display → Display) (s : State) : (modifyDisplay d f s).pending = s.pending := rfl

@[simp] theorem setInput_rtu (n : Fin 8) (r : PanelInput) (s : State) : (setInput n r s).rtu = s.rtu := rfl
@[simp] theorem setInput_items (n : Fin 8) (r : PanelInput) (s : State) : (setInput n r s).items = s.items := rfl
@[simp] theorem setInput_revision (n : Fin 8) (r : PanelInput) (s : State) : (setInput n r s).revision = s.revision := rfl
@[simp] theorem setInput_seq (n : Fin 8) (r : PanelInput) (s : State) : (setInput n r s).seq = s.seq := rfl
@[simp] theorem setInput_engine (n : Fin 8) (r : PanelInput) (s : State) : (setInput n r s).engine = s.engine := rfl
@[simp] theorem setInput_sched (n : Fin 8) (r : PanelInput) (s : State) : (setInput n r s).sched = s.sched := rfl
@[simp] theorem setInput_profiles (n : Fin 8) (r : PanelInput) (s : State) : (setInput n r s).profiles = s.profiles := rfl
@[simp] theorem setInput_groups (n : Fin 8) (r : PanelInput) (s : State) : (setInput n r s).groups = s.groups := rfl
@[simp] theorem setInput_ports (n : Fin 8) (r : PanelInput) (s : State) : (setInput n r s).ports = s.ports := rfl
@[simp] theorem setInput_displays (n : Fin 8) (r : PanelInput) (s : State) : (setInput n r s).displays = s.displays := rfl
@[simp] theorem setInput_link (n : Fin 8) (r : PanelInput) (s : State) : (setInput n r s).link = s.link := rfl
@[simp] theorem setInput_tick (n : Fin 8) (r : PanelInput) (s : State) : (setInput n r s).tick = s.tick := rfl
@[simp] theorem setInput_busy (n : Fin 8) (r : PanelInput) (s : State) : (setInput n r s).busy = s.busy := rfl
@[simp] theorem setInput_resetHeld (n : Fin 8) (r : PanelInput) (s : State) : (setInput n r s).resetHeld = s.resetHeld := rfl
@[simp] theorem setInput_clock (n : Fin 8) (r : PanelInput) (s : State) : (setInput n r s).clock = s.clock := rfl
@[simp] theorem setInput_pending (n : Fin 8) (r : PanelInput) (s : State) : (setInput n r s).pending = s.pending := rfl

@[simp] theorem modifyInput_rtu (n : Fin 8) (f : PanelInput → PanelInput) (s : State) : (modifyInput n f s).rtu = s.rtu := rfl
@[simp] theorem modifyInput_items (n : Fin 8) (f : PanelInput → PanelInput) (s : State) : (modifyInput n f s).items = s.items := rfl
@[simp] theorem modifyInput_revision (n : Fin 8) (f : PanelInput → PanelInput) (s : State) : (modifyInput n f s).revision = s.revision := rfl
@[simp] theorem modifyInput_seq (n : Fin 8) (f : PanelInput → PanelInput) (s : State) : (modifyInput n f s).seq = s.seq := rfl
@[simp] theorem modifyInput_engine (n : Fin 8) (f : PanelInput → PanelInput) (s : State) : (modifyInput n f s).engine = s.engine := rfl
@[simp] theorem modifyInput_sched (n : Fin 8) (f : PanelInput → PanelInput) (s : State) : (modifyInput n f s).sched = s.sched := rfl
@[simp] theorem modifyInput_profiles (n : Fin 8) (f : PanelInput → PanelInput) (s : State) : (modifyInput n f s).profiles = s.profiles := rfl
@[simp] theorem modifyInput_groups (n : Fin 8) (f : PanelInput → PanelInput) (s : State) : (modifyInput n f s).groups = s.groups := rfl
@[simp] theorem modifyInput_ports (n : Fin 8) (f : PanelInput → PanelInput) (s : State) : (modifyInput n f s).ports = s.ports := rfl
@[simp] theorem modifyInput_displays (n : Fin 8) (f : PanelInput → PanelInput) (s : State) : (modifyInput n f s).displays = s.displays := rfl
@[simp] theorem modifyInput_link (n : Fin 8) (f : PanelInput → PanelInput) (s : State) : (modifyInput n f s).link = s.link := rfl
@[simp] theorem modifyInput_tick (n : Fin 8) (f : PanelInput → PanelInput) (s : State) : (modifyInput n f s).tick = s.tick := rfl
@[simp] theorem modifyInput_busy (n : Fin 8) (f : PanelInput → PanelInput) (s : State) : (modifyInput n f s).busy = s.busy := rfl
@[simp] theorem modifyInput_resetHeld (n : Fin 8) (f : PanelInput → PanelInput) (s : State) : (modifyInput n f s).resetHeld = s.resetHeld := rfl
@[simp] theorem modifyInput_clock (n : Fin 8) (f : PanelInput → PanelInput) (s : State) : (modifyInput n f s).clock = s.clock := rfl
@[simp] theorem modifyInput_pending (n : Fin 8) (f : PanelInput → PanelInput) (s : State) : (modifyInput n f s).pending = s.pending := rfl

@[simp] theorem triggerWalk_rtu (s : State) : (triggerWalk s).rtu = s.rtu := rfl
@[simp] theorem triggerWalk_items (s : State) : (triggerWalk s).items = s.items := rfl
@[simp] theorem triggerWalk_revision (s : State) : (triggerWalk s).revision = s.revision := rfl
@[simp] theorem triggerWalk_seq (s : State) : (triggerWalk s).seq = s.seq := rfl
@[simp] theorem triggerWalk_sched (s : State) : (triggerWalk s).sched = s.sched := rfl
@[simp] theorem triggerWalk_profiles (s : State) : (triggerWalk s).profiles = s.profiles := rfl
@[simp] theorem triggerWalk_groups (s : State) : (triggerWalk s).groups = s.groups := rfl
@[simp] theorem triggerWalk_ports (s : State) : (triggerWalk s).ports = s.ports := rfl
@[simp] theorem triggerWalk_displays (s : State) : (triggerWalk s).displays = s.displays := rfl
@[simp] theorem triggerWalk_inputs (s : State) : (triggerWalk s).inputs = s.inputs := rfl
@[simp] theorem triggerWalk_link (s : State) : (triggerWalk s).link = s.link := rfl
@[simp] theorem triggerWalk_tick (s : State) : (triggerWalk s).tick = s.tick := rfl
@[simp] theorem triggerWalk_busy (s : State) : (triggerWalk s).busy = s.busy := rfl
@[simp] theorem triggerWalk_resetHeld (s : State) : (triggerWalk s).resetHeld = s.resetHeld := rfl
@[simp] theorem triggerWalk_clock (s : State) : (triggerWalk s).clock = s.clock := rfl
@[simp] theorem triggerWalk_pending (s : State) : (triggerWalk s).pending = s.pending := rfl

@[simp] theorem setBusy_rtu (d : Fin 4) (l : Level) (s : State) : (setBusy d l s).rtu = s.rtu := rfl
@[simp] theorem setBusy_items (d : Fin 4) (l : Level) (s : State) : (setBusy d l s).items = s.items := rfl
@[simp] theorem setBusy_revision (d : Fin 4) (l : Level) (s : State) : (setBusy d l s).revision = s.revision := rfl
@[simp] theorem setBusy_seq (d : Fin 4) (l : Level) (s : State) : (setBusy d l s).seq = s.seq := rfl
@[simp] theorem setBusy_engine (d : Fin 4) (l : Level) (s : State) : (setBusy d l s).engine = s.engine := rfl
@[simp] theorem setBusy_sched (d : Fin 4) (l : Level) (s : State) : (setBusy d l s).sched = s.sched := rfl
@[simp] theorem setBusy_profiles (d : Fin 4) (l : Level) (s : State) : (setBusy d l s).profiles = s.profiles := rfl
@[simp] theorem setBusy_groups (d : Fin 4) (l : Level) (s : State) : (setBusy d l s).groups = s.groups := rfl
@[simp] theorem setBusy_ports (d : Fin 4) (l : Level) (s : State) : (setBusy d l s).ports = s.ports := rfl
@[simp] theorem setBusy_displays (d : Fin 4) (l : Level) (s : State) : (setBusy d l s).displays = s.displays := rfl
@[simp] theorem setBusy_inputs (d : Fin 4) (l : Level) (s : State) : (setBusy d l s).inputs = s.inputs := rfl
@[simp] theorem setBusy_link (d : Fin 4) (l : Level) (s : State) : (setBusy d l s).link = s.link := rfl
@[simp] theorem setBusy_tick (d : Fin 4) (l : Level) (s : State) : (setBusy d l s).tick = s.tick := rfl
@[simp] theorem setBusy_resetHeld (d : Fin 4) (l : Level) (s : State) : (setBusy d l s).resetHeld = s.resetHeld := rfl
@[simp] theorem setBusy_clock (d : Fin 4) (l : Level) (s : State) : (setBusy d l s).clock = s.clock := rfl
@[simp] theorem setBusy_pending (d : Fin 4) (l : Level) (s : State) : (setBusy d l s).pending = s.pending := rfl

@[simp] theorem endFrame_rtu (bs : List Byte) (s : State) : (endFrame bs s).rtu = s.rtu := rfl
@[simp] theorem endFrame_items (bs : List Byte) (s : State) : (endFrame bs s).items = s.items := rfl
@[simp] theorem endFrame_revision (bs : List Byte) (s : State) : (endFrame bs s).revision = s.revision := rfl
@[simp] theorem endFrame_seq (bs : List Byte) (s : State) : (endFrame bs s).seq = s.seq := rfl
@[simp] theorem endFrame_engine (bs : List Byte) (s : State) : (endFrame bs s).engine = s.engine := rfl
@[simp] theorem endFrame_sched (bs : List Byte) (s : State) : (endFrame bs s).sched = s.sched := rfl
@[simp] theorem endFrame_profiles (bs : List Byte) (s : State) : (endFrame bs s).profiles = s.profiles := rfl
@[simp] theorem endFrame_groups (bs : List Byte) (s : State) : (endFrame bs s).groups = s.groups := rfl
@[simp] theorem endFrame_ports (bs : List Byte) (s : State) : (endFrame bs s).ports = s.ports := rfl
@[simp] theorem endFrame_displays (bs : List Byte) (s : State) : (endFrame bs s).displays = s.displays := rfl
@[simp] theorem endFrame_inputs (bs : List Byte) (s : State) : (endFrame bs s).inputs = s.inputs := rfl
@[simp] theorem endFrame_tick (bs : List Byte) (s : State) : (endFrame bs s).tick = s.tick := rfl
@[simp] theorem endFrame_busy (bs : List Byte) (s : State) : (endFrame bs s).busy = s.busy := rfl
@[simp] theorem endFrame_resetHeld (bs : List Byte) (s : State) : (endFrame bs s).resetHeld = s.resetHeld := rfl
@[simp] theorem endFrame_clock (bs : List Byte) (s : State) : (endFrame bs s).clock = s.clock := rfl
@[simp] theorem endFrame_pending (bs : List Byte) (s : State) : (endFrame bs s).pending = s.pending := rfl

@[simp] theorem setFrame_rtu (o : Option OpenFrame) (s : State) : (setFrame o s).rtu = s.rtu := rfl
@[simp] theorem setFrame_items (o : Option OpenFrame) (s : State) : (setFrame o s).items = s.items := rfl
@[simp] theorem setFrame_revision (o : Option OpenFrame) (s : State) : (setFrame o s).revision = s.revision := rfl
@[simp] theorem setFrame_seq (o : Option OpenFrame) (s : State) : (setFrame o s).seq = s.seq := rfl
@[simp] theorem setFrame_engine (o : Option OpenFrame) (s : State) : (setFrame o s).engine = s.engine := rfl
@[simp] theorem setFrame_sched (o : Option OpenFrame) (s : State) : (setFrame o s).sched = s.sched := rfl
@[simp] theorem setFrame_profiles (o : Option OpenFrame) (s : State) : (setFrame o s).profiles = s.profiles := rfl
@[simp] theorem setFrame_groups (o : Option OpenFrame) (s : State) : (setFrame o s).groups = s.groups := rfl
@[simp] theorem setFrame_ports (o : Option OpenFrame) (s : State) : (setFrame o s).ports = s.ports := rfl
@[simp] theorem setFrame_displays (o : Option OpenFrame) (s : State) : (setFrame o s).displays = s.displays := rfl
@[simp] theorem setFrame_inputs (o : Option OpenFrame) (s : State) : (setFrame o s).inputs = s.inputs := rfl
@[simp] theorem setFrame_tick (o : Option OpenFrame) (s : State) : (setFrame o s).tick = s.tick := rfl
@[simp] theorem setFrame_busy (o : Option OpenFrame) (s : State) : (setFrame o s).busy = s.busy := rfl
@[simp] theorem setFrame_resetHeld (o : Option OpenFrame) (s : State) : (setFrame o s).resetHeld = s.resetHeld := rfl
@[simp] theorem setFrame_clock (o : Option OpenFrame) (s : State) : (setFrame o s).clock = s.clock := rfl
@[simp] theorem setFrame_pending (o : Option OpenFrame) (s : State) : (setFrame o s).pending = s.pending := rfl

@[simp] theorem setFrameFault_rtu (s : State) : (setFrameFault s).rtu = s.rtu := rfl
@[simp] theorem setFrameFault_items (s : State) : (setFrameFault s).items = s.items := rfl
@[simp] theorem setFrameFault_revision (s : State) : (setFrameFault s).revision = s.revision := rfl
@[simp] theorem setFrameFault_seq (s : State) : (setFrameFault s).seq = s.seq := rfl
@[simp] theorem setFrameFault_engine (s : State) : (setFrameFault s).engine = s.engine := rfl
@[simp] theorem setFrameFault_sched (s : State) : (setFrameFault s).sched = s.sched := rfl
@[simp] theorem setFrameFault_profiles (s : State) : (setFrameFault s).profiles = s.profiles := rfl
@[simp] theorem setFrameFault_groups (s : State) : (setFrameFault s).groups = s.groups := rfl
@[simp] theorem setFrameFault_ports (s : State) : (setFrameFault s).ports = s.ports := rfl
@[simp] theorem setFrameFault_displays (s : State) : (setFrameFault s).displays = s.displays := rfl
@[simp] theorem setFrameFault_inputs (s : State) : (setFrameFault s).inputs = s.inputs := rfl
@[simp] theorem setFrameFault_tick (s : State) : (setFrameFault s).tick = s.tick := rfl
@[simp] theorem setFrameFault_busy (s : State) : (setFrameFault s).busy = s.busy := rfl
@[simp] theorem setFrameFault_resetHeld (s : State) : (setFrameFault s).resetHeld = s.resetHeld := rfl
@[simp] theorem setFrameFault_clock (s : State) : (setFrameFault s).clock = s.clock := rfl
@[simp] theorem setFrameFault_pending (s : State) : (setFrameFault s).pending = s.pending := rfl

@[simp] theorem pushResponse_rtu (code : Byte) (body : List Byte) (s : State) : (pushResponse code body s).rtu = s.rtu := rfl
@[simp] theorem pushResponse_items (code : Byte) (body : List Byte) (s : State) : (pushResponse code body s).items = s.items := rfl
@[simp] theorem pushResponse_revision (code : Byte) (body : List Byte) (s : State) : (pushResponse code body s).revision = s.revision := rfl
@[simp] theorem pushResponse_seq (code : Byte) (body : List Byte) (s : State) : (pushResponse code body s).seq = s.seq := rfl
@[simp] theorem pushResponse_engine (code : Byte) (body : List Byte) (s : State) : (pushResponse code body s).engine = s.engine := rfl
@[simp] theorem pushResponse_sched (code : Byte) (body : List Byte) (s : State) : (pushResponse code body s).sched = s.sched := rfl
@[simp] theorem pushResponse_profiles (code : Byte) (body : List Byte) (s : State) : (pushResponse code body s).profiles = s.profiles := rfl
@[simp] theorem pushResponse_groups (code : Byte) (body : List Byte) (s : State) : (pushResponse code body s).groups = s.groups := rfl
@[simp] theorem pushResponse_ports (code : Byte) (body : List Byte) (s : State) : (pushResponse code body s).ports = s.ports := rfl
@[simp] theorem pushResponse_displays (code : Byte) (body : List Byte) (s : State) : (pushResponse code body s).displays = s.displays := rfl
@[simp] theorem pushResponse_inputs (code : Byte) (body : List Byte) (s : State) : (pushResponse code body s).inputs = s.inputs := rfl
@[simp] theorem pushResponse_tick (code : Byte) (body : List Byte) (s : State) : (pushResponse code body s).tick = s.tick := rfl
@[simp] theorem pushResponse_busy (code : Byte) (body : List Byte) (s : State) : (pushResponse code body s).busy = s.busy := rfl
@[simp] theorem pushResponse_resetHeld (code : Byte) (body : List Byte) (s : State) : (pushResponse code body s).resetHeld = s.resetHeld := rfl
@[simp] theorem pushResponse_clock (code : Byte) (body : List Byte) (s : State) : (pushResponse code body s).clock = s.clock := rfl
@[simp] theorem pushResponse_pending (code : Byte) (body : List Byte) (s : State) : (pushResponse code body s).pending = s.pending := rfl

@[simp] theorem bumpRevision_rtu (s : State) : (bumpRevision s).rtu = s.rtu := rfl
@[simp] theorem bumpRevision_items (s : State) : (bumpRevision s).items = s.items := rfl
@[simp] theorem bumpRevision_seq (s : State) : (bumpRevision s).seq = s.seq := rfl
@[simp] theorem bumpRevision_engine (s : State) : (bumpRevision s).engine = s.engine := rfl
@[simp] theorem bumpRevision_sched (s : State) : (bumpRevision s).sched = s.sched := rfl
@[simp] theorem bumpRevision_profiles (s : State) : (bumpRevision s).profiles = s.profiles := rfl
@[simp] theorem bumpRevision_groups (s : State) : (bumpRevision s).groups = s.groups := rfl
@[simp] theorem bumpRevision_ports (s : State) : (bumpRevision s).ports = s.ports := rfl
@[simp] theorem bumpRevision_displays (s : State) : (bumpRevision s).displays = s.displays := rfl
@[simp] theorem bumpRevision_inputs (s : State) : (bumpRevision s).inputs = s.inputs := rfl
@[simp] theorem bumpRevision_link (s : State) : (bumpRevision s).link = s.link := rfl
@[simp] theorem bumpRevision_tick (s : State) : (bumpRevision s).tick = s.tick := rfl
@[simp] theorem bumpRevision_busy (s : State) : (bumpRevision s).busy = s.busy := rfl
@[simp] theorem bumpRevision_resetHeld (s : State) : (bumpRevision s).resetHeld = s.resetHeld := rfl
@[simp] theorem bumpRevision_clock (s : State) : (bumpRevision s).clock = s.clock := rfl
@[simp] theorem bumpRevision_pending (s : State) : (bumpRevision s).pending = s.pending := rfl

@[simp] theorem removeItem_rtu (id : StoryId) (s : State) : (removeItem id s).rtu = s.rtu := rfl
@[simp] theorem removeItem_revision (id : StoryId) (s : State) : (removeItem id s).revision = s.revision := rfl
@[simp] theorem removeItem_seq (id : StoryId) (s : State) : (removeItem id s).seq = s.seq := rfl
@[simp] theorem removeItem_engine (id : StoryId) (s : State) :
    (removeItem id s).engine = { s.engine with path := s.engine.path.filter (fun x => x != id) } := rfl
@[simp] theorem removeItem_sched (id : StoryId) (s : State) : (removeItem id s).sched = s.sched := rfl
@[simp] theorem removeItem_profiles (id : StoryId) (s : State) : (removeItem id s).profiles = s.profiles := rfl
@[simp] theorem removeItem_groups (id : StoryId) (s : State) : (removeItem id s).groups = s.groups := rfl
@[simp] theorem removeItem_ports (id : StoryId) (s : State) : (removeItem id s).ports = s.ports := rfl
@[simp] theorem removeItem_displays (id : StoryId) (s : State) : (removeItem id s).displays = s.displays := rfl
@[simp] theorem removeItem_inputs (id : StoryId) (s : State) : (removeItem id s).inputs = s.inputs := rfl
@[simp] theorem removeItem_link (id : StoryId) (s : State) : (removeItem id s).link = s.link := rfl
@[simp] theorem removeItem_tick (id : StoryId) (s : State) : (removeItem id s).tick = s.tick := rfl
@[simp] theorem removeItem_busy (id : StoryId) (s : State) : (removeItem id s).busy = s.busy := rfl
@[simp] theorem removeItem_resetHeld (id : StoryId) (s : State) : (removeItem id s).resetHeld = s.resetHeld := rfl
@[simp] theorem removeItem_clock (id : StoryId) (s : State) : (removeItem id s).clock = s.clock := rfl
@[simp] theorem removeItem_pending (id : StoryId) (s : State) : (removeItem id s).pending = s.pending := rfl

@[simp] theorem removeEntry_rtu (id : StoryId) (tag : Tag) (s : State) : (removeEntry id tag s).rtu = s.rtu := rfl
@[simp] theorem removeEntry_items (id : StoryId) (tag : Tag) (s : State) : (removeEntry id tag s).items = s.items := rfl
@[simp] theorem removeEntry_revision (id : StoryId) (tag : Tag) (s : State) : (removeEntry id tag s).revision = s.revision := rfl
@[simp] theorem removeEntry_seq (id : StoryId) (tag : Tag) (s : State) : (removeEntry id tag s).seq = s.seq := rfl
@[simp] theorem removeEntry_engine (id : StoryId) (tag : Tag) (s : State) : (removeEntry id tag s).engine = s.engine := rfl
@[simp] theorem removeEntry_profiles (id : StoryId) (tag : Tag) (s : State) : (removeEntry id tag s).profiles = s.profiles := rfl
@[simp] theorem removeEntry_groups (id : StoryId) (tag : Tag) (s : State) : (removeEntry id tag s).groups = s.groups := rfl
@[simp] theorem removeEntry_ports (id : StoryId) (tag : Tag) (s : State) : (removeEntry id tag s).ports = s.ports := rfl
@[simp] theorem removeEntry_displays (id : StoryId) (tag : Tag) (s : State) : (removeEntry id tag s).displays = s.displays := rfl
@[simp] theorem removeEntry_inputs (id : StoryId) (tag : Tag) (s : State) : (removeEntry id tag s).inputs = s.inputs := rfl
@[simp] theorem removeEntry_link (id : StoryId) (tag : Tag) (s : State) : (removeEntry id tag s).link = s.link := rfl
@[simp] theorem removeEntry_tick (id : StoryId) (tag : Tag) (s : State) : (removeEntry id tag s).tick = s.tick := rfl
@[simp] theorem removeEntry_busy (id : StoryId) (tag : Tag) (s : State) : (removeEntry id tag s).busy = s.busy := rfl
@[simp] theorem removeEntry_resetHeld (id : StoryId) (tag : Tag) (s : State) : (removeEntry id tag s).resetHeld = s.resetHeld := rfl
@[simp] theorem removeEntry_clock (id : StoryId) (tag : Tag) (s : State) : (removeEntry id tag s).clock = s.clock := rfl
@[simp] theorem removeEntry_pending (id : StoryId) (tag : Tag) (s : State) : (removeEntry id tag s).pending = s.pending := rfl

@[simp] theorem deferEntry_rtu (id : StoryId) (tag : Tag) (s : State) : (deferEntry id tag s).rtu = s.rtu := rfl
@[simp] theorem deferEntry_items (id : StoryId) (tag : Tag) (s : State) : (deferEntry id tag s).items = s.items := rfl
@[simp] theorem deferEntry_revision (id : StoryId) (tag : Tag) (s : State) : (deferEntry id tag s).revision = s.revision := rfl
@[simp] theorem deferEntry_seq (id : StoryId) (tag : Tag) (s : State) : (deferEntry id tag s).seq = s.seq := rfl
@[simp] theorem deferEntry_engine (id : StoryId) (tag : Tag) (s : State) : (deferEntry id tag s).engine = s.engine := rfl
@[simp] theorem deferEntry_profiles (id : StoryId) (tag : Tag) (s : State) : (deferEntry id tag s).profiles = s.profiles := rfl
@[simp] theorem deferEntry_groups (id : StoryId) (tag : Tag) (s : State) : (deferEntry id tag s).groups = s.groups := rfl
@[simp] theorem deferEntry_ports (id : StoryId) (tag : Tag) (s : State) : (deferEntry id tag s).ports = s.ports := rfl
@[simp] theorem deferEntry_displays (id : StoryId) (tag : Tag) (s : State) : (deferEntry id tag s).displays = s.displays := rfl
@[simp] theorem deferEntry_inputs (id : StoryId) (tag : Tag) (s : State) : (deferEntry id tag s).inputs = s.inputs := rfl
@[simp] theorem deferEntry_link (id : StoryId) (tag : Tag) (s : State) : (deferEntry id tag s).link = s.link := rfl
@[simp] theorem deferEntry_tick (id : StoryId) (tag : Tag) (s : State) : (deferEntry id tag s).tick = s.tick := rfl
@[simp] theorem deferEntry_busy (id : StoryId) (tag : Tag) (s : State) : (deferEntry id tag s).busy = s.busy := rfl
@[simp] theorem deferEntry_resetHeld (id : StoryId) (tag : Tag) (s : State) : (deferEntry id tag s).resetHeld = s.resetHeld := rfl
@[simp] theorem deferEntry_clock (id : StoryId) (tag : Tag) (s : State) : (deferEntry id tag s).clock = s.clock := rfl
@[simp] theorem deferEntry_pending (id : StoryId) (tag : Tag) (s : State) : (deferEntry id tag s).pending = s.pending := rfl

@[simp] theorem placeEntry_rtu (e : ArmEntry) (s : State) : (placeEntry e s).rtu = s.rtu := rfl
@[simp] theorem placeEntry_items (e : ArmEntry) (s : State) : (placeEntry e s).items = s.items := rfl
@[simp] theorem placeEntry_revision (e : ArmEntry) (s : State) : (placeEntry e s).revision = s.revision := rfl
@[simp] theorem placeEntry_seq (e : ArmEntry) (s : State) : (placeEntry e s).seq = s.seq := rfl
@[simp] theorem placeEntry_engine (e : ArmEntry) (s : State) : (placeEntry e s).engine = s.engine := rfl
@[simp] theorem placeEntry_profiles (e : ArmEntry) (s : State) : (placeEntry e s).profiles = s.profiles := rfl
@[simp] theorem placeEntry_groups (e : ArmEntry) (s : State) : (placeEntry e s).groups = s.groups := rfl
@[simp] theorem placeEntry_ports (e : ArmEntry) (s : State) : (placeEntry e s).ports = s.ports := rfl
@[simp] theorem placeEntry_displays (e : ArmEntry) (s : State) : (placeEntry e s).displays = s.displays := rfl
@[simp] theorem placeEntry_inputs (e : ArmEntry) (s : State) : (placeEntry e s).inputs = s.inputs := rfl
@[simp] theorem placeEntry_link (e : ArmEntry) (s : State) : (placeEntry e s).link = s.link := rfl
@[simp] theorem placeEntry_tick (e : ArmEntry) (s : State) : (placeEntry e s).tick = s.tick := rfl
@[simp] theorem placeEntry_busy (e : ArmEntry) (s : State) : (placeEntry e s).busy = s.busy := rfl
@[simp] theorem placeEntry_resetHeld (e : ArmEntry) (s : State) : (placeEntry e s).resetHeld = s.resetHeld := rfl
@[simp] theorem placeEntry_clock (e : ArmEntry) (s : State) : (placeEntry e s).clock = s.clock := rfl
@[simp] theorem placeEntry_pending (e : ArmEntry) (s : State) : (placeEntry e s).pending = s.pending := rfl

@[simp] theorem detach_rtu (id : StoryId) (tag : Tag) (s : State) : (detach id tag s).rtu = s.rtu := rfl
@[simp] theorem detach_items (id : StoryId) (tag : Tag) (s : State) : (detach id tag s).items = s.items := rfl
@[simp] theorem detach_revision (id : StoryId) (tag : Tag) (s : State) : (detach id tag s).revision = s.revision := rfl
@[simp] theorem detach_seq (id : StoryId) (tag : Tag) (s : State) : (detach id tag s).seq = s.seq := rfl
@[simp] theorem detach_engine (id : StoryId) (tag : Tag) (s : State) : (detach id tag s).engine = s.engine := rfl
@[simp] theorem detach_sched (id : StoryId) (tag : Tag) (s : State) : (detach id tag s).sched = s.sched := rfl
@[simp] theorem detach_profiles (id : StoryId) (tag : Tag) (s : State) : (detach id tag s).profiles = s.profiles := rfl
@[simp] theorem detach_groups (id : StoryId) (tag : Tag) (s : State) : (detach id tag s).groups = s.groups := rfl
@[simp] theorem detach_displays (id : StoryId) (tag : Tag) (s : State) : (detach id tag s).displays = s.displays := rfl
@[simp] theorem detach_inputs (id : StoryId) (tag : Tag) (s : State) : (detach id tag s).inputs = s.inputs := rfl
@[simp] theorem detach_link (id : StoryId) (tag : Tag) (s : State) : (detach id tag s).link = s.link := rfl
@[simp] theorem detach_tick (id : StoryId) (tag : Tag) (s : State) : (detach id tag s).tick = s.tick := rfl
@[simp] theorem detach_busy (id : StoryId) (tag : Tag) (s : State) : (detach id tag s).busy = s.busy := rfl
@[simp] theorem detach_resetHeld (id : StoryId) (tag : Tag) (s : State) : (detach id tag s).resetHeld = s.resetHeld := rfl
@[simp] theorem detach_clock (id : StoryId) (tag : Tag) (s : State) : (detach id tag s).clock = s.clock := rfl
@[simp] theorem detach_pending (id : StoryId) (tag : Tag) (s : State) : (detach id tag s).pending = s.pending := rfl

@[simp] theorem detachAll_rtu (s : State) : (detachAll s).rtu = s.rtu := rfl
@[simp] theorem detachAll_items (s : State) : (detachAll s).items = s.items := rfl
@[simp] theorem detachAll_revision (s : State) : (detachAll s).revision = s.revision := rfl
@[simp] theorem detachAll_seq (s : State) : (detachAll s).seq = s.seq := rfl
@[simp] theorem detachAll_engine (s : State) : (detachAll s).engine = s.engine := rfl
@[simp] theorem detachAll_sched (s : State) : (detachAll s).sched = s.sched := rfl
@[simp] theorem detachAll_profiles (s : State) : (detachAll s).profiles = s.profiles := rfl
@[simp] theorem detachAll_groups (s : State) : (detachAll s).groups = s.groups := rfl
@[simp] theorem detachAll_displays (s : State) : (detachAll s).displays = s.displays := rfl
@[simp] theorem detachAll_inputs (s : State) : (detachAll s).inputs = s.inputs := rfl
@[simp] theorem detachAll_link (s : State) : (detachAll s).link = s.link := rfl
@[simp] theorem detachAll_tick (s : State) : (detachAll s).tick = s.tick := rfl
@[simp] theorem detachAll_busy (s : State) : (detachAll s).busy = s.busy := rfl
@[simp] theorem detachAll_resetHeld (s : State) : (detachAll s).resetHeld = s.resetHeld := rfl
@[simp] theorem detachAll_clock (s : State) : (detachAll s).clock = s.clock := rfl
@[simp] theorem detachAll_pending (s : State) : (detachAll s).pending = s.pending := rfl

@[simp] theorem restartCounter_items (m : PulseMode) (s : State) : (restartCounter m s).items = s.items := rfl
@[simp] theorem restartCounter_revision (m : PulseMode) (s : State) : (restartCounter m s).revision = s.revision := rfl
@[simp] theorem restartCounter_seq (m : PulseMode) (s : State) : (restartCounter m s).seq = s.seq := rfl
@[simp] theorem restartCounter_engine (m : PulseMode) (s : State) : (restartCounter m s).engine = s.engine := rfl
@[simp] theorem restartCounter_sched (m : PulseMode) (s : State) : (restartCounter m s).sched = s.sched := rfl
@[simp] theorem restartCounter_profiles (m : PulseMode) (s : State) : (restartCounter m s).profiles = s.profiles := rfl
@[simp] theorem restartCounter_groups (m : PulseMode) (s : State) : (restartCounter m s).groups = s.groups := rfl
@[simp] theorem restartCounter_ports (m : PulseMode) (s : State) : (restartCounter m s).ports = s.ports := rfl
@[simp] theorem restartCounter_displays (m : PulseMode) (s : State) : (restartCounter m s).displays = s.displays := rfl
@[simp] theorem restartCounter_inputs (m : PulseMode) (s : State) : (restartCounter m s).inputs = s.inputs := rfl
@[simp] theorem restartCounter_link (m : PulseMode) (s : State) : (restartCounter m s).link = s.link := rfl
@[simp] theorem restartCounter_tick (m : PulseMode) (s : State) : (restartCounter m s).tick = s.tick := rfl
@[simp] theorem restartCounter_busy (m : PulseMode) (s : State) : (restartCounter m s).busy = s.busy := rfl
@[simp] theorem restartCounter_resetHeld (m : PulseMode) (s : State) : (restartCounter m s).resetHeld = s.resetHeld := rfl
@[simp] theorem restartCounter_clock (m : PulseMode) (s : State) : (restartCounter m s).clock = s.clock := rfl
@[simp] theorem restartCounter_pending (m : PulseMode) (s : State) : (restartCounter m s).pending = s.pending := rfl

@[simp] theorem modifyItem_items (id : StoryId) (f : Item → Item) (s : State) :
    (modifyItem id f s).items = s.items.map (fun i => if i.id == id then f i else i) := rfl
@[simp] theorem raiseNotice_link (k : NoticeKind) (a b c d : Nat) (s : State) :
    (raiseNotice k a b c d s).link = pushNotice ⟨k, s.cfn, a, b, c, d⟩ s.link := rfl
@[simp] theorem setMissed_link (s : State) : (setMissed s).link = { s.link with missed := true } := rfl
@[simp] theorem pushResponse_link (code : Byte) (body : List Byte) (s : State) :
    (pushResponse code body s).link = { s.link with responses := s.link.responses ++ [⟨code, body⟩] } := rfl
@[simp] theorem setFrame_link (o : Option OpenFrame) (s : State) :
    (setFrame o s).link = { s.link with frame := o } := rfl
@[simp] theorem endFrame_link (bs : List Byte) (s : State) :
    (endFrame bs s).link = { s.link with frame := none, output := bs } := rfl
@[simp] theorem setFrameFault_link (s : State) : (setFrameFault s).link = { s.link with frameFault := true } := rfl
@[simp] theorem triggerWalk_inFlight (s : State) : (triggerWalk s).engine.inFlight = true := rfl
@[simp] theorem passCycles_counter (n : Nat) (s : State) : (passCycles n s).rtu.counter = s.rtu.counter + n := rfl
@[simp] theorem passCycles_clock (n : Nat) (s : State) : (passCycles n s).clock = s.clock + n := rfl
@[simp] theorem modifyPort_ports (p : Fin 16) (f : Port → Port) (s : State) :
    (modifyPort p f s).ports = s.ports.set p (f s.ports[p]) := rfl
@[simp] theorem modifyDisplay_displays (d : Fin 4) (f : Display → Display) (s : State) :
    (modifyDisplay d f s).displays = s.displays.set d (f s.displays[d]) := rfl
@[simp] theorem modifyInput_inputs (n : Fin 8) (f : PanelInput → PanelInput) (s : State) :
    (modifyInput n f s).inputs = s.inputs.set n (f s.inputs[n]) := rfl

end Sys2Proof.Machine
end

