-- ==== Sys2Proof/Laws/Frames.lean ====
section
/-! SUPPORT. What the shared operations leave alone, one lemma per operation: `Quiet` for those that are no
part of a tick, `Fixed` for those that may issue or take an edge. -/

namespace Sys2Proof.Machine

/-! ### The relations compose -/

theorem Outside.refl (s : State) : Outside s s := ⟨rfl, rfl, rfl, rfl, rfl, rfl, rfl, rfl, rfl, rfl, rfl, rfl, rfl, rfl⟩

theorem Outside.trans {a b c : State} (h : Outside a b) (k : Outside b c) : Outside a c :=
  ⟨k.1.trans h.1, k.2.trans h.2, k.3.trans h.3, k.4.trans h.4, k.5.trans h.5, k.6.trans h.6, k.7.trans h.7,
    k.8.trans h.8, k.9.trans h.9, k.10.trans h.10, k.11.trans h.11, k.12.trans h.12, k.13.trans h.13,
    k.14.trans h.14⟩

theorem Fixed.refl (s : State) : Fixed s s := ⟨Outside.refl s, rfl, rfl, rfl, rfl, id⟩

theorem Fixed.trans {a b c : State} (h : Fixed a b) (k : Fixed b c) : Fixed a c :=
  ⟨h.toOutside.trans k.toOutside, k.revision.trans h.revision, k.rundown.trans h.rundown,
    k.requests.trans h.requests, k.responses.trans h.responses, fun x => k.notices (h.notices x)⟩

theorem Quiet.refl (s : State) : Quiet s s := ⟨Fixed.refl s, rfl, rfl, rfl⟩

theorem Quiet.trans {a b c : State} (h : Quiet a b) (k : Quiet b c) : Quiet a c :=
  ⟨h.toFixed.trans k.toFixed, k.groups.trans h.groups, k.inputs.trans h.inputs, k.tick.trans h.tick⟩

theorem Quiet.foldl {α : Type} {f : State → α → State} (h : ∀ s a, Quiet s (f s a)) (l : List α) (s : State) :
    Quiet s (l.foldl f s) := by
  induction l generalizing s with
  | nil => exact .refl s
  | cons a l ih => exact (h s a).trans (ih _)

theorem Fixed.foldl {α : Type} {f : State → α → State} (h : ∀ s a, Fixed s (f s a)) (l : List α) (s : State) :
    Fixed s (l.foldl f s) := by
  induction l generalizing s with
  | nil => exact .refl s
  | cons a l ih => exact (h s a).trans (ih _)

/-- An event comes before the oscillator's next tick, or with it, exactly when its cycles do not carry the tick-phase
counter past 3P/2 in PRESENT mode or P in ABSENT mode (R9, R10). -/
theorem beforeTick_iff (n : Nat) (s : State) : beforeTick n s = true ↔ s.rtu.counter + n ≤ oscillatorCount s := by
  unfold beforeTick tickThreshold oscillatorCount
  cases s.rtu.mode <;> simp

theorem Quiet.elim {α : Type} {f : α → State} {s : State} (h : ∀ a, Quiet s (f a)) (o : Option α) :
    Quiet s (o.elim s f) := by
  cases o with
  | none => exact .refl s
  | some a => exact h a

theorem Fixed.elim {α : Type} {f : α → State} {s : State} (h : ∀ a, Fixed s (f a)) (o : Option α) :
    Fixed s (o.elim s f) := by
  cases o with
  | none => exact .refl s
  | some a => exact h a

theorem Quiet.ite {p : Prop} [Decidable p] {s a b : State} (h : Quiet s a) (k : Quiet s b) :
    Quiet s (if p then a else b) := by
  split
  · exact h
  · exact k

theorem Fixed.ite {p : Prop} [Decidable p] {s a b : State} (h : Fixed s a) (k : Fixed s b) :
    Fixed s (if p then a else b) := by
  split
  · exact h
  · exact k

/-! ### Single updates -/

/-- A change of the sequencer, the engine, the scheduler, the ports or the displays alone. -/
theorem Quiet.of_parts {s : State} (q : Sequencer) (e : Engine) (c : Scheduler) (p : Vector Port 16)
    (d : Vector Display 4) :
    Quiet s { s with seq := q, engine := e, sched := c, ports := p, displays := d } :=
  ⟨⟨⟨rfl, rfl, rfl, rfl, rfl, rfl, rfl, rfl, rfl, rfl, rfl, rfl, rfl, rfl⟩, rfl, rfl, rfl, rfl, id⟩, rfl, rfl, rfl⟩

theorem pushNotice_bound (n : Notice) (l : Link) (h : l.notices.length ≤ Config.noticeFifo) :
    (pushNotice n l).notices.length ≤ Config.noticeFifo := by
  unfold pushNotice
  split
  · simp only [List.length_append, List.length_singleton]; omega
  · exact h

theorem pushNotice_kept (n : Notice) (l : Link) :
    (pushNotice n l).requests = l.requests ∧ (pushNotice n l).responses = l.responses
      ∧ (pushNotice n l).crcFault = l.crcFault ∧ (pushNotice n l).frameFault = l.frameFault
      ∧ (pushNotice n l).linkOverrun = l.linkOverrun ∧ (pushNotice n l).resetSeen = l.resetSeen
      ∧ (pushNotice n l).mask = l.mask ∧ (pushNotice n l).awaitingCsHigh = l.awaitingCsHigh
      ∧ (pushNotice n l).frame = l.frame ∧ (pushNotice n l).output = l.output
      ∧ (pushNotice n l).missed = l.missed := by
  unfold pushNotice
  split <;> simp

theorem raiseNotice_quiet (k : NoticeKind) (a b c d : Nat) (s : State) : Quiet s (raiseNotice k a b c d s) := by
  obtain ⟨h1, h2, h3, h4, h5, h6, h7, h8, h9, h10, -⟩ := pushNotice_kept ⟨k, s.cfn, a, b, c, d⟩ s.link
  exact ⟨⟨⟨rfl, rfl, rfl, rfl, rfl, rfl, h3, h4, h5, h6, h7, h8, h9, h10⟩, rfl, rfl, h1, h2,
    pushNotice_bound _ _⟩, rfl, rfl, rfl⟩

theorem setMissed_quiet (s : State) : Quiet s (setMissed s) :=
  ⟨⟨⟨rfl, rfl, rfl, rfl, rfl, rfl, rfl, rfl, rfl, rfl, rfl, rfl, rfl, rfl⟩, rfl, rfl, rfl, rfl, id⟩, rfl, rfl, rfl⟩

theorem triggerWalk_quiet (s : State) : Quiet s (triggerWalk s) := .of_parts ..

theorem setPort_quiet (p : Fin 16) (r : Port) (s : State) : Quiet s (setPort p r s) := .of_parts ..

theorem modifyPort_quiet (p : Fin 16) (f : Port → Port) (s : State) : Quiet s (modifyPort p f s) :=
  .of_parts ..

theorem modifyDisplay_quiet (d : Fin 4) (f : Display → Display) (s : State) : Quiet s (modifyDisplay d f s) :=
  .of_parts ..

theorem removeEntry_quiet (id : StoryId) (tag : Tag) (s : State) : Quiet s (removeEntry id tag s) :=
  .of_parts ..

theorem deferEntry_quiet (id : StoryId) (tag : Tag) (s : State) : Quiet s (deferEntry id tag s) := .of_parts ..

theorem placeEntry_quiet (e : ArmEntry) (s : State) : Quiet s (placeEntry e s) := .of_parts ..

theorem detach_quiet (id : StoryId) (tag : Tag) (s : State) : Quiet s (detach id tag s) := .of_parts ..

theorem detachAll_quiet (s : State) : Quiet s (detachAll s) := .of_parts ..

/-- An item change that leaves what the host put in the item. -/
theorem modifyItem_quiet {f : Item → Item} (h : ∀ i, (f i).hosted = i.hosted) (id : StoryId) (s : State) :
    Quiet s (modifyItem id f s) := by
  have hr : rundown (modifyItem id f s) = rundown s := by
    simp only [rundown, modifyItem_items, List.map_map]
    apply List.map_congr_left
    intro i _
    simp only [Function.comp_apply]
    split
    · exact h i
    · rfl
  exact ⟨⟨⟨rfl, rfl, rfl, rfl, rfl, rfl, rfl, rfl, rfl, rfl, rfl, rfl, rfl, rfl⟩, rfl, hr, rfl, rfl, fun x => x⟩, rfl, rfl, rfl⟩

/-- An element change that leaves what the host put in the element. -/
theorem modifyElement_quiet {f : Element → Element} (h : ∀ e, (f e).hosted = e.hosted) (id : StoryId) (tag : Tag)
    (s : State) : Quiet s (modifyElement id tag f s) := by
  refine modifyItem_quiet (fun i => ?_) id s
  simp only [Item.hosted, List.map_map, HostedItem.mk.injEq, true_and]
  apply List.map_congr_left
  intro e _
  simp only [Function.comp_apply]
  split
  · exact h e
  · rfl

/-! ### Displays -/

theorem drive_quiet (n : Fin 4) (s : State) : Quiet s (drive n s) := modifyDisplay_quiet ..

theorem render_quiet (n : Fin 4) (s : State) : Quiet s (render n s) :=
  (modifyDisplay_quiet ..).trans (drive_quiet ..)

theorem renderAll_quiet (s : State) : Quiet s (renderAll s) := .foldl (fun s n => render_quiet n s) _ _

theorem renderThose_quiet (p : Fin 4 → Bool) (s : State) : Quiet s (renderThose p s) :=
  .foldl (fun s n => render_quiet n s) _ _

theorem raiseCue_quiet (k : NoticeKind) (n : Fin 4) (c : Cue) (s : State) : Quiet s (raiseCue k n c s) :=
  raiseNotice_quiet ..

theorem acknowledge_quiet (n : Fin 4) (s : State) : Quiet s (acknowledge n s) := by
  unfold acknowledge
  split
  · exact .refl s
  · exact (modifyDisplay_quiet ..).trans (raiseCue_quiet ..)

theorem deliverCue_quiet (c : Cue) (s : State) (n : Fin 4) : Quiet s (deliverCue c s n) := by
  unfold deliverCue
  split
  · exact modifyDisplay_quiet ..
  · exact .ite (modifyDisplay_quiet ..) ((modifyDisplay_quiet ..).trans (raiseCue_quiet ..))

theorem expireHead_quiet (n : Fin 4) (s : State) : Quiet s (expireHead n s) := by
  unfold expireHead
  split
  · exact .refl s
  · exact .ite ((modifyDisplay_quiet ..).trans (raiseCue_quiet ..)) (.refl s)

theorem advanceCrawl_quiet (n : Fin 4) (s : State) : Quiet s (advanceCrawl n s) := by
  unfold advanceCrawl
  exact .ite (modifyDisplay_quiet ..) (.refl s)

theorem busyTest_quiet (n : Fin 4) (s : State) : Quiet s (busyTest n s) := by
  unfold busyTest
  exact .ite ((modifyDisplay_quiet ..).trans (raiseNotice_quiet ..)) (.refl s)

theorem displayTick_quiet (n : Fin 4) (s : State) : Quiet s (displayTick n s) := by
  unfold displayTick
  exact .ite ((((expireHead_quiet n s).trans (advanceCrawl_quiet n _)).trans (busyTest_quiet n _)).trans
    (render_quiet n _)) (.refl s)

/-! ### Ports -/

theorem raisePortState_quiet (p : Fin 16) (s : State) : Quiet s (raisePortState p s) := raiseNotice_quiet ..

theorem settlePort_quiet (p : Fin 16) (f : Bool) (s : State) : Quiet s (settlePort p f s) := by
  unfold settlePort
  exact .ite ((modifyPort_quiet ..).trans (raisePortState_quiet ..)) (modifyPort_quiet ..)

theorem failElement_quiet (p : Fin 16) (c : Cause) (r : Option (StoryId × Tag)) (s : State) :
    Quiet s (failElement p c r s) := by
  unfold failElement
  split
  · exact .refl s
  · exact ((modifyElement_quiet (by intro; rfl) _ _ _).trans (raiseNotice_quiet ..)).trans (setMissed_quiet _)

theorem takeDeadline_quiet (p : Fin 16) (s : State) : Quiet s (takeDeadline p s) := by
  unfold takeDeadline
  split
  · exact .refl s
  · exact .ite ((failElement_quiet ..).trans (settlePort_quiet ..)) (.refl s)

theorem takePulseEnd_quiet (p : Fin 16) (s : State) : Quiet s (takePulseEnd p s) := by
  unfold takePulseEnd
  exact .ite (modifyPort_quiet ..) (.refl s)

/-- Taking a command changes the port and its group's history. -/
theorem takeCommand_fixed (p : Fin 16) (f : Frame) (ref : StoryId × Tag) (a : Action) (s : State) :
    Fixed s (takeCommand p f ref a s) := by
  have h : ∀ s : State, ∀ g, Fixed s { s with groups := g } := fun s g =>
    ⟨⟨rfl, rfl, rfl, rfl, rfl, rfl, rfl, rfl, rfl, rfl, rfl, rfl, rfl, rfl⟩, rfl, rfl, rfl, rfl, fun x => x⟩
  unfold takeCommand
  refine Fixed.trans ?_ (modifyPort_quiet ..).toFixed
  split
  · exact .refl s
  · exact h _ _

/-! ### The arm queue -/

theorem armElement_quiet (id : StoryId) (tag : Tag) (s : State) : Quiet s (armElement id tag s) := by
  unfold armElement
  split
  · exact .refl s
  · split
    · exact .ite ((modifyElement_quiet (by intro; rfl) _ _ _).trans (placeEntry_quiet ..))
        (modifyElement_quiet (by intro; rfl) _ _ _)
    · exact .refl s

theorem armIdle_quiet (id : StoryId) (s : State) : Quiet s (armIdle id s) :=
  .foldl (fun s t => armElement_quiet id t s) _ _

theorem fillFromWaiting_quiet (s : State) : Quiet s (fillFromWaiting s) :=
  .foldl (fun s (w : StoryId × Element) => .ite (armElement_quiet w.1 w.2.tag s) (.refl s)) _ _

theorem withdrawElement_quiet (id : StoryId) (tag : Tag) (s : State) : Quiet s (withdrawElement id tag s) :=
  (modifyElement_quiet (by intro; rfl) _ _ _).trans (removeEntry_quiet ..)

theorem withdrawItem_quiet (id : StoryId) (s : State) : Quiet s (withdrawItem id s) :=
  (Quiet.foldl (fun s t => withdrawElement_quiet id t s) _ _).trans (modifyItem_quiet (by intro; rfl) _ _)

theorem orphanElement_quiet (id : StoryId) (tag : Tag) (s : State) : Quiet s (orphanElement id tag s) := by
  unfold orphanElement
  split
  · exact .refl s
  · exact ((Quiet.ite (detach_quiet ..) (.refl s)).trans (modifyElement_quiet (by intro; rfl) _ _ _)).trans
      (raiseNotice_quiet ..)

theorem orphanItem_quiet (id : StoryId) (s : State) : Quiet s (orphanItem id s) :=
  .foldl (fun s t => orphanElement_quiet id t s) _ _

theorem retimeEntry_quiet (sweep : Bool) (f : Frame) (e : ArmEntry) (s : State) :
    Quiet s (retimeEntry sweep f e s) := (removeEntry_quiet ..).trans (placeEntry_quiet ..)

theorem retimeElement_quiet (id : StoryId) (c : ArmContext) (s : State) (e : Element) :
    Quiet s (retimeElement id c s e) := by
  unfold retimeElement
  split
  · exact .refl s
  · exact .ite (.refl s) (retimeEntry_quiet ..)

theorem retimeItem_quiet (p : Element → Bool) (id : StoryId) (c : ArmContext) (s : State) :
    Quiet s (retimeItem p id c s) :=
  (modifyItem_quiet (by intro; rfl) _ _).trans (.foldl (fun s e => retimeElement_quiet id c s e) _ _)

theorem sweepToEnd_quiet (id : StoryId) (f : Frame) (s : State) : Quiet s (sweepToEnd id f s) := by
  unfold sweepToEnd
  refine (modifyItem_quiet (by intro; rfl) _ _).trans (.foldl (fun s q => ?_) _ _)
  refine .ite ?_ (.refl s)
  split
  · exact .ite (retimeEntry_quiet ..) (.refl s)
  · exact .refl s

theorem missElement_quiet (id : StoryId) (tag : Tag) (c : Cause) (s : State) : Quiet s (missElement id tag c s) :=
  modifyElement_quiet (by intro; rfl) _ _ _

theorem raiseMissed_quiet (id : StoryId) (tag : Tag) (s : State) : Quiet s (raiseMissed id tag s) := by
  unfold raiseMissed
  split
  · exact .refl s
  · exact (raiseNotice_quiet ..).trans (setMissed_quiet _)

theorem settleIssue_quiet (id : StoryId) (tag : Tag) (st : ElementState) (f : Frame) (s : State) :
    Quiet s (settleIssue id tag st f s) := modifyElement_quiet (by intro; rfl) _ _ _

theorem deliverEntry_quiet (q : ArmEntry) (s : State) : Quiet s (deliverEntry q s) := by
  unfold deliverEntry
  split
  · exact removeEntry_quiet ..
  · split
    · exact ((Quiet.foldl (fun s n => deliverCue_quiet _ s n) _ _).trans (removeEntry_quiet ..)).trans
        (settleIssue_quiet ..)
    · exact removeEntry_quiet ..

theorem offerEntry_fixed (q : ArmEntry) (p : Fin 16) (c : ScanState) :
    Fixed c.state (offerEntry q p c).state := by
  unfold offerEntry
  split
  · exact (removeEntry_quiet ..).toFixed
  · split
    · exact ((removeEntry_quiet ..).toFixed.trans (takeCommand_fixed ..)).trans (settleIssue_quiet ..).toFixed
    · exact (deferEntry_quiet ..).toFixed

theorem treatEntry_fixed (c : ScanState) (q : ArmEntry) : Fixed c.state (treatEntry c q).state := by
  unfold treatEntry
  split
  · exact (deliverEntry_quiet ..).toFixed
  · split
    · exact ((removeEntry_quiet ..).trans (missElement_quiet ..)).toFixed
    · split
      · exact ((removeEntry_quiet ..).trans (missElement_quiet ..)).toFixed
      · split
        · exact (deferEntry_quiet ..).toFixed
        · exact offerEntry_fixed ..

theorem scanEntry_fixed (c : ScanState) (q : ArmEntry) : Fixed c.state (scanEntry c q).state := by
  unfold scanEntry
  split
  · exact (treatEntry_fixed { c with missed := [] } q).trans
      (Quiet.foldl (fun s (m : StoryId × Tag) => raiseMissed_quiet m.1 m.2 s) _ _).toFixed
  · exact .refl _

/-- A fold of scan steps, each of which keeps the fixed parts. -/
theorem Fixed.foldScan {f : ScanState → ArmEntry → ScanState} (h : ∀ c q, Fixed c.state (f c q).state)
    (l : List ArmEntry) (c : ScanState) : Fixed c.state (l.foldl f c).state := by
  induction l generalizing c with
  | nil => exact .refl _
  | cons q l ih => exact (h c q).trans (ih _)

theorem scanQueue_fixed (s : State) : Fixed s (scanQueue s) :=
  ((Fixed.foldScan scanEntry_fixed s.sched.queue ⟨s, [], [], []⟩).trans (fillFromWaiting_quiet _).toFixed).trans
    (renderThose_quiet ..).toFixed

theorem missRemaining_quiet (id : StoryId) (s : State) : Quiet s (missRemaining id s) :=
  (Quiet.foldl (fun _ _ => (removeEntry_quiet ..).trans (missElement_quiet ..)) _ _).trans
    (modifyItem_quiet (by intro; rfl) _ _)

theorem reportMissed_quiet (id : StoryId) (b : List Tag) (s : State) : Quiet s (reportMissed id b s) :=
  .foldl (fun s t => raiseMissed_quiet id t s) _ _

theorem endItem_fixed (id : StoryId) (s : State) : Fixed s (endItem id s) :=
  ((Fixed.foldScan treatEntry_fixed _ ⟨s, [], [], []⟩).trans (missRemaining_quiet ..).toFixed).trans
    (reportMissed_quiet ..).toFixed

theorem stopItem_quiet (id : StoryId) (s : State) : Quiet s (stopItem id s) :=
  (missRemaining_quiet ..).trans (reportMissed_quiet ..)

theorem rearmBusy_quiet (p : Fin 16) (c : Outstanding) (id : StoryId) (tag : Tag) (s : State) :
    Quiet s (rearmBusy p c id tag s) := by
  unfold rearmBusy
  split
  · exact .ite ((modifyElement_quiet (by intro; rfl) _ _ _).trans (placeEntry_quiet ..))
      (((modifyElement_quiet (by intro; rfl) _ _ _).trans (raiseNotice_quiet ..)).trans (setMissed_quiet _))
  · exact .refl s

/-! ### The Show Sequencer -/

theorem raiseStandby_quiet (s : State) : Quiet s (raiseStandby s) := raiseNotice_quiet ..

theorem raiseStandbyIfMoved_quiet (b : Option StoryId) (s : State) : Quiet s (raiseStandbyIfMoved b s) := by
  unfold raiseStandbyIfMoved
  exact .ite (.refl s) (raiseStandby_quiet s)

theorem setShow_quiet (m : ShowState) (s : State) : Quiet s (setShow m s) := by
  unfold setShow
  exact .ite (.refl s) (Quiet.trans (.of_parts ..) (raiseNotice_quiet ..))

theorem closeShowEvent_quiet (s : State) : Quiet s (closeShowEvent s) :=
  (fillFromWaiting_quiet s).trans (renderAll_quiet _)

theorem leaveStandby_quiet (id : StoryId) (s : State) : Quiet s (leaveStandby id s) :=
  ((modifyItem_quiet (by intro; rfl) _ _).trans (withdrawItem_quiet ..)).trans (orphanItem_quiet ..)

theorem enterStandby_quiet (a b : Bool) (id : StoryId) (s : State) : Quiet s (enterStandby a b id s) :=
  modifyItem_quiet (by intro; rfl) _ _

theorem chooseStandby_quiet (s : State) : Quiet s (chooseStandby s) := by
  have h1 : Quiet s (match standbyId s with
      | some old => if (liveNomination s).or (automaticChoice s) = some old then s else leaveStandby old s
      | none => s) := by
    split
    · exact .ite (.refl s) (leaveStandby_quiet ..)
    · exact .refl s
  unfold chooseStandby
  refine .ite (.refl s) ?_
  dsimp only
  split
  · exact h1.trans (enterStandby_quiet ..)
  · exact h1

theorem announceStandby_quiet (b : Option StoryId) (s : State) : Quiet s (announceStandby b s) := by
  unfold announceStandby
  exact .ite (.refl s) (((raiseStandby_quiet s).trans (triggerWalk_quiet _)).trans (closeShowEvent_quiet _))

theorem reselect_quiet (b : Option StoryId) (s : State) : Quiet s (reselect b s) := by
  unfold reselect
  exact .ite (announceStandby_quiet ..) ((chooseStandby_quiet s).trans (announceStandby_quiet ..))

theorem endNomination_quiet (id : StoryId) (s : State) : Quiet s (endNomination id s) := by
  unfold endNomination
  exact .ite (.of_parts ..) (.refl s)

theorem scheduleTake_quiet (id : StoryId) (f : Frame) (d : Nat) (s : State) : Quiet s (scheduleTake id f d s) := by
  unfold scheduleTake
  refine Quiet.trans (b := ((onairId s).map (fun o => sweepToEnd o f s)).getD s) ?_
    ((retimeItem_quiet ..).trans (armIdle_quiet ..))
  cases onairId s with
  | none => exact .refl s
  | some o => exact sweepToEnd_quiet ..

theorem acceptTake_quiet (i : Item) (s : State) : Quiet s (acceptTake i s) := by
  unfold acceptTake
  refine Quiet.trans (((modifyItem_quiet (fun _ => ?_) _ _).trans (endNomination_quiet ..)).trans
    (.of_parts ..)) ((scheduleTake_quiet ..).trans ((triggerWalk_quiet _).trans ((raiseStandby_quiet _).trans
      ((setShow_quiet ..).trans (closeShowEvent_quiet _)))))
  rfl

theorem finishOutgoing_fixed (v : Nat) (f : Frame) (id : StoryId) (s : State) :
    Fixed s (finishOutgoing v f id s) :=
  ((modifyItem_quiet (by intro; rfl) _ _).trans (raiseNotice_quiet ..)).toFixed.trans (endItem_fixed ..)

theorem dropItem_quiet (j : StoryId) (s : State) (id : StoryId) : Quiet s (dropItem j s id) :=
  (modifyItem_quiet (by intro; rfl) _ _).trans (raiseNotice_quiet ..)

theorem scheduleEntry_quiet (id : StoryId) (s : State) : Quiet s (scheduleEntry id s) := by
  unfold scheduleEntry
  split
  · exact .refl s
  · exact (retimeItem_quiet ..).trans (armIdle_quiet ..)

theorem enterAir_fixed (path : AirPath) (id : StoryId) (af : Frame) (s : State) :
    Fixed s (enterAir path id af s) := by
  unfold enterAir
  refine Fixed.trans ?_ (((chooseStandby_quiet _).trans (raiseStandbyIfMoved_quiet ..)).trans
    ((triggerWalk_quiet _).trans (closeShowEvent_quiet _))).toFixed
  refine Fixed.trans ?_ (Quiet.foldl (fun s i => dropItem_quiet id s i) _ _).toFixed
  refine Fixed.trans ?_ (scheduleEntry_quiet ..).toFixed
  refine Fixed.trans ?_ (Fixed.elim (fun o => finishOutgoing_fixed ..) _)
  refine Fixed.trans ?_ (raiseNotice_quiet ..).toFixed
  refine Quiet.toFixed (Quiet.trans ?_ (.of_parts ..))
  refine Quiet.trans (Quiet.elim (fun o => modifyItem_quiet (fun _ => ?_) _ _) _)
    ((modifyItem_quiet (fun _ => ?_) _ _).trans (endNomination_quiet ..))
  · rfl
  · rfl

theorem stepAirFrame_fixed (s : State) : Fixed s (stepAirFrame s) := by
  unfold stepAirFrame
  split
  · exact .refl s
  · exact enterAir_fixed ..

theorem stepJunction_fixed (s : State) : Fixed s (stepJunction s) := by
  unfold stepJunction
  split
  · exact .refl s
  · exact enterAir_fixed ..

theorem endShow_fixed (i : Item) (f : Frame) (s : State) : Fixed s (endShow i f s) :=
  (finishOutgoing_fixed ..).trans
    ((triggerWalk_quiet _).trans ((setShow_quiet ..).trans (closeShowEvent_quiet _))).toFixed

theorem stepFollow_fixed (s : State) : Fixed s (stepFollow s) := by
  unfold stepFollow
  split
  · exact .refl s
  · dsimp only
    split
    · exact endShow_fixed ..
    · exact .ite (.refl s) (enterAir_fixed ..)

theorem stepOverdue_quiet (s : State) : Quiet s (stepOverdue s) := by
  unfold stepOverdue
  split
  · exact .refl s
  · exact .of_parts ..

theorem captureJunction_quiet (j : Item) (s : State) : Quiet s (captureJunction j s) := by
  unfold captureJunction
  refine Quiet.trans ?_ ((retimeItem_quiet ..).trans ((armIdle_quiet ..).trans
    (triggerWalk_quiet _)))
  refine Quiet.trans ?_ (raiseNotice_quiet ..)
  refine Quiet.trans ?_ ((enterStandby_quiet ..).trans (raiseStandbyIfMoved_quiet ..))
  refine Quiet.trans (.of_parts { s.seq with nomination := none } s.engine s.sched s.ports s.displays) ?_
  split
  · exact .ite (.refl _) (leaveStandby_quiet ..)
  · exact .refl _

theorem captureTest_fixed (s : State) : Fixed s (captureTest s) := by
  unfold captureTest
  split
  · exact .refl s
  · exact .ite (((captureJunction_quiet ..).trans (raiseNotice_quiet ..)).toFixed.trans (enterAir_fixed ..))
      ((captureJunction_quiet ..).trans (closeShowEvent_quiet _)).toFixed

/-- A change of the tick record alone. -/
theorem Fixed.of_tick {s : State} (w : TickWork) : Fixed s { s with tick := w } :=
  ⟨⟨rfl, rfl, rfl, rfl, rfl, rfl, rfl, rfl, rfl, rfl, rfl, rfl, rfl, rfl⟩, rfl, rfl, rfl, rfl, fun x => x⟩

theorem takePhase_fixed (s : State) : Fixed s (takePhase s) := by
  unfold takePhase
  split
  · exact (stepAirFrame_fixed s).trans (.of_tick _)
  · exact (stepJunction_fixed s).trans (.of_tick _)
  · exact ((stepFollow_fixed s).trans (stepOverdue_quiet _).toFixed).trans (.of_tick _)
  · exact (captureTest_fixed s).trans (.of_tick _)
  · exact .refl s

theorem passPhases_fixed (k : Nat) (s : State) : Fixed s (passPhases k s) := by
  induction k generalizing s with
  | zero => exact .refl s
  | succ k ih =>
    unfold passPhases
    exact .ite (.refl s) ((takePhase_fixed s).trans (ih _))

theorem settlePhases_fixed (s : State) : Fixed s (settlePhases s) := passPhases_fixed ..

theorem finishPhases_fixed (s : State) : Fixed s (finishPhases s) :=
  (takePhase_fixed s).trans ((takePhase_fixed _).trans ((takePhase_fixed _).trans (takePhase_fixed _)))

theorem takeNamedPhase_fixed (p : TickPhase) (s : State) : Fixed s (takeNamedPhase p s) := by
  unfold takeNamedPhase
  exact .ite ((settlePhases_fixed s).trans ((takePhase_fixed _).trans (.of_tick _))) (.refl s)

theorem settleSteps_fixed (s : State) : Fixed s (settleSteps s) := by
  unfold settleSteps
  exact .ite (finishPhases_fixed s) (.refl s)

/-! ### The walk -/

/-- A walk writes projections, which are none of the host's fields. -/
theorem writeWalk_quiet (s : State) : Quiet s (writeWalk s) := by
  have hr : rundown (writeWalk s) = rundown s := by
    simp only [rundown, writeWalk, List.map_map]
    apply List.map_congr_left
    intro i _
    simp only [Function.comp_apply, projectItem]
    split <;> rfl
  exact ⟨⟨⟨rfl, rfl, rfl, rfl, rfl, rfl, rfl, rfl, rfl, rfl, rfl, rfl, rfl, rfl⟩, rfl, hr, rfl, rfl, fun x => x⟩,
    rfl, rfl, rfl⟩

theorem updateEnd_quiet (i : Item) (f : Frame) (s : State) : Quiet s (updateEnd i f s) := by
  unfold updateEnd
  exact .ite (.refl s) (retimeItem_quiet ..)

theorem updateStandby_quiet (s : State) : Quiet s (updateStandby s) := by
  unfold updateStandby
  split
  · exact .refl s
  · split
    · exact .ite (retimeItem_quiet ..) ((retimeItem_quiet ..).trans (armIdle_quiet ..))
    · exact .ite (withdrawItem_quiet ..) (.refl s)

theorem retimeAtCompletion_quiet (s : State) : Quiet s (retimeAtCompletion s) := by
  unfold retimeAtCompletion
  exact Quiet.trans (Quiet.elim (fun i => updateEnd_quiet ..) _)
    (Quiet.trans (Quiet.elim (fun i => updateEnd_quiet ..) _)
      (updateStandby_quiet _))

theorem completeWalk_fixed (s : State) : Fixed s (completeWalk s) :=
  ((writeWalk_quiet s).trans (retimeAtCompletion_quiet _)).toFixed.trans
    ((captureTest_fixed _).trans (closeShowEvent_quiet _).toFixed)

/-! ### Panel inputs -/

theorem holdShow_quiet (s : State) : Quiet s (holdShow s) := by
  unfold holdShow
  refine Quiet.trans ?_ ((setShow_quiet ..).trans ((triggerWalk_quiet _).trans (closeShowEvent_quiet _)))
  split
  · exact .ite (.refl s) (withdrawItem_quiet ..)
  · exact .refl s

theorem releaseShow_quiet (s : State) : Quiet s (releaseShow s) :=
  (setShow_quiet ..).trans ((triggerWalk_quiet _).trans (closeShowEvent_quiet _))

theorem performFunction_quiet (n : Fin 8) (s : State) : Quiet s (performFunction n s) := by
  unfold performFunction
  split
  · exact .refl s
  · unfold panelTakeShow
    split
    · exact acceptTake_quiet ..
    · exact raiseNotice_quiet ..
    · exact raiseNotice_quiet ..
    · exact .refl s
    · exact .refl s
  · unfold panelToggleHold
    split
    · exact holdShow_quiet s
    · exact releaseShow_quiet s
    · exact .refl s
    · exact .refl s
  · unfold panelAcknowledge
    exact .ite (.refl s) ((acknowledge_quiet ..).trans (render_quiet ..))
  · exact raiseNotice_quiet ..

/-- A change of the panel inputs alone. -/
theorem Fixed.of_inputs {s : State} (v : Vector PanelInput 8) : Fixed s { s with inputs := v } :=
  ⟨⟨rfl, rfl, rfl, rfl, rfl, rfl, rfl, rfl, rfl, rfl, rfl, rfl, rfl, rfl⟩, rfl, rfl, rfl, rfl, fun x => x⟩

theorem performEdge_fixed (n : Fin 8) (s : State) : Fixed s (performEdge n s) := by
  unfold performEdge
  exact .ite (Fixed.trans (.of_inputs _) (performFunction_quiet ..).toFixed) (.of_inputs _)

/-! ### Completing a tick -/

theorem takeScan_fixed (s : State) : Fixed s (takeScan s) := by
  unfold takeScan
  exact .ite (Fixed.trans (.of_tick _) (scanQueue_fixed _)) (.refl s)

theorem finishWork_fixed (s : State) : Fixed s (finishWork s) := by
  unfold finishWork
  refine Fixed.trans ?_ (.of_tick _)
  refine Fixed.trans ?_ (Fixed.foldl (fun s n => .ite (performEdge_fixed n s) (.refl s)) _ _)
  refine Fixed.trans ?_ (Quiet.foldl (fun s n => displayTick_quiet n s) _ _).toFixed
  refine Fixed.trans ?_ (Quiet.foldl (fun s p => (takeDeadline_quiet p s).trans (takePulseEnd_quiet p _)) _ _).toFixed
  exact (finishPhases_fixed s).trans (takeScan_fixed _)

/-- Completing the tick under way. -/
theorem settleTick_fixed (s : State) : Fixed s (settleTick s) := by
  unfold settleTick
  exact .ite (finishWork_fixed s) (.refl s)

end Sys2Proof.Machine
end

