-- ==== Sys2Proof/Laws/Link.lean ====
section
/-! SUPPORT. The Control Link for the provers: what a dispatch does, once for every request row, and request
bodies read back from the bytes that spell them. -/

namespace Sys2Proof.Machine

/-! ### Bytes -/

@[simp] theorem beBytes_length (k n : Nat) : (beBytes k n).length = k := by
  induction k generalizing n with
  | zero => rfl
  | succ k ih => simp [beBytes, ih]

theorem foldl_beBytes (k n acc : Nat) (h : n < 256 ^ k) :
    (beBytes k n).foldl (fun m b => 256 * m + b.toNat) acc = acc * 256 ^ k + n := by
  induction k generalizing n acc with
  | zero => simp [beBytes] at h ⊢; exact h
  | succ k ih =>
    have hq : n / 256 ^ k < 256 := by
      rw [Nat.div_lt_iff_lt_mul (by positivity)]; rw [pow_succ] at h; linarith
    have hlow : beBytes k n = beBytes k (n % 256 ^ k) := by
      clear ih h hq
      suffices H : ∀ j, j ≤ k → beBytes j n = beBytes j (n % 256 ^ k) from H k le_rfl
      intro j hj
      induction j with
      | zero => rfl
      | succ j ihj =>
        have : BitVec.ofNat 8 (n % 256 ^ k / 256 ^ j) = BitVec.ofNat 8 (n / 256 ^ j) := by
          apply BitVec.eq_of_toNat_eq
          simp only [BitVec.toNat_ofNat]
          obtain ⟨d, rfl⟩ : ∃ d, k = j + 1 + d := ⟨k - (j + 1), by omega⟩
          rw [show (256 : Nat) ^ (j + 1 + d) = 256 ^ j * (256 * 256 ^ d) by rw [pow_add, pow_succ]; ring,
            Nat.mod_mul_right_div_self, Nat.mod_mod_of_dvd _ (Dvd.intro _ rfl)]
        simp only [beBytes, this, ihj (by omega)]
    rw [beBytes, List.foldl_cons, hlow, ih _ _ (Nat.mod_lt _ (by positivity))]
    simp only [BitVec.toNat_ofNat]
    rw [Nat.mod_eq_of_lt (by simpa using hq)]
    have := Nat.div_add_mod n (256 ^ k)
    rw [pow_succ]; nlinarith

/-- A number that fits its bytes is spelt by them. -/
@[simp] theorem ofBytes_beBytes (k n : Nat) (h : n < 256 ^ k) : ofBytes (beBytes k n) = n := by
  simpa [ofBytes] using foldl_beBytes k n 0 h

/-! ### Request bodies -/

/-- A number at the front of a body is read back. -/
theorem takeNumber_beBytes (k n : Nat) (more : List Byte) (h : n < 256 ^ k) :
    takeNumber k (beBytes k n ++ more) = some (n, more) := by
  simp [takeNumber, h]

/-- A number at the front of a body of numbers is read back. -/
theorem takeNumbers_beBytes (k n : Nat) (ws : List Nat) (more : List Byte) (h : n < 256 ^ k) :
    takeNumbers (k :: ws) (beBytes k n ++ more) = (takeNumbers ws more).map (fun ns => n :: ns) := by
  simp [takeNumbers, takeNumber_beBytes k n more h]

/-- A number that is the whole rest of a body is read back. -/
theorem takeNumbers_beBytes_last (k n : Nat) (h : n < 256 ^ k) : takeNumbers [k] (beBytes k n) = some [n] := by
  have := takeNumbers_beBytes k n [] [] h
  simpa [takeNumbers, atEnd] using this

/-- A text at the front of a body is read back. -/
theorem takeText_spelt (t : Text) (more : List Byte) (h : t.length < 256) :
    takeText (beBytes 1 t.length ++ t ++ more) = some (t, more) := by
  simp [takeText, beBytes, Nat.mod_eq_of_lt h]

/-! ### Frames (R197, R203) -/

/-- With no frame under way, the end of a frame is the whole of it: status byte and answer are of this moment. -/
theorem takePart_whole {α : Type} {s : State} (hl : linkListens s = true) (hf : s.link.frame = none) (type : Byte)
    (x : α) (size : α → Nat) (h : α → TypedFrame → State → State) :
    takePart (.ends x) type size h s = h x (settleType type s.link)
      (endFrame (statusByte s :: clockedOut (settleType type s.link).answer (size x)) s) := by
  simp [takePart, hl, frameFits, currentFrame, currentType, hf]

/-- What a part of a frame can do: nothing, note how far the frame has come, or end it. -/
theorem takePart_cases {α : Type} (part : FramePart α) (type : Byte) (size : α → Nat)
    (h : α → TypedFrame → State → State) (s : State) :
    takePart part type size h s = s ∨ (∃ f, takePart part type size h s = setFrame (some f) s)
      ∨ (∃ x, part = .ends x ∧ takePart part type size h s = h x (currentType type s)
        (endFrame ((currentFrame s).status :: clockedOut (currentType type s).answer (size x)) s)) := by
  unfold takePart
  split
  · cases part
    · exact .inr (.inl ⟨_, rfl⟩)
    · exact .inr (.inl ⟨_, rfl⟩)
    · exact .inr (.inr ⟨_, rfl, rfl⟩)
  · exact .inl rfl

/-! ### Dispatch (R201) -/

/-- A waiting request is carried out on the state without its head, and its answer joins the response FIFO. -/
theorem serve_waiting {code : Byte} {body : List Byte} {rest : List RequestEntry} {s : State}
    (h : Waiting code body rest s) (act : List Byte → State → Reply) :
    serve code act s = pushResponse code (act body (takeHead rest s)).2 (act body (takeHead rest s)).1 := by
  simp [serve, dispatch, h.1, isGood, responseRoom, h.2]

/-- Without room for an answer no request is dispatched. -/
theorem dispatch_full {s : State} (p : RequestEntry → Bool) (act : RequestEntry → State → Reply)
    (h : Config.responseFifo ≤ s.link.responses.length) : dispatch p act s = s := by
  unfold dispatch
  split
  · rfl
  · simp [responseRoom, Nat.not_lt.mpr h]

/-- What a dispatch can do: nothing, or carry out the head entry and answer it. -/
theorem dispatch_cases (p : RequestEntry → Bool) (act : RequestEntry → State → Reply) (s : State) :
    dispatch p act s = s ∨ ∃ e rest, s.link.requests = e :: rest ∧ p e = true
      ∧ s.link.responses.length < Config.responseFifo
      ∧ dispatch p act s = pushResponse e.code (act e (takeHead rest s)).2 (act e (takeHead rest s)).1 := by
  unfold dispatch
  split
  · exact .inl rfl
  · rename_i e rest h
    by_cases hp : p e && responseRoom s
    · refine .inr ⟨e, rest, h, ?_⟩
      simp only [hp, if_true]
      simp only [Bool.and_eq_true, responseRoom, decide_eq_true_eq] at hp
      exact ⟨hp.1, hp.2, trivial⟩
    · exact .inl (by simp [hp])

end Sys2Proof.Machine
end

