-- ==== Sys2Proof/Laws/Store.lean ====
section
/-! SUPPORT. The Rundown Store for the provers: what a change in place does to a look-up, and what the judging
of an edit can do. -/

namespace Sys2Proof.Machine

/-- An amend that keeps the kind has the record's own fields beside those it selects (R44, R54). -/
theorem heldFor_same_kind (e : Element) : heldFor e.action.kind e = e.fields := if_pos rfl

/-- An amend that changes the kind has no fields but those it selects (R30, note 24). -/
theorem heldFor_new_kind {k : Kind} {e : Element} (h : e.action.kind ≠ k) : heldFor k e = .empty := if_neg h

/-- A change of a record that keeps ids is seen by the look-up of that id alone. -/
theorem findItem_modifyItem (id x : StoryId) (f : Item → Item) (s : State) (hf : ∀ i, (f i).id = i.id) :
    findItem (modifyItem id f s) x = (findItem s x).map (fun i => if i.id == id then f i else i) := by
  unfold findItem modifyItem
  dsimp only
  induction s.items with
  | nil => rfl
  | cons i rest ih =>
    by_cases hi : i.id = id
    · by_cases hx : i.id = x
      · simp [hi, ← hx, hf]
      · have : (f i).id ≠ x := by rw [hf]; exact hx
        simp_all
    · by_cases hx : i.id = x
      · subst hx; simp [hi]
      · simp_all

/-- A look-up gives an item with the id asked for. -/
theorem findItem_id {s : State} {id : StoryId} {i : Item} (h : findItem s id = some i) : i.id = id := by
  simpa using List.find?_some h

/-- A look-up gives an item of the store. -/
theorem findItem_mem {s : State} {id : StoryId} {i : Item} (h : findItem s id = some i) : i ∈ s.items :=
  List.mem_of_find?_eq_some h

/-- With every check met an edit is carried out. -/
theorem judgeEdit_accepted {checks : List (Bool × Result)} (h : ∀ c ∈ checks, c.1 = true) (ids : List Byte)
    (act : State → Reply) (s : State) : judgeEdit ids checks act s = act s := by
  have : checks.find? (fun c => !c.1) = none := List.find?_eq_none.mpr (fun c hc => by simp [h c hc])
  simp [judgeEdit, firstFailure, this]

/-- Judging an edit either carries it out or refuses it with the code of a check that fails. -/
theorem judgeEdit_cases (ids : List Byte) (checks : List (Bool × Result)) (act : State → Reply) (s : State) :
    judgeEdit ids checks act s = act s
      ∨ ∃ c ∈ checks, c.1 = false ∧ judgeEdit ids checks act s = refuseEdit c.2 ids s := by
  unfold judgeEdit firstFailure
  cases h : checks.find? (fun c => !c.1) with
  | none => exact .inl rfl
  | some c => exact .inr ⟨c, List.mem_of_find?_eq_some h, by simpa using List.find?_some h, rfl⟩

end Sys2Proof.Machine
end

