-- ==== Sys2Proof/Tests/Slice0.lean ====
section
/-! SUPPORT. Tests: ill-formed commands, the spec's worked figures, and for every statement with hypotheses a
witness that meets them.  Expected values are the spec's own; each test names its place. -/

namespace Sys2Proof.Tests

open Sys2Proof.Machine

-- One theorem after the other: the waiting ones would each hold a thread.
set_option Elab.async false

/-! ### WellFormed refuses what the lines cannot carry -/

theorem test_reply_on_contact_port : (Instr.replyByte 3 0x4B#8 true true).wellFormed = false := by decide
theorem test_deadline_on_contact_port : (Instr.replyTimeout 0).wellFormed = false := by decide
theorem test_pulse_on_serial_port : (Instr.pulseEnd 4).wellFormed = false := by decide
theorem test_discard_without_clock : (Instr.discardedFrame 0x77#8 (.ends 0)).wellFormed = false := by decide
theorem test_discard_of_a_whole_request : (Instr.discardedFrame 0x5A#8 (.ends 32)).wellFormed = false := by decide
theorem test_no_row_has_bits : decodeTableWord 8 0x23 = none := by decide

/-! ### Worked figures of the spec -/

/-- R3, the table at rate 0. -/
theorem test_signed_differences :
    signedDiff 2160000 900250 900000 = 250 ∧ signedDiff 2160000 10 2159990 = 20
      ∧ signedDiff 2160000 2159990 10 = -20 ∧ signedDiff 2160000 1980000 900000 = -1080000 := by decide

/-- R4: a target 1,090,000 frames ahead is due, one exactly half a day ahead is not. -/
theorem test_horizon :
    isDue 2160000 900000 1990000 = true ∧ isDue 2160000 900000 1980000 = false := by decide

/-- R5: skipped values at rate 1. -/
theorem test_skipped_labels :
    labelValid .r2997 ⟨10, 1, 0, 1⟩ = false ∧ labelValid .r2997 ⟨10, 1, 0, 2⟩ = true
      ∧ labelValid .r2997 ⟨10, 10, 0, 0⟩ = true := by decide

/-- R6 and R7, worked conversions at rate 1. -/
theorem test_conversions :
    labelToFrame .r2997 ⟨10, 0, 0, 0⟩ = 1078920 ∧ labelToFrame .r2997 ⟨10, 1, 0, 2⟩ = 1080720
      ∧ frameToLabel .r2997 1799 = ⟨0, 0, 59, 29⟩ ∧ frameToLabel .r2997 1800 = ⟨0, 1, 0, 2⟩ := by decide

/-- R136, the examples. -/
theorem test_effective_counts :
    effectiveFrames .r2997 500 10 = 15 ∧ effectiveFrames .r2997 120 4 = 4 ∧ effectiveFrames .r25 500 0 = 13
      ∧ effectiveFrames .r25 20 3 = 3 ∧ effectiveFrames .r5994 20000 0 = 255 := by decide

/-- R215: the CRC of a HOLD request. -/
theorem test_crc_of_hold : crcBytes [0x23#8, 0x00#8] = [0x4E#8, 0xBA#8] := by decide +kernel

/-- Section 11.7: the check of the label message for 10:00:00;00 at rate 1. -/
theorem test_label_check :
    checkByte [0xE7#8, 0x0A#8, 0#8, 0#8, 0#8, 1#8, 1#8] = 0x0D#8 := by decide

/-- R109: a second of overrun, and the largest value. -/
theorem test_texts :
    minutesText ⟨0x2B#8, 1⟩ = [0x2B#8, 0x30#8, 0x30#8, 0x3A#8, 0x30#8, 0x31#8]
      ∧ minutesText ⟨0x20#8, 9000⟩ = [0x39#8, 0x39#8, 0x3A#8, 0x35#8, 0x39#8] := by decide

/-- R149: RUN of number 1234 on channel 3. -/
theorem test_command_frame :
    commandFrame .run 1234 3 = [0x52#8, 0x04#8, 0xD2#8, 0x03#8, 0xD5#8] := by decide

/-! ### Small states -/

/-- A request waits alone in the request FIFO. -/
def asked (code : Byte) (body : List Byte) (s : State) : State :=
  { s with link := { s.link with requests := [⟨.good, code, body⟩] } }

/-- The state it is judged on. -/
def judged (code : Byte) (body : List Byte) (s : State) : State := takeHead [] (asked code body s)

/-- An item of slug "A"; flag bits 0 to 2 are FLOAT, AUTO and JUNCTION. -/
def item (id pd flags target : Nat) (st : ItemState) : Item :=
  { newItem ⟨id, 0, 0, pd, flags, flags / 4, target, [0x41#8], []⟩ with state := st }

/-- RUN 7 on port 4 at the item's start, in a state. -/
def run7 (st : ElementState) : Element where
  tag := 1
  action := .serial .run 4 7
  anchor := .fromStart
  offset := 0
  state := st
  cause := none
  lateness := none

/-- A store in IDLE: item 1 stands by, item 2 waits. -/
def idleShow : State :=
  { State.reset with items := [{ item 1 5 0 0 .standby with elements := [run7 .idle] }, item 2 5 0 0 .pending] }

/-- A running show at CFN 100: AUTO item 1 on air since 95, items from 2 on as given. -/
def onAir (more : List Item) : State :=
  { State.reset with
    rtu := { State.reset.rtu with cfn := 100 }
    items := { item 1 5 2 0 .onair with airFrame := some 95 } :: more
    seq := { State.reset.seq with mode := .running, cursor := some 1 } }

def standing : State := onAir [item 2 5 0 0 .standby]

/-- The tick under way stands at a step of R72. -/
def atPhase (p : TickPhase) (s : State) : State :=
  { s with tick := { unfinished := true, phase := p, begun := false, onairBefore := some 1, scanLeft := true, moment := 0 } }

/-- Port 4 with profile 0 in a state. -/
def port (st : PortState) : Port := { resetPort with state := st, profile := some 0 }

def withPort (p : Fin 16) (r : Port) (s : State) : State := { s with ports := s.ports.set p r }

/-- A port that waits for the reply to the RUN 7 of item 1. -/
def waiting : Port :=
  { port .await with command := some { verb := .run, number := 7, issue := 98, deadline := 100, element := some (1, 1) } }

/-- Item 1 on air with its RUN 7 issued on port 4. -/
def sent (r : Port) : State :=
  withPort 4 r { onAir [] with items := [{ item 1 5 2 0 .onair with
    airFrame := some 95, elements := [run7 .issued], context := some ⟨95, 100⟩ }] }

/-- RUN 7 of item 1 in the queue, due at `issue`. -/
def queued (issue : Nat) : ArmEntry where
  story := 1
  tag := 1
  port := some 4
  verb := .serial .run
  effect := issue
  issue := issue
  seq := 0
  deferred := false

/-- One element of item 1 on air, with its entry in the queue and the due scan still to be made. -/
def armedWith (e : Element) (q : ArmEntry) : State :=
  withPort 4 (port .ready) (atPhase .finished { onAir [] with
    items := [{ item 1 5 2 0 .onair with airFrame := some 95, elements := [e], context := some ⟨95, 100⟩ }]
    sched := { queue := [q], counter := 1 } })

def armedShow (issue : Nat) : State := armedWith (run7 .armed) (queued issue)

def cue (expiry : Option Nat) : Cue := ⟨[0x41#8], .control, 1, 5, expiry⟩

def withDisplay (r : Display) (s : State) : State := { s with displays := s.displays.set 0 r }

def withInput (r : PanelInput) (s : State) : State := { s with inputs := s.inputs.set 0 r }

/-- An input with an edge due to LOW. -/
def pressed (f : InputFunction) (pol : Polarity) : PanelInput :=
  { resetInput with function := f, polarity := pol, lastSample := some .low, edgeDue := true }

/-- The reference keeps ticks in PRESENT mode, with an announcement and a lock record. -/
def refState (l : LockState) (m : PulseMode) (a : Option Nat) (count : Nat) (offset : Int) : State :=
  { State.reset with rtu := { State.reset.rtu with
    cfn := 99, lock := l, mode := m, announced := a, disagreements := count, offset := offset } }

/-- The link takes frames. -/
def listening (l : Link) : State := { State.reset with link := { l with awaitingCsHigh := false } }

def fullRequests : Link := { State.reset.link with requests := List.replicate 4 ⟨.good, 0x53#8, []⟩ }

/-- The state after a command. -/
def after (c : Instr) (s : State) : State :=
  match exec c s with
  | .next t => t
  | .fault _ => s
  | .refused _ => s

/-- A step answers a next state that passes. -/
def answers (o : Host.Outcome State Fault Refusal) (p : State → Bool) : Bool :=
  match o with
  | .next t => p t
  | .fault _ => false
  | .refused _ => false

/-! ### Single steps -/

/-- R2: the frame after the last of the day is 0. -/
theorem test_tick_at_midnight :
    answers (exec (.oscillatorTick 0xFF#8) { State.reset with rtu := { State.reset.rtu with cfn := 2159999 } })
      (fun t => t.rtu.cfn == 0) = true := by decide +kernel

/-- R161, R174, R18: the first unit on a line after reset is CLEAR, and the REF icon is on. -/
theorem test_first_unit_after_reset :
    answers (exec (.oscillatorTick 0xFF#8) State.reset) (fun t =>
      t.displays[(0 : Fin 4)].flight == some ⟨.clear, 1, false⟩ && t.displays[(0 : Fin 4)].target.icons == 0x40#8)
      = true := by decide +kernel

/-- R200: the HOLD frame of section 11.2 joins the request FIFO. -/
theorem test_hold_frame :
    answers (exec (.requestFrame (.ends [0x23#8, 0x00#8, 0x4E#8, 0xBA#8])) (listening State.reset.link))
      (fun t => decide (t.link.requests = [⟨.good, 0x23#8, []⟩])) = true := by decide +kernel

/-- R203, R197: the empty answer, behind a status byte with STICKY_SET. -/
theorem test_empty_fetch :
    answers (exec (.fetchResponse (.ends 5)) (listening State.reset.link))
      (fun t => t.link.output == [0x10#8, 0#8, 0#8, 0x1D#8, 0x0F#8, 0#8]) = true := by decide +kernel

/-- R78: the AUTO item ends at its planned end and the STANDBY enters air there. -/
theorem test_auto_follow :
    answers (exec .autoFollow (atPhase .follow standing)) (fun t =>
      (findItem t 1).any (fun i => i.state == .done && i.endFrame == some 100)
        && (findItem t 2).any (fun i => i.state == .onair && i.airFrame == some 100)) = true := by decide +kernel

/-- R147, R149: a due RUN 7 on channel 0 leaves as a command frame, with its reply deadline 5 frames on. -/
theorem test_due_run :
    answers (exec .dueScan (armedShow 98)) (fun t =>
      t.ports[(4 : Fin 16)].transmit == [0x52#8, 0#8, 7#8, 0#8, 0xA7#8]
        && (t.ports[(4 : Fin 16)].command.map Outstanding.deadline) == some 105) = true := by decide +kernel

/-- R154: the third failure in a row puts the port in FAULT. -/
theorem test_third_failure :
    answers (exec (.replyTimeout 4) (sent { waiting with failures := 2 })) (fun t =>
      t.ports[(4 : Fin 16)].state == .fault && portAlarm t) = true := by decide +kernel

/-- R203: a response that joins behind the end of the first byte is not this fetch's. -/
theorem test_fetch_settled_by_its_type :
    let s := after (.fetchResponse .typed) (listening State.reset.link)
    answers (exec (.fetchResponse (.ends 5)) (pushResponse 0x53#8 [0#8] s)) (fun t =>
      t.link.output == [0x10#8, 0#8, 0#8, 0x1D#8, 0x0F#8, 0#8] && t.link.responses.length == 1) = true := by
  decide +kernel

/-- R197: RESP_READY set behind the fall of SPI_CS_N is not in this frame's status byte. -/
theorem test_status_of_the_fall :
    let s := after (.requestFrame .begins) (listening State.reset.link)
    answers (exec (.requestFrame (.ends [0x23#8, 0x00#8, 0x4E#8, 0xBA#8])) (pushResponse 0x53#8 [0#8] s)) (fun t =>
      t.link.output == [0x10#8, 0#8, 0#8, 0#8, 0#8] && t.link.requests.length == 1) = true := by decide +kernel

/-- R54: a CUE_TEXT whose hold is neither stored nor selected is BAD_VALUE; R30: a RUN made a LOAD must carry its port
and payload in the same request, and a PULSE that carries a serial port is BAD_PORT. -/
theorem test_amend_checks :
    let kind (k : Nat) : ElementFields := ⟨some k, none, none, none, none, none, none⟩
    let amend (k : Kind) (f : ElementFields) := actionFailure (buildAction k f (heldFor k (run7 .idle)))
    amend .cueText (kind 5) = some .badValue ∧ amend (.serial .load) (kind 1) = some .badValue
      ∧ amend (.serial .load) { kind 1 with port := some 5, payload := some (.number 9) } = none
      ∧ amend (.serial .run) (kind 2) = none ∧ amend .pulse { kind 4 with port := some 5 } = some .badPort := by
  decide +kernel

/-- R185: after a SHOW_CLEAR an OVERUNDER field shows spaces, at its render and at a walk completion behind it. -/
theorem test_show_clear_blanks_overunder :
    let s0 : State := { idleShow with engine := { State.reset.engine with nextJunction := some ⟨2, 100, 50⟩ } }
    let f : LayoutField := ⟨.overUnder, 0, 6, []⟩
    let t := after .showClear (asked 0x1B#8 [] s0)
    fieldCodes s0 resetDisplay f = [0x2D#8, 0x30#8, 0x30#8, 0x3A#8, 0x30#8, 0x32#8] ∧ fieldCodes t resetDisplay f = List.replicate 6 0x20#8
      ∧ fieldCodes (after .walkCompletion t) resetDisplay f = List.replicate 6 0x20#8 := by decide +kernel

/-- R79: an item inserted under the id of one retired since the walk is not tested in its place. -/
theorem test_retired_item_leaves_the_path :
    let s : State := { idleShow with engine := { State.reset.engine with path := [1, 2], pathLength := 2 } }
    answers (exec .itemRetire (asked 0x13#8 (beBytes 4 2) s)) (fun t =>
      t.engine.path == [1] && t.engine.pathLength == 2
        && (capturePath { t with items := t.items ++ [item 2 5 4 0 .pending] }).map Item.id == [1]) = true := by
  decide +kernel

/-- R10: the oscillator ticks at P, so no byte of a display line carries the counter beyond it. -/
theorem test_display_byte_beyond_period :
    let s := withDisplay { resetDisplay with flight := some ⟨.pos 0 3, 2, false⟩ } State.reset
    answers (exec (.displayByte 0 1080001 .low) s) (fun t => t == s) = true
      ∧ answers (exec (.displayByte 0 1080000 .low) s) (fun t => t.rtu.counter == 1080000) = true := by decide +kernel

/-- R183, R213: the section of an empty row 1 is its field count alone. -/
theorem test_row_one_section :
    answers (exec .displayRead (asked 0x47#8 [0#8, 2#8] (withDisplay { resetDisplay with row1 := [] } State.reset))) (fun t =>
      t.link.responses.map Response.body == [[0#8, 0#8, 2#8, 0#8, 0#8, 0#8, 0#8]]) = true := by decide +kernel

/-- R10: in ABSENT mode the oscillator has ticked at P, so no pulse comes beyond it. -/
theorem test_absent_pulse_beyond_period :
    answers (exec (.refFramePulse 1080001 0xFF#8) State.reset) (fun t => t.rtu.cfn == 0 && t.rtu.counter == 0)
      = true := by decide +kernel

/-! ### Witnesses: hypotheses of the statements met together, clause by clause -/

theorem witness_StepTakesFrontCommand :
    { State.reset with pending := [.ident, .oscillatorTick 0] }.pending = .ident :: [.oscillatorTick 0] := by decide

/-- Every invariant holds in a running show whose next command is a TAKE, and the step answers. -/
theorem witness_StepKeepsInvariants :
    let s := { asked 0x20#8 [] standing with pending := [.takeRequest] }
    LinkBounded s ∧ QueueBounded s ∧ CuesBounded s ∧ StoreBounded s ∧ IdsUnique s ∧ SlotsOk s ∧ CountersOk s
      ∧ PortsOk s ∧ answers (step s) (fun t => (takingItem t).isSome) = true := by decide +kernel

/-- Queue and elements agree with an entry in the queue, and with an attached command. -/
theorem witness_StepKeepsQueueBound :
    (∀ s ∈ [armedShow 98, sent waiting], IdsUnique s ∧ ArmedOk s)
      ∧ answers (step { armedShow 98 with pending := [.dueScan] }) (fun t => t.sched.queue.isEmpty) = true := by
  decide +kernel

theorem witness_RateAndResetSeenChangers :
    answers (exec .rateSet (asked 0x01#8 [3#8] State.reset)) (fun t => t.rtu.rate != .r25) = true
      ∧ State.reset.link.resetSeen = true
      ∧ answers (exec .statusClear (asked 0x51#8 [0x04#8, 0#8] State.reset)) (fun t => !t.link.resetSeen) = true := by
  decide +kernel

theorem witness_OnlyEditsChangeRundown :
    answers (exec .itemRetire (asked 0x13#8 (beBytes 4 2) idleShow)) (fun t => decide (rundown t ≠ rundown idleShow))
      = true := by decide +kernel

theorem witness_RefusedRequestsChangeNothing :
    Waiting 0x20#8 [] [] (asked 0x20#8 [] State.reset)
      ∧ answers (exec .takeRequest (asked 0x20#8 [] State.reset)) (fun t =>
        decide (t ≠ asked 0x20#8 [] State.reset) && decide (t.link.responses = [⟨0x20#8, [0x08#8]⟩])) = true
      ∧ Waiting 0x54#8 [0#8] [] (asked 0x54#8 [0#8] State.reset) := by decide +kernel

theorem witness_RequestsWaitForRoom :
    Config.responseFifo ≤ (listening { State.reset.link with
        responses := List.replicate 4 ⟨0x53#8, [0#8]⟩ }).link.responses.length
      ∧ (asked 0x54#8 [] State.reset).link.requests = ⟨.good, 0x54#8, []⟩ :: []
      ∧ Config.responseFifo ≤ (asked 0x54#8 [0#8] { State.reset with link := { State.reset.link with
        responses := List.replicate 4 ⟨0x53#8, [0#8]⟩ } }).link.responses.length
      ∧ (asked 0x54#8 [0#8] State.reset).link.requests = ⟨.good, 0x54#8, [0#8]⟩ :: [] := by decide

theorem witness_LabelOfFrameConvertsBack : (2589407 : Frame) < Rate.r2997.day := by decide

theorem witness_FrameOfLabelConvertsBack : labelValid .r5994 ⟨23, 59, 59, 59⟩ = true := by decide

/-- Below half a day, and at half a day exactly. -/
theorem witness_SignedDifferenceIsShorterWay :
    (1080000 : Frame) < Rate.r25.day ∧ 2 * (((1079999 : Int) - (0 : Nat)) % Rate.r25.day) < Rate.r25.day
      ∧ (Rate.r25.day : Int) ≤ 2 * (((1080000 : Int) - (0 : Nat)) % Rate.r25.day) := by decide

/-- Every kind of tick at the ends of its range, and a pulse below P/2, at 3P/2 and beyond P. -/
theorem witness_TicksWithoutAnnouncement :
    let p := refState .locked .present none 0 0
    State.reset.rtu.announced = none ∧ p.rtu.announced = none
      ∧ tickMade (.refFramePulse 540000 0) p = some (.present, 0) ∧ tickMade (.refFramePulse 1619999 0) p = some (.present, 0)
      ∧ tickMade (.substituteTick 0) p = some (.absent, 0) ∧ tickMade (.oscillatorTick 0) State.reset = some (.absent, 0)
      ∧ tickMade (.refFramePulse 540000 0) State.reset = some (.present, 0)
      ∧ tickMade (.refFramePulse 1080000 0) State.reset = some (.present, 0)
      ∧ p.rtu.mode = .present ∧ State.reset.rtu.mode = .absent ∧ p.rtu.counter + 539999 < Rate.r25.halfPeriod
      ∧ Rate.r25.longPeriod ≤ p.rtu.counter + 1620000 ∧ Rate.r25.period < State.reset.rtu.counter + 1080001 := by decide

/-- UNLOCKED; agreement; the third of one offset; the second; the first; a new offset. -/
theorem witness_TicksWithAnnouncement :
    (refState .unlocked .present (some 500) 0 0).rtu.lock = .unlocked
      ∧ (refState .locked .present (some 100) 0 0).rtu.announced = some ((99 + 1) % 2160000)
      ∧ (refState .freewheel .present (some 103) 2 3).rtu.offset = signedDiff 2160000 103 100
      ∧ (refState .freewheel .present (some 103) 1 3).rtu.disagreements = 1
      ∧ (refState .locked .present (some 103) 0 0).rtu.disagreements = 0
      ∧ (refState .freewheel .present (some 103) 1 4).rtu.offset ≠ signedDiff 2160000 103 100
      ∧ tickMade (.refFramePulse 1080000 0) (refState .unlocked .present (some 500) 0 0) = some (.present, 0)
      ∧ tickMade (.substituteTick 0) (refState .freewheel .present (some 103) 2 3) = some (.absent, 0)
      ∧ tickMade (.oscillatorTick 0) (refState .freewheel .absent (some 103) 1 3) = some (.absent, 0) := by decide

theorem witness_LabelMessagesAnnounce :
    State.reset.rtu.receiver = none
      ∧ (after (.refDataMessage [0xE7#8]) State.reset).rtu.receiver = some [0xE7#8] ∧ labelValid .r25 ⟨23, 59, 59, 24⟩ = true
      ∧ (0x00#8).getLsbD 0 = Rate.r25.dropFrame := by decide +kernel

/-- From UNLOCKED with the work of the tick before still open, and at a third disagreement in ABSENT mode. -/
theorem witness_JumpsShiftPortFrames :
    let s := atPhase .airFrame (refState .unlocked .present (some 500) 0 0)
    let d := refState .freewheel .absent (some 103) 2 3
    s.tick.unfinished = true ∧ s.rtu.announced = some 500 ∧ s.rtu.lock = .unlocked
      ∧ tickMade (.refFramePulse 1619999 0) s = some (.present, 0)
      ∧ d.tick.unfinished = false ∧ d.rtu.announced = some 103 ∧ 103 ≠ (d.rtu.cfn + 1) % d.rtu.rate.day
      ∧ d.rtu.disagreements = 2 ∧ d.rtu.offset = signedDiff d.rtu.rate.day 103 ((d.rtu.cfn + 1) % d.rtu.rate.day)
      ∧ tickMade (.oscillatorTick 0) d = some (.absent, 0) := by decide

/-- A level that agrees, one short of the count, and one that completes it; with the tick before open and complete. -/
theorem witness_TicksSampleInputs :
    tickMade (.oscillatorTick 0xFE#8) State.reset = some (.absent, 0xFE#8) 
      ∧ tickMade (.oscillatorTick 0xFE#8) (atPhase .airFrame State.reset) = some (.absent, 0xFE#8)
      ∧ lineLevel 0xFF#8 0 = State.reset.inputs[(0 : Fin 8)].level
      ∧ lineLevel 0xFE#8 0 ≠ State.reset.inputs[(0 : Fin 8)].level
      ∧ State.reset.inputs[(0 : Fin 8)].candidate < State.reset.inputs[(0 : Fin 8)].debounce
      ∧ { resetInput with candidate := 2 }.candidate = { resetInput with candidate := 2 }.debounce := by decide

theorem witness_RateSetRestates :
    Waiting 0x01#8 (beBytes 1 Rate.r5994.code) [] (asked 0x01#8 (beBytes 1 3) State.reset)
      ∧ (judged 0x01#8 (beBytes 1 3) State.reset).seq.mode = .idle
      ∧ (judged 0x01#8 (beBytes 1 3) State.reset).items = [] := by decide +kernel

/-- A body of 250 bytes, the last free place of the FIFO, and each part of a frame before its rise. -/
theorem witness_GoodRequestsJoinFifo :
    let s := listening { State.reset.link with requests := List.replicate 3 ⟨.good, 0x53#8, []⟩ }
    let fallen := after (.requestFrame .begins) s
    let typed := after (.requestFrame .typed) fallen
    s.link.awaitingCsHigh = false ∧ s.resetHeld = false ∧ (List.replicate 250 (0#8)).length ≤ 250
      ∧ s.link.requests.length < Config.requestFifo ∧ linkListens s = true ∧ s.link.frame = none
      ∧ (currentFrame s).typed = none ∧ linkListens fallen = true ∧ fallen.link.frame = some ⟨statusByte s, none⟩
      ∧ (currentFrame typed).typed = some ⟨0x5A#8, [], false⟩ ∧ linkListens typed = true := by decide +kernel

/-- Too short; a full FIFO; 251 as length; a body one byte short; a wrong check; an odd frame. -/
theorem witness_BadFramesAreMarked :
    linkListens (listening fullRequests) = true ∧ ([0x53#8] : List Byte).length < 2
      ∧ Config.requestFifo ≤ (listening fullRequests).link.requests.length
      ∧ (listening State.reset.link).link.requests.length < Config.requestFifo ∧ 250 < (251#8).toNat
      ∧ ([0#8, 0#8] : List Byte).length ≠ (1#8).toNat + 2
      ∧ [0x4E#8, 0xBB#8] ≠ crcBytes (0x23#8 :: 0#8 :: [])
      ∧ (Instr.discardedFrame 0x5A#8 (.ends 9)).wellFormed = true ∧ (Instr.discardedFrame 0x77#8 (.ends 8)).wellFormed = true
      ∧ (Instr.discardedFrame 0xA1#8 (.ends 7)).wellFormed = true ∧ (Instr.discardedFrame 0xA1#8 (.ends 9)).wellFormed = true
      ∧ (currentFrame (listening fullRequests)).typed = none ∧ (listening fullRequests).link.responses = []
      ∧ (listening fullRequests).link.notices = [] ∧ (Instr.discardedFrame 0xA2#8 (.ends 9)).wellFormed = true
      ∧ (listening { State.reset.link with responses := [⟨0x53#8, [0#8]⟩] }).link.responses = ⟨0x53#8, [0#8]⟩ :: []
      ∧ (listening { State.reset.link with notices := [⟨.inputEdge, 1, 0, 0, 2, 1⟩] }).link.notices
        = ⟨.inputEdge, 1, 0, 0, 2, 1⟩ :: []
      ∧ (currentFrame (after (.fetchResponse .typed) (listening fullRequests))).typed
        = some ⟨0xA1#8, emptyAnswer, false⟩ := by decide +kernel

theorem witness_FetchesReturnHeads :
    let s := listening { State.reset.link with
      responses := [⟨0x53#8, [0#8]⟩], notices := [⟨.inputEdge, 1, 0, 0, 2, 1⟩] }
    linkListens s = true ∧ s.link.responses = ⟨0x53#8, [0#8]⟩ :: []
      ∧ s.link.notices = ⟨.inputEdge, 1, 0, 0, 2, 1⟩ :: []
      ∧ (listening State.reset.link).link.responses = [] ∧ (listening State.reset.link).link.notices = []
      ∧ (currentFrame s).typed = none
      ∧ (currentFrame (after (.fetchResponse .typed) s)).typed = some ⟨0xA1#8, answerBytes 0x53#8 [0#8], true⟩
      ∧ (currentFrame (after (.fetchNotice .typed) (listening State.reset.link))).typed
        = some ⟨0xA2#8, emptyAnswer, false⟩ := by decide +kernel

theorem witness_FaultyEntriesAnswered :
    let s (m : EntryMark) := listening { State.reset.link with requests := [⟨m, 0x04#8, []⟩] }
    (s .crcError).link.requests = ⟨.crcError, 0x04#8, []⟩ :: [] ∧ (s .badLength).link.requests.length = 1
      ∧ (s .good).link.responses.length < Config.responseFifo ∧ (0x04#8 : Byte) ∉ requestCodes := by decide

theorem witness_IdentAnswersInEveryState :
    Waiting 0x53#8 [] [] (asked 0x53#8 [] standing) ∧ Waiting 0x53#8 [1#8] [] (asked 0x53#8 [1#8] standing) := by
  decide +kernel

/-- The highest set of the eleven flags and the lowest outside them. -/
theorem witness_StatusRequests :
    Waiting 0x50#8 [] [] (asked 0x50#8 [] State.reset)
      ∧ Waiting 0x51#8 (beBytes 2 2047) [] (asked 0x51#8 [0x07#8, 0xFF#8] State.reset)
      ∧ Waiting 0x52#8 (beBytes 2 2047) [] (asked 0x52#8 [0x07#8, 0xFF#8] State.reset)
      ∧ Waiting 0x51#8 (beBytes 2 2048) [] (asked 0x51#8 [0x08#8, 0#8] State.reset)
      ∧ Waiting 0x52#8 (beBytes 2 65535) [] (asked 0x52#8 [0xFF#8, 0xFF#8] State.reset) := by decide

theorem witness_ResetsEmptyTheStore :
    (asked 0x54#8 [] idleShow).link.requests = ⟨.good, 0x54#8, []⟩ :: [] := by decide

/-- The reads at the edges of their ranges: the last label and frame of the day, a start at the length, and
counts 1 and 8. -/
theorem witness_ShowReadsOnlyAnswer :
    labelValid (judged 0x03#8 (0#8 :: labelBytes ⟨23, 59, 59, 24⟩) idleShow).rtu.rate ⟨23, 59, 59, 24⟩ = true
      ∧ 2159999 < (judged 0x03#8 (1#8 :: beBytes 3 2159999) idleShow).rtu.rate.day
      ∧ (findItem (judged 0x18#8 (beBytes 4 1) idleShow) 1).isSome = true
      ∧ (findElement (judged 0x19#8 (beBytes 4 1 ++ beBytes 1 1) idleShow) 1 1).isSome = true
      ∧ 2 ≤ (judged 0x1A#8 (beBytes 2 2 ++ beBytes 1 8) idleShow).items.length
      ∧ 1 ≤ (judged 0x29#8 (beBytes 1 0 ++ beBytes 2 1 ++ beBytes 1 1)
        { armedShow 101 with tick := State.reset.tick }).sched.queue.length
      ∧ (waitingOrder (judged 0x29#8 (beBytes 1 1 ++ beBytes 2 0 ++ beBytes 1 8) idleShow)).length = 0
      ∧ Waiting 0x27#8 [] [] (asked 0x27#8 [] idleShow) ∧ Waiting 0x28#8 [] [] (asked 0x28#8 [] idleShow)
      ∧ Waiting 0x02#8 [] [] (asked 0x02#8 [] idleShow) := by decide +kernel

/-- The last number in range and the first out of it. -/
theorem witness_DeviceReadsOnlyAnswer :
    Waiting 0x31#8 (beBytes 1 7) [] (asked 0x31#8 [7#8] State.reset)
      ∧ Waiting 0x37#8 (beBytes 1 16) [] (asked 0x37#8 [16#8] State.reset)
      ∧ Waiting 0x47#8 (beBytes 1 3 ++ beBytes 1 4) [] (asked 0x47#8 [3#8, 4#8] State.reset)
      ∧ Waiting 0x49#8 (beBytes 1 8) [] (asked 0x49#8 [8#8] State.reset) := by decide

theorem witness_RequestBodiesReadBack :
    (⟨256 ^ 4 - 1, 0, 255, 256 ^ 3 - 1, 255, 255, 256 ^ 3 - 1, List.replicate 255 0#8, []⟩ : InsertBody).fits
      ∧ (⟨1, 255, 0⟩ : AddHead).tag < 256 ∧ (List.replicate 255 (0#8)).length < 256
      ∧ (⟨1, some [0x41#8], none, some 255, none, some 1, none, some 0, some (256 ^ 3 - 1)⟩ : AmendBody).fits
      ∧ fitsIn 2 (some 65535) ∧ fitsIn 1 none ∧ (Payload.number 65535).fits ∧ (Payload.text [0x41#8]).fits
      ∧ (⟨some 2159999, none, some 50⟩ : PlanBody).fits
      ∧ (⟨3, 255, [⟨0, 0, 20, [0x41#8]⟩, ⟨7, 255, 255, []⟩], []⟩ : LayoutBody).fits := by decide +kernel

/-- At the top, and behind an item. -/
theorem witness_InsertPlacesItem :
    let b (place : Nat) : InsertBody := ⟨7, place, 15, 1048575, 4, 1, 2159999, [0x41#8], []⟩
    let s0 (place : Nat) := judged 0x10#8 (insertBytes (b place)) idleShow
    readInsert (insertBytes (b 0)) = some (b 0) ∧ readInsert (insertBytes (b 2)) = some (b 2)
      ∧ insertInRange (s0 2).day (b 2) = true ∧ placeExists (s0 0) 0 = true ∧ placeExists (s0 2) 2 = true
      ∧ findItem (s0 2) 7 = none ∧ insertConsistent (b 2) = true ∧ (s0 2).items.length < Config.itemSlots := by
  decide +kernel

theorem witness_AmendChangesSelectedFields :
    let body := beBytes 4 2 ++ [0x18#8] ++ beBytes 3 9 ++ [1#8]
    let b : AmendBody := ⟨2, none, none, none, some 9, some 1, none, none, none⟩
    let s0 := judged 0x11#8 body idleShow
    readAmend body = some (0x18, b) ∧ amendInRange s0.day 0x18 b = true ∧ (findItem s0 2).isSome = true
      ∧ (findItem s0 2).all (amendConsistent b) = true ∧ (findItem s0 2).all (amendAllowed b) = true := by
  decide +kernel

theorem witness_MovePlacesItemAgain :
    let s0 := judged 0x12#8 (beBytes 4 2 ++ beBytes 4 0) idleShow
    (findItem s0 2).any Item.movable = true ∧ placeExists s0 0 = true ∧ placeExists s0 1 = true := by decide +kernel

theorem witness_RetireRemovesItem :
    let s0 := judged 0x13#8 (beBytes 4 1) idleShow
    IdsUnique s0 ∧ (findItem s0 1).any Item.movable = true := by decide +kernel

theorem witness_ItemResetReturnsItem :
    let s (st : ItemState) : State := { State.reset with items := [item 1 5 0 0 st] }
    (findItem (judged 0x14#8 (beBytes 4 1) (s .done)) 1).any (fun i => i.state == .done) = true
      ∧ (findItem (judged 0x14#8 (beBytes 4 1) (s .dropped)) 1).any (fun i => i.state == .dropped) = true := by
  decide +kernel

/-- At the end of the list, and before a tag. -/
theorem witness_ElementAddEntersElement :
    let body (before : Nat) := addPulseBytes ⟨1, 2, before⟩ 3 1 10
    let s0 := judged 0x15#8 (body 1) idleShow
    readAdd (body 0) = some (⟨1, 2, 0⟩, ⟨some 4, some 3, none, some 1, some 10, none, none⟩)
      ∧ (readAdd (body 1)).isSome = true
      ∧ (⟨some 4, some 3, none, some 1, some 10, none, none⟩ : ElementFields).inRange = true
      ∧ (findElement s0 1 1).isSome = true ∧ findElement s0 1 2 = none
      ∧ buildAction .pulse ⟨some 4, some 3, none, some 1, some 10, none, none⟩ .empty = .ok (.pulse 3)
      ∧ elementsInUse s0 < Config.elementPool ∧ (findItem s0 1).any (fun i => i.context == none) = true := by
  decide +kernel

/-- In an item on air with an arm context, with room in the queue and without. -/
theorem witness_ElementAddArms :
    let body := addPulseBytes ⟨1, 2, 0⟩ 3 1 10
    let s0 := judged 0x15#8 body { armedShow 101 with tick := State.reset.tick }
    let full := judged 0x15#8 body { State.reset with
      items := (armedShow 101).items, sched := { queue := List.replicate 48 (queued 101), counter := 48 } }
    (findItem s0 1).any (fun i => i.state.near && i.context == some ⟨95, 100⟩) = true ∧ findElement s0 1 2 = none
      ∧ s0.sched.queue.length < Config.armQueue ∧ elementsInUse s0 < Config.elementPool
      ∧ (findItem full 1).any (fun i => i.state.near && i.context == some ⟨95, 100⟩) = true
      ∧ Config.armQueue ≤ full.sched.queue.length := by decide +kernel

theorem witness_ElementAmendAndRemove :
    let body := beBytes 4 1 ++ [1#8, 0x10#8] ++ beBytes 2 6
    let f : ElementFields := ⟨none, none, none, none, some 6, none, none⟩
    let s0 := judged 0x16#8 body idleShow
    readElementAmend body = some (⟨1, 1, 16⟩, f) ∧ f.inRange = true ∧ findElement s0 1 1 = some (run7 .idle)
      ∧ buildAction (f.kindOr (run7 .idle).action.kind) f (run7 .idle).fields = .ok (.serial .run 4 7)
      ∧ (findItem s0 1).all (fun i => editable i (run7 .idle)) = true
      ∧ editable (item 1 5 2 0 .onair) (run7 .issued) = false := by decide +kernel

/-- A change of kind to LOAD without its port, and to CUE_TEXT without its hold, be it by carrying all but one field;
the fields a kind does not have; a CUE_TEXT that becomes a RUN without a port stored; and a failed check. -/
theorem witness_ElementAmendOfKind :
    let body (kind : Byte) := beBytes 4 1 ++ [1#8, 1#8, kind]
    let f (kind : Nat) : ElementFields := ⟨some kind, none, none, none, none, none, none⟩
    let run := (run7 .idle).action.kind
    readElementAmend (body 1#8) = some (⟨1, 1, 1⟩, f 1) ∧ (f 1).inRange = true ∧ (f 3).inRange = true
      ∧ (f 5).inRange = true ∧ (f 1).kindOr run = .serial .load ∧ (f 3).kindOr run = .serial .stop
      ∧ (f 5).kindOr run = .cueText ∧ run = .serial .run ∧ (f 1).port = none ∧ (f 3).payload = none
      ∧ (f 5).hold.or (run7 .idle).fields.hold = none
      ∧ (⟨some 5, none, some 1, none, none, some (.text []), none⟩ : ElementFields).kindOr run = .cueText
      ∧ (⟨some 1, some 5, none, none, none, none, none⟩ : ElementFields).kindOr run = .serial .load
      ∧ ({ run7 .idle with action := .cueText 1#4 [0x41#8] 5 } : Element).fields.port = none
      ∧ (⟨none, none, some 1, none, none, none, none⟩ : ElementFields).kindOr run ≠ .cueText
      ∧ (⟨some 5, some 4, none, none, none, none, none⟩ : ElementFields).kindOr run = .cueText
      ∧ (⟨some 4, none, none, none, none, some (.number 1), none⟩ : ElementFields).kindOr run = .pulse
      ∧ buildAction run ⟨none, some 3, none, none, none, none, none⟩ (run7 .idle).fields = .error .badPort := by
  decide +kernel

theorem witness_ShowClearEmpties :
    (judged 0x1B#8 [] idleShow).seq.mode = .idle ∧ (judged 0x1B#8 [] standing).seq.mode ≠ .idle := by decide +kernel

/-- The guard of 5 frames runs at the fourth frame after an advance and no longer at the fifth. -/
theorem witness_GuardRuns :
    let s (la : Nat) := judged 0x20#8 [] { standing with seq := { standing.seq with lastAdvance := some la } }
    GuardRuns (s 96) ∧ ¬ GuardRuns (s 95) := by
  refine ⟨⟨96, rfl, by decide +kernel, by decide +kernel⟩, fun ⟨la, h, _, k⟩ => ?_⟩
  obtain rfl : 95 = la := Option.some.inj h
  exact absurd k (by decide +kernel)

/-- Each outcome of a TAKE; an accepted one with an IDLE element, and with an END-anchored entry on air. -/
theorem witness_TakeMakesStandbyTaking :
    let idle := item 2 5 0 0 .standby
    let armed := { armedWith { run7 .armed with anchor := .fromEnd } (queued 101) with tick := State.reset.tick }
    let s0 := judged 0x20#8 [] { armed with items := armed.items ++ [{ idle with elements := [run7 .idle] }] }
    s0.seq.lastAdvance = none ∧ takingItem s0 = none ∧ (standbyItem s0).any (fun i => !i.captured) = true
      ∧ IdsUnique s0 ∧ ArmedOk s0 ∧ (findElement s0 2 1).any (fun e => e.state == .idle) = true
      ∧ s0.sched.queue.length + 1 ≤ Config.armQueue ∧ onairId s0 = some 1
      ∧ s0.sched.queue.any (fun q => q.story == 1) = true
      ∧ (findElement s0 1 1).any (fun e => e.anchor == .fromEnd) = true
      ∧ takingId (judged 0x20#8 [] (onAir [{ item 2 5 0 0 .taking with airFrame := some 110 }])) = some 2
      ∧ standbyCaptured (judged 0x20#8 [] (onAir [{ item 2 5 4 200 .standby with captured := true }])) = true
      ∧ standbyItem (judged 0x20#8 [] (onAir [])) = none := by decide +kernel

theorem witness_NominationRequests :
    let s0 := judged 0x21#8 (beBytes 4 2) idleShow
    IdsUnique s0 ∧ SlotsOk s0 ∧ (findItem s0 2).any (fun i => i.state == .pending) = true
      ∧ standbyCaptured s0 = false ∧ s0.seq.nomination ≠ some 2
      ∧ (judged 0x21#8 (beBytes 4 2) { idleShow with seq := { idleShow.seq with nomination := some 2 } }).seq.nomination
        = some 2
      ∧ (judged 0x22#8 [] { idleShow with seq := { idleShow.seq with nomination := some 1 } }).seq.nomination = some 1
      ∧ (judged 0x22#8 [] idleShow).seq.nomination = none := by decide +kernel

theorem witness_HoldAndRelease :
    (judged 0x23#8 [] standing).seq.mode = .running
      ∧ (judged 0x24#8 [] { standing with seq := { standing.seq with mode := .holding } }).seq.mode = .holding
      ∧ (judged 0x23#8 [] idleShow).seq.mode = .idle
      ∧ (judged 0x24#8 [] { idleShow with seq := { idleShow.seq with mode := .ended } }).seq.mode = .ended := by
  decide +kernel

theorem witness_ShowStopIdlesShow :
    let s0 := judged 0x25#8 [] standing
    IdsUnique s0 ∧ SlotsOk s0 ∧ s0.seq.mode ≠ .idle ∧ (onairItem s0).isSome = true
      ∧ (judged 0x25#8 [] idleShow).seq.mode = .idle := by decide +kernel

theorem witness_ShowPlanSetsParameters :
    let body := [7#8] ++ beBytes 3 2159999 ++ beBytes 2 1500 ++ [50#8]
    let b : PlanBody := ⟨some 2159999, some 1500, some 50⟩
    readPlan body = some (7, b) ∧ planInRange (judged 0x26#8 body standing).day 7 b = true := by decide +kernel

theorem witness_TakingAirFrame :
    let s := atPhase .airFrame (onAir [{ item 2 5 0 0 .taking with airFrame := some 100 }])
    IdsUnique s ∧ SlotsOk s ∧ (settlePhases s).tick.phase = .airFrame ∧ s.due 100 = true
      ∧ (takingItem (settlePhases s)).any (fun i => i.airFrame == some 100) = true := by decide +kernel

/-- With an item between the two that is dropped, and a FLOAT one that is not. -/
theorem witness_JunctionTake :
    let s := atPhase .junction
      (onAir [item 3 5 0 0 .pending, item 4 5 1 0 .pending, { item 2 5 4 100 .standby with captured := true }])
    IdsUnique s ∧ SlotsOk s ∧ (settlePhases s).tick.phase = .junction ∧ s.due 100 = true
      ∧ (standbyItem (settlePhases s)).any (fun i => i.captured && i.target == some 100) = true
      ∧ Between s (item 1 5 2 0 .onair) (item 2 5 4 100 .standby) (item 3 5 0 0 .pending)
      ∧ (item 4 5 1 0 .pending).float = true := by decide +kernel

/-- With a STANDBY and without one. -/
theorem witness_AutoFollow :
    let s := atPhase .follow standing
    let e := atPhase .follow (onAir [])
    IdsUnique s ∧ SlotsOk s ∧ (settlePhases s).tick.phase = .follow
      ∧ (onairItem (settlePhases s)).any (fun i => i.auto && s.due (plannedEnd s i)) = true
      ∧ (settlePhases s).tick.onairBefore = onairId s ∧ (settlePhases s).seq.mode = .running ∧ takingItem s = none
      ∧ (standbyItem (settlePhases s)).any (fun n => !n.captured) = true
      ∧ IdsUnique e ∧ SlotsOk e ∧ (settlePhases e).tick.phase = .follow
      ∧ standbyItem (settlePhases e) = none := by decide +kernel

/-- Before the target, and at it. -/
theorem witness_Capture :
    let s (target : Nat) := atPhase .capture { onAir [item 2 5 4 target .pending] with
      engine := { State.reset.engine with path := [1, 2] } }
    let due (x : State) := x.due (subFrames x.rtu.rate.day (((captureCandidate x).bind Item.target).getD 0)
      (max (((captureCandidate x).map (takeLead x)).getD 0) x.seq.margin))
    IdsUnique (s 101) ∧ SlotsOk (s 101) ∧ (settlePhases (s 101)).tick.phase = .capture
      ∧ (captureCandidate (settlePhases (s 101))).any (fun i => !i.captured && i.target == some 101) = true
      ∧ due (settlePhases (s 101)) = true ∧ (s 101).due 101 = false ∧ takingItem (s 101) = none
      ∧ (settlePhases (s 100)).tick.phase = .capture ∧ due (settlePhases (s 100)) = true
      ∧ (s 100).due 100 = true := by decide +kernel

/-- With a junction on the path behind a PENDING item, and, in another show, one that is TAKING. -/
theorem witness_WalkCompletionWritesResults :
    let s := triggerWalk (onAir [item 2 5 0 0 .standby, item 3 5 0 0 .pending, item 4 5 4 2000 .pending])
    let k := triggerWalk (onAir [{ item 2 5 4 120 .taking with airFrame := some 110 }])
    s.engine.inFlight = true ∧ standing.engine.inFlight = false ∧ s.tick.unfinished = false
      ∧ captureDue (retimeAtCompletion (writeWalk s)) = none ∧ IdsUnique s ∧ SlotsOk s
      ∧ (runPath s).map Item.id = [1, 2, 3, 4] ∧ (runPath s).map Item.junction = [false, false, false, true]
      ∧ IdsUnique k ∧ SlotsOk k ∧ (runPath k).map Item.state = [.onair, .taking]
      ∧ (runPath (triggerWalk idleShow)).map Item.state = [.standby, .pending] := by decide +kernel

/-- A port without issues and without a group takes a RUN, and one that waits for a reply does not. -/
theorem witness_TakesByRule :
    TakesByRule (armedShow 98) 4 (armedShow 98).profiles[(0 : Fin 8)] (.serial .run)
      ∧ ¬ TakesByRule (withPort 4 waiting (armedShow 98)) 4 (armedShow 98).profiles[(0 : Fin 8)] (.serial .run) :=
  ⟨⟨rfl, nofun, fun _ => nofun, nofun, nofun⟩, fun h => absurd h.ready (by decide +kernel)⟩

/-- At the tolerance, and one frame beyond it; a PULSE, a CUE_TEXT, two entries of one port, an unbound port. -/
theorem witness_DueScanIssuesOrMisses :
    let s := armedShow 98
    let l := armedShow 97
    let contact := armedWith { run7 .armed with action := .pulse 0 } { queued 98 with port := some 0, verb := .pulse }
    let text := armedWith { run7 .armed with action := .cueText 0xF#4 [0x41#8] 5 }
      { queued 98 with port := none, verb := .cueText }
    s.tick.scanLeft = true ∧ s.sched.queue = [queued 98] ∧ s.due 98 = true ∧ waitingOrder s = []
      ∧ findElement s 1 1 = some (run7 .armed) ∧ s.ports[(4 : Fin 16)].profile = some 0
      ∧ signedDiff s.rtu.rate.day s.rtu.cfn 98 ≤ s.profiles[(0 : Fin 8)].lateTolerance
      ∧ (l.profiles[(0 : Fin 8)].lateTolerance : Int) < signedDiff l.rtu.rate.day l.rtu.cfn 97 ∧ waitingOrder l = []
      ∧ findElement contact 1 1 = some { run7 .armed with action := .pulse 0 } ∧ waitingOrder contact = []
      ∧ (withPort 0 (port .ready) contact).ports[(0 : Fin 16)].state = .ready
      ∧ contact.ports[(0 : Fin 16)].state = .unbound ∧ CuesBounded text ∧ waitingOrder text = []
      ∧ (1, 1) ≠ ({ queued 98 with tag := 2 }.story, { queued 98 with tag := 2 }.tag) := by decide +kernel

/-- An entry of item 1 in the queue. -/
def entryOf (tag issue : Nat) (a : Action) : ArmEntry :=
  { queued issue with tag, port := a.port, verb := a.kind }

/-- Item 1 on air: two due RUNs of port 4, one late on port 5, one on the unbound port 6, a due CUE_TEXT, a PULSE not
yet due, and a WAITING element. -/
def scanShow : State :=
  let run (p : Fin 16) : Action := .serial .run p 7
  let actions : List (Nat × Nat × Action) :=
    [(3, 97, run 5), (1, 98, run 4), (4, 98, run 6), (5, 98, .cueText 1#4 [0x41#8] 5), (2, 99, run 4), (6, 105, .pulse 0)]
  let armed := actions.map (fun x => { run7 .armed with tag := x.1, action := x.2.2 })
  withPort 5 (port .ready) { armedShow 98 with
    items := [{ item 1 5 2 0 .onair with
      airFrame := some 95, elements := armed ++ [{ run7 .waiting with tag := 7 }], context := some ⟨95, 100⟩ }]
    sched := { queue := actions.map (fun x => entryOf x.1 x.2.1 x.2.2), counter := 6 } }

theorem scanShow_armedOk : ArmedOk scanShow := by decide +kernel

theorem witness_DueScanOfManyEntries :
    IdsUnique scanShow ∧ ArmedOk scanShow ∧ scanShow.tick.scanLeft = true ∧ settleSteps scanShow = scanShow
      ∧ scanShow.due 105 = false ∧ scanShow.due 98 = true ∧ scanShow.ports[(6 : Fin 16)].state = .unbound
      ∧ (scanShow.profiles[(0 : Fin 8)].lateTolerance : Int) < signedDiff 2160000 100 97
      ∧ signedDiff 2160000 100 98 ≤ scanShow.profiles[(0 : Fin 8)].lateTolerance
      ∧ scanShow.sched.queue = [entryOf 3 97 (.serial .run 5 7)] ++ entryOf 1 98 (.serial .run 4 7)
        :: scanShow.sched.queue.drop 2
      ∧ scanShow.ports[(4 : Fin 16)].group = none ∧ scanShow.ports[(4 : Fin 16)].profile = some 0
      ∧ waitingOrder scanShow = [] ++ (1, { run7 .waiting with tag := 7 }) :: [] :=
  ⟨by decide +kernel, scanShow_armedOk, by decide +kernel⟩

/-- Two items, one on air and one STANDBY, whose 48 armed elements fill the queue, with one more waiting. -/
def fullShow : State :=
  let full : List Element := (List.range 32).map (fun k => { run7 .armed with tag := k + 1 })
  let entries (id n : Nat) : List ArmEntry := (List.range n).map (fun k => { queued 105 with story := id, tag := k + 1 })
  { armedShow 98 with
    items := [{ item 1 5 2 0 .onair with airFrame := some 95, elements := full, context := some ⟨95, 100⟩ },
      { item 2 5 0 0 .standby with
        elements := full.take 16 ++ [{ run7 .waiting with tag := 17 }], context := some ⟨100, 105⟩ }]
    sched := { queue := entries 1 32 ++ entries 2 16, counter := 48 } }

theorem fullShow_armedOk : ArmedOk fullShow := by decide +kernel

/-- Of those entries two stay, so the WAITING element is armed; with 48 entries none of which is due it waits on. -/
theorem witness_DueScanRoom :
    staying scanShow (after .dueScan scanShow) = 2 ∧ ArmedOk fullShow ∧ IdsUnique fullShow
      ∧ settleSteps fullShow = fullShow
      ∧ waitingOrder fullShow = [] ++ (2, { run7 .waiting with tag := 17 }) :: []
      ∧ Config.armQueue ≤ staying fullShow (after .dueScan fullShow) + 0 :=
  ⟨by decide +kernel, fullShow_armedOk, by decide +kernel⟩

/-- The last record of each kind, a port in service and one held, and values just out of range. -/
theorem witness_ProfileAndGroupSet :
    let numbers : List Nat := [0, 0, 0, 0, 0, 0, 200, 2, 80, 2, 2, 15]
    let body (k : Byte) := k :: (List.replicate 10 0#8 ++ [200#8, 2#8, 0#8, 80#8, 2#8, 2#8, 15#8])
    takeNumbers [1, 2, 1, 2, 1, 2, 1, 2, 1, 2, 1, 1, 1] (body 7#8) = some (7 :: numbers)
      ∧ (takeNumbers [1, 2, 1, 2, 1, 2, 1, 2, 1, 2, 1, 1, 1] (body 8#8)).map (fun l => l.headD 0) = some 8
      ∧ (profileGiven .r25 numbers).any (fun g => decide (g.channel ≤ 15)) = true
      ∧ profileBusy (withPort 4 (port .ready) State.reset) 0 = true ∧ profileBusy State.reset 7 = false
      ∧ (∀ p ∈ membersOf (withPort 4 { port .held with group := some 3 } State.reset) 3, p = 4)
      ∧ (∃ p ∈ membersOf (withPort 4 { port .ready with group := some 3 } State.reset) 3,
        (withPort 4 { port .ready with group := some 3 } State.reset).ports[p].state ≠ .held) := by decide +kernel

/-- A contact port with a group, a bound port, a full group, and an accepted bind. -/
theorem witness_PortBindInOrder :
    let six : State := { State.reset with ports := Vector.ofFn (fun p : Fin 16 =>
      if 5 ≤ p.val ∧ p.val ≤ 10 then { port .ready with group := some 1 } else resetPort) }
    Waiting 0x33#8 (beBytes 1 16 ++ beBytes 1 7 ++ beBytes 1 255) [] (asked 0x33#8 [16#8, 7#8, 255#8] State.reset)
      ∧ Waiting 0x33#8 (beBytes 1 4 ++ beBytes 1 0 ++ beBytes 1 1) [] (asked 0x33#8 [4#8, 0#8, 1#8] six)
      ∧ Config.groupMembers ≤ otherMembers six 4 1 ∧ otherMembers State.reset 4 1 < Config.groupMembers
      ∧ State.reset.ports[(4 : Fin 16)].state = .unbound
      ∧ six.ports[(5 : Fin 16)].state ≠ .unbound ∧ six.ports[(5 : Fin 16)].state ≠ .held := by decide +kernel

/-- A port in any state can wait for a hold, a release or an unbind. -/
theorem witness_PortHoldReleaseUnbind :
    Waiting 0x35#8 (beBytes 1 4) [] (asked 0x35#8 [4#8] (withPort 4 (port .ready) State.reset))
      ∧ (judged 0x35#8 [4#8] (withPort 4 waiting State.reset)).ports[(4 : Fin 16)].state = .await
      ∧ (judged 0x36#8 [4#8] (withPort 4 (port .fault) State.reset)).ports[(4 : Fin 16)].state = .fault
      ∧ (judged 0x34#8 [4#8] (withPort 4 (port .held) State.reset)).ports[(4 : Fin 16)].state = .held
      ∧ Waiting 0x36#8 (beBytes 1 16) [] (asked 0x36#8 [16#8] State.reset) := by decide +kernel

/-- AWAIT and HOLDING with an attached command, an armed item with room, and one without arm context. -/
theorem witness_ReplySettlesCommand :
    let s := sent waiting
    s.ports[(4 : Fin 16)].command = waiting.command ∧ waiting.command.bind Outstanding.element = some (1, 1)
      ∧ s.ports[(4 : Fin 16)].state = .await
      ∧ (sent { waiting with state := .holding }).ports[(4 : Fin 16)].state = .holding
      ∧ (findItem s 1).any Item.isArmed = true ∧ findElement s 1 1 = some (run7 .issued)
      ∧ s.sched.queue.length < Config.armQueue
      ∧ (findItem { s with items := [{ item 1 5 0 0 .done with elements := [run7 .issued] }] } 1).all
        (fun i => !i.isArmed) = true
      ∧ (sent (port .ready)).ports[(4 : Fin 16)].command = none
      ∧ (sent { waiting with command := waiting.command.map (fun c => { c with element := none }) }).ports[(4 : Fin 16)].command
        = some { verb := .run, number := 7, issue := 98, deadline := 100, element := none } := by decide +kernel

theorem witness_DeadlineAndPulseEnd :
    let s := sent { waiting with failures := 2 }
    s.ports[(4 : Fin 16)].command = waiting.command ∧ s.due 100 = true ∧ 98 ≠ s.rtu.cfn
      ∧ (withPort 0 { port .pulsing with pulseEnd := some 100, lastIssue := some 98 } s).ports[(0 : Fin 16)].pulseEnd
        = some 100 := by decide +kernel

/-- A layout whose fields fit and one whose last field leaves the row; each state of a display. -/
theorem witness_DisplayRequests :
    let body (width : Byte) := [0#8, 50#8, 1#8, 6#8, 12#8, width, 1#8, 7#8, 0#8, 20#8]
    (readLayout (body 8#8)).any (fun b => decide (b.interval = 50) && rowInRange b.row0 && rowInRange b.row1
        && rowFits b.row0 && rowFits b.row1) = true
      ∧ (readLayout (body 9#8)).any (fun b => rowInRange b.row0 && !rowFits b.row0) = true
      ∧ (∀ x ∈ List.replicate 8 31, x ≤ 31) ∧ ((readLayout (body 8#8)).map LayoutBody.display = some 0)
      ∧ (readLayout [4#8, 2#8, 0#8, 0#8]).any (fun b => decide (3 < b.display)) = true
      ∧ (readLayout [3#8, 51#8, 0#8, 0#8]).any (fun b => decide (50 < b.interval)) = true
      ∧ Waiting 0x41#8 (beBytes 1 3 ++ beBytes 1 7 ++ (List.replicate 8 32).flatMap (beBytes 1)) []
        (asked 0x41#8 ([3#8, 7#8] ++ List.replicate 8 32#8) State.reset)
      ∧ Waiting 0x42#8 (beBytes 1 3 ++ beBytes 1 2) [] (asked 0x42#8 [3#8, 2#8] State.reset)
      ∧ Waiting 0x45#8 (beBytes 1 4) [] (asked 0x45#8 [4#8] State.reset)
      ∧ (judged 0x45#8 [0#8] State.reset).displays[(0 : Fin 4)].state = .active
      ∧ (judged 0x46#8 [0#8] (withDisplay { resetDisplay with state := .blank, blankMark := true } State.reset)).displays[(0 : Fin 4)].state
        = .blank
      ∧ (judged 0x45#8 [0#8] (withDisplay { resetDisplay with state := .fault } State.reset)).displays[(0 : Fin 4)].state
        = .fault := by decide +kernel

/-- Room for a push and none, a head to acknowledge, to expire and to crawl. -/
theorem witness_CueListEvents :
    let full := withDisplay { resetDisplay with cues := List.replicate 4 (cue none) } State.reset
    let long : Cue := ⟨List.replicate 21 0x41#8, .control, 1, 0, none⟩
    let crawling := withDisplay { resetDisplay with cues := [long], nextCrawl := some 0 } State.reset
    Waiting 0x43#8 (pushBytes ⟨15, [0x41#8], 255, 65535⟩) [] (asked 0x43#8 (pushBytes ⟨15, [0x41#8], 255, 65535⟩) State.reset)
      ∧ (∀ d : Fin 4, State.reset.displays[d].cues.length < Config.cueList)
      ∧ Config.cueList ≤ full.displays[(0 : Fin 4)].cues.length
      ∧ (withDisplay { resetDisplay with cues := [cue (some 0)] } State.reset).displays[(0 : Fin 4)].cues = cue (some 0) :: []
      ∧ State.reset.due 0 = true ∧ State.reset.displays[(0 : Fin 4)].cues = []
      ∧ expiryDue crawling 0 = false ∧ crawling.displays[(0 : Fin 4)].nextCrawl = some 0 := by decide +kernel

/-- A wait of exactly 500 ms, a FAULT, a byte that waits for BUSY, and a unit with two bytes left. -/
theorem witness_DisplayLineEvents :
    let overdue : State := { withDisplay { resetDisplay with busyWait := some 0 } State.reset with
      tick := { State.reset.tick with moment := 13500000 } }
    let flying (left : Nat) (w : Bool) := withDisplay { resetDisplay with flight := some ⟨.pos 0 3, left, w⟩ } State.reset
    busyOverdue overdue 0 = true ∧ expiryDue overdue 0 = false ∧ crawlDue overdue 0 = false
      ∧ displayTick 0 (settleSteps State.reset) = State.reset ∧ State.reset.displays[(0 : Fin 4)].state ≠ .fault
      ∧ State.reset.displays[(0 : Fin 4)].flight = none ∧ State.reset.displays[(0 : Fin 4)].busyWait = none
      ∧ (withDisplay { resetDisplay with state := .fault } State.reset).displays[(0 : Fin 4)].flight = none
      ∧ (flying 3 true).displays[(0 : Fin 4)].flight = some ⟨.pos 0 3, 3, true⟩
      ∧ (flying 2 false).displays[(0 : Fin 4)].flight = some ⟨.pos 0 3, 2, false⟩
      ∧ (flying 2 false).displays[(0 : Fin 4)].busyWait = none
      ∧ (flying 2 false).rtu.counter + 1080000 ≤ oscillatorCount (flying 2 false)
      ∧ oscillatorCount (flying 2 false) < (flying 2 false).rtu.counter + 1080001 := by decide +kernel

theorem witness_InputSetConfigures :
    Waiting 0x48#8 (beBytes 1 0 ++ beBytes 1 InputFunction.ack.code ++ beBytes 1 3 ++ beBytes 1 Polarity.activeHigh.code ++ beBytes 1 15)
        [] (asked 0x48#8 [0#8, 3#8, 3#8, 1#8, 15#8] State.reset)
      ∧ ackDisplayFor .ack 3 = some 3 ∧ ackDisplayFor .take 255 = some 0
      ∧ (∀ b ∈ [(8, 0, 0, 0, 0), (7, 5, 0, 0, 0), (7, 4, 0, 2, 0), (7, 4, 0, 1, 16), (7, 3, 4, 1, 15)],
        let x : List Byte := beBytes 1 b.1 ++ beBytes 1 b.2.1 ++ beBytes 1 b.2.2.1 ++ beBytes 1 b.2.2.2.1
          ++ beBytes 1 b.2.2.2.2
        Waiting 0x48#8 x [] (asked 0x48#8 x State.reset)
          ∧ (7 < b.1 ∨ InputFunction.ofCode b.2.1 = none ∨ Polarity.ofCode b.2.2.2.1 = none ∨ 15 < b.2.2.2.2
            ∨ (InputFunction.ofCode b.2.1 = some .ack ∧ 3 < b.2.2.1))) := by decide +kernel

/-- An active edge for each function, and an inactive one. -/
theorem witness_EdgesPerformFunctions :
    (∀ f ∈ [InputFunction.nothing, .take, .hold, .ack, .report],
        activeEdgeDue f (withInput (pressed f .activeLow) standing).inputs[(0 : Fin 8)] = true)
      ∧ inactiveEdgeDue (withInput (pressed .take .activeHigh) standing).inputs[(0 : Fin 8)] = true
      ∧ standing.seq.lastAdvance = none ∧ takingItem standing = none ∧ standing.tick.begun = false
      ∧ standbyItem standing = some (item 2 5 0 0 .standby)
      ∧ standbyCaptured (onAir [{ item 2 5 4 200 .standby with captured := true }]) = true
      ∧ standbyItem (onAir []) = none
      ∧ takingItem (onAir [{ item 2 5 0 0 .taking with airFrame := some 110 }]) ≠ none
      ∧ (withDisplay { resetDisplay with cues := [cue none] } standing).displays[(0 : Fin 4)].cues = cue none :: [] := by
  decide +kernel

end Sys2Proof.Tests
end

