-- ==== Sys2Proof/Proofs/FrameTime.lean ====
section
/-! The label arithmetic of chapter 1 (R3, R5 to R7).  A label without its skipped values is a plain count of
frames; a count, and likewise a frame number, is a ten-minute stretch, a minute of it and a place in the minute,
and the two numbers of the same place belong together. -/

namespace Sys2Proof.Machine

/-! ### Labels and counts -/

/-- A label as a count of nominal frames, the skipped values among them (R6). -/
def Label.count (r : Rate) (l : Label) : Nat := (3600 * l.hh + 60 * l.mm + l.ss) * r.nominal + l.ff

/-- The label at a count (R7). -/
def labelAt (r : Rate) (c : Nat) : Label :=
  ⟨c / r.nominal / 3600 % 24, c / r.nominal / 60 % 60, c / r.nominal % 60, c % r.nominal⟩

/-- The fields of a label lie in their ranges, skipped or not (R5). -/
structure Label.InRange (r : Rate) (l : Label) : Prop where
  hh : l.hh ≤ 23
  mm : l.mm ≤ 59
  ss : l.ss ≤ 59
  ff : l.ff < r.nominal

/-- A drop-frame minute skips the count (R5). -/
abbrev CountSkipped (r : Rate) (c : Nat) : Prop :=
  c / (60 * r.nominal) % 10 ≠ 0 ∧ c % (60 * r.nominal) < r.skipped

theorem frameToLabel_eq (r : Rate) (f : Frame) : frameToLabel r f = labelAt r (labelCount r f) := rfl

theorem labelAt_count {r : Rate} {l : Label} (h : l.InRange r) : labelAt r (l.count r) = l := by
  obtain ⟨hh, mm, ss, ff⟩ := l
  obtain ⟨h1, h2, h3, h4⟩ := h
  cases r <;> simp only [labelAt, Label.count, Rate.nominal, Label.mk.injEq] at * <;> omega

theorem count_labelAt {r : Rate} {c : Nat} (h : c < 86400 * r.nominal) : (labelAt r c).count r = c := by
  cases r <;> simp only [labelAt, Label.count, Rate.nominal] at * <;> omega

theorem labelAt_inRange (r : Rate) (c : Nat) : (labelAt r c).InRange r where
  hh := by simp only [labelAt]; omega
  mm := by simp only [labelAt]; omega
  ss := by simp only [labelAt]; omega
  ff := Nat.mod_lt _ (by cases r <;> decide)

theorem count_lt {r : Rate} {l : Label} (h : l.InRange r) : l.count r < 86400 * r.nominal := by
  obtain ⟨h1, h2, h3, h4⟩ := h
  cases r <;> simp only [Label.count, Rate.nominal] at * <;> omega

theorem countSkipped_count {r : Rate} {l : Label} (h : l.InRange r) :
    CountSkipped r (l.count r) ↔ l.ss = 0 ∧ l.mm % 10 ≠ 0 ∧ l.ff < r.skipped := by
  obtain ⟨-, h2, h3, h4⟩ := h
  cases r <;> simp only [CountSkipped, Label.count, Rate.nominal, Rate.skipped] at * <;> omega

/-- A label is valid when its fields are in range and its count is not skipped (R5). -/
theorem labelValid_iff (r : Rate) (l : Label) :
    labelValid r l = true ↔ l.InRange r ∧ ¬ CountSkipped r (l.count r) := by
  constructor
  · intro h
    simp only [labelValid, Bool.and_eq_true, decide_eq_true_eq] at h
    obtain ⟨⟨⟨⟨hh, mm⟩, ss⟩, ff⟩, hs⟩ := h
    have hr : l.InRange r := ⟨hh, mm, ss, ff⟩
    refine ⟨hr, fun hc => ?_⟩
    obtain ⟨h1, h2, h3⟩ := (countSkipped_count hr).mp hc
    simp [h1, h2, h3] at hs
  · rintro ⟨hr, hs⟩
    rw [countSkipped_count hr] at hs
    simp only [labelValid, hr.hh, hr.mm, hr.ss, hr.ff, decide_true, Bool.true_and, ← Bool.decide_and,
      Bool.not_eq_true', decide_eq_false_iff_not]
    rwa [and_assoc]

/-! ### Counts and frame numbers -/

/-- The frame number of a count: the values skipped before it taken off (R6). -/
def countFrame (r : Rate) (c : Nat) : Nat := c - r.skipped * (c / (60 * r.nominal) - c / (600 * r.nominal))

theorem labelToFrame_eq {r : Rate} {l : Label} (h : l.InRange r) : labelToFrame r l = countFrame r (l.count r) := by
  obtain ⟨-, h2, h3, h4⟩ := h
  change @Eq Nat _ _
  cases r <;> simp only [labelToFrame, countFrame, Label.count, Rate.nominal, Rate.skipped] at * <;> omega

/-- The count at place `x` of minute `j` of ten-minute stretch `q`. -/
def countAt (r : Rate) (q j x : Nat) : Nat := 600 * r.nominal * q + 60 * r.nominal * j + x

/-- The frame number there: each minute but the first of a stretch has skipped its values (R6). -/
def frameAt (r : Rate) (q j x : Nat) : Nat := tenMinutes r * q + dropMinute r * j + x

/-- The place is one of the minute's and is not skipped (R5). -/
structure Shown (r : Rate) (j x : Nat) : Prop where
  minute : j < 10
  place : x < 60 * r.nominal
  kept : j = 0 ∨ r.skipped ≤ x

theorem countFrame_countAt {r : Rate} {q j x : Nat} (h : Shown r j x) :
    countFrame r (countAt r q j x) = frameAt r q j x := by
  obtain ⟨h1, h2, h3⟩ := h
  cases r <;> simp only [countFrame, countAt, frameAt, tenMinutes, dropMinute, Rate.nominal, Rate.skipped] at * <;>
    omega

/-- Behind a place's own skipped values the minutes count off at the length of one that skips (R7). -/
theorem skipped_minutes {r : Rate} {j x : Nat} (h : Shown r j x) (hd : r.dropFrame = true) :
    (if r.skipped ≤ dropMinute r * j + x then r.skipped * ((dropMinute r * j + x - r.skipped) / dropMinute r) else 0)
      = r.skipped * j := by
  obtain ⟨h1, h2, h3⟩ := h
  by_cases hx : r.skipped ≤ dropMinute r * j + x
  · rw [if_pos hx]
    cases r <;> simp only [dropMinute, Rate.nominal, Rate.skipped, Rate.dropFrame, reduceCtorEq] at * <;> omega
  · rw [if_neg hx]
    cases r <;> simp only [dropMinute, Rate.nominal, Rate.skipped, Rate.dropFrame, reduceCtorEq] at * <;> omega

theorem labelCount_frameAt {r : Rate} {q j x : Nat} (h : Shown r j x) :
    labelCount r (frameAt r q j x) = countAt r q j x := by
  have hm : dropMinute r * j + x < tenMinutes r := by
    obtain ⟨h1, h2, h3⟩ := h
    cases r <;> simp only [tenMinutes, dropMinute, Rate.nominal, Rate.skipped] at * <;> omega
  have hq : frameAt r q j x / tenMinutes r = q := by
    rw [frameAt, add_assoc, Nat.mul_add_div (by omega), Nat.div_eq_of_lt hm, add_zero]
  have hr : frameAt r q j x % tenMinutes r = dropMinute r * j + x := by
    rw [frameAt, add_assoc, Nat.mul_add_mod, Nat.mod_eq_of_lt hm]
  unfold labelCount
  by_cases hd : r.dropFrame = true
  · rw [if_pos hd]
    dsimp only
    rw [hq, hr, skipped_minutes h hd]
    cases r <;> simp only [countAt, frameAt, tenMinutes, dropMinute, Rate.nominal, Rate.skipped] <;> omega
  · rw [if_neg hd]
    cases r <;> simp_all [countAt, frameAt, tenMinutes, dropMinute, Rate.nominal, Rate.skipped, Rate.dropFrame]

theorem exists_countAt {r : Rate} {c : Nat} (h : ¬ CountSkipped r c) : ∃ q j x, Shown r j x ∧ c = countAt r q j x := by
  refine ⟨c / (600 * r.nominal), c / (60 * r.nominal) % 10, c % (60 * r.nominal), ⟨by omega, ?_, by omega⟩, ?_⟩
  · exact Nat.mod_lt _ (by cases r <;> decide)
  · cases r <;> simp only [countAt, Rate.nominal] <;> omega

/-- Every frame number has a place: in the first minute of its stretch, or in one that begins behind the skipped
values. -/
theorem exists_frameAt (r : Rate) (f : Nat) : ∃ q j x, Shown r j x ∧ f = frameAt r q j x := by
  have hq : ∀ m, m < tenMinutes r → ∃ j x, Shown r j x ∧ m = dropMinute r * j + x := by
    intro m hm
    by_cases h : m < 60 * r.nominal
    · exact ⟨0, m, ⟨by omega, h, .inl rfl⟩, by simp⟩
    · refine ⟨(m - r.skipped) / dropMinute r, r.skipped + (m - r.skipped) % dropMinute r, ⟨?_, ?_, .inr (by omega)⟩, ?_⟩ <;>
        cases r <;> simp only [tenMinutes, dropMinute, Rate.nominal, Rate.skipped] at * <;> omega
  obtain ⟨j, x, hs, hm⟩ := hq (f % tenMinutes r) (Nat.mod_lt _ (by cases r <;> decide))
  exact ⟨f / tenMinutes r, j, x, hs, by rw [frameAt, add_assoc, ← hm, Nat.div_add_mod]⟩

theorem not_countSkipped_countAt {r : Rate} {q j x : Nat} (h : Shown r j x) : ¬ CountSkipped r (countAt r q j x) := by
  obtain ⟨h1, h2, h3⟩ := h
  cases r <;> simp only [CountSkipped, countAt, Rate.nominal, Rate.skipped] at * <;> omega

/-- A place lies in the day by its count exactly when it does by its frame number. -/
theorem frameAt_lt_day {r : Rate} {q j x : Nat} (h : Shown r j x) :
    frameAt r q j x < r.day ↔ countAt r q j x < 86400 * r.nominal := by
  obtain ⟨h1, h2, h3⟩ := h
  cases r <;> simp only [frameAt, countAt, tenMinutes, dropMinute, Rate.nominal, Rate.skipped, Rate.day] at * <;> omega

/-- Settles O15. -/
theorem labelOfFrameConvertsBack : Obligations.LabelOfFrameConvertsBack := by
  intro r f hf
  obtain ⟨q, j, x, hs, rfl⟩ := exists_frameAt r f
  have hc := count_labelAt ((frameAt_lt_day hs).mp hf)
  rw [frameToLabel_eq, labelCount_frameAt hs, labelToFrame_eq (labelAt_inRange ..), labelValid_iff, hc]
  exact ⟨⟨labelAt_inRange .., not_countSkipped_countAt hs⟩, countFrame_countAt hs⟩

/-- Settles O16. -/
theorem frameOfLabelConvertsBack : Obligations.FrameOfLabelConvertsBack := by
  intro r l hl
  obtain ⟨hr, hk⟩ := (labelValid_iff r l).mp hl
  obtain ⟨q, j, x, hs, hc⟩ := exists_countAt hk
  have hf : labelToFrame r l = frameAt r q j x := by rw [labelToFrame_eq hr, hc, countFrame_countAt hs]
  rw [hf, frameToLabel_eq, labelCount_frameAt hs, ← hc]
  exact ⟨(frameAt_lt_day hs).mpr (hc ▸ count_lt hr), labelAt_count hr⟩

/-- Settles O17: the two branches of the difference modulo FPD. -/
theorem signedDifferenceIsShorterWay : Obligations.SignedDifferenceIsShorterWay := by
  intro r (a : Nat) b (ha : a < r.day) _ m
  have hday : (0 : Int) < r.day := by omega
  have h0 : 0 ≤ m := Int.emod_nonneg _ hday.ne'
  have h1 : m < r.day := Int.emod_lt_of_pos _ hday
  have hback : ∀ k : Int, shiftFrame r.day (m + k * r.day) b = a := by
    intro k
    have : ((b : Int) + (m + k * r.day)) % r.day = a := by
      rw [← add_assoc, Int.add_mul_emod_self_right, Int.add_emod_emod, add_sub_cancel, Int.emod_eq_of_lt (by omega) (by omega)]
    rw [shiftFrame, this, Int.toNat_natCast]
  by_cases hm : 2 * m < r.day
  · have hd : signedDiff r.day a b = m := if_pos hm
    refine ⟨fun _ => hd, fun h => absurd hm (by omega), by omega, by omega, ?_⟩
    simpa [hd] using hback 0
  · have hd : signedDiff r.day a b = m - r.day := if_neg hm
    refine ⟨fun h => absurd h hm, fun _ => hd, by omega, by omega, ?_⟩
    rw [hd]
    simpa [sub_eq_add_neg] using hback (-1)

end Sys2Proof.Machine
end

