-- ==== Sys2Proof/Proofs/DisplayLines.lean ====
section
/-! The display lines: what the transfer engine of a display changes, and the line events of section 8.5. -/

namespace Sys2Proof.Machine

/-! ### The transfer engine of a display -/

/-- The choice of a unit takes one mark or one dirty glyph and nothing else of the record (R176). -/
theorem chooseUnit_record {d d' : Display} {u : DisplayUnit} (h : chooseUnit d = some (u, d')) :
    ∃ c i g, d' = { d with clearPending := c, iconsOffPending := i, dirty := g } := by
  unfold chooseUnit at h
  split at h
  · contradiction
  · split at h
    · cases h; exact ⟨_, _, _, rfl⟩
    · split at h
      · split at h
        · cases h; exact ⟨_, _, _, rfl⟩
        · contradiction
      · split at h
        · cases h; exact ⟨_, _, _, rfl⟩
        · split at h
          · cases h; exact ⟨_, _, _, rfl⟩
          · split at h
            · cases h; exact ⟨_, _, _, rfl⟩
            · split at h
              · cases h; exact ⟨_, _, _, rfl⟩
              · contradiction

/-- A byte that is due changes the flight and the busy wait alone (R178). -/
theorem startByte_record (busy : Level) (now : Nat) (u : DisplayUnit) (k : Nat) (d : Display) :
    ∃ f w, startByte busy now u k d = { d with flight := f, busyWait := w } := by
  cases busy
  · exact ⟨_, d.busyWait, rfl⟩
  · exact ⟨_, _, rfl⟩

/-- A line that looks for work changes what the transfer engine owns alone: its marks, its dirty set, the unit in flight
and the busy wait. -/
theorem driveLine_record (busy : Level) (now : Nat) (d : Display) :
    ∃ c i g f w, driveLine busy now d
      = { d with clearPending := c, iconsOffPending := i, dirty := g, flight := f, busyWait := w } := by
  unfold driveLine
  split
  · exact ⟨_, _, _, d.flight, _, rfl⟩
  · split
    · exact ⟨_, _, _, d.flight, _, rfl⟩
    · rename_i u d' hu
      obtain ⟨c, i, g, rfl⟩ := chooseUnit_record hu
      obtain ⟨f, w, h⟩ := startByte_record busy now u (unitBytes u).length
        { d with clearPending := c, iconsOffPending := i, dirty := g }
      exact ⟨c, i, g, f, w, h⟩

/-- A render changes one display's target image and what its transfer engine owns (R163, R176). -/
theorem render_record (n : Fin 4) (s : State) :
    ∃ v c i g f w, render n s = setDisplay n { s.displays[n] with
      target := v, clearPending := c, iconsOffPending := i, dirty := g, flight := f, busyWait := w } s := by
  obtain ⟨c, i, g, f, w, h⟩ := driveLine_record s.busy[n] s.clock { s.displays[n] with target := targetImage s n }
  refine ⟨targetImage s n, c, i, g, f, w, ?_⟩
  simp only [render, drive, modifyDisplay, setDisplay, Fin.getElem_fin, Vector.getElem_set_self,
    Vector.set_set] at h ⊢
  rw [h]


/-! ### Records read back -/

theorem setDisplay_get (d : Fin 4) (r : Display) (s : State) : (setDisplay d r s).displays[d] = r := by
  simp [setDisplay]

theorem setDisplay_get_ne {d x : Fin 4} (h : x ≠ d) (r : Display) (s : State) :
    (setDisplay d r s).displays[x] = s.displays[x] := by
  simp [setDisplay, Fin.val_inj, h.symm]

theorem setDisplay_self (d : Fin 4) (s : State) : setDisplay d s.displays[d] s = s := by
  simp [setDisplay]

theorem setBusy_get (d : Fin 4) (l : Level) (s : State) : (setBusy d l s).busy[d] = l := by
  simp [setBusy]

theorem modifyDisplay_get (d : Fin 4) (f : Display → Display) (s : State) :
    (modifyDisplay d f s).displays[d] = f s.displays[d] := setDisplay_get ..

theorem drive_get (d : Fin 4) (s : State) :
    (drive d s).displays[d] = driveLine s.busy[d] s.clock s.displays[d] := modifyDisplay_get ..

/-! ### The engine on a display in FAULT and out of it -/

/-- A display in FAULT starts no unit (R176). -/
theorem driveLine_fault {d : Display} (h : d.state = .fault) (busy : Level) (now : Nat) : driveLine busy now d = d := by
  unfold driveLine
  split
  · rfl
  · simp [chooseUnit, h]

/-- A pending CLEAR is the first unit of an idle line that is not in FAULT (R176). -/
theorem driveLine_clear {d : Display} (hs : d.state ≠ .fault) (hf : d.flight = none) (hc : d.clearPending = true)
    (now : Nat) : driveLine .low now d = { d with clearPending := false, flight := some ⟨.clear, 1, false⟩ } := by
  simp [driveLine, hf, chooseUnit, hs, hc, startByte, unitBytes]

/-- A render of a display in FAULT changes its target image alone. -/
theorem render_fault {d : Fin 4} {s : State} (h : s.displays[d].state = .fault) :
    (render d s).displays[d] = { s.displays[d] with target := targetImage s d } := by
  rw [render, drive_get, modifyDisplay_get]
  exact driveLine_fault (d := { s.displays[d] with target := targetImage s d }) h _ _

/-- The recovery from FAULT sets up a CLEAR and keeps the target image (R180). -/
theorem recover_record (r : Display) :
    (recover r).state = (if r.blankMark then .blank else .active) ∧ (recover r).clearPending = true
      ∧ (recover r).flight = r.flight ∧ (recover r).target = r.target := by
  unfold recover
  split <;> exact ⟨rfl, rfl, rfl, rfl⟩

/-- A recovered display with an idle line sends its CLEAR at once when BUSY is low (R176, R180). -/
theorem driveLine_recover {r : Display} (hf : r.flight = none) (now : Nat) : driveLine .low now (recover r)
    = { recover r with clearPending := false, flight := some ⟨.clear, 1, false⟩ } := by
  obtain ⟨hs, hc, hflight, -⟩ := recover_record r
  refine driveLine_clear ?_ (hflight.trans hf) hc now
  rw [hs]
  split <;> decide

theorem busyTest_overdue {d : Fin 4} {s : State} (h : busyOverdue s d = true) : (busyTest d s).displays[d]
    = { s.displays[d] with flight := none, busyWait := none, sent := unknownImage, state := .fault } := by
  rw [busyTest, if_pos h, raiseDisplayState, raiseNotice_displays]
  exact modifyDisplay_get ..

/-- Starting what waits changes nothing where nothing does (R178). -/
theorem startWaiting_idle {r : Display} (hf : ∀ f, r.flight = some f → f.waiting = false) (hw : r.busyWait = none) :
    startWaiting r = r := by
  have hflight : r.flight.map (fun f => { f with waiting := false }) = r.flight := by
    cases h : r.flight with
    | none => rfl
    | some f => rw [Option.map_some, ← hf f h]
  rw [startWaiting, hflight, ← hw]

/-! ### Line events (R177 to R180) -/

/-- The busy wait has lasted 500 ms, and no expiry or crawl comes before it (R170, R179). -/
theorem execDisplayFault_overdue {d : Fin 4} {s : State} (he : expiryDue (settleSteps s) d = false)
    (hc : crawlDue (settleSteps s) d = false) (hb : busyOverdue (settleSteps s) d = true) :
    exec (.displayFault d) s = .next (render d (busyTest d (settleSteps s))) := by
  simp [exec, execDisplayFault, he, hc, hb]

/-- The fall of BUSY starts what waits on a display that is not in FAULT (R178). -/
theorem execBusyFall_start {d : Fin 4} {s : State}
    (h : (displayTick d (settleSteps s)).displays[d].state ≠ .fault) : exec (.busyFall d) s
      = .next (setDisplay d (startWaiting (displayTick d (settleSteps s)).displays[d])
          (setBusy d .low (displayTick d (settleSteps s)))) :=
  if_neg h

/-- The fall of BUSY ends a FAULT (R180). -/
theorem execBusyFall_recover {d : Fin 4} {s : State}
    (h : (displayTick d (settleSteps s)).displays[d].state = .fault) : exec (.busyFall d) s
      = .next (drive d (raiseDisplayState d (setDisplay d (recover (displayTick d (settleSteps s)).displays[d])
          (setBusy d .low (displayTick d (settleSteps s)))))) :=
  if_pos h

/-- A unit or a byte whose cycles would pass the oscillator's next tick does not end (R9, R10). -/
theorem exec_line_late {elapsed : Nat} {s : State} (h : oscillatorCount s < s.rtu.counter + elapsed) (d : Fin 4)
    (busy : Level) :
    exec (.unitCompletion d elapsed busy) s = .next s ∧ exec (.displayByte d elapsed busy) s = .next s := by
  have hb : beforeTick elapsed s = false := by
    rw [← Bool.not_eq_true, beforeTick_iff]
    omega
  constructor
  · simp only [exec, execUnitCompletion, hb]
    split
    · rfl
    · simp
  · simp only [exec, execDisplayByte, hb]
    split <;> simp

/-- A unit that is being sent ends (R177). -/
theorem execUnitCompletion_sent {d : Fin 4} {elapsed k : Nat} {u : DisplayUnit} {s : State}
    (h : s.rtu.counter + elapsed ≤ oscillatorCount s) (hf : s.displays[d].flight = some ⟨u, k, false⟩) (busy : Level) :
    exec (.unitCompletion d elapsed busy) s
      = .next (drive d (setDisplay d (finishUnit u s.displays[d]) (setBusy d busy (passCycles elapsed s)))) := by
  simp only [exec, execUnitCompletion, hf, (beforeTick_iff elapsed s).mpr h]
  rfl

/-- A byte that does not end its unit ends (R178). -/
theorem execDisplayByte_sent {d : Fin 4} {elapsed k : Nat} {u : DisplayUnit} {s : State}
    (h : s.rtu.counter + elapsed ≤ oscillatorCount s) (hf : s.displays[d].flight = some ⟨u, k, false⟩) (hk : 2 ≤ k)
    (busy : Level) : exec (.displayByte d elapsed busy) s
      = .next (setDisplay d (startByte busy (s.clock + elapsed) u (k - 1) s.displays[d])
          (setBusy d busy (passCycles elapsed s))) := by
  simp only [exec, execDisplayByte, hf, (beforeTick_iff elapsed s).mpr h, show ¬ k ≤ 1 by omega]
  rfl

/-- Settles O58. -/
theorem displayLineEvents : Obligations.DisplayLineEvents := by
  intro s d elapsed r
  refine ⟨fun he hc hb => ?_, ⟨fun hs hf => ?_, fun u k hs hf => ?_, fun hs hf hw => ?_⟩,
    fun busy hlate => exec_line_late hlate d busy, fun u k busy htime hf => ⟨?_, fun hk => ?_, fun hk hw => ?_⟩⟩
  · have hbt := busyTest_overdue hb
    refine ⟨_, execDisplayFault_overdue he hc hb, ?_, (busyTest_quiet ..).trans (render_quiet ..)⟩
    rw [render_fault (by rw [hbt]), hbt]
  · refine ⟨_, execBusyFall_recover hs, ?_⟩
    generalize displayTick d (settleSteps s) = s0 at hf ⊢
    obtain ⟨hstate, -, -, htarget⟩ := recover_record s0.displays[d]
    rw [drive_get, raiseDisplayState, raiseNotice_displays, setDisplay_get, raiseNotice_busy, setDisplay_busy,
      setBusy_get, driveLine_recover hf]
    exact ⟨hstate, rfl, rfl, htarget, rfl, rfl⟩
  · rw [execBusyFall_start hs, startWaiting, hf]
    rfl
  · rw [execBusyFall_start hs, startWaiting_idle hf hw]
    exact congrArg Host.Outcome.next (setDisplay_self d (setBusy d .low (displayTick d (settleSteps s))))
  · refine ⟨_, execUnitCompletion_sent htime hf busy, ?_⟩
    obtain ⟨c, i, g, f, w, h⟩ := driveLine_record busy (s.clock + elapsed) (finishUnit u s.displays[d])
    rw [drive_get, setDisplay_get, setDisplay_busy, setBusy_get,
      show (setDisplay d _ (setBusy d busy (passCycles elapsed s))).clock = s.clock + elapsed from rfl, h]
    exact ⟨rfl, rfl, rfl, rfl, fun x hx => (setDisplay_get_ne hx ..).trans (setDisplay_get_ne hx ..), rfl, rfl⟩
  · rw [execDisplayByte_sent htime hf hk]
    rfl
  · rw [execDisplayByte_sent htime hf hk, startByte, hw]
    rfl

end Sys2Proof.Machine
end

