-- ==== Sys2Proof/Proofs/Ticks.lean ====
section
/-! What a frame tick does behind the Reference Timing Unit's part of it, and that part case by case (R9 to R15). -/

namespace Sys2Proof.Machine

/-! ### The rest of a tick -/

/-- From `s` to `t` displays alone are changed, and of each neither its cues nor its next crawl frame. -/
structure OnlyRendered (s t : State) : Prop where
  rest : t = { s with displays := t.displays }
  cues : ∀ x : Fin 4, t.displays[x].cues = s.displays[x].cues
  nextCrawl : ∀ x : Fin 4, t.displays[x].nextCrawl = s.displays[x].nextCrawl

theorem OnlyRendered.refl (s : State) : OnlyRendered s s := ⟨rfl, fun _ => rfl, fun _ => rfl⟩

theorem OnlyRendered.trans {a b c : State} (h : OnlyRendered a b) (k : OnlyRendered b c) : OnlyRendered a c where
  rest := by rw [k.rest, h.rest]
  cues x := (k.cues x).trans (h.cues x)
  nextCrawl x := (k.nextCrawl x).trans (h.nextCrawl x)

theorem render_onlyRendered (n : Fin 4) (s : State) : OnlyRendered s (render n s) := by
  obtain ⟨v, c, i, g, f, w, h⟩ := render_record n s
  rw [h]
  refine ⟨rfl, fun x => ?_, fun x => ?_⟩ <;>
  · simp only [setDisplay, Fin.getElem_fin, Vector.getElem_set]
    split
    · simp [*]
    · rfl

theorem renderIdleDisplays_onlyRendered (s : State) : OnlyRendered s (renderIdleDisplays s) := by
  unfold renderIdleDisplays
  generalize allDisplays = l
  induction l generalizing s with
  | nil => exact .refl s
  | cons n l ih =>
    refine OnlyRendered.trans ?_ (ih _)
    dsimp only
    split
    · exact .refl s
    · exact render_onlyRendered n s

/-- The sequencer's place in the tick under way (R72). -/
def atStep (p : TickPhase) (s : State) : State := { s with tick := { s.tick with phase := p } }

/-- Step 1 of R72 with nothing due in it only passes the sequencer on. -/
theorem takePhase_airFrame {s : State} (hp : s.tick.phase = .airFrame) (hd : phaseDue s = false) :
    takePhase s = atStep .junction s := by
  have : airFrameDue s = none := by simpa [phaseDue, hp] using hd
  simp [takePhase, hp, stepAirFrame, this, atStep]

/-- Step 2 of R72 with nothing due in it only passes the sequencer on. -/
theorem takePhase_junction {s : State} (hp : s.tick.phase = .junction) (hd : phaseDue s = false) :
    takePhase s = atStep .follow s := by
  have : junctionDue s = none := by simpa [phaseDue, hp] using hd
  simp [takePhase, hp, stepJunction, this, atStep]

/-- From step 1 of R72 on, two steps with nothing due are passed and change the place of the sequencer alone. -/
theorem passPhases_two {s : State} (hp : s.tick.phase = .airFrame) : ∃ p, passPhases 2 s = atStep p s := by
  by_cases h1 : phaseDue s = true
  · exact ⟨s.tick.phase, by rw [passPhases, if_pos h1]; rfl⟩
  rw [passPhases, if_neg h1, takePhase_airFrame hp (by simpa using h1)]
  by_cases h2 : phaseDue (atStep .junction s) = true
  · exact ⟨.junction, by rw [passPhases, if_pos h2]⟩
  rw [passPhases, if_neg h2, takePhase_junction rfl (by simpa using h2)]
  exact ⟨.follow, rfl⟩

/-- The engine's own trigger only puts a walk in flight (R101). -/
theorem overrunTrigger_engine (s : State) :
    ∃ b, overrunTrigger s = { s with engine := { s.engine with inFlight := b } }
      ∧ (s.engine.inFlight = true → b = true) := by
  unfold overrunTrigger
  split
  · split
    · exact ⟨true, rfl, fun _ => rfl⟩
    · exact ⟨_, rfl, id⟩
  · exact ⟨_, rfl, id⟩

/-- Left alone by a tick behind the Reference Timing Unit's part of it, but for the inputs, the images and the
tick's own record. -/
structure BehindReference (s t : State) : Prop where
  rtu : t.rtu = s.rtu
  items : t.items = s.items
  revision : t.revision = s.revision
  seq : t.seq = s.seq
  generation : t.engine.generation = s.engine.generation
  inFlight : s.engine.inFlight = true → t.engine.inFlight = true
  sched : t.sched = s.sched
  profiles : t.profiles = s.profiles
  groups : t.groups = s.groups
  ports : t.ports = s.ports
  link : t.link = s.link
  pending : t.pending = s.pending
  cues : ∀ x : Fin 4, t.displays[x].cues = s.displays[x].cues
  nextCrawl : ∀ x : Fin 4, t.displays[x].nextCrawl = s.displays[x].nextCrawl

/-- The panel samples, the engine's trigger, the first steps of the sequencer and the renders follow the Reference
Timing Unit's part of a tick (R12). -/
theorem frameTick_behind (lines : BitVec 8) (s : State) : BehindReference (referenceTick s) (frameTick lines s) := by
  unfold frameTick
  generalize referenceTick s = a
  obtain ⟨b, hb, hwalk⟩ := overrunTrigger_engine (openTick (sampleInputs lines a))
  obtain ⟨p, hp⟩ := passPhases_two (s := overrunTrigger (openTick (sampleInputs lines a))) (by rw [hb]; rfl)
  rw [hp, hb]
  obtain ⟨rest, cues, nextCrawl⟩ := renderIdleDisplays_onlyRendered
    (atStep p { openTick (sampleInputs lines a) with engine := { (openTick (sampleInputs lines a)).engine with inFlight := b } })
  exact ⟨by rw [rest]; rfl, by rw [rest]; rfl, by rw [rest]; rfl, by rw [rest]; rfl, by rw [rest]; rfl,
    by rw [rest]; exact hwalk, by rw [rest]; rfl, by rw [rest]; rfl, by rw [rest]; rfl, by rw [rest]; rfl,
    by rw [rest]; rfl, by rw [rest]; rfl, cues, nextCrawl⟩

/-! ### The Reference Timing Unit's part (R12 to R15) -/

/-- The counter restarts in a pulse mode (R9, R10). -/
abbrev Rtu.restarted (m : PulseMode) (r : Rtu) : Rtu := { r with counter := 0, mode := m }

/-- The frame after CFN (R2). -/
abbrev Rtu.nextFrame (r : Rtu) : Frame := addFrames r.rate.day r.cfn 1

/-- The lock state that an agreement or a jump leaves (R13). -/
abbrev Rtu.presentLock (r : Rtu) : LockState := if r.mode = .present then .locked else .freewheel

/-- The announcement is taken (R12, R13). -/
abbrev Rtu.take (a : Frame) (r : Rtu) : Rtu :=
  { r with cfn := a, announced := none, lock := r.presentLock, disagreements := 0, offset := 0 }

/-- The announcement disagrees, and CFN counts on in FREEWHEEL (R13). -/
abbrev Rtu.disagree (count : Nat) (d : Int) (r : Rtu) : Rtu :=
  { r with cfn := r.nextFrame, announced := none, lock := .freewheel, disagreements := count, offset := d }

theorem checkLabel_none {r : Rtu} (h : r.announced = none) : checkLabel r = ({ r with
    cfn := r.nextFrame
    lock := if r.lock = .unlocked then .unlocked else if r.mode = .present then r.lock else .freewheel }, none) := by
  obtain ⟨rate, cfn, lock, counter, mode, announced, count, offset, receiver⟩ := r
  subst h
  cases lock <;> cases mode <;> rfl

theorem checkLabel_unlocked {r : Rtu} {a : Frame} (ha : r.announced = some a) (hl : r.lock = .unlocked) :
    checkLabel r = (r.take a, some (signedDiff r.rate.day a r.nextFrame)) := by
  simp [checkLabel, ha, hl]

/-- With an announcement and a lock, the check compares the two frames (R13). -/
theorem checkLabel_compares {r : Rtu} {a : Frame} (ha : r.announced = some a) (hl : r.lock ≠ .unlocked) :
    checkLabel r =
      if a = r.nextFrame then (r.take a, none)
      else if signedDiff r.rate.day a r.nextFrame = r.offset ∧ 0 < r.disagreements then
        if r.disagreements + 1 < 3 then (r.disagree (r.disagreements + 1) r.offset, none)
        else (r.take a, some (signedDiff r.rate.day a r.nextFrame))
      else (r.disagree 1 (signedDiff r.rate.day a r.nextFrame), none) := by
  obtain ⟨rate, cfn, lock, counter, mode, announced, count, offset, receiver⟩ := r
  obtain rfl : announced = some a := ha
  by_cases heq : a = addFrames rate.day cfn 1
  · subst heq
    cases lock
    · exact absurd rfl hl
    · simp only [checkLabel, if_true]
    · simp only [checkLabel, if_true]
  · cases lock
    · exact absurd rfl hl
    · simp only [checkLabel, heq, if_false]
    · simp only [checkLabel, heq, if_false]

theorem checkLabel_agrees {r : Rtu} {a : Frame} (ha : r.announced = some a) (hl : r.lock ≠ .unlocked)
    (heq : a = r.nextFrame) : checkLabel r = (r.take a, none) := by
  rw [checkLabel_compares ha hl, if_pos heq]

/-- The third disagreement of one offset is a jump (R13). -/
theorem checkLabel_third {r : Rtu} {a : Frame} (ha : r.announced = some a) (hl : r.lock ≠ .unlocked)
    (hne : a ≠ r.nextFrame) (hk : r.disagreements = 2) (ho : r.offset = signedDiff r.rate.day a r.nextFrame) :
    checkLabel r = (r.take a, some (signedDiff r.rate.day a r.nextFrame)) := by
  rw [checkLabel_compares ha hl, if_neg hne, if_pos ⟨ho.symm, by omega⟩, if_neg (by omega)]

theorem checkLabel_second {r : Rtu} {a : Frame} (ha : r.announced = some a) (hl : r.lock ≠ .unlocked)
    (hne : a ≠ r.nextFrame) (hk : r.disagreements = 1) (ho : r.offset = signedDiff r.rate.day a r.nextFrame) :
    checkLabel r = (r.disagree 2 r.offset, none) := by
  rw [checkLabel_compares ha hl, if_neg hne, if_pos ⟨ho.symm, by omega⟩, if_pos (by omega), hk]

theorem checkLabel_first {r : Rtu} {a : Frame} (ha : r.announced = some a) (hl : r.lock ≠ .unlocked)
    (hne : a ≠ r.nextFrame) (hk : r.disagreements = 0 ∨ r.offset ≠ signedDiff r.rate.day a r.nextFrame) :
    checkLabel r = (r.disagree 1 (signedDiff r.rate.day a r.nextFrame), none) := by
  rw [checkLabel_compares ha hl, if_neg hne, if_neg]
  rintro ⟨ho, hpos⟩
  exact hk.elim (fun h => by omega) (fun h => h ho.symm)

/-- REF_STATE as the Reference Timing Unit stands (R15, R217). -/
abbrev refNotice (r : Rtu) (d : Int) : Notice := ⟨.refState, r.cfn, 0, 0, r.lock.code, offsetValue d⟩

/-- A tick without a jump: the check's result, and REF_STATE if it changed the lock (R15). -/
theorem referenceTick_steady {s : State} {r : Rtu} (h : checkLabel s.rtu = (r, none)) :
    referenceTick s = { s with
      rtu := r, link := if r.lock = s.rtu.lock then s.link else pushNotice (refNotice r 0) s.link } := by
  unfold referenceTick
  rw [h]
  by_cases hl : r.lock = s.rtu.lock
  · simp [hl]
  · simp only [bne_iff_ne, ne_eq, hl, Option.isSome_none, Bool.false_or, not_false_eq_true, if_true, if_false]
    rfl

/-- A tick with a jump by `d`: REF_STATE is raised, the frames of the ports, the groups and the displays are moved, and
a walk is triggered (R14, R15). -/
theorem referenceTick_jump {s : State} {r : Rtu} {d : Int} (h : checkLabel s.rtu = (r, some d)) :
    referenceTick s = { s with
      rtu := r
      engine := { s.engine with inFlight := true }
      ports := s.ports.map (shiftPort r.rate.day d)
      groups := s.groups.map (shiftGroup r.rate.day d)
      displays := s.displays.map (shiftDisplay r.rate.day d)
      link := pushNotice (refNotice r d) s.link } := by
  unfold referenceTick
  rw [h]
  rfl

/-! ### The commands that make a tick -/

/-- A command that makes a tick passes some cycles and makes it (R9, R10, R12). -/
theorem exec_tick {c : Instr} {s : State} {m : PulseMode} {lines : BitVec 8} (h : tickMade c s = some (m, lines)) :
    ∃ n, exec c s = .next (makeTick n m lines s) := by
  unfold tickMade at h
  split at h
  · rename_i n l hm
    split at h
    · rename_i hn
      cases h
      refine ⟨n, ?_⟩
      simp only [exec, execRefFramePulse, hm]
      rw [if_neg (by omega), if_pos hn.2]
    · contradiction
  · rename_i n l hm
    split at h
    · rename_i hn
      cases h
      refine ⟨n, ?_⟩
      simp only [exec, execRefFramePulse, hm]
      rw [if_neg (by omega), if_pos hn.2]
    · contradiction
  · rename_i l hm
    cases h
    exact ⟨_, by simp only [exec, execSubstituteTick, hm]; rfl⟩
  · rename_i l hm
    cases h
    exact ⟨_, by simp only [exec, execOscillatorTick, hm]; rfl⟩
  · contradiction

/-- The state that the Reference Timing Unit's part of a tick meets: the tick before is complete, the cycles have
passed and the counter stands at 0. -/
def beforeReference (n : Nat) (m : PulseMode) (s : State) : State := restartCounter m (passCycles n (settleTick s))

theorem beforeReference_rtu (n : Nat) (m : PulseMode) (s : State) :
    (beforeReference n m s).rtu = s.rtu.restarted m := by
  simp only [beforeReference, restartCounter, passCycles, (settleTick_fixed s).rtu]

/-- A tick leaves what the reference's part of it leaves, but for inputs, images and the tick's own record. -/
theorem makeTick_behind (n : Nat) (m : PulseMode) (lines : BitVec 8) (s : State) :
    BehindReference (referenceTick (beforeReference n m s)) (makeTick n m lines s) :=
  frameTick_behind lines _

theorem makeTick_steady {n : Nat} {m : PulseMode} {s : State} {r : Rtu}
    (h : checkLabel (s.rtu.restarted m) = (r, none)) (lines : BitVec 8) :
    (makeTick n m lines s).rtu = r
      ∧ (makeTick n m lines s).link = (if r.lock = s.rtu.lock then (settleTick s).link
          else pushNotice (refNotice r 0) (settleTick s).link) := by
  rw [← beforeReference_rtu n m s] at h
  have hb := makeTick_behind n m lines s
  rw [referenceTick_steady h, beforeReference_rtu] at hb
  exact ⟨hb.rtu, hb.link⟩

theorem makeTick_jump {n : Nat} {m : PulseMode} {s : State} {r : Rtu} {d : Int}
    (h : checkLabel (s.rtu.restarted m) = (r, some d)) (lines : BitVec 8) :
    (makeTick n m lines s).rtu = r
      ∧ (makeTick n m lines s).link = pushNotice (refNotice r d) (settleTick s).link := by
  rw [← beforeReference_rtu n m s] at h
  have hb := makeTick_behind n m lines s
  rw [referenceTick_jump h] at hb
  exact ⟨hb.rtu, hb.link⟩

/-- Settles O18. -/
theorem ticksWithoutAnnouncement : Obligations.TicksWithoutAnnouncement := by
  refine ⟨fun c s m lines hc ha => ?_, fun s n lines => ?_⟩
  · intro s1 cfn lock
    obtain ⟨n, he⟩ := exec_tick hc
    have hcheck := checkLabel_none (r := s.rtu.restarted m) ha
    obtain ⟨hrtu, hlink⟩ := makeTick_steady (n := n) hcheck lines
    have hb := makeTick_behind n m lines s
    rw [referenceTick_steady ((congrArg checkLabel (beforeReference_rtu n m s)).trans hcheck)] at hb
    have hs := settleTick_fixed s
    refine ⟨_, he, hrtu, hlink, ?_, hb.profiles.trans hs.profiles, hb.pending.trans hs.pending⟩
    rw [rundown, hb.items]
    exact hs.rundown
  · intro c
    have half : s.rtu.rate.halfPeriod < s.rtu.rate.longPeriod ∧ s.rtu.rate.halfPeriod ≤ s.rtu.rate.period := by
      cases s.rtu.rate <;> decide
    refine ⟨fun hm hc => ?_, fun hm hc => ?_, fun hm hc => ?_, fun hm hc => ?_, fun hm => ?_, fun hm => ?_⟩
    · have : exec (.refFramePulse n lines) s = .next (passCycles n s) := by
        simp only [exec, execRefFramePulse, hm]
        rw [if_pos hc]
      exact this
    · simp only [exec, execRefFramePulse, hm]
      rw [if_pos hc]
      rfl
    · simp only [exec, execRefFramePulse, hm]
      rw [if_neg (by omega), if_neg (by omega)]
    · simp only [exec, execRefFramePulse, hm]
      rw [if_neg (by omega), if_neg (by omega)]
    · simp only [exec, execSubstituteTick, hm]
    · simp only [exec, execOscillatorTick, hm]

/-- Settles O19, by the outcomes of the label check. -/
theorem ticksWithAnnouncement : Obligations.TicksWithAnnouncement := by
  intro c s m lines a hc ha s1 cfn d lock after taken offset kept
  obtain ⟨n, he⟩ := exec_tick hc
  have ha' : (s.rtu.restarted m).announced = some a := ha
  refine ⟨_, he, fun hl => ?_, fun hl heq => ?_, fun hl hne hk ho => ?_, fun hl hne hk ho => ?_, fun hl hne ho => ?_⟩
  · exact makeTick_jump (checkLabel_unlocked ha' hl) lines
  · exact makeTick_steady (checkLabel_agrees ha' hl heq) lines
  · exact makeTick_jump (checkLabel_third ha' hl hne hk ho) lines
  · exact makeTick_steady (checkLabel_second ha' hl hne hk ho) lines
  · exact makeTick_steady (checkLabel_first ha' hl hne ho) lines

/-- Settles O21: in both cases the label check jumps, and what follows it moves no frame. -/
theorem jumpsShiftPortFrames : Obligations.JumpsShiftPortFrames := by
  intro c s m lines a hc ha s1 day next d hj
  obtain ⟨n, he⟩ := exec_tick hc
  have ha' : (s.rtu.restarted m).announced = some a := ha
  have hcheck : checkLabel (s.rtu.restarted m) = ((s.rtu.restarted m).take a, some d) := by
    by_cases hl : s.rtu.lock = .unlocked
    · exact checkLabel_unlocked ha' hl
    · obtain ⟨hne, hk, ho⟩ := hj.resolve_left hl
      exact checkLabel_third ha' hl hne hk ho
  have hb := makeTick_behind n m lines s
  rw [referenceTick_jump ((congrArg checkLabel (beforeReference_rtu n m s)).trans hcheck)] at hb
  refine ⟨_, he, by rw [hb.rtu], hb.ports, hb.groups, fun x => ⟨?_, ?_⟩, hb.sched, hb.inFlight rfl⟩
  · rw [hb.cues]
    simp only [Fin.getElem_fin, Vector.getElem_map]
    rfl
  · rw [hb.nextCrawl]
    simp only [Fin.getElem_fin, Vector.getElem_map]
    rfl

end Sys2Proof.Machine
end

