-- ==== Sys2Proof/Proofs/Receiver.lean ====
section
/-! The REF_DATA receiver (R11), RATE_SET (R17), the reads of the reference, the store and the show, and reset. -/

namespace Sys2Proof.Machine

/-! ### The REF_DATA receiver (R11) -/

theorem receiveByte_sync {r : Rtu} (h : r.receiver = none) :
    receiveByte r 0xE7#8 = { r with receiver := some [0xE7#8] } := by
  simp [receiveByte, h]

/-- Bytes short of the eighth are kept. -/
theorem foldl_receiveByte (r : Rtu) (m l : List Byte) (h : m.length + l.length < 8) :
    l.foldl receiveByte { r with receiver := some m } = { r with receiver := some (m ++ l) } := by
  induction l generalizing m with
  | nil => simp
  | cons b l ih =>
    simp only [List.length_cons] at h
    have hb : receiveByte { r with receiver := some m } b = { r with receiver := some (m ++ [b]) } := by
      simp [receiveByte, show ¬ m.length + 1 = 8 by omega]
    rw [List.foldl_cons, hb, ih _ (by simp only [List.length_append, List.length_singleton]; omega),
      List.append_assoc, List.singleton_append]

/-- A valid message announces its label's frame, and the receiver waits for the next one (R11). -/
theorem takeMessage_valid {r : Rtu} {m : List Byte} {x : Label} (h : validLabel r.rate m = some x) :
    takeMessage m r = { r with receiver := none, announced := some (labelToFrame r.rate x) } := by
  rw [takeMessage, h]

/-- Eight bytes from a sync byte on are a complete message. -/
theorem foldl_receiveByte_message {r : Rtu} (hr : r.receiver = none) {l : List Byte} (hl : l.length = 6) {b : Byte}
    {x : Label} (hx : validLabel r.rate (0xE7#8 :: l ++ [b]) = some x) :
    (0xE7#8 :: l ++ [b]).foldl receiveByte r = { r with announced := some (labelToFrame r.rate x) } := by
  rw [List.foldl_append, List.foldl_cons (b := r) (a := 0xE7#8), receiveByte_sync hr, foldl_receiveByte _ _ _ (by simp [hl]),
    List.foldl_cons, List.foldl_nil, receiveByte]
  simp only [List.singleton_append, List.length_cons, hl, if_true]
  rw [takeMessage_valid (r := { r with receiver := some (0xE7#8 :: l) }) hx, ← hr]

theorem Rate.code_toNat (r : Rate) : (BitVec.ofNat 8 r.code).toNat = r.code := by
  cases r <;> rfl

/-- A message of a valid label with its rate, its drop-frame flag and its check is valid (R11). -/
theorem validLabel_message {rate : Rate} {hh mm ss ff flags : Byte}
    (hv : labelValid rate ⟨hh.toNat, mm.toNat, ss.toNat, ff.toNat⟩ = true) (hd : flags.getLsbD 0 = rate.dropFrame) :
    let m : List Byte := [0xE7#8, hh, mm, ss, ff, flags, BitVec.ofNat 8 rate.code]
    validLabel rate (m ++ [checkByte m]) = some ⟨hh.toNat, mm.toNat, ss.toNat, ff.toNat⟩ :=
  if_pos ⟨rfl, rate.code_toNat, hd, hv⟩

/-- Settles O20. -/
theorem labelMessagesAnnounce : Obligations.LabelMessagesAnnounce := by
  refine ⟨?_, fun s => ⟨rfl, fun _ _ => rfl, fun hr => ?_⟩⟩
  · intro s hh mm ss ff flags hr hv hd m
    have hfold := foldl_receiveByte_message hr (l := m.tail) rfl (validLabel_message hv hd)
    exact congrArg (fun r => Host.Outcome.next { s with rtu := r }) hfold
  · simp only [exec, execLowStopBit]
    rw [← hr]

/-! ### RATE_SET (R17) -/

@[simp] theorem Rate.ofCode_code (r : Rate) : Rate.ofCode r.code = some r := by
  cases r <;> rfl

/-- What an accepted RATE_SET writes; of the link it may change the notice FIFO alone (R17, R86, R157, R173). -/
theorem setRate_record (r : Rate) (s : State) :
    ∃ l, setRate r s = { s with
        rtu := rateSetRtu r
        seq := { s.seq with planStart := 0, lastAdvance := none }
        profiles := s.profiles.map (Profile.derive r)
        groups := s.groups.map (restateGroup r)
        ports := s.ports.map (restatePort (s.profiles.map (Profile.derive r)))
        displays := s.displays.map restateDisplay
        engine := { s.engine with inFlight := true }
        link := l }
      ∧ l.responses = s.link.responses ∧ l.mask = s.link.mask ∧ l.resetSeen = s.link.resetSeen := by
  unfold setRate
  by_cases h : s.rtu.lock = .unlocked
  · exact ⟨s.link, if_pos h, rfl, rfl, rfl⟩
  · obtain ⟨-, hresp, -, -, -, hseen, hmask, -⟩ :=
      pushNotice_kept ⟨.refState, 0, 0, 0, LockState.unlocked.code, offsetValue 0⟩ s.link
    exact ⟨_, if_neg h, hresp, hmask, hseen⟩

/-- RATE_SET is carried out in IDLE with an empty store (R17). -/
theorem carryRateSet_accepted {s : State} (hm : s.seq.mode = .idle) (hi : s.items = []) (r : Rate) :
    carryRateSet (beBytes 1 r.code) s = (setRate r s, [0#8]) := by
  have hn : takeNumbers [1] (beBytes 1 r.code) = some [r.code] :=
    takeNumbers_beBytes_last 1 r.code (by cases r <;> decide)
  simp [carryRateSet, hn, hm, hi, accept, Result.code]

/-- Settles O23. -/
theorem rateSetRestates : Obligations.RateSetRestates := by
  intro r s rest hw s0 hm hi
  obtain ⟨l, hs, hresp, hmask, -⟩ := setRate_record r s0
  refine ⟨_, congrArg Host.Outcome.next (serve_waiting hw carryRateSet), ?_⟩
  rw [carryRateSet_accepted hm hi, hs]
  exact ⟨congrArg (· ++ _) hresp, rfl, rfl, rfl, rfl, rfl, rfl, rfl, hi, rfl, rfl, hmask⟩

/-! ### Reads -/

theorem Rate.day_lt (r : Rate) : r.day < 256 ^ 3 := by
  cases r <;> decide

/-- A label that fits its bytes is judged as it was spelt (R8). -/
theorem carryTcConvert_label {l : Label} {s : State} (hh : l.hh < 256) (hm : l.mm < 256) (hs : l.ss < 256)
    (hf : l.ff < 256) (hv : labelValid s.rtu.rate l = true) : carryTcConvert (0#8 :: labelBytes l) s
      = accept (convertContents s.rtu.rate (labelToFrame s.rtu.rate l)) s := by
  simp only [carryTcConvert, labelBytes, beBytes, pow_zero, Nat.div_one, List.cons_append, List.nil_append,
    BitVec.toNat_ofNat, Nat.mod_eq_of_lt hh, Nat.mod_eq_of_lt hm, Nat.mod_eq_of_lt hs, Nat.mod_eq_of_lt hf]
  simp [hv]

/-- A frame number of the day is judged as it was spelt (R8). -/
theorem carryTcConvert_frame {f : Frame} {s : State} (hf : f < s.rtu.rate.day) :
    carryTcConvert (1#8 :: beBytes 3 f) s = accept (convertContents s.rtu.rate f) s := by
  have hb : ofBytes (beBytes 3 f) = f := ofBytes_beBytes 3 f (lt_trans hf (Rate.day_lt _))
  simp only [beBytes] at hb ⊢
  simp only [carryTcConvert, hb, State.day, if_pos hf]
  rfl

theorem takeNumbers_two {a b x y : Nat} (hx : x < 256 ^ a) (hy : y < 256 ^ b) :
    takeNumbers [a, b] (beBytes a x ++ beBytes b y) = some [x, y] := by
  rw [takeNumbers_beBytes a x _ _ hx, takeNumbers_beBytes_last b y hy]
  rfl

theorem takeNumbers_three {a b c x y z : Nat} (hx : x < 256 ^ a) (hy : y < 256 ^ b) (hz : z < 256 ^ c) :
    takeNumbers [a, b, c] (beBytes a x ++ beBytes b y ++ beBytes c z) = some [x, y, z] := by
  rw [List.append_assoc, takeNumbers_beBytes a x _ _ hx, takeNumbers_two hy hz]
  rfl

/-- The part of a list in the queue or the waiting order that ARM_READ answers with (R132). -/
theorem carryArmRead_queue {start count : Nat} {s : State} (hs : start < 65536) (hl : start ≤ s.sched.queue.length)
    (h1 : 1 ≤ count) (h8 : count ≤ 8) :
    carryArmRead (beBytes 1 0 ++ beBytes 2 start ++ beBytes 1 count) s
      = accept (beBytes 3 s.cfn ++ beBytes 1 s.sched.queue.length ++ beBytes 1 (waitingOrder s).length
          ++ beBytes 2 s.sched.counter ++ listPart entrySummary start count s.sched.queue) s := by
  rw [carryArmRead, takeNumbers_three (by omega) (by omega) (by omega)]
  dsimp only
  rw [if_neg (by simp only [if_true]; omega), if_pos rfl]

theorem carryArmRead_waiting {start count : Nat} {s : State} (hs : start < 65536) (hl : start ≤ (waitingOrder s).length)
    (h1 : 1 ≤ count) (h8 : count ≤ 8) :
    carryArmRead (beBytes 1 1 ++ beBytes 2 start ++ beBytes 1 count) s
      = accept (beBytes 3 s.cfn ++ beBytes 1 s.sched.queue.length ++ beBytes 1 (waitingOrder s).length
          ++ beBytes 2 s.sched.counter ++ listPart waitingSummary start count (waitingOrder s)) s := by
  rw [carryArmRead, takeNumbers_three (by omega) (by omega) (by omega)]
  dsimp only
  rw [if_neg (by simp only [one_ne_zero, if_false]; omega), if_neg one_ne_zero]

theorem carryRundownRead_in_range {start count : Nat} {s : State} (hs : start < 65536) (hl : start ≤ s.items.length)
    (h1 : 1 ≤ count) (h8 : count ≤ 8) :
    carryRundownRead (beBytes 2 start ++ beBytes 1 count) s
      = accept (beBytes 2 s.items.length ++ beBytes 2 s.revision ++ beBytes 2 start
          ++ beBytes 1 ((s.items.drop start).take count).length
          ++ ((s.items.drop start).take count).flatMap itemSummary ++ walkBytes s) s := by
  rw [carryRundownRead, takeNumbers_two (by omega) (by omega)]
  exact if_neg (by omega)

theorem carryItemRead_found {id : StoryId} {i : Item} {s : State} (h0 : id ≠ 0) (h : id < 256 ^ 4)
    (hi : findItem s id = some i) : carryItemRead (beBytes 4 id) s = accept (itemImage s i) s := by
  simp [carryItemRead, takeNumbers_beBytes_last 4 id h, h0, hi]

theorem carryElementRead_found {id : StoryId} {tag : Tag} {i : Item} {e : Element} {s : State} (h0 : id ≠ 0)
    (ht0 : tag ≠ 0) (h : id < 256 ^ 4) (ht : tag < 256) (hi : findItem s id = some i)
    (he : i.findElement tag = some e) :
    carryElementRead (beBytes 4 id ++ beBytes 1 tag) s = accept (elementImage i e) s := by
  simp [carryElementRead, takeNumbers_two h (show tag < 256 ^ 1 by omega), h0, ht0, hi, he]

/-- A request whose carrying out is accepted without a change answers and changes nothing else. -/
theorem serve_read {code : Byte} {body : List Byte} {rest : List RequestEntry} {s : State} (hw : Waiting code body rest s)
    {act : List Byte → State → Reply} {contents : List Byte}
    (h : act body (takeHead rest s) = accept contents (takeHead rest s)) :
    Host.Outcome.next (φ := Fault) (ρ := Refusal) (serve code act s)
      = .next (pushResponse code (0#8 :: contents) (takeHead rest s)) := by
  rw [serve_waiting hw, h]
  rfl

/-- Settles O32. -/
theorem showReadsOnlyAnswer : Obligations.ShowReadsOnlyAnswer := by
  intro s rest s0
  refine ⟨fun hw => serve_read hw rfl, fun l hh hm hs hf hv hw => serve_read hw (carryTcConvert_label hh hm hs hf hv),
    fun f hf hw => serve_read hw (carryTcConvert_frame hf),
    fun id i h0 h hi hw => serve_read hw (carryItemRead_found h0 h hi),
    fun id tag i e h0 ht0 h ht hi he hw => serve_read hw (carryElementRead_found h0 ht0 h ht hi he),
    fun start count hs hl h1 h8 hw => serve_read hw (carryRundownRead_in_range hs hl h1 h8),
    fun hw => serve_read hw rfl, fun hw => serve_read hw rfl,
    fun start count hs hl h1 h8 hw => serve_read hw (carryArmRead_queue hs hl h1 h8),
    fun start count hs hl h1 h8 hw => serve_read hw (carryArmRead_waiting hs hl h1 h8)⟩

/-! ### Reset (R211) -/

/-- Settles O3. -/
theorem resetMeetsInvariants : Obligations.ResetMeetsInvariants := by
  refine ⟨⟨by decide, by decide, by decide, by decide, by decide, by decide, by decide, by decide, by decide⟩,
    fun _ => rfl, fun _ => rfl⟩

end Sys2Proof.Machine
end

