-- ==== Sys2Proof/Proofs/Operations.lean ====
section
/-! What every shared operation keeps, proved once for all relations: a relation of two states that holds across each
single update holds across each operation of chapters 2 to 9 that is made of such updates. -/

namespace Sys2Proof.Machine

/-- The relation composes and holds across every single update that the shared operations are made of.  An item keeps
what the host put in it, the sequencer its plan parameters, a command is taken by a READY port, and no cue list grows
beyond its capacity. -/
structure Carries (R : State → State → Prop) : Prop where
  refl : ∀ s, R s s
  trans : ∀ {a b c}, R a b → R b c → R a c
  notice : ∀ k a b c d s, R s (raiseNotice k a b c d s)
  missed : ∀ s, R s (setMissed s)
  item : ∀ id f s, (∀ i, (f i).hosted = i.hosted) → R s (modifyItem id f s)
  sequencer : ∀ (q : Sequencer) s, q.planStart = s.seq.planStart → q.margin = s.seq.margin →
    q.takeGuard = s.seq.takeGuard → R s { s with seq := q }
  walkTrigger : ∀ s, R s (triggerWalk s)
  walkResults : ∀ s, R s (writeWalk s)
  entryPlaced : ∀ e s, R s (placeEntry e s)
  queue : ∀ (q : List ArmEntry) s, q.length ≤ s.sched.queue.length →
    R s { s with sched := { s.sched with queue := q } }
  detach : ∀ id tag s, R s (detach id tag s)
  portSettled : ∀ p failure s, R s (modifyPort p (Port.settle failure) s)
  commandTaken : ∀ p f ref a s, s.ports[p].state = .ready → R s (takeCommand p f ref a s)
  takePulseEnd : ∀ p s, R s (takePulseEnd p s)
  display : ∀ d f s, (f s.displays[d]).cues.length ≤ max s.displays[d].cues.length Config.cueList →
    R s (modifyDisplay d f s)
  edgeTaken : ∀ n s, R s (modifyInput n takeEdge s)
  tick : ∀ (w : TickWork) s, R s { s with tick := w }

/-! ### Cue lists -/

theorem dropHead_length (day cfn : Nat) (d : Display) : (dropHead day cfn d).cues.length = d.cues.length - 1 := by
  obtain h | ⟨c, l, h⟩ : d.cues.tail = [] ∨ ∃ c l, d.cues.tail = c :: l := by
    cases d.cues.tail <;> simp
  all_goals simp [dropHead, changeHead, resetCrawl, h, headTakesExpiry, ← List.length_tail]

theorem dropHead_length_le (day cfn : Nat) (d : Display) : (dropHead day cfn d).cues.length ≤ d.cues.length := by
  rw [dropHead_length]
  omega

theorem joinCue_length (day cfn : Nat) (c : Cue) (d : Display) :
    (joinCue day cfn c d).cues.length = d.cues.length + 1 := by
  cases h : d.cues <;> simp [joinCue, h, changeHead, resetCrawl, headTakesExpiry]

namespace Carries

variable {R : State → State → Prop} (h : Carries R)
include h

/-! ### Ways to compose -/

theorem foldl {α : Type} {f : State → α → State} (hf : ∀ s a, R s (f s a)) (l : List α) (s : State) :
    R s (l.foldl f s) := by
  induction l generalizing s with
  | nil => exact h.refl s
  | cons a l ih => exact h.trans (hf s a) (ih _)

theorem foldScan {f : ScanState → ArmEntry → ScanState} (hf : ∀ c q, R c.state (f c q).state) (l : List ArmEntry)
    (c : ScanState) : R c.state (l.foldl f c).state := by
  induction l generalizing c with
  | nil => exact h.refl _
  | cons q l ih => exact h.trans (hf c q) (ih _)

theorem elim {α : Type} {f : α → State} {s : State} (hf : ∀ a, R s (f a)) (o : Option α) : R s (o.elim s f) := by
  cases o with
  | none => exact h.refl s
  | some a => exact hf a

/-- An operation that is made only if a condition holds. -/
theorem when {p : Prop} [Decidable p] {s a : State} (ha : p → R s a) : R s (if p then a else s) := by
  split
  · exact ha ‹p›
  · exact h.refl s

omit h in
theorem ite {p : Prop} [Decidable p] {s a b : State} (ha : R s a) (hb : R s b) : R s (if p then a else b) := by
  split
  · exact ha
  · exact hb

/-! ### Displays -/

protected theorem drive (n : Fin 4) (s : State) : R s (drive n s) := by
  refine h.display _ _ _ ?_
  obtain ⟨c, i, g, f, w, hd⟩ := driveLine_record s.busy[n] s.clock s.displays[n]
  rw [hd]
  exact le_max_left ..

protected theorem render (n : Fin 4) (s : State) : R s (render n s) :=
  h.trans (h.display _ _ _ (le_max_left ..)) (h.drive ..)

protected theorem renderAll (s : State) : R s (renderAll s) := h.foldl (fun s n => h.render n s) _ _

protected theorem renderThose (p : Fin 4 → Bool) (s : State) : R s (renderThose p s) :=
  h.foldl (fun s n => h.render n s) _ _

protected theorem acknowledge (n : Fin 4) (s : State) : R s (acknowledge n s) := by
  unfold acknowledge
  split
  · exact h.refl s
  · exact h.trans (h.display _ _ _ (le_max_of_le_left (dropHead_length_le ..))) (h.notice ..)

protected theorem deliverCue (c : Cue) (s : State) (n : Fin 4) : R s (deliverCue c s n) := by
  have hjoin : s.displays[n].cues.length < Config.cueList → R s (modifyDisplay n (joinCue s.day s.cfn c) s) := by
    intro hn
    refine h.display _ _ _ (le_max_of_le_right ?_)
    rw [joinCue_length]
    exact hn
  unfold deliverCue
  split
  · rename_i hc
    exact hjoin (by rw [hc]; decide)
  · rename_i hc
    split
    · exact hjoin ‹_›
    · refine h.trans (h.display _ _ _ (le_max_of_le_left ?_)) (h.notice ..)
      rw [joinCue_length, dropHead_length, hc]
      rfl

protected theorem expireHead (n : Fin 4) (s : State) : R s (expireHead n s) := by
  unfold expireHead
  split
  · exact h.refl s
  · exact h.when fun _ => h.trans (h.display _ _ _ (le_max_of_le_left (dropHead_length_le ..))) (h.notice ..)

protected theorem advanceCrawl (n : Fin 4) (s : State) : R s (advanceCrawl n s) :=
  h.when fun _ => h.display _ _ _ (le_max_left ..)

protected theorem busyTest (n : Fin 4) (s : State) : R s (busyTest n s) :=
  h.when fun _ => h.trans (h.display _ _ _ (le_max_left ..)) (h.notice ..)

protected theorem displayTick (n : Fin 4) (s : State) : R s (displayTick n s) :=
  h.when fun _ => h.trans (h.expireHead ..) (h.trans (h.advanceCrawl ..) (h.trans (h.busyTest ..) (h.render ..)))

/-! ### Ports -/

protected theorem settlePort (p : Fin 16) (failure : Bool) (s : State) : R s (settlePort p failure s) :=
  ite (h.trans (h.portSettled ..) (h.notice ..)) (h.portSettled ..)

/-- An element change that leaves what the host put in the element. -/
theorem element {f : Element → Element} (hf : ∀ e, (f e).hosted = e.hosted) (id : StoryId) (tag : Tag) (s : State) :
    R s (modifyElement id tag f s) := by
  refine h.item _ _ _ fun i => ?_
  simp only [Item.hosted, List.map_map, HostedItem.mk.injEq, true_and]
  refine List.map_congr_left fun e _ => ?_
  simp only [Function.comp_apply]
  split
  · exact hf e
  · rfl

protected theorem failElement (p : Fin 16) (c : Cause) (r : Option (StoryId × Tag)) (s : State) :
    R s (failElement p c r s) := by
  unfold failElement
  split
  · exact h.refl s
  · exact h.trans (h.element (by intro; rfl) ..) (h.trans (h.notice ..) (h.missed _))

protected theorem takeDeadline (p : Fin 16) (s : State) : R s (takeDeadline p s) := by
  unfold takeDeadline
  split
  · exact h.refl s
  · exact h.when fun _ => h.trans (h.failElement ..) (h.settlePort ..)

/-! ### The arm queue -/

protected theorem removeEntry (id : StoryId) (tag : Tag) (s : State) : R s (removeEntry id tag s) :=
  h.queue _ _ (List.length_filter_le ..)

protected theorem deferEntry (id : StoryId) (tag : Tag) (s : State) : R s (deferEntry id tag s) :=
  h.queue _ _ (List.length_map ..).le

protected theorem armElement (id : StoryId) (tag : Tag) (s : State) : R s (armElement id tag s) := by
  unfold armElement
  split
  · exact h.refl s
  · split
    · exact ite (h.trans (h.element (by intro; rfl) ..) (h.entryPlaced ..)) (h.element (by intro; rfl) ..)
    · exact h.refl s

protected theorem armIdle (id : StoryId) (s : State) : R s (armIdle id s) := h.foldl (fun s t => h.armElement id t s) _ _

protected theorem fillFromWaiting (s : State) : R s (fillFromWaiting s) :=
  h.foldl (fun s (w : StoryId × Element) => h.when fun _ => h.armElement w.1 w.2.tag s) _ _

protected theorem withdrawElement (id : StoryId) (tag : Tag) (s : State) : R s (withdrawElement id tag s) :=
  h.trans (h.element (by intro; rfl) ..) (h.removeEntry ..)

protected theorem withdrawItem (id : StoryId) (s : State) : R s (withdrawItem id s) :=
  h.trans (h.foldl (fun s t => h.withdrawElement id t s) _ _) (h.item _ _ _ (by intro; rfl))

protected theorem orphanElement (id : StoryId) (tag : Tag) (s : State) : R s (orphanElement id tag s) := by
  unfold orphanElement
  split
  · exact h.refl s
  · exact h.trans (h.when fun _ => h.detach ..) (h.trans (h.element (by intro; rfl) ..) (h.notice ..))

protected theorem orphanItem (id : StoryId) (s : State) : R s (orphanItem id s) :=
  h.foldl (fun s t => h.orphanElement id t s) _ _

protected theorem retimeEntry (sweep : Bool) (f : Frame) (e : ArmEntry) (s : State) : R s (retimeEntry sweep f e s) :=
  h.trans (h.removeEntry ..) (h.entryPlaced ..)

protected theorem retimeElement (id : StoryId) (c : ArmContext) (s : State) (e : Element) :
    R s (retimeElement id c s e) := by
  unfold retimeElement
  split
  · exact h.refl s
  · exact ite (h.refl s) (h.retimeEntry ..)

protected theorem retimeItem (p : Element → Bool) (id : StoryId) (c : ArmContext) (s : State) :
    R s (retimeItem p id c s) :=
  h.trans (h.item _ _ _ (by intro; rfl)) (h.foldl (fun s e => h.retimeElement id c s e) _ _)

protected theorem sweepToEnd (id : StoryId) (f : Frame) (s : State) : R s (sweepToEnd id f s) := by
  refine h.trans (h.item _ _ _ (by intro; rfl)) (h.foldl (fun s q => h.when fun _ => ?_) _ _)
  split
  · exact h.when fun _ => h.retimeEntry ..
  · exact h.refl s

protected theorem raiseMissed (id : StoryId) (tag : Tag) (s : State) : R s (raiseMissed id tag s) := by
  unfold raiseMissed
  split
  · exact h.refl s
  · exact h.trans (h.notice ..) (h.missed _)

protected theorem deliverEntry (q : ArmEntry) (s : State) : R s (deliverEntry q s) := by
  unfold deliverEntry
  split
  · exact h.removeEntry ..
  · split
    · exact h.trans (h.foldl (fun s n => h.deliverCue _ s n) _ _)
        (h.trans (h.removeEntry ..) (h.element (by intro; rfl) ..))
    · exact h.removeEntry ..

/-- A port that takes an offer is READY (R146), so the entry's command is taken by a READY port. -/
protected theorem offerEntry (q : ArmEntry) (p : Fin 16) (c : ScanState) : R c.state (offerEntry q p c).state := by
  unfold offerEntry
  split
  · exact h.removeEntry ..
  · split
    · rename_i ht
      have hready : c.state.ports[p].state = .ready := by
        simp only [offerTakes, Bool.and_eq_true, beq_iff_eq] at ht
        exact ht.1.1.1
      exact h.trans (h.removeEntry q.story q.tag _)
        (h.trans (h.commandTaken _ _ _ _ _ hready) (h.element (by intro; rfl) ..))
    · exact h.deferEntry ..

protected theorem treatEntry (c : ScanState) (q : ArmEntry) : R c.state (treatEntry c q).state := by
  have hmiss : ∀ cause, R c.state (missEntry q cause c).state := fun _ =>
    h.trans (h.removeEntry ..) (h.element (by intro; rfl) ..)
  unfold treatEntry
  split
  · exact h.deliverEntry ..
  · split
    · exact hmiss _
    · split
      · exact hmiss _
      · split
        · exact h.deferEntry ..
        · exact h.offerEntry ..

protected theorem scanEntry (c : ScanState) (q : ArmEntry) : R c.state (scanEntry c q).state := by
  unfold scanEntry
  split
  · exact h.trans (h.treatEntry { c with missed := [] } q)
      (h.foldl (fun s (m : StoryId × Tag) => h.raiseMissed m.1 m.2 s) _ _)
  · exact h.refl _

protected theorem scanQueue (s : State) : R s (scanQueue s) :=
  h.trans (h.foldScan h.scanEntry s.sched.queue ⟨s, [], [], []⟩) (h.trans (h.fillFromWaiting _) (h.renderThose ..))

protected theorem missRemaining (id : StoryId) (s : State) : R s (missRemaining id s) :=
  h.trans (h.foldl (fun _ _ => h.trans (h.removeEntry ..) (h.element (by intro; rfl) ..)) _ _)
    (h.item _ _ _ (by intro; rfl))

protected theorem reportMissed (id : StoryId) (b : List Tag) (s : State) : R s (reportMissed id b s) :=
  h.foldl (fun s t => h.raiseMissed id t s) _ _

protected theorem endItem (id : StoryId) (s : State) : R s (endItem id s) :=
  h.trans (h.foldScan h.treatEntry _ ⟨s, [], [], []⟩) (h.trans (h.missRemaining ..) (h.reportMissed ..))

protected theorem stopItem (id : StoryId) (s : State) : R s (stopItem id s) :=
  h.trans (h.missRemaining ..) (h.reportMissed ..)

protected theorem rearmBusy (p : Fin 16) (c : Outstanding) (id : StoryId) (tag : Tag) (s : State) :
    R s (rearmBusy p c id tag s) := by
  unfold rearmBusy
  split
  · exact ite (h.trans (h.element (by intro; rfl) ..) (h.entryPlaced ..))
      (h.trans (h.element (by intro; rfl) ..) (h.trans (h.notice ..) (h.missed _)))
  · exact h.refl s

/-! ### The Show Sequencer -/

protected theorem raiseStandbyIfMoved (b : Option StoryId) (s : State) : R s (raiseStandbyIfMoved b s) :=
  ite (h.refl s) (h.notice ..)

protected theorem setShow (m : ShowState) (s : State) : R s (setShow m s) :=
  ite (h.refl s) (h.trans (h.sequencer _ _ (by rfl) (by rfl) (by rfl)) (h.notice ..))

protected theorem closeShowEvent (s : State) : R s (closeShowEvent s) :=
  h.trans (h.fillFromWaiting s) (h.renderAll _)

protected theorem leaveStandby (id : StoryId) (s : State) : R s (leaveStandby id s) :=
  h.trans (h.item _ _ _ (by intro; rfl)) (h.trans (h.withdrawItem ..) (h.orphanItem ..))

protected theorem enterStandby (a b : Bool) (id : StoryId) (s : State) : R s (enterStandby a b id s) :=
  h.item _ _ _ (by intro; rfl)

protected theorem chooseStandby (s : State) : R s (chooseStandby s) := by
  unfold chooseStandby
  refine ite (h.refl s) ?_
  have hleave : ∀ chosen : Option StoryId, R s (match standbyId s with
      | some old => if chosen = some old then s else leaveStandby old s
      | none => s) := by
    intro chosen
    split
    · exact ite (h.refl s) (h.leaveStandby ..)
    · exact h.refl s
  dsimp only
  split
  · exact h.trans (hleave _) (h.enterStandby ..)
  · exact hleave _

protected theorem announceStandby (b : Option StoryId) (s : State) : R s (announceStandby b s) :=
  ite (h.refl s) (h.trans (h.notice ..) (h.trans (h.walkTrigger _) (h.closeShowEvent _)))

protected theorem reselect (b : Option StoryId) (s : State) : R s (reselect b s) :=
  ite (h.announceStandby ..) (h.trans (h.chooseStandby s) (h.announceStandby ..))

protected theorem endNomination (id : StoryId) (s : State) : R s (endNomination id s) :=
  h.when fun _ => h.sequencer _ _ (by rfl) (by rfl) (by rfl)

protected theorem scheduleTake (id : StoryId) (f : Frame) (d : Nat) (s : State) : R s (scheduleTake id f d s) := by
  have hsweep : R s (((onairId s).map (fun o => sweepToEnd o f s)).getD s) := by
    cases onairId s with
    | none => exact h.refl s
    | some o => exact h.sweepToEnd ..
  exact h.trans hsweep (h.trans (h.retimeItem ..) (h.armIdle ..))

protected theorem acceptTake (i : Item) (s : State) : R s (acceptTake i s) :=
  h.trans (h.item _ _ s (by intro; rfl)) (h.trans (h.endNomination ..) (h.trans (h.sequencer _ _ (by rfl) (by rfl) (by rfl))
    (h.trans (h.scheduleTake ..) (h.trans (h.walkTrigger _) (h.trans (h.notice ..)
      (h.trans (h.setShow ..) (h.closeShowEvent _)))))))

protected theorem finishOutgoing (v : Nat) (f : Frame) (id : StoryId) (s : State) : R s (finishOutgoing v f id s) :=
  h.trans (h.item _ _ _ (by intro; rfl)) (h.trans (h.notice ..) (h.endItem ..))

protected theorem dropItem (j : StoryId) (s : State) (id : StoryId) : R s (dropItem j s id) :=
  h.trans (h.item _ _ _ (by intro; rfl)) (h.notice ..)

protected theorem scheduleEntry (id : StoryId) (s : State) : R s (scheduleEntry id s) := by
  unfold scheduleEntry
  split
  · exact h.refl s
  · exact h.trans (h.retimeItem ..) (h.armIdle ..)

protected theorem enterAir (path : AirPath) (id : StoryId) (af : Frame) (s : State) : R s (enterAir path id af s) := by
  unfold enterAir
  refine h.trans ?_ (h.trans (h.chooseStandby _) (h.trans (h.raiseStandbyIfMoved ..)
    (h.trans (h.walkTrigger _) (h.closeShowEvent _))))
  refine h.trans ?_ (h.foldl (fun s i => h.dropItem id s i) _ _)
  refine h.trans ?_ (h.trans (h.elim (fun o => h.finishOutgoing ..) _) (h.scheduleEntry ..))
  refine h.trans ?_ (h.trans (h.sequencer _ _ (by rfl) (by rfl) (by rfl)) (h.notice ..))
  exact h.trans (h.elim (fun o => h.item _ _ _ (by intro; rfl)) _)
    (h.trans (h.item _ _ _ (by intro; rfl)) (h.endNomination ..))

protected theorem stepAirFrame (s : State) : R s (stepAirFrame s) := by
  unfold stepAirFrame
  split
  · exact h.refl s
  · exact h.enterAir ..

protected theorem stepJunction (s : State) : R s (stepJunction s) := by
  unfold stepJunction
  split
  · exact h.refl s
  · exact h.enterAir ..

protected theorem endShow (i : Item) (f : Frame) (s : State) : R s (endShow i f s) :=
  h.trans (h.finishOutgoing ..) (h.trans (h.walkTrigger _) (h.trans (h.setShow ..) (h.closeShowEvent _)))

protected theorem stepFollow (s : State) : R s (stepFollow s) := by
  unfold stepFollow
  split
  · exact h.refl s
  · dsimp only
    split
    · exact h.endShow ..
    · exact ite (h.refl s) (h.enterAir ..)

protected theorem stepOverdue (s : State) : R s (stepOverdue s) := by
  unfold stepOverdue
  split
  · exact h.refl s
  · exact h.sequencer _ _ (by rfl) (by rfl) (by rfl)

protected theorem captureJunction (j : Item) (s : State) : R s (captureJunction j s) := by
  have hleave : ∀ s1 : State, R s s1 → R s (match standbyId s with
      | some old => if old = j.id then s1 else leaveStandby old s1
      | none => s1) := by
    intro s1 h1
    split
    · exact ite h1 (h.trans h1 (h.leaveStandby ..))
    · exact h1
  exact h.trans (hleave _ (h.sequencer _ s (by rfl) (by rfl) (by rfl))) (h.trans (h.enterStandby ..)
    (h.trans (h.raiseStandbyIfMoved ..) (h.trans (h.notice ..) (h.trans (h.retimeItem ..)
      (h.trans (h.armIdle ..) (h.walkTrigger _))))))

protected theorem captureTest (s : State) : R s (captureTest s) := by
  unfold captureTest
  split
  · exact h.refl s
  · exact ite (h.trans (h.captureJunction ..) (h.trans (h.notice ..) (h.enterAir ..)))
      (h.trans (h.captureJunction ..) (h.closeShowEvent _))

protected theorem takePhase (s : State) : R s (takePhase s) := by
  unfold takePhase
  split
  · exact h.trans (h.stepAirFrame s) (h.tick ..)
  · exact h.trans (h.stepJunction s) (h.tick ..)
  · exact h.trans (h.stepFollow s) (h.trans (h.stepOverdue _) (h.tick ..))
  · exact h.trans (h.captureTest s) (h.tick ..)
  · exact h.refl s

protected theorem passPhases (k : Nat) (s : State) : R s (passPhases k s) := by
  induction k generalizing s with
  | zero => exact h.refl s
  | succ k ih => exact ite (h.refl s) (h.trans (h.takePhase s) (ih _))

protected theorem finishPhases (s : State) : R s (finishPhases s) :=
  h.trans (h.takePhase s) (h.trans (h.takePhase _) (h.trans (h.takePhase _) (h.takePhase _)))

protected theorem takeNamedPhase (p : TickPhase) (s : State) : R s (takeNamedPhase p s) :=
  h.when fun _ => h.trans (h.passPhases 4 s) (h.trans (h.takePhase _) (h.tick ..))

protected theorem settleSteps (s : State) : R s (settleSteps s) := h.when fun _ => h.finishPhases s

/-! ### The walk -/

protected theorem updateEnd (i : Item) (f : Frame) (s : State) : R s (updateEnd i f s) :=
  ite (h.refl s) (h.retimeItem ..)

protected theorem updateStandby (s : State) : R s (updateStandby s) := by
  unfold updateStandby
  split
  · exact h.refl s
  · split
    · exact ite (h.retimeItem ..) (h.trans (h.retimeItem ..) (h.armIdle ..))
    · exact h.when fun _ => h.withdrawItem ..

protected theorem retimeAtCompletion (s : State) : R s (retimeAtCompletion s) :=
  h.trans (h.elim (fun _ => h.updateEnd ..) _) (h.trans (h.elim (fun _ => h.updateEnd ..) _) (h.updateStandby _))

protected theorem completeWalk (s : State) : R s (completeWalk s) :=
  h.trans (h.walkResults s) (h.trans (h.retimeAtCompletion _) (h.trans (h.captureTest _) (h.closeShowEvent _)))

/-! ### Panel inputs -/

protected theorem holdShow (s : State) : R s (holdShow s) := by
  refine h.trans ?_ (h.trans (h.setShow ..) (h.trans (h.walkTrigger _) (h.closeShowEvent _)))
  split
  · exact ite (h.refl s) (h.withdrawItem ..)
  · exact h.refl s

protected theorem releaseShow (s : State) : R s (releaseShow s) :=
  h.trans (h.setShow ..) (h.trans (h.walkTrigger _) (h.closeShowEvent _))

protected theorem panelTakeShow (n : Fin 8) (s : State) : R s (panelTakeShow n s) := by
  unfold panelTakeShow
  split
  · exact h.acceptTake ..
  · exact h.notice ..
  · exact h.notice ..
  · exact h.refl s
  · exact h.refl s

protected theorem panelToggleHold (s : State) : R s (panelToggleHold s) := by
  unfold panelToggleHold
  split
  · exact h.holdShow s
  · exact h.releaseShow s
  · exact h.refl s
  · exact h.refl s

protected theorem performFunction (n : Fin 8) (s : State) : R s (performFunction n s) := by
  unfold performFunction
  split
  · exact h.refl s
  · exact h.panelTakeShow ..
  · exact h.panelToggleHold s
  · exact ite (h.refl s) (h.trans (h.acknowledge ..) (h.render ..))
  · exact h.notice ..

protected theorem performEdge (n : Fin 8) (s : State) : R s (performEdge n s) :=
  ite (h.trans (h.edgeTaken ..) (h.performFunction ..)) (h.edgeTaken ..)

/-! ### Completing a tick -/

protected theorem takeScan (s : State) : R s (takeScan s) := h.when fun _ => h.trans (h.tick ..) (h.scanQueue _)

protected theorem finishWork (s : State) : R s (finishWork s) :=
  h.trans (h.finishPhases s) (h.trans (h.takeScan _)
    (h.trans (h.foldl (fun s p => h.trans (h.takeDeadline p s) (h.takePulseEnd p _)) _ _)
      (h.trans (h.foldl (fun s n => h.displayTick n s) _ _)
        (h.trans (h.foldl (fun s n => h.when fun _ => h.performEdge n s) _ _) (h.tick ..)))))

protected theorem settleTick (s : State) : R s (settleTick s) := h.when fun _ => h.finishWork s

end Carries
end Sys2Proof.Machine
end

