-- ==== Sys2Proof/Proofs/Requests.lean ====
section
/-! What no command but the reference's own, RATE_SET, SHOW_PLAN, STATUS_CLEAR, a reset and the passing of cycles
changes: the Reference Timing Unit, RESET_SEEN, the plan parameters and the ranges of the counters. -/

namespace Sys2Proof.Machine

/-- The plan parameters stand, and the order revision, the walk generation and the arming counter stay in their
ranges (R22, R86, R90, R114). -/
structure Ranged (s t : State) : Prop where
  planStart : t.seq.planStart = s.seq.planStart
  margin : t.seq.margin = s.seq.margin
  takeGuard : t.seq.takeGuard = s.seq.takeGuard
  revision : s.revision < 65536 → t.revision < 65536
  generation : s.engine.generation < 65536 → t.engine.generation < 65536
  counter : s.sched.counter < 65536 → t.sched.counter < 65536

/-- Beside that the Reference Timing Unit and RESET_SEEN stand. -/
structure Kept (s t : State) : Prop extends Ranged s t where
  rtu : t.rtu = s.rtu
  resetSeen : t.link.resetSeen = s.link.resetSeen

theorem Ranged.refl (s : State) : Ranged s s := ⟨rfl, rfl, rfl, id, id, id⟩

theorem Ranged.trans {a b c : State} (h : Ranged a b) (k : Ranged b c) : Ranged a c where
  planStart := k.planStart.trans h.planStart
  margin := k.margin.trans h.margin
  takeGuard := k.takeGuard.trans h.takeGuard
  revision x := k.revision (h.revision x)
  generation x := k.generation (h.generation x)
  counter x := k.counter (h.counter x)

theorem Kept.refl (s : State) : Kept s s := ⟨.refl s, rfl, rfl⟩

theorem Kept.trans {a b c : State} (h : Kept a b) (k : Kept b c) : Kept a c :=
  ⟨h.toRanged.trans k.toRanged, k.rtu.trans h.rtu, k.resetSeen.trans h.resetSeen⟩

/-- A change of the fields that no range is about. -/
theorem Kept.of_parts {s : State} (items : List Item) (q : List ArmEntry) (profiles : Vector Profile 8)
    (groups : Vector Group 4) (ports : Vector Port 16) (displays : Vector Display 4) (inputs : Vector PanelInput 8)
    (tick : TickWork) (busy : Vector Level 4) :
    Kept s { s with items, sched := { s.sched with queue := q }, profiles, groups, ports, displays, inputs, tick, busy } :=
  ⟨⟨rfl, rfl, rfl, id, id, id⟩, rfl, rfl⟩

/-- A change of the link that leaves RESET_SEEN. -/
theorem Kept.of_link {s : State} {l : Link} (h : l.resetSeen = s.link.resetSeen) : Kept s { s with link := l } :=
  ⟨⟨rfl, rfl, rfl, id, id, id⟩, rfl, h⟩

theorem raiseNotice_kept (k : NoticeKind) (a b c d : Nat) (s : State) : Kept s (raiseNotice k a b c d s) := by
  obtain ⟨-, -, -, -, -, hseen, -⟩ := pushNotice_kept ⟨k, s.cfn, a, b, c, d⟩ s.link
  exact .of_link hseen

/-- Every shared operation keeps them: the sequence number and the generation count modulo 65536. -/
theorem carries_kept : Carries Kept where
  refl := .refl
  trans := .trans
  notice := raiseNotice_kept
  missed _ := .of_link rfl
  item _ _ _ _ := .of_parts ..
  sequencer _ _ h1 h2 h3 := ⟨⟨h1, h2, h3, id, id, id⟩, rfl, rfl⟩
  walkTrigger _ := ⟨⟨rfl, rfl, rfl, id, id, id⟩, rfl, rfl⟩
  walkResults _ := ⟨⟨rfl, rfl, rfl, id, fun _ => Nat.mod_lt _ (by decide), id⟩, rfl, rfl⟩
  entryPlaced _ _ := ⟨⟨rfl, rfl, rfl, id, id, fun _ => Nat.mod_lt _ (by decide)⟩, rfl, rfl⟩
  queue _ _ _ := .of_parts ..
  detach _ _ _ := .of_parts ..
  portSettled _ _ _ := .of_parts ..
  commandTaken p f ref a s _ := by
    unfold takeCommand
    cases s.ports[p].group with
    | none => exact .of_parts ..
    | some g => exact .of_parts ..
  takePulseEnd p s := by
    unfold takePulseEnd
    split
    · exact .of_parts ..
    · exact .refl s
  display _ _ _ _ := .of_parts ..
  edgeTaken _ _ := .of_parts ..
  tick _ _ := .of_parts ..

/-! ### Requests -/

theorem takeHead_kept (rest : List RequestEntry) (s : State) : Kept s (takeHead rest s) :=
  (Kept.of_link (l := { s.link with requests := rest }) rfl).trans (carries_kept.settleTick _)

/-- A dispatch keeps what the carrying out of the request keeps. -/
theorem dispatch_kept {p : RequestEntry → Bool} {act : RequestEntry → State → Reply}
    (h : ∀ e s, Kept s (act e s).1) (s : State) : Kept s (dispatch p act s) := by
  obtain hd | ⟨e, rest, -, -, -, hd⟩ := dispatch_cases p act s
  · rw [hd]
    exact .refl s
  · rw [hd]
    exact (takeHead_kept rest s).trans ((h e _).trans (.of_link rfl))

theorem serve_kept {code : Byte} {act : List Byte → State → Reply} (h : ∀ body s, Kept s (act body s).1)
    (s : State) : Kept s (serve code act s) := dispatch_kept (fun e => h e.body) s

theorem bodyless_kept {act : State → Reply} (h : ∀ s, Kept s (act s).1) (body : List Byte) (s : State) :
    Kept s (bodyless act body s).1 := by
  unfold bodyless
  split
  · exact h s
  · exact .refl s

theorem judgeEdit_kept {ids : List Byte} {checks : List (Bool × Result)} {act : State → Reply} {s : State}
    (h : Kept s (act s).1) : Kept s (judgeEdit ids checks act s).1 := by
  obtain hj | ⟨c, -, -, hj⟩ := judgeEdit_cases ids checks act s
  · rw [hj]
    exact h
  · rw [hj]
    exact .refl s

/-! ### Requests of the Rundown Store (chapters 2 and 3) -/

theorem bumpRevision_kept (s : State) : Kept s (bumpRevision s) :=
  ⟨⟨rfl, rfl, rfl, fun _ => Nat.mod_lt _ (by decide), id, id⟩, rfl, rfl⟩

theorem closeItemEdit_kept (before : Option StoryId) (s : State) : Kept s (closeItemEdit before s) :=
  (carries_kept.walkTrigger s).trans (carries_kept.reselect ..)

theorem insertItem_kept (b : InsertBody) (s : State) : Kept s (insertItem b s) :=
  Kept.trans (.of_parts ..) ((bumpRevision_kept _).trans (closeItemEdit_kept ..))

theorem carryItemInsert_kept (body : List Byte) (s : State) : Kept s (carryItemInsert body s).1 := by
  unfold carryItemInsert
  split
  · exact .refl s
  · exact judgeEdit_kept (insertItem_kept ..)

theorem amendItem_kept (b : AmendBody) (i : Item) (s : State) : Kept s (amendItem b i s) := by
  have hk := carries_kept
  exact Kept.trans (.of_parts ..) ((hk.when fun _ => hk.walkTrigger _).trans
    ((hk.when fun _ => hk.reselect ..).trans (hk.when fun _ => hk.renderAll _)))

theorem carryItemAmend_kept (body : List Byte) (s : State) : Kept s (carryItemAmend body s).1 := by
  unfold carryItemAmend
  split
  · exact .refl s
  · exact judgeEdit_kept (carries_kept.elim (fun i => amendItem_kept _ i s) _)

theorem moveItem_kept (i : Item) (place : StoryId) (s : State) : Kept s (moveItem i place s) :=
  Kept.trans (.of_parts ..) ((bumpRevision_kept _).trans (closeItemEdit_kept ..))

theorem carryItemMove_kept (body : List Byte) (s : State) : Kept s (carryItemMove body s).1 := by
  unfold carryItemMove
  split
  · exact judgeEdit_kept (carries_kept.elim (fun i => moveItem_kept i _ s) _)
  · exact .refl s

theorem releaseReferences_kept (id : StoryId) (s : State) : Kept s (releaseReferences id s) :=
  (carries_kept.endNomination id s).trans
    (carries_kept.when fun _ => carries_kept.sequencer _ _ (by rfl) (by rfl) (by rfl))

theorem removeItem_kept (id : StoryId) (s : State) : Kept s (removeItem id s) :=
  ⟨⟨rfl, rfl, rfl, fun h => h, fun h => h, fun h => h⟩, rfl, rfl⟩

theorem retireElements_kept (i : Item) (s : State) : Kept s (retireElements i s) :=
  (carries_kept.withdrawItem ..).trans
    (Carries.ite (carries_kept.orphanItem ..) (carries_kept.foldl (fun s t => carries_kept.detach i.id t s) _ _))

theorem retireItem_kept (i : Item) (s : State) : Kept s (retireItem i s) :=
  (retireElements_kept i s).trans ((releaseReferences_kept ..).trans ((removeItem_kept ..).trans
    ((bumpRevision_kept _).trans (closeItemEdit_kept ..))))

theorem carryItemRetire_kept (body : List Byte) (s : State) : Kept s (carryItemRetire body s).1 := by
  unfold carryItemRetire
  split
  · rename_i id _
    refine judgeEdit_kept ?_
    cases findItem s id with
    | none => exact .refl s
    | some i => exact retireItem_kept i s
  · exact .refl s

theorem resetItem_kept (id : StoryId) (s : State) : Kept s (resetItem id s) :=
  (carries_kept.foldl (fun s t => carries_kept.detach id t s) _ _).trans
    (Kept.trans (.of_parts ..) (closeItemEdit_kept ..))

theorem carryItemReset_kept (body : List Byte) (s : State) : Kept s (carryItemReset body s).1 := by
  unfold carryItemReset
  split
  · exact judgeEdit_kept (resetItem_kept ..)
  · exact .refl s

theorem addElement_kept (h : AddHead) (i : Item) (e : Element) (s : State) : Kept s (addElement h i e s) :=
  Kept.trans (.of_parts ..) (carries_kept.when fun _ => carries_kept.armElement ..)

theorem carryElementAdd_kept (body : List Byte) (s : State) : Kept s (carryElementAdd body s).1 := by
  unfold carryElementAdd
  split
  · exact .refl s
  · refine judgeEdit_kept ?_
    split
    · exact addElement_kept ..
    · exact .refl s

theorem amendElement_kept (id : StoryId) (tag : Tag) (i : Item) (e : Element) (f : ElementFields) (a : Action)
    (s : State) : Kept s (amendElement id tag i e f a s) := by
  have hk := carries_kept
  exact Kept.trans (.of_parts ..) (hk.when fun _ => Carries.ite (hk.armElement ..)
    (hk.when fun _ => (hk.removeEntry ..).trans (hk.armElement ..)))

theorem carryElementAmend_kept (body : List Byte) (s : State) : Kept s (carryElementAmend body s).1 := by
  unfold carryElementAmend
  split
  · exact .refl s
  · refine judgeEdit_kept ?_
    split
    · exact amendElement_kept ..
    · exact .refl s

theorem dropElement_kept (id : StoryId) (tag : Tag) (s : State) : Kept s (dropElement id tag s) := .of_parts ..

theorem removeElement_kept (id : StoryId) (tag : Tag) (e : Element) (s : State) : Kept s (removeElement id tag e s) := by
  unfold removeElement
  split
  · exact (carries_kept.detach ..).trans (dropElement_kept ..)
  · exact (carries_kept.withdrawElement ..).trans ((dropElement_kept ..).trans (carries_kept.fillFromWaiting _))
  · exact dropElement_kept ..

theorem carryElementRemove_kept (body : List Byte) (s : State) : Kept s (carryElementRemove body s).1 := by
  unfold carryElementRemove
  split
  · exact judgeEdit_kept (carries_kept.elim (fun e => removeElement_kept _ _ e s) _)
  · exact .refl s

theorem clearShow_kept (s : State) : Kept s (clearShow s) := by
  unfold clearShow
  refine Kept.trans ?_ (carries_kept.renderAll _)
  refine Kept.trans ?_ (carries_kept.walkTrigger _)
  constructor
  · constructor
    · rfl
    · rfl
    · rfl
    · intro h
      dsimp only
      split
      · exact h
      · exact Nat.mod_lt _ (by decide)
    · exact id
    · exact id
  · rfl
  · rfl

theorem carryShowClear_kept (s : State) : Kept s (carryShowClear s).1 := by
  unfold carryShowClear
  split
  · exact clearShow_kept s
  · exact .refl s

/-! ### Reads -/

/-- What a request leaves that only reads: in every branch the state it is judged on. -/
abbrev OnlyReads (act : List Byte → State → Reply) : Prop := ∀ body s, (act body s).1 = s

theorem serve_onlyReads {code : Byte} {act : List Byte → State → Reply} (h : OnlyReads act) (s : State) :
    Kept s (serve code act s) :=
  serve_kept (fun body s => by rw [h body s]; exact .refl s) s

theorem bodyless_onlyReads {act : State → Reply} (h : ∀ s, (act s).1 = s) : OnlyReads (bodyless act) := by
  intro body s
  cases body with
  | nil => exact h s
  | cons b body => rfl

theorem carryItemRead_onlyReads : OnlyReads carryItemRead := by
  intro body s
  unfold carryItemRead
  repeat' split
  all_goals rfl

theorem carryElementRead_onlyReads : OnlyReads carryElementRead := by
  intro body s
  unfold carryElementRead
  repeat' split
  all_goals rfl

theorem carryRundownRead_onlyReads : OnlyReads carryRundownRead := by
  intro body s
  unfold carryRundownRead
  split
  · dsimp only
    split
    · rfl
    · rfl
  · rfl

theorem carryArmRead_onlyReads : OnlyReads carryArmRead := by
  intro body s
  unfold carryArmRead
  split
  · dsimp only
    repeat' split
    all_goals rfl
  · rfl

theorem carryProfileRead_onlyReads : OnlyReads carryProfileRead := by
  intro body s
  unfold carryProfileRead
  repeat' split
  all_goals rfl

theorem carryDisplayRead_onlyReads : OnlyReads carryDisplayRead := by
  intro body s
  unfold carryDisplayRead
  repeat' split
  all_goals rfl

theorem carryInputRead_onlyReads : OnlyReads carryInputRead := by
  intro body s
  unfold carryInputRead
  repeat' split
  all_goals rfl

theorem carryTcConvert_onlyReads : OnlyReads carryTcConvert := by
  intro body s
  unfold carryTcConvert
  dsimp only
  repeat' split
  all_goals rfl

/-! ### Requests of the show (chapter 4) -/

theorem carryTake_kept (s : State) : Kept s (carryTake s).1 := by
  unfold carryTake
  split
  · exact .refl s
  · exact .refl s
  · exact .refl s
  · exact .refl s
  · exact carries_kept.acceptTake ..

theorem nominate_kept (id : StoryId) (s : State) : Kept s (nominate id s) :=
  (carries_kept.sequencer _ _ (by rfl) (by rfl) (by rfl)).trans
    ((carries_kept.chooseStandby _).trans (carries_kept.announceStandby ..))

theorem carryNextSet_kept (body : List Byte) (s : State) : Kept s (carryNextSet body s).1 := by
  unfold carryNextSet
  split
  · split
    · exact .refl s
    · split
      · exact .refl s
      · split
        · exact .refl s
        · exact Carries.ite (.refl s) (nominate_kept ..)
  · exact .refl s

theorem unnominate_kept (id : StoryId) (s : State) : Kept s (unnominate id s) :=
  (Kept.of_parts ..).trans ((carries_kept.sequencer _ (modifyItem id _ s) (by rfl) (by rfl) (by rfl)).trans
    ((carries_kept.chooseStandby _).trans (carries_kept.announceStandby ..)))

theorem carryNextAuto_kept (s : State) : Kept s (carryNextAuto s).1 := carries_kept.elim (fun id => unnominate_kept id s) _

theorem carryHold_kept (s : State) : Kept s (carryHold s).1 := by
  unfold carryHold
  split
  · exact carries_kept.holdShow s
  · exact .refl s
  · exact .refl s
  · exact .refl s

theorem carryRelease_kept (s : State) : Kept s (carryRelease s).1 := by
  unfold carryRelease
  split
  · exact .refl s
  · exact carries_kept.releaseShow s
  · exact .refl s
  · exact .refl s

theorem stopOnair_kept (i : Item) (s : State) : Kept s (stopOnair i s) :=
  (Kept.of_parts ..).trans ((raiseNotice_kept ..).trans (carries_kept.stopItem ..))

theorem stopTaking_kept (i : Item) (s : State) : Kept s (stopTaking i s) :=
  (Kept.of_parts ..).trans ((carries_kept.withdrawItem ..).trans (carries_kept.orphanItem ..))

theorem stopStandby_kept (i : Item) (s : State) : Kept s (stopStandby i s) :=
  (Kept.of_parts ..).trans (carries_kept.withdrawItem ..)

theorem stopShow_kept (s : State) : Kept s (stopShow s) := by
  have hk := carries_kept
  exact (hk.elim (fun i => stopOnair_kept i _) _).trans ((hk.elim (fun i => stopTaking_kept i _) _).trans
    ((hk.elim (fun i => stopStandby_kept i _) _).trans ((hk.walkTrigger _).trans ((hk.chooseStandby _).trans
      ((hk.raiseStandbyIfMoved ..).trans ((hk.setShow ..).trans (hk.closeShowEvent _)))))))

theorem carryShowStop_kept (s : State) : Kept s (carryShowStop s).1 := by
  have hk := carries_kept
  unfold carryShowStop
  split
  · exact .refl s
  · exact (hk.walkTrigger s).trans ((hk.setShow ..).trans (hk.closeShowEvent _))
  · exact stopShow_kept s
  · exact stopShow_kept s

/-! ### Requests of the ports, the displays, the inputs and the link (chapters 7 to 10) -/

theorem carryProfileSet_kept (body : List Byte) (s : State) : Kept s (carryProfileSet body s).1 := by
  unfold carryProfileSet
  split
  · split
    · exact .refl s
    · split
      · exact .refl s
      · split
        · exact .refl s
        · split
          · exact .refl s
          · exact .of_parts ..
  · exact .refl s

theorem carryGroupSet_kept (body : List Byte) (s : State) : Kept s (carryGroupSet body s).1 := by
  unfold carryGroupSet
  split
  · split
    · exact .refl s
    · split
      · exact .refl s
      · split
        · exact .refl s
        · exact .of_parts ..
  · exact .refl s

theorem judgeBind_kept (p : Fin 16) (k : Fin 8) (g : Option (Fin 4)) (s : State) : Kept s (judgeBind p k g s).1 := by
  unfold judgeBind
  split
  · exact .refl s
  · split
    · exact .refl s
    · split
      · exact .refl s
      · exact Carries.ite ((Kept.of_parts ..).trans (raiseNotice_kept ..)) (.of_parts ..)

theorem carryPortBind_kept (body : List Byte) (s : State) : Kept s (carryPortBind body s).1 := by
  unfold carryPortBind
  split
  · split
    · split
      · exact judgeBind_kept ..
      · split
        · exact .refl s
        · exact judgeBind_kept ..
    · exact .refl s
  · exact .refl s

/-- A request about one port keeps what its judging keeps. -/
theorem portRequest_kept {act : Fin 16 → State → Reply} (h : ∀ p s, Kept s (act p s).1) (body : List Byte) (s : State) :
    Kept s (portRequest act body s).1 := by
  unfold portRequest
  split
  · split
    · exact .refl s
    · exact h ..
  · exact .refl s

theorem judgeUnbind_kept (p : Fin 16) (s : State) : Kept s (judgeUnbind p s).1 := by
  unfold judgeUnbind
  split
  · exact .of_parts ..
  · exact .refl s

theorem enterHeld_kept (b : Bool) (p : Fin 16) (s : State) : Kept s (enterHeld b p s) :=
  (Kept.of_parts ..).trans (raiseNotice_kept ..)

theorem judgeHold_kept (p : Fin 16) (s : State) : Kept s (judgeHold p s).1 := by
  unfold judgeHold
  split
  · exact .refl s
  · exact enterHeld_kept ..
  · exact enterHeld_kept ..
  · exact .of_parts ..
  · exact enterHeld_kept ..
  · exact .refl s
  · exact .refl s

theorem judgeRelease_kept (p : Fin 16) (s : State) : Kept s (judgeRelease p s).1 := by
  unfold judgeRelease
  split
  · exact .refl s
  · exact .refl s
  · exact Carries.ite ((Kept.of_parts ..).trans (raiseNotice_kept ..)) (.of_parts ..)
  · exact .of_parts ..
  · exact .refl s
  · exact .refl s
  · exact .refl s

theorem modifyDisplay_kept (d : Fin 4) (f : Display → Display) (s : State) : Kept s (modifyDisplay d f s) := .of_parts ..

/-- A change of a display with its render. -/
theorem renderChange_kept (d : Fin 4) (f : Display → Display) (s : State) : Kept s (render d (modifyDisplay d f s)) :=
  (modifyDisplay_kept ..).trans (carries_kept.render ..)

theorem carryLayoutSet_kept (body : List Byte) (s : State) : Kept s (carryLayoutSet body s).1 := by
  unfold carryLayoutSet
  split
  · exact .refl s
  · split
    · exact .refl s
    · split
      · exact .refl s
      · split
        · exact renderChange_kept ..
        · exact .refl s

theorem carryGlyphSet_kept (body : List Byte) (s : State) : Kept s (carryGlyphSet body s).1 := by
  unfold carryGlyphSet
  split
  · split
    · exact .refl s
    · split
      · exact .refl s
      · exact renderChange_kept ..
  · exact .refl s

theorem carryIconSet_kept (body : List Byte) (s : State) : Kept s (carryIconSet body s).1 := by
  unfold carryIconSet
  split
  · split
    · exact .refl s
    · split
      · exact .refl s
      · exact renderChange_kept ..
  · exact .refl s

theorem carryCuePush_kept (body : List Byte) (s : State) : Kept s (carryCuePush body s).1 := by
  unfold carryCuePush
  split
  · exact .refl s
  · split
    · exact .refl s
    · split
      · exact .refl s
      · exact carries_kept.foldl (fun s d => renderChange_kept d _ s) _ _

/-- A request about one display keeps what its judging keeps. -/
theorem displayRequest_kept {act : Fin 4 → State → Reply} (h : ∀ d s, Kept s (act d s).1) (body : List Byte)
    (s : State) : Kept s (displayRequest act body s).1 := by
  unfold displayRequest
  split
  · split
    · exact .refl s
    · exact h ..
  · exact .refl s

theorem judgeCueClear_kept (d : Fin 4) (s : State) : Kept s (judgeCueClear d s).1 := by
  unfold judgeCueClear
  split
  · exact .refl s
  · exact (carries_kept.acknowledge ..).trans (carries_kept.render ..)

theorem acceptDisplay_fst (d : Fin 4) (s : State) : (acceptDisplay d s).1 = s := rfl

theorem judgeBlank_kept (d : Fin 4) (s : State) : Kept s (judgeBlank d s).1 := by
  unfold judgeBlank
  split
  · exact (modifyDisplay_kept ..).trans ((raiseNotice_kept ..).trans (carries_kept.drive ..))
  · rw [acceptDisplay_fst]
    exact modifyDisplay_kept ..
  · exact .refl s

theorem judgeUnblank_kept (d : Fin 4) (s : State) : Kept s (judgeUnblank d s).1 := by
  unfold judgeUnblank
  split
  · exact (modifyDisplay_kept ..).trans ((raiseNotice_kept ..).trans (carries_kept.drive ..))
  · rw [acceptDisplay_fst]
    exact modifyDisplay_kept ..
  · exact .refl s

theorem carryInputSet_kept (body : List Byte) (s : State) : Kept s (carryInputSet body s).1 := by
  unfold carryInputSet
  split
  · split
    · split
      · exact .refl s
      · split
        · exact .refl s
        · exact .of_parts ..
    · exact .refl s
  · exact .refl s

theorem carryMaskSet_kept (body : List Byte) (s : State) : Kept s (carryMaskSet body s).1 := by
  unfold carryMaskSet
  split
  · split
    · exact .of_link rfl
    · exact .refl s
  · exact .refl s

/-! ### Frames of the link -/

theorem judgeRequest_resetSeen (bytes : List Byte) (l : Link) : (judgeRequest bytes l).resetSeen = l.resetSeen := by
  unfold judgeRequest
  dsimp only
  repeat' split
  all_goals rfl

/-- A part of a frame keeps what its end keeps. -/
theorem takePart_kept {α : Type} {part : FramePart α} {type : Byte} {size : α → Nat} {h : α → TypedFrame → State → State}
    (hk : ∀ x t s, Kept s (h x t s)) (s : State) : Kept s (takePart part type size h s) := by
  obtain hp | ⟨f, hp⟩ | ⟨x, -, hp⟩ := takePart_cases part type size h s
  · rw [hp]
    exact .refl s
  · rw [hp]
    exact .of_link rfl
  · rw [hp]
    exact .trans (b := endFrame _ s) (.of_link rfl) (hk ..)

theorem endShortFrame_kept (s : State) : Kept s (endShortFrame s) := carries_kept.when fun _ => .of_link rfl

/-! ### Replies (R150 to R153) -/

theorem settleReply_kept (p : Fin 16) (c : Outstanding) (k : ReplyClass) (s : State) : Kept s (settleReply p c k s) := by
  have hk := carries_kept
  unfold settleReply
  split
  · exact (hk.elim (fun _ => .of_parts ..) _).trans (hk.settlePort ..)
  · exact (hk.failElement ..).trans (hk.settlePort ..)
  · exact (hk.elim (fun _ => hk.rearmBusy ..) _).trans (hk.settlePort ..)
  · exact (hk.failElement ..).trans (hk.settlePort ..)

end Sys2Proof.Machine
end

