-- ==== Sys2Proof/Proofs/Counters.lean ====
section
/-! What every command does to the Reference Timing Unit, RESET_SEEN, the plan parameters and the ranges of the
counters: the rate and RESET_SEEN have few changers, and the ranges are kept by all. -/

namespace Sys2Proof.Machine

/-- The Reference Timing Unit's part of the ranges (R2, R9, R10, R13). -/
structure Rtu.InRange (r : Rtu) : Prop where
  counter : r.counter ≤ if r.mode = .present then r.rate.longPeriod else r.rate.period
  cfn : @LT.lt Nat _ r.cfn r.rate.day
  announced : ∀ a, r.announced = some a → @LT.lt Nat _ a r.rate.day
  disagreements : r.disagreements ≤ 2

/-- The ranges stand, with the rate and RESET_SEEN, whatever the Reference Timing Unit counts. -/
structure Counted (s t : State) : Prop extends Ranged s t where
  rate : t.rtu.rate = s.rtu.rate
  resetSeen : t.link.resetSeen = s.link.resetSeen
  inRange : s.rtu.InRange → t.rtu.InRange

theorem Kept.counted {s t : State} (h : Kept s t) : Counted s t :=
  ⟨h.toRanged, congrArg Rtu.rate h.rtu, h.resetSeen, fun hr => by rw [h.rtu]; exact hr⟩

theorem Counted.trans {a b c : State} (h : Counted a b) (k : Counted b c) : Counted a c :=
  ⟨h.toRanged.trans k.toRanged, k.rate.trans h.rate, k.resetSeen.trans h.resetSeen, k.inRange ∘ h.inRange⟩

theorem Counted.of_rtu {s : State} {r : Rtu} (hr : r.rate = s.rtu.rate) (h : s.rtu.InRange → r.InRange) :
    Counted s { s with rtu := r } :=
  ⟨⟨rfl, rfl, rfl, id, id, id⟩, hr, rfl, h⟩

theorem countersOk_iff (s : State) : CountersOk s ↔ s.rtu.InRange ∧ s.revision < 65536 ∧ s.engine.generation < 65536
    ∧ s.sched.counter < 65536 ∧ @LT.lt Nat _ s.seq.planStart s.rtu.rate.day ∧ s.seq.margin ≤ 1500
    ∧ s.seq.takeGuard ≤ 50 := by
  constructor
  · rintro ⟨hc, hf, ha, hd, rest⟩
    refine ⟨⟨hc, hf, fun a h => ?_, hd⟩, rest⟩
    rw [h] at ha
    exact of_decide_eq_true ha
  · rintro ⟨⟨hc, hf, ha, hd⟩, rest⟩
    refine ⟨hc, hf, ?_, hd, rest⟩
    cases h : s.rtu.announced with
    | none => rfl
    | some a => exact decide_eq_true (ha a h)

theorem Counted.countersOk {s t : State} (h : Counted s t) (hs : CountersOk s) : CountersOk t := by
  rw [countersOk_iff] at hs ⊢
  obtain ⟨hrtu, hrev, hgen, hseq, hplan, hmargin, hguard⟩ := hs
  refine ⟨h.inRange hrtu, h.revision hrev, h.generation hgen, h.counter hseq, ?_, h.margin.trans_le hmargin,
    h.takeGuard.trans_le hguard⟩
  rw [h.planStart, h.rate]
  exact hplan

/-! ### Passing cycles and ticks (R9, R10) -/

theorem passCycles_counted {n : Nat} {s : State} (h : s.rtu.counter + n ≤ oscillatorCount s) :
    Counted s (passCycles n s) :=
  ⟨⟨rfl, rfl, rfl, id, id, id⟩, rfl, rfl, fun hr => ⟨h, hr.cfn, hr.announced, hr.disagreements⟩⟩

/-- A restart of the counter after any cycles. -/
theorem restartCounter_counted (m : PulseMode) (n : Nat) (s : State) : Counted s (restartCounter m (passCycles n s)) :=
  ⟨⟨rfl, rfl, rfl, id, id, id⟩, rfl, rfl, fun hr => ⟨Nat.zero_le _, hr.cfn, hr.announced, hr.disagreements⟩⟩

theorem Rate.halfPeriod_lt_longPeriod (r : Rate) : r.halfPeriod < r.longPeriod := by
  cases r <;> decide

theorem Rtu.InRange.take {r : Rtu} (h : r.InRange) {a : Frame} (ha : r.announced = some a) : (r.take a).InRange where
  counter := h.counter
  cfn := h.announced a ha
  announced _ hn := nomatch hn
  disagreements := by simp

theorem Rtu.nextFrame_lt (r : Rtu) : @LT.lt Nat _ r.nextFrame r.rate.day :=
  Nat.mod_lt _ (by cases r.rate <;> decide)

theorem Rtu.InRange.disagree {r : Rtu} (h : r.InRange) {count : Nat} (hc : count ≤ 2) (d : Int) :
    (r.disagree count d).InRange where
  counter := h.counter
  cfn := r.nextFrame_lt
  announced _ hn := nomatch hn
  disagreements := hc

/-- The label check takes the announcement, or counts CFN on, and keeps at most two disagreements (R13). -/
theorem checkLabel_inRange {r : Rtu} (h : r.InRange) : (checkLabel r).1.InRange := by
  cases ha : r.announced with
  | none =>
    rw [checkLabel_none ha]
    exact ⟨h.counter, r.nextFrame_lt, h.announced, h.disagreements⟩
  | some a =>
    by_cases hl : r.lock = .unlocked
    · rw [checkLabel_unlocked ha hl]
      exact h.take ha
    rw [checkLabel_compares ha hl]
    split
    · exact h.take ha
    · split
      · split
        · exact h.disagree (by omega) _
        · exact h.take ha
      · exact h.disagree (by omega) _

theorem checkLabel_rate (r : Rtu) : (checkLabel r).1.rate = r.rate := by
  cases ha : r.announced with
  | none => rw [checkLabel_none ha]
  | some a =>
    by_cases hl : r.lock = .unlocked
    · rw [checkLabel_unlocked ha hl]
    rw [checkLabel_compares ha hl]
    repeat' split
    all_goals rfl

theorem pushNotice_resetSeen (n : Notice) (l : Link) : (pushNotice n l).resetSeen = l.resetSeen := by
  obtain ⟨-, -, -, -, -, hseen, -⟩ := pushNotice_kept n l
  exact hseen

theorem referenceTick_counted (s : State) : Counted s (referenceTick s) := by
  have hrate := checkLabel_rate s.rtu
  have hrange := @checkLabel_inRange s.rtu
  obtain ⟨r, jump, hcheck⟩ : ∃ r jump, checkLabel s.rtu = (r, jump) := ⟨_, _, rfl⟩
  rw [hcheck] at hrate hrange
  cases jump with
  | none =>
    rw [referenceTick_steady hcheck]
    refine ⟨⟨rfl, rfl, rfl, id, id, id⟩, hrate, ?_, hrange⟩
    dsimp only
    split
    · rfl
    · exact pushNotice_resetSeen ..
  | some d =>
    rw [referenceTick_jump hcheck]
    exact ⟨⟨rfl, rfl, rfl, id, id, id⟩, hrate, pushNotice_resetSeen .., hrange⟩

theorem BehindReference.counted {s t : State} (h : BehindReference s t) : Counted s t where
  planStart := congrArg Sequencer.planStart h.seq
  margin := congrArg Sequencer.margin h.seq
  takeGuard := congrArg Sequencer.takeGuard h.seq
  revision := h.revision.trans_lt
  generation := h.generation.trans_lt
  counter := (congrArg Scheduler.counter h.sched).trans_lt
  rate := congrArg Rtu.rate h.rtu
  resetSeen := congrArg Link.resetSeen h.link
  inRange hr := by
    rw [h.rtu]
    exact hr

theorem makeTick_counted (n : Nat) (m : PulseMode) (lines : BitVec 8) (s : State) : Counted s (makeTick n m lines s) :=
  (carries_kept.settleTick s).counted.trans ((restartCounter_counted m n _).trans ((referenceTick_counted _).trans
    (makeTick_behind n m lines s).counted))

/-! ### The REF_DATA receiver (R11) -/

theorem labelToFrame_lt_of_valid {r : Rate} {m : List Byte} {l : Label} (h : validLabel r m = some l) :
    @LT.lt Nat _ (labelToFrame r l) r.day := by
  unfold validLabel at h
  split at h
  · dsimp only at h
    split at h
    · rename_i hv
      obtain ⟨-, -, -, hvalid⟩ := hv
      cases h
      exact (frameOfLabelConvertsBack r _ hvalid).1
    · contradiction
  · contradiction

/-- The receiver changes its own message, and announces no frame beyond the day. -/
theorem receiveByte_keeps (r : Rtu) (b : Byte) :
    (receiveByte r b).rate = r.rate ∧ (r.InRange → (receiveByte r b).InRange) := by
  have hopen : ∀ m, r.InRange → Rtu.InRange { r with receiver := m } := fun _ h =>
    ⟨h.counter, h.cfn, h.announced, h.disagreements⟩
  unfold receiveByte
  split
  · split
    · exact ⟨rfl, hopen _⟩
    · exact ⟨rfl, id⟩
  · split
    · unfold takeMessage
      split
      · rename_i l hl
        refine ⟨rfl, fun h => ⟨h.counter, h.cfn, fun a ha => ?_, h.disagreements⟩⟩
        cases ha
        exact labelToFrame_lt_of_valid hl
      · exact ⟨rfl, hopen _⟩
    · exact ⟨rfl, hopen _⟩

theorem foldl_receiveByte_keeps (bytes : List Byte) (r : Rtu) :
    (bytes.foldl receiveByte r).rate = r.rate ∧ (r.InRange → (bytes.foldl receiveByte r).InRange) := by
  induction bytes generalizing r with
  | nil => exact ⟨rfl, id⟩
  | cons b bytes ih =>
    obtain ⟨hrate, hrange⟩ := receiveByte_keeps r b
    obtain ⟨hrate', hrange'⟩ := ih (receiveByte r b)
    exact ⟨hrate'.trans hrate, fun h => hrange' (hrange h)⟩

/-! ### The next state of a command -/

/-- The command goes on to a state that it has left `Counted`. -/
def NextCounted (s : State) (o : Host.Outcome State Fault Refusal) : Prop := ∃ t, o = .next t ∧ Counted s t

theorem Counted.next {s t : State} (h : Counted s t) : NextCounted s (.next t) := ⟨t, rfl, h⟩

theorem Kept.next {s t : State} (h : Kept s t) : NextCounted s (.next t) := h.counted.next

/-- An event that occurs only when it is due. -/
theorem Kept.next_if {s t : State} (h : Kept s t) (p : Prop) [Decidable p] :
    NextCounted s (if p then .next t else .next s) := by
  split
  · exact h.next
  · exact (Kept.refl s).next

theorem execRefFramePulse_counted (n : Nat) (lines : BitVec 8) (s : State) :
    NextCounted s (execRefFramePulse n lines s) := by
  unfold execRefFramePulse
  dsimp only
  split
  · rename_i hm
    split
    · refine (passCycles_counted ?_).next
      have := s.rtu.rate.halfPeriod_lt_longPeriod
      simp only [oscillatorCount, hm, if_true]
      omega
    · split
      · exact (makeTick_counted ..).next
      · exact (Kept.refl s).next
  · split
    · exact (restartCounter_counted ..).next
    · split
      · exact (makeTick_counted ..).next
      · exact (Kept.refl s).next

theorem execSubstituteTick_counted (lines : BitVec 8) (s : State) : NextCounted s (execSubstituteTick lines s) := by
  unfold execSubstituteTick
  split
  · exact (makeTick_counted ..).next
  · exact (Kept.refl s).next

theorem execOscillatorTick_counted (lines : BitVec 8) (s : State) : NextCounted s (execOscillatorTick lines s) := by
  unfold execOscillatorTick
  split
  · exact (Kept.refl s).next
  · exact (makeTick_counted ..).next

theorem execRefDataMessage_counted (bytes : List Byte) (s : State) : NextCounted s (execRefDataMessage bytes s) := by
  obtain ⟨hrate, hrange⟩ := foldl_receiveByte_keeps bytes s.rtu
  exact (Counted.of_rtu hrate hrange).next

/-- An abandoned message (R11). -/
theorem execRefDataTimeout_counted (s : State) : NextCounted s (execRefDataTimeout s) :=
  (Counted.of_rtu (s := s) (r := { s.rtu with receiver := none }) rfl fun h =>
    ⟨h.counter, h.cfn, h.announced, h.disagreements⟩).next

theorem execFetchResponse_counted (part : FramePart Nat) (s : State) : NextCounted s (execFetchResponse part s) := by
  refine (takePart_kept (fun clocked t s => ?_) s).next
  split
  · exact .of_link rfl
  · exact .refl s

theorem execFetchNotice_counted (part : FramePart Nat) (s : State) : NextCounted s (execFetchNotice part s) := by
  refine (takePart_kept (fun clocked t s => ?_) s).next
  split
  · exact .of_link rfl
  · exact .refl s

theorem setFrameFault_kept (s : State) : Kept s (setFrameFault s) := .of_link rfl

theorem execDiscardedFrame_counted (type : Byte) (part : FramePart Nat) (s : State) :
    NextCounted s (execDiscardedFrame type part s) := by
  unfold execDiscardedFrame
  split
  · split
    · exact (endShortFrame_kept s).next
    · exact (takePart_kept (fun _ _ s => setFrameFault_kept s) s).next
  · exact (Kept.refl s).next

theorem execReplyByte_counted (p : Fin 16) (value : Byte) (parityOk stopHigh : Bool) (s : State) :
    NextCounted s (execReplyByte p value parityOk stopHigh s) := by
  unfold execReplyByte
  dsimp only
  split
  · exact (Kept.refl s).next
  · exact ((carries_kept.settleSteps s).trans (settleReply_kept ..)).next

theorem execBusyFall_counted (d : Fin 4) (s : State) : NextCounted s (execBusyFall d s) := by
  have hk := carries_kept
  have hlow : Kept s (setBusy d .low (displayTick d (settleSteps s))) :=
    (hk.settleSteps s).trans ((hk.displayTick ..).trans (.of_parts ..))
  unfold execBusyFall
  dsimp only
  split
  · exact (hlow.trans ((modifyDisplay_kept ..).trans ((raiseNotice_kept ..).trans (hk.drive ..)))).next
  · exact (hlow.trans (modifyDisplay_kept ..)).next

/-- The cycles pass, and the line is found at a level of BUSY. -/
theorem passToBusy_counted {n : Nat} {s : State} (h : beforeTick n s = true) (d : Fin 4) (busy : Level) :
    Counted s (setBusy d busy (passCycles n s)) :=
  (passCycles_counted ((beforeTick_iff n s).mp h)).trans (Kept.of_parts ..).counted

theorem execUnitCompletion_counted (d : Fin 4) (n : Nat) (busy : Level) (s : State) :
    NextCounted s (execUnitCompletion d n busy s) := by
  unfold execUnitCompletion
  split
  · exact (Kept.refl s).next
  · split
    · exact (Kept.refl s).next
    · rename_i hb
      have hb : beforeTick n s = true := by simp_all
      exact ((passToBusy_counted hb d busy).trans
        ((modifyDisplay_kept ..).trans (carries_kept.drive ..)).counted).next

theorem execDisplayByte_counted (d : Fin 4) (n : Nat) (busy : Level) (s : State) :
    NextCounted s (execDisplayByte d n busy s) := by
  unfold execDisplayByte
  split
  · split
    · rename_i hb
      have hb : beforeTick n s = true := by simp_all
      exact (passToBusy_counted hb d .high).next
    · exact (Kept.refl s).next
  · split
    · exact (Kept.refl s).next
    · rename_i hb
      have hb : beforeTick n s = true := by simp_all
      exact ((passToBusy_counted hb d busy).trans (modifyDisplay_kept ..).counted).next

theorem takeActiveEdge_kept (f : InputFunction) (n : Fin 8) (s : State) : Kept s (takeActiveEdge f n s) :=
  carries_kept.when fun _ => (carries_kept.settleSteps s).trans (carries_kept.performEdge ..)

/-- Every command but the resets, RATE_SET, SHOW_PLAN and STATUS_CLEAR. -/
def routine : Instr → Bool
  | .resetN _ => false
  | .deviceReset => false
  | .rateSet => false
  | .showPlan => false
  | .statusClear => false
  | _ => true

/-- A routine command changes neither the rate nor RESET_SEEN nor a plan parameter, and keeps every range. -/
theorem exec_counted {c : Instr} (hc : routine c = true) (s : State) : NextCounted s (exec c s) := by
  have hk := carries_kept
  cases c with
  | refFramePulse n lines => exact execRefFramePulse_counted n lines s
  | substituteTick lines => exact execSubstituteTick_counted lines s
  | oscillatorTick lines => exact execOscillatorTick_counted lines s
  | refDataMessage bytes => exact execRefDataMessage_counted bytes s
  | refDataTimeout => exact execRefDataTimeout_counted s
  | lowStopBit => exact execRefDataTimeout_counted s
  | requestFrame part => exact (takePart_kept (fun bytes _ s => .of_link (judgeRequest_resetSeen bytes s.link)) s).next
  | fetchResponse part => exact execFetchResponse_counted part s
  | fetchNotice part => exact execFetchNotice_counted part s
  | discardedFrame type part => exact execDiscardedFrame_counted type part s
  | spiCsNHigh =>
    exact (Kept.of_link (s := s) (l := { s.link with
      awaitingCsHigh := false, frame := s.link.frame.filter (fun f => f.typed.isSome) }) rfl).next
  | unknownRequest => exact (dispatch_kept (fun _ s => .refl s) s).next
  | faultedEntry => exact (dispatch_kept (fun _ s => .refl s) s).next
  | tcConvert => exact (serve_onlyReads carryTcConvert_onlyReads s).next
  | itemRead => exact (serve_onlyReads carryItemRead_onlyReads s).next
  | elementRead => exact (serve_onlyReads carryElementRead_onlyReads s).next
  | rundownRead => exact (serve_onlyReads carryRundownRead_onlyReads s).next
  | armRead => exact (serve_onlyReads carryArmRead_onlyReads s).next
  | profileRead => exact (serve_onlyReads carryProfileRead_onlyReads s).next
  | displayRead => exact (serve_onlyReads carryDisplayRead_onlyReads s).next
  | inputRead => exact (serve_onlyReads carryInputRead_onlyReads s).next
  | refRead => exact (serve_onlyReads (bodyless_onlyReads fun _ => rfl) s).next
  | showRead => exact (serve_onlyReads (bodyless_onlyReads fun _ => rfl) s).next
  | timingRead => exact (serve_onlyReads (bodyless_onlyReads fun _ => rfl) s).next
  | statusRead => exact (serve_onlyReads (bodyless_onlyReads fun _ => rfl) s).next
  | ident => exact (serve_onlyReads (bodyless_onlyReads fun _ => rfl) s).next
  | portRead => exact (serve_kept (portRequest_kept fun _ s => .refl s) s).next
  | itemInsert => exact (serve_kept carryItemInsert_kept s).next
  | itemAmend => exact (serve_kept carryItemAmend_kept s).next
  | itemMove => exact (serve_kept carryItemMove_kept s).next
  | itemRetire => exact (serve_kept carryItemRetire_kept s).next
  | itemReset => exact (serve_kept carryItemReset_kept s).next
  | elementAdd => exact (serve_kept carryElementAdd_kept s).next
  | elementAmend => exact (serve_kept carryElementAmend_kept s).next
  | elementRemove => exact (serve_kept carryElementRemove_kept s).next
  | showClear => exact (serve_kept (bodyless_kept carryShowClear_kept) s).next
  | takeRequest => exact (serve_kept (bodyless_kept carryTake_kept) s).next
  | nextAuto => exact (serve_kept (bodyless_kept carryNextAuto_kept) s).next
  | holdRequest => exact (serve_kept (bodyless_kept carryHold_kept) s).next
  | releaseRequest => exact (serve_kept (bodyless_kept carryRelease_kept) s).next
  | showStop => exact (serve_kept (bodyless_kept carryShowStop_kept) s).next
  | nextSet => exact (serve_kept carryNextSet_kept s).next
  | profileSet => exact (serve_kept carryProfileSet_kept s).next
  | groupSet => exact (serve_kept carryGroupSet_kept s).next
  | portBind => exact (serve_kept carryPortBind_kept s).next
  | layoutSet => exact (serve_kept carryLayoutSet_kept s).next
  | glyphSet => exact (serve_kept carryGlyphSet_kept s).next
  | iconSet => exact (serve_kept carryIconSet_kept s).next
  | cuePush => exact (serve_kept carryCuePush_kept s).next
  | inputSet => exact (serve_kept carryInputSet_kept s).next
  | maskSet => exact (serve_kept carryMaskSet_kept s).next
  | portUnbind => exact (serve_kept (portRequest_kept judgeUnbind_kept) s).next
  | portHold => exact (serve_kept (portRequest_kept judgeHold_kept) s).next
  | portRelease => exact (serve_kept (portRequest_kept judgeRelease_kept) s).next
  | cueClear => exact (serve_kept (displayRequest_kept judgeCueClear_kept) s).next
  | displayBlank => exact (serve_kept (displayRequest_kept judgeBlank_kept) s).next
  | displayUnblank => exact (serve_kept (displayRequest_kept judgeUnblank_kept) s).next
  | takingAirFrame => exact (hk.takeNamedPhase _ s).next
  | junctionTake => exact (hk.takeNamedPhase _ s).next
  | autoFollow => exact (hk.takeNamedPhase _ s).next
  | capture => exact (hk.takeNamedPhase _ s).next
  | walkCompletion => exact ((hk.settleTick s).trans (hk.completeWalk _)).next_if _
  | dueScan => exact ((hk.settleSteps s).trans (hk.takeScan _)).next_if _
  | replyByte p value parityOk stopHigh => exact execReplyByte_counted p value parityOk stopHigh s
  | replyTimeout p => exact ((hk.settleSteps s).trans (hk.takeDeadline p _)).next_if _
  | pulseEnd p => exact ((hk.settleSteps s).trans (hk.takePulseEnd p _)).next_if _
  | cueExpiry d => exact ((hk.settleSteps s).trans ((hk.expireHead d _).trans (hk.render ..))).next_if _
  | crawl d => exact ((hk.settleSteps s).trans ((hk.advanceCrawl d _).trans (hk.render ..))).next_if _
  | displayFault d => exact ((hk.settleSteps s).trans ((hk.busyTest d _).trans (hk.render ..))).next_if _
  | busyFall d => exact execBusyFall_counted d s
  | unitCompletion d n busy => exact execUnitCompletion_counted d n busy s
  | displayByte d n busy => exact execDisplayByte_counted d n busy s
  | activeEdge n => exact (takeActiveEdge_kept .nothing n s).next
  | panelTake n => exact (takeActiveEdge_kept .take n s).next
  | panelHold n => exact (takeActiveEdge_kept .hold n s).next
  | panelAck n => exact (takeActiveEdge_kept .ack n s).next
  | panelReport n => exact (takeActiveEdge_kept .report n s).next
  | inactiveEdge n => exact ((hk.settleSteps s).trans (hk.performEdge n _)).next_if _
  | resetN level => cases hc
  | rateSet => cases hc
  | showPlan => cases hc
  | statusClear => cases hc
  | deviceReset => cases hc

end Sys2Proof.Machine
end

