-- ==== Sys2Proof/Proofs/Changers.lean ====
section
/-! The resets, RATE_SET, SHOW_PLAN and STATUS_CLEAR, and what follows for every step: the changers of the rate and of
RESET_SEEN, and the ranges of the counters and parameters (R17, R86, R208, R211). -/

namespace Sys2Proof.Machine

/-- A request keeps what its carrying out keeps, if the request's passage through the FIFOs keeps it. -/
theorem serve_keeps {P : State → Prop} (hP : ∀ {a b}, Kept a b → P a → P b) {act : List Byte → State → Reply}
    (h : ∀ body s, P s → P (act body s).1) (code : Byte) {s : State} (hs : P s) : P (serve code act s) := by
  obtain hd | ⟨e, rest, -, -, -, hd⟩ := dispatch_cases (isGood code) (fun e => act e.body) s
  · rw [serve, hd]
    exact hs
  · rw [serve, hd]
    exact hP (.of_link rfl) (h e.body _ (hP (takeHead_kept rest s) hs))

/-- RATE_SET changes nothing or restarts the Reference Timing Unit with PSF 0 (R17, R86). -/
theorem carryRateSet_cases (body : List Byte) (s : State) :
    (carryRateSet body s).1 = s ∨ ∃ r, (carryRateSet body s).1 = setRate r s := by
  unfold carryRateSet
  split
  · split
    · exact .inl rfl
    · split
      · exact .inl rfl
      · exact .inr ⟨_, rfl⟩
  · exact .inl rfl

theorem rateSetRtu_inRange (r : Rate) : (rateSetRtu r).InRange where
  counter := Nat.zero_le _
  cfn := by cases r <;> decide
  announced _ h := nomatch h
  disagreements := Nat.zero_le _

theorem setRate_countersOk (r : Rate) {s : State} (hs : CountersOk s) : CountersOk (setRate r s) := by
  obtain ⟨l, hl, -⟩ := setRate_record r s
  rw [countersOk_iff] at hs ⊢
  obtain ⟨-, hrev, hgen, hseq, -, hmargin, hguard⟩ := hs
  rw [hl]
  exact ⟨rateSetRtu_inRange r, hrev, hgen, hseq, (rateSetRtu_inRange r).cfn, hmargin, hguard⟩

theorem carryRateSet_countersOk (body : List Byte) (s : State) (hs : CountersOk s) :
    CountersOk (carryRateSet body s).1 := by
  obtain h | ⟨r, h⟩ := carryRateSet_cases body s
  · rw [h]
    exact hs
  · rw [h]
    exact setRate_countersOk r hs

theorem carryRateSet_resetSeen (body : List Byte) (s : State) :
    (carryRateSet body s).1.link.resetSeen = s.link.resetSeen := by
  obtain h | ⟨r, h⟩ := carryRateSet_cases body s
  · rw [h]
  · obtain ⟨l, hl, -, -, hseen⟩ := setRate_record r s
    rw [h, hl]
    exact hseen

/-- A SHOW_PLAN in the ranges writes the parameters it selects; it changes neither the rate nor the link (R86). -/
theorem setPlan_record (b : PlanBody) (s : State) : ∃ w, setPlan b s = { s with
    seq := { s.seq with
      planStart := b.planStart.getD s.seq.planStart
      margin := b.margin.getD s.seq.margin
      takeGuard := b.takeGuard.getD s.seq.takeGuard }
    engine := { s.engine with inFlight := w } } := by
  unfold setPlan
  split
  · exact ⟨true, rfl⟩
  · exact ⟨s.engine.inFlight, rfl⟩

theorem carryShowPlan_cases (body : List Byte) (s : State) : (carryShowPlan body s).1 = s
    ∨ ∃ select b, planInRange s.day select b = true ∧ (carryShowPlan body s).1 = setPlan b s := by
  unfold carryShowPlan
  split
  · exact .inl rfl
  · split
    · rename_i hr
      exact .inr ⟨_, _, hr, rfl⟩
    · exact .inl rfl

/-- A value that a request may select is in the range that both the selected and the standing one are in. -/
theorem getD_of_all {p : Nat → Prop} [DecidablePred p] {o : Option Nat} {n : Nat}
    (ho : o.all (fun x => decide (p x)) = true) (hn : p n) : p (o.getD n) := by
  cases o with
  | none => exact hn
  | some x => exact of_decide_eq_true ho

theorem setPlan_countersOk {select : Nat} {b : PlanBody} {s : State} (hb : planInRange s.day select b = true)
    (hs : CountersOk s) : CountersOk (setPlan b s) := by
  obtain ⟨w, hw⟩ := setPlan_record b s
  simp only [planInRange, Bool.and_eq_true] at hb
  obtain ⟨⟨⟨-, hstart⟩, hmargin⟩, hguard⟩ := hb
  rw [countersOk_iff] at hs ⊢
  obtain ⟨hrtu, hrev, hgen, hseq, hstart', hmargin', hguard'⟩ := hs
  rw [hw]
  exact ⟨hrtu, hrev, hgen, hseq, getD_of_all hstart hstart', getD_of_all hmargin hmargin', getD_of_all hguard hguard'⟩

theorem carryShowPlan_countersOk (body : List Byte) (s : State) (hs : CountersOk s) :
    CountersOk (carryShowPlan body s).1 := by
  obtain h | ⟨select, b, hb, h⟩ := carryShowPlan_cases body s
  · rw [h]
    exact hs
  · rw [h]
    exact setPlan_countersOk hb hs

theorem carryShowPlan_leaves (body : List Byte) (s : State) :
    (carryShowPlan body s).1.rtu = s.rtu ∧ (carryShowPlan body s).1.link = s.link := by
  obtain h | ⟨select, b, -, h⟩ := carryShowPlan_cases body s
  · rw [h]
    exact ⟨rfl, rfl⟩
  · obtain ⟨w, hw⟩ := setPlan_record b s
    rw [h, hw]
    exact ⟨rfl, rfl⟩

/-- STATUS_CLEAR changes the link alone (R208). -/
theorem carryStatusClear_record (body : List Byte) (s : State) :
    ∃ l, (carryStatusClear body s).1 = { s with link := l } := by
  unfold carryStatusClear
  split
  · dsimp only
    split
    · exact ⟨_, rfl⟩
    · exact ⟨s.link, rfl⟩
  · exact ⟨s.link, rfl⟩

theorem carryStatusClear_countersOk (body : List Byte) (s : State) (hs : CountersOk s) :
    CountersOk (carryStatusClear body s).1 := by
  obtain ⟨l, hl⟩ := carryStatusClear_record body s
  rw [hl]
  exact hs

theorem resetPart_countersOk (s : State) : CountersOk (resetPart s) := by
  obtain ⟨⟨-, -, -, -, -, -, -, hok, -⟩, -⟩ := resetMeetsInvariants
  exact hok

/-- DEVICE_RESET resets the part, or passes through the FIFOs as a refused request (R211). -/
theorem execDeviceReset_cases (s : State) :
    execDeviceReset s = .next (resetPart s) ∨ ∃ t, execDeviceReset s = .next t ∧ Kept s t := by
  unfold execDeviceReset
  split
  · exact .inr ⟨s, rfl, .refl s⟩
  · split
    · exact .inl rfl
    · exact .inr ⟨_, rfl, serve_kept (fun _ s => .refl s) s⟩

/-! ### The obligations -/

theorem exec_countersOk {c : Instr} {s t : State} (hs : CountersOk s) (h : exec c s = .next t) : CountersOk t := by
  have hP {a b : State} (hk : Kept a b) (ha : CountersOk a) : CountersOk b := hk.counted.countersOk ha
  by_cases hc : routine c = true
  · obtain ⟨u, hu, hsu⟩ := exec_counted hc s
    cases hu.symm.trans h
    exact hsu.countersOk hs
  cases c with
  | resetN level =>
    cases level with
    | low =>
      cases h
      exact hs
    | high =>
      cases h
      exact resetPart_countersOk s
  | deviceReset =>
    obtain hd | ⟨u, hd, hk⟩ := execDeviceReset_cases s
    · cases hd.symm.trans h
      exact resetPart_countersOk s
    · cases hd.symm.trans h
      exact hP hk hs
  | rateSet =>
    cases h
    exact serve_keeps hP carryRateSet_countersOk _ hs
  | showPlan =>
    cases h
    exact serve_keeps hP carryShowPlan_countersOk _ hs
  | statusClear =>
    cases h
    exact serve_keeps hP carryStatusClear_countersOk _ hs
  | _ => exact absurd rfl hc

/-- Settles O9: the command at the front of the queue keeps the ranges. -/
theorem stepKeepsCounters : Obligations.StepKeepsCounters := by
  intro s t hs h
  unfold step at h
  split at h
  · cases h
    exact hs
  · rename_i rest _
    exact exec_countersOk (s := { s with pending := rest }) hs h

/-- Settles O11. -/
theorem rateAndResetSeenChangers : Obligations.RateAndResetSeenChangers := by
  intro c s t h
  by_cases hc : routine c = true
  · obtain ⟨u, hu, hsu⟩ := exec_counted hc s
    cases hu.symm.trans h
    exact ⟨fun hr => absurd hsu.rate hr, fun h1 h0 => by simp [hsu.resetSeen, h1] at h0⟩
  cases c with
  | resetN level =>
    cases level with
    | low =>
      cases h
      exact ⟨fun hr => absurd rfl hr, fun h1 h0 => by simp [h1] at h0⟩
    | high =>
      cases h
      exact ⟨fun _ => .inr (.inr rfl), fun _ h0 => nomatch h0⟩
  | deviceReset =>
    refine ⟨fun _ => .inr (.inl rfl), fun h1 h0 => ?_⟩
    obtain hd | ⟨u, hd, hk⟩ := execDeviceReset_cases s
    · cases hd.symm.trans h
      exact nomatch h0
    · cases hd.symm.trans h
      simp [hk.resetSeen, h1] at h0
  | rateSet =>
    cases h
    have hseen : (serve 0x01#8 carryRateSet s).link.resetSeen = s.link.resetSeen :=
      serve_keeps (P := fun u => u.link.resetSeen = s.link.resetSeen) (fun hk ha => hk.resetSeen.trans ha)
        (fun body u hu => (carryRateSet_resetSeen body u).trans hu) _ rfl
    exact ⟨fun _ => .inl rfl, fun h1 h0 => by simp [hseen, h1] at h0⟩
  | showPlan =>
    cases h
    obtain ⟨hrtu, hseen⟩ := serve_keeps (P := fun u => u.rtu = s.rtu ∧ u.link.resetSeen = s.link.resetSeen)
      (fun hk ha => ⟨hk.rtu.trans ha.1, hk.resetSeen.trans ha.2⟩)
      (fun body u hu => ⟨(carryShowPlan_leaves body u).1.trans hu.1,
        (congrArg Link.resetSeen (carryShowPlan_leaves body u).2).trans hu.2⟩) 0x26#8 (s := s) ⟨rfl, rfl⟩
    exact ⟨fun hr => absurd (congrArg Rtu.rate hrtu) hr, fun h1 h0 => by simp [hseen, h1] at h0⟩
  | statusClear =>
    cases h
    have hrtu : (serve 0x51#8 carryStatusClear s).rtu = s.rtu :=
      serve_keeps (P := fun u => u.rtu = s.rtu) (fun hk ha => hk.rtu.trans ha) (fun body u hu => by
        obtain ⟨l, hl⟩ := carryStatusClear_record body u
        rw [hl]
        exact hu) _ rfl
    exact ⟨fun hr => absurd (congrArg Rtu.rate hrtu) hr, fun _ _ => rfl⟩
  | _ => exact absurd rfl hc

end Sys2Proof.Machine
end

