-- ==== Sys2Proof/Proofs/RundownKept.lean ====
section
/-! What the host put in the rundown, and the commands that leave it alone: every one but the edits, SHOW_CLEAR and the
resets (chapters 2 and 3). -/

namespace Sys2Proof.Machine

/-! ### The show requests and the replies are no edits -/

theorem nominate_quiet (id : StoryId) (s : State) : Quiet s (nominate id s) :=
  Quiet.trans (.of_parts ..) ((chooseStandby_quiet _).trans (announceStandby_quiet ..))

theorem unnominate_quiet (id : StoryId) (s : State) : Quiet s (unnominate id s) :=
  (modifyItem_quiet (f := fun i => { i with nominated := false }) (fun _ => rfl) id s).trans
    (Quiet.trans (.of_parts ..) ((chooseStandby_quiet _).trans (announceStandby_quiet ..)))

theorem stopOnair_quiet (i : Item) (s : State) : Quiet s (stopOnair i s) :=
  (modifyItem_quiet (by intro; rfl) _ _).trans ((raiseNotice_quiet ..).trans (stopItem_quiet ..))

theorem stopTaking_quiet (i : Item) (s : State) : Quiet s (stopTaking i s) :=
  (modifyItem_quiet (by intro; rfl) _ _).trans ((withdrawItem_quiet ..).trans (orphanItem_quiet ..))

theorem stopStandby_quiet (i : Item) (s : State) : Quiet s (stopStandby i s) :=
  (modifyItem_quiet (by intro; rfl) _ _).trans (withdrawItem_quiet ..)

theorem stopShow_quiet (s : State) : Quiet s (stopShow s) :=
  (Quiet.elim (fun i => stopOnair_quiet i s) _).trans ((Quiet.elim (fun i => stopTaking_quiet i _) _).trans
    ((Quiet.elim (fun i => stopStandby_quiet i _) _).trans ((triggerWalk_quiet _).trans ((chooseStandby_quiet _).trans
      ((raiseStandbyIfMoved_quiet ..).trans ((setShow_quiet ..).trans (closeShowEvent_quiet _)))))))

theorem settleReply_quiet (p : Fin 16) (c : Outstanding) (k : ReplyClass) (s : State) :
    Quiet s (settleReply p c k s) := by
  unfold settleReply
  split
  · exact (Quiet.elim (fun _ => modifyElement_quiet (by intro; rfl) _ _ _) _).trans (settlePort_quiet ..)
  · exact (failElement_quiet ..).trans (settlePort_quiet ..)
  · exact (Quiet.elim (fun _ => rearmBusy_quiet ..) _).trans (settlePort_quiet ..)
  · exact (failElement_quiet ..).trans (settlePort_quiet ..)

/-- ITEM_RESET is an edit that writes none of the host's fields (R52). -/
theorem resetRecord_hosted (i : Item) : (resetRecord i).hosted = i.hosted := by
  simp only [resetRecord, Item.hosted, List.map_map]
  rfl

theorem closeItemEdit_quiet (before : Option StoryId) (s : State) : Quiet s (closeItemEdit before s) :=
  (triggerWalk_quiet s).trans (reselect_quiet ..)

theorem resetItem_quiet (id : StoryId) (s : State) : Quiet s (resetItem id s) :=
  (Quiet.foldl (fun s t => detach_quiet id t s) _ _).trans
    ((modifyItem_quiet resetRecord_hosted _ _).trans (closeItemEdit_quiet ..))

/-! ### Requests that leave the rundown -/

/-- A request that, however it is answered, leaves the rundown as the host made it. -/
abbrev KeepsRundown (act : List Byte → State → Reply) : Prop := ∀ body s, rundown (act body s).1 = rundown s

theorem takeHead_rundown (rest : List RequestEntry) (s : State) : rundown (takeHead rest s) = rundown s :=
  (settleTick_fixed _).rundown

theorem dispatch_rundown {p : RequestEntry → Bool} {act : RequestEntry → State → Reply}
    (h : ∀ e s, rundown (act e s).1 = rundown s) (s : State) : rundown (dispatch p act s) = rundown s := by
  obtain hd | ⟨e, rest, -, -, -, hd⟩ := dispatch_cases p act s
  · rw [hd]
  · rw [hd]
    exact (h e _).trans (takeHead_rundown rest s)

theorem serve_rundown {code : Byte} {act : List Byte → State → Reply} (h : KeepsRundown act) (s : State) :
    rundown (serve code act s) = rundown s := dispatch_rundown (fun e => h e.body) s

theorem OnlyReads.keepsRundown {act : List Byte → State → Reply} (h : OnlyReads act) : KeepsRundown act :=
  fun body s => by rw [h body s]

theorem bodyless_keepsRundown {act : State → Reply} (h : ∀ s, rundown (act s).1 = rundown s) :
    KeepsRundown (bodyless act) := by
  intro body s
  cases body with
  | nil => exact h s
  | cons b body => rfl

theorem portRequest_keepsRundown {act : Fin 16 → State → Reply} (h : ∀ p s, rundown (act p s).1 = rundown s) :
    KeepsRundown (portRequest act) := by
  intro body s
  unfold portRequest
  split
  · split
    · rfl
    · exact h ..
  · rfl

theorem displayRequest_keepsRundown {act : Fin 4 → State → Reply} (h : ∀ d s, rundown (act d s).1 = rundown s) :
    KeepsRundown (displayRequest act) := by
  intro body s
  unfold displayRequest
  split
  · split
    · rfl
    · exact h ..
  · rfl

theorem carryItemReset_keepsRundown : KeepsRundown carryItemReset := by
  intro body s
  unfold carryItemReset
  split
  · rename_i id _
    dsimp only
    obtain hj | ⟨c, -, -, hj⟩ := judgeEdit_cases (beBytes 4 id) _ _ s
    · rw [hj]
      exact (resetItem_quiet id s).rundown
    · rw [hj]
      rfl
  · rfl

theorem carryTake_rundown (s : State) : rundown (carryTake s).1 = rundown s := by
  unfold carryTake
  split
  · rfl
  · rfl
  · rfl
  · rfl
  · exact (acceptTake_quiet ..).rundown

theorem carryNextSet_keepsRundown : KeepsRundown carryNextSet := by
  intro body s
  unfold carryNextSet
  split
  · split
    · rfl
    · split
      · rfl
      · split
        · rfl
        · exact (Quiet.ite (.refl s) (nominate_quiet ..)).rundown
  · rfl

theorem carryNextAuto_rundown (s : State) : rundown (carryNextAuto s).1 = rundown s :=
  (Quiet.elim (fun id => unnominate_quiet id s) _).rundown

theorem carryHold_rundown (s : State) : rundown (carryHold s).1 = rundown s := by
  unfold carryHold
  split
  · exact (holdShow_quiet s).rundown
  · rfl
  · rfl
  · rfl

theorem carryRelease_rundown (s : State) : rundown (carryRelease s).1 = rundown s := by
  unfold carryRelease
  split
  · rfl
  · exact (releaseShow_quiet s).rundown
  · rfl
  · rfl

theorem carryShowStop_rundown (s : State) : rundown (carryShowStop s).1 = rundown s := by
  unfold carryShowStop
  split
  · rfl
  · exact ((triggerWalk_quiet s).trans ((setShow_quiet ..).trans (closeShowEvent_quiet _))).rundown
  · exact (stopShow_quiet s).rundown
  · exact (stopShow_quiet s).rundown

theorem carryRateSet_keepsRundown : KeepsRundown carryRateSet := by
  intro body s
  obtain h | ⟨r, h⟩ := carryRateSet_cases body s
  · rw [h]
  · obtain ⟨l, hl, -⟩ := setRate_record r s
    rw [h, hl]
    rfl

theorem carryShowPlan_keepsRundown : KeepsRundown carryShowPlan := by
  intro body s
  obtain h | ⟨select, b, -, h⟩ := carryShowPlan_cases body s
  · rw [h]
  · obtain ⟨w, hw⟩ := setPlan_record b s
    rw [h, hw]
    rfl

theorem carryStatusClear_keepsRundown : KeepsRundown carryStatusClear := by
  intro body s
  obtain ⟨l, hl⟩ := carryStatusClear_record body s
  rw [hl]
  rfl

/-! The requests of the ports, the displays, the inputs and the link write no item in any of their branches. -/

theorem carryMaskSet_keepsRundown : KeepsRundown carryMaskSet := by
  intro body s
  unfold carryMaskSet
  repeat' split
  all_goals rfl

theorem carryProfileSet_keepsRundown : KeepsRundown carryProfileSet := by
  intro body s
  unfold carryProfileSet
  repeat' split
  all_goals rfl

theorem carryGroupSet_keepsRundown : KeepsRundown carryGroupSet := by
  intro body s
  unfold carryGroupSet
  dsimp only
  repeat' split
  all_goals rfl

theorem bindPort_rundown (p : Fin 16) (k : Fin 8) (g : Option (Fin 4)) (s : State) :
    rundown (bindPort p k g s) = rundown s := by
  unfold bindPort
  dsimp only
  split
  · rfl
  · rfl

theorem judgeBind_rundown (p : Fin 16) (k : Fin 8) (g : Option (Fin 4)) (s : State) :
    rundown (judgeBind p k g s).1 = rundown s := by
  unfold judgeBind
  split
  · rfl
  · split
    · rfl
    · split
      · rfl
      · exact bindPort_rundown ..

theorem carryPortBind_keepsRundown : KeepsRundown carryPortBind := by
  intro body s
  unfold carryPortBind
  split
  · split
    · split
      · exact judgeBind_rundown ..
      · split
        · rfl
        · exact judgeBind_rundown ..
    · rfl
  · rfl

theorem judgeUnbind_rundown (p : Fin 16) (s : State) : rundown (judgeUnbind p s).1 = rundown s := by
  unfold judgeUnbind
  split
  · rfl
  · rfl

theorem judgeHold_rundown (p : Fin 16) (s : State) : rundown (judgeHold p s).1 = rundown s := by
  unfold judgeHold
  split
  all_goals rfl

theorem releaseHeld_rundown (p : Fin 16) (s : State) : rundown (releaseHeld p s) = rundown s := by
  unfold releaseHeld
  dsimp only
  split
  · rfl
  · rfl

theorem judgeRelease_rundown (p : Fin 16) (s : State) : rundown (judgeRelease p s).1 = rundown s := by
  unfold judgeRelease
  split
  · rfl
  · rfl
  · exact releaseHeld_rundown p s
  all_goals rfl

theorem carryLayoutSet_keepsRundown : KeepsRundown carryLayoutSet := by
  intro body s
  unfold carryLayoutSet
  repeat' split
  all_goals rfl

theorem carryGlyphSet_keepsRundown : KeepsRundown carryGlyphSet := by
  intro body s
  unfold carryGlyphSet
  repeat' split
  all_goals rfl

theorem carryIconSet_keepsRundown : KeepsRundown carryIconSet := by
  intro body s
  unfold carryIconSet
  repeat' split
  all_goals rfl

theorem pushCue_quiet (b : PushBody) (s : State) : Quiet s (pushCue b s) :=
  .foldl (fun _ _ => (modifyDisplay_quiet ..).trans (render_quiet ..)) _ _

theorem carryCuePush_keepsRundown : KeepsRundown carryCuePush := by
  intro body s
  unfold carryCuePush
  split
  · rfl
  · split
    · rfl
    · split
      · rfl
      · exact (pushCue_quiet ..).rundown

theorem judgeCueClear_rundown (d : Fin 4) (s : State) : rundown (judgeCueClear d s).1 = rundown s := by
  unfold judgeCueClear
  split
  · rfl
  · exact ((acknowledge_quiet d s).trans (render_quiet ..)).rundown

theorem judgeBlank_rundown (d : Fin 4) (s : State) : rundown (judgeBlank d s).1 = rundown s := by
  unfold judgeBlank
  split
  all_goals rfl

theorem judgeUnblank_rundown (d : Fin 4) (s : State) : rundown (judgeUnblank d s).1 = rundown s := by
  unfold judgeUnblank
  split
  all_goals rfl

theorem carryInputSet_keepsRundown : KeepsRundown carryInputSet := by
  intro body s
  unfold carryInputSet
  dsimp only
  repeat' split
  all_goals rfl

/-! ### Frames, ticks and line events -/

/-- A part of a frame keeps the rundown if what its end does keeps it. -/
theorem takePart_rundown {α : Type} {h : α → TypedFrame → State → State}
    (hk : ∀ x t s, rundown (h x t s) = rundown s) (part : FramePart α) (type : Byte) (size : α → Nat) (s : State) :
    rundown (takePart part type size h s) = rundown s := by
  obtain hp | ⟨f, hp⟩ | ⟨x, -, hp⟩ := takePart_cases part type size h s
  · rw [hp]
  · rw [hp]
    rfl
  · rw [hp, hk]
    rfl

/-- The Reference Timing Unit's part of a tick, a jump among it, writes no item (R12 to R15). -/
theorem referenceTick_items (s : State) : (referenceTick s).items = s.items := by
  obtain ⟨r, jump, hcheck⟩ : ∃ r jump, checkLabel s.rtu = (r, jump) := ⟨_, _, rfl⟩
  cases jump with
  | none => rw [referenceTick_steady hcheck]
  | some d => rw [referenceTick_jump hcheck]

theorem makeTick_rundown (n : Nat) (m : PulseMode) (lines : BitVec 8) (s : State) :
    rundown (makeTick n m lines s) = rundown s := by
  have hitems : (makeTick n m lines s).items = (settleTick s).items :=
    (makeTick_behind n m lines s).items.trans (referenceTick_items _)
  calc rundown (makeTick n m lines s) = rundown (settleTick s) := congrArg (List.map Item.hosted) hitems
    _ = rundown s := (settleTick_fixed s).rundown

/-- The command goes on to a state with the same rundown. -/
def GoesOnWithRundown (s : State) (o : Host.Outcome State Fault Refusal) : Prop :=
  ∃ t, o = .next t ∧ rundown t = rundown s

theorem goesOn {s t : State} (h : rundown t = rundown s) : GoesOnWithRundown s (.next t) := ⟨t, rfl, h⟩

/-- An event that occurs only when it is due. -/
theorem Fixed.goesOn_if {s t : State} (h : Fixed s t) (p : Prop) [Decidable p] :
    GoesOnWithRundown s (if p then .next t else .next s) := by
  split
  · exact goesOn h.rundown
  · exact goesOn rfl

theorem execRefFramePulse_rundown (n : Nat) (lines : BitVec 8) (s : State) :
    GoesOnWithRundown s (execRefFramePulse n lines s) := by
  unfold execRefFramePulse
  dsimp only
  split
  · split
    · exact goesOn rfl
    · split
      · exact goesOn (makeTick_rundown ..)
      · exact goesOn rfl
  · split
    · exact goesOn rfl
    · split
      · exact goesOn (makeTick_rundown ..)
      · exact goesOn rfl

theorem execSubstituteTick_rundown (lines : BitVec 8) (s : State) :
    GoesOnWithRundown s (execSubstituteTick lines s) := by
  unfold execSubstituteTick
  split
  · exact goesOn (makeTick_rundown ..)
  · exact goesOn rfl

theorem execOscillatorTick_rundown (lines : BitVec 8) (s : State) :
    GoesOnWithRundown s (execOscillatorTick lines s) := by
  unfold execOscillatorTick
  split
  · exact goesOn rfl
  · exact goesOn (makeTick_rundown ..)

/-- An answer that is taken from the link's FIFOs leaves the rundown. -/
theorem execFetchResponse_rundown (part : FramePart Nat) (s : State) :
    GoesOnWithRundown s (execFetchResponse part s) := by
  refine goesOn (takePart_rundown (fun clocked t s => ?_) ..)
  split
  · rfl
  · rfl

theorem execFetchNotice_rundown (part : FramePart Nat) (s : State) : GoesOnWithRundown s (execFetchNotice part s) := by
  refine goesOn (takePart_rundown (fun clocked t s => ?_) ..)
  split
  · rfl
  · rfl

theorem endShortFrame_rundown (s : State) : rundown (endShortFrame s) = rundown s := by
  unfold endShortFrame
  split
  · rfl
  · rfl

theorem execDiscardedFrame_rundown (type : Byte) (part : FramePart Nat) (s : State) :
    GoesOnWithRundown s (execDiscardedFrame type part s) := by
  unfold execDiscardedFrame
  split
  · split
    · exact goesOn (endShortFrame_rundown s)
    · exact goesOn (takePart_rundown (fun _ _ _ => by rfl) ..)
  · exact goesOn rfl

theorem execReplyByte_rundown (p : Fin 16) (value : Byte) (parityOk stopHigh : Bool) (s : State) :
    GoesOnWithRundown s (execReplyByte p value parityOk stopHigh s) := by
  unfold execReplyByte
  dsimp only
  split
  · exact goesOn rfl
  · exact goesOn ((settleSteps_fixed s).trans (settleReply_quiet ..).toFixed).rundown

theorem execBusyFall_rundown (d : Fin 4) (s : State) : GoesOnWithRundown s (execBusyFall d s) := by
  have hlow : rundown (setBusy d .low (displayTick d (settleSteps s))) = rundown s :=
    ((settleSteps_fixed s).trans (displayTick_quiet ..).toFixed).rundown
  unfold execBusyFall
  dsimp only
  split
  · exact goesOn (((modifyDisplay_quiet ..).trans ((raiseNotice_quiet ..).trans (drive_quiet ..))).rundown.trans hlow)
  · exact goesOn ((modifyDisplay_quiet ..).rundown.trans hlow)

theorem execUnitCompletion_rundown (d : Fin 4) (n : Nat) (busy : Level) (s : State) :
    GoesOnWithRundown s (execUnitCompletion d n busy s) := by
  unfold execUnitCompletion
  split
  · exact goesOn rfl
  · split
    · exact goesOn rfl
    · exact goesOn rfl

theorem execDisplayByte_rundown (d : Fin 4) (n : Nat) (busy : Level) (s : State) :
    GoesOnWithRundown s (execDisplayByte d n busy s) := by
  unfold execDisplayByte
  split
  · split
    · exact goesOn rfl
    · exact goesOn rfl
  · split
    · exact goesOn rfl
    · exact goesOn rfl

theorem takeActiveEdge_fixed (f : InputFunction) (n : Fin 8) (s : State) : Fixed s (takeActiveEdge f n s) := by
  unfold takeActiveEdge
  exact .ite ((settleSteps_fixed s).trans (performEdge_fixed ..)) (.refl s)

/-! ### Every command -/

/-- The edits that write what the host put in the rundown, SHOW_CLEAR and the resets. -/
def editsRundown : Instr → Bool
  | .itemInsert => true
  | .itemAmend => true
  | .itemMove => true
  | .itemRetire => true
  | .elementAdd => true
  | .elementAmend => true
  | .elementRemove => true
  | .showClear => true
  | .deviceReset => true
  | .resetN .high => true
  | _ => false

/-- Every other command goes on with the rundown as the host made it. -/
theorem exec_rundown {c : Instr} (hc : editsRundown c = false) (s : State) : GoesOnWithRundown s (exec c s) := by
  have steps := settleSteps_fixed s
  cases c with
  | resetN level =>
    cases level with
    | low => exact goesOn rfl
    | high => cases hc
  | refFramePulse n lines => exact execRefFramePulse_rundown n lines s
  | substituteTick lines => exact execSubstituteTick_rundown lines s
  | oscillatorTick lines => exact execOscillatorTick_rundown lines s
  | refDataMessage bytes => exact goesOn rfl
  | refDataTimeout => exact goesOn rfl
  | lowStopBit => exact goesOn rfl
  | requestFrame part => exact goesOn (takePart_rundown (fun _ _ _ => by rfl) ..)
  | fetchResponse part => exact execFetchResponse_rundown part s
  | fetchNotice part => exact execFetchNotice_rundown part s
  | discardedFrame type part => exact execDiscardedFrame_rundown type part s
  | spiCsNHigh => exact goesOn rfl
  | unknownRequest => exact goesOn (dispatch_rundown (fun _ _ => rfl) s)
  | faultedEntry => exact goesOn (dispatch_rundown (fun _ _ => rfl) s)
  | tcConvert => exact goesOn (serve_rundown carryTcConvert_onlyReads.keepsRundown s)
  | itemRead => exact goesOn (serve_rundown carryItemRead_onlyReads.keepsRundown s)
  | elementRead => exact goesOn (serve_rundown carryElementRead_onlyReads.keepsRundown s)
  | rundownRead => exact goesOn (serve_rundown carryRundownRead_onlyReads.keepsRundown s)
  | armRead => exact goesOn (serve_rundown carryArmRead_onlyReads.keepsRundown s)
  | profileRead => exact goesOn (serve_rundown carryProfileRead_onlyReads.keepsRundown s)
  | displayRead => exact goesOn (serve_rundown carryDisplayRead_onlyReads.keepsRundown s)
  | inputRead => exact goesOn (serve_rundown carryInputRead_onlyReads.keepsRundown s)
  | refRead => exact goesOn (serve_rundown (bodyless_keepsRundown fun _ => rfl) s)
  | showRead => exact goesOn (serve_rundown (bodyless_keepsRundown fun _ => rfl) s)
  | timingRead => exact goesOn (serve_rundown (bodyless_keepsRundown fun _ => rfl) s)
  | statusRead => exact goesOn (serve_rundown (bodyless_keepsRundown fun _ => rfl) s)
  | ident => exact goesOn (serve_rundown (bodyless_keepsRundown fun _ => rfl) s)
  | portRead => exact goesOn (serve_rundown (portRequest_keepsRundown fun _ _ => rfl) s)
  | itemReset => exact goesOn (serve_rundown carryItemReset_keepsRundown s)
  | takeRequest => exact goesOn (serve_rundown (bodyless_keepsRundown carryTake_rundown) s)
  | nextSet => exact goesOn (serve_rundown carryNextSet_keepsRundown s)
  | nextAuto => exact goesOn (serve_rundown (bodyless_keepsRundown carryNextAuto_rundown) s)
  | holdRequest => exact goesOn (serve_rundown (bodyless_keepsRundown carryHold_rundown) s)
  | releaseRequest => exact goesOn (serve_rundown (bodyless_keepsRundown carryRelease_rundown) s)
  | showStop => exact goesOn (serve_rundown (bodyless_keepsRundown carryShowStop_rundown) s)
  | showPlan => exact goesOn (serve_rundown carryShowPlan_keepsRundown s)
  | rateSet => exact goesOn (serve_rundown carryRateSet_keepsRundown s)
  | statusClear => exact goesOn (serve_rundown carryStatusClear_keepsRundown s)
  | maskSet => exact goesOn (serve_rundown carryMaskSet_keepsRundown s)
  | profileSet => exact goesOn (serve_rundown carryProfileSet_keepsRundown s)
  | groupSet => exact goesOn (serve_rundown carryGroupSet_keepsRundown s)
  | portBind => exact goesOn (serve_rundown carryPortBind_keepsRundown s)
  | portUnbind => exact goesOn (serve_rundown (portRequest_keepsRundown judgeUnbind_rundown) s)
  | portHold => exact goesOn (serve_rundown (portRequest_keepsRundown judgeHold_rundown) s)
  | portRelease => exact goesOn (serve_rundown (portRequest_keepsRundown judgeRelease_rundown) s)
  | layoutSet => exact goesOn (serve_rundown carryLayoutSet_keepsRundown s)
  | glyphSet => exact goesOn (serve_rundown carryGlyphSet_keepsRundown s)
  | iconSet => exact goesOn (serve_rundown carryIconSet_keepsRundown s)
  | cuePush => exact goesOn (serve_rundown carryCuePush_keepsRundown s)
  | cueClear => exact goesOn (serve_rundown (displayRequest_keepsRundown judgeCueClear_rundown) s)
  | displayBlank => exact goesOn (serve_rundown (displayRequest_keepsRundown judgeBlank_rundown) s)
  | displayUnblank => exact goesOn (serve_rundown (displayRequest_keepsRundown judgeUnblank_rundown) s)
  | inputSet => exact goesOn (serve_rundown carryInputSet_keepsRundown s)
  | takingAirFrame => exact goesOn (takeNamedPhase_fixed _ s).rundown
  | junctionTake => exact goesOn (takeNamedPhase_fixed _ s).rundown
  | autoFollow => exact goesOn (takeNamedPhase_fixed _ s).rundown
  | capture => exact goesOn (takeNamedPhase_fixed _ s).rundown
  | walkCompletion => exact ((settleTick_fixed s).trans (completeWalk_fixed _)).goesOn_if _
  | dueScan => exact (steps.trans (takeScan_fixed _)).goesOn_if _
  | replyByte p value parityOk stopHigh => exact execReplyByte_rundown p value parityOk stopHigh s
  | replyTimeout p => exact (steps.trans (takeDeadline_quiet p _).toFixed).goesOn_if _
  | pulseEnd p => exact (steps.trans (takePulseEnd_quiet p _).toFixed).goesOn_if _
  | cueExpiry d => exact (steps.trans ((expireHead_quiet d _).trans (render_quiet ..)).toFixed).goesOn_if _
  | crawl d => exact (steps.trans ((advanceCrawl_quiet d _).trans (render_quiet ..)).toFixed).goesOn_if _
  | displayFault d => exact (steps.trans ((busyTest_quiet d _).trans (render_quiet ..)).toFixed).goesOn_if _
  | busyFall d => exact execBusyFall_rundown d s
  | unitCompletion d n busy => exact execUnitCompletion_rundown d n busy s
  | displayByte d n busy => exact execDisplayByte_rundown d n busy s
  | activeEdge n => exact goesOn (takeActiveEdge_fixed .nothing n s).rundown
  | panelTake n => exact goesOn (takeActiveEdge_fixed .take n s).rundown
  | panelHold n => exact goesOn (takeActiveEdge_fixed .hold n s).rundown
  | panelAck n => exact goesOn (takeActiveEdge_fixed .ack n s).rundown
  | panelReport n => exact goesOn (takeActiveEdge_fixed .report n s).rundown
  | inactiveEdge n => exact (steps.trans (performEdge_fixed n _)).goesOn_if _
  | _ => cases hc

/-- Settles O12. -/
theorem onlyEditsChangeRundown : Obligations.OnlyEditsChangeRundown := by
  intro c s t h hne
  cases hc : editsRundown c with
  | false =>
    obtain ⟨u, hu, hsame⟩ := exec_rundown hc s
    cases hu.symm.trans h
    exact absurd hsame hne
  | true =>
    unfold editsRundown at hc
    split at hc
    all_goals simp_all

end Sys2Proof.Machine
end

