-- ==== Sys2Proof/Proofs/Edits.lean ====
section
/-! What each edit of chapter 3 writes and what it leaves alone, SHOW_CLEAR and the resets among them. -/

namespace Sys2Proof.Machine

/-! ### The Show Sequencer and the Timing Engine stand -/

/-- The Show Sequencer and the Timing Engine are left alone. -/
structure ShowStands (s t : State) : Prop where
  seq : t.seq = s.seq
  engine : t.engine = s.engine

theorem ShowStands.refl (s : State) : ShowStands s s := ⟨rfl, rfl⟩

theorem ShowStands.trans {a b c : State} (h : ShowStands a b) (k : ShowStands b c) : ShowStands a c :=
  ⟨k.seq.trans h.seq, k.engine.trans h.engine⟩

theorem ShowStands.foldl {α : Type} {f : State → α → State} (h : ∀ s a, ShowStands s (f s a)) (l : List α)
    (s : State) : ShowStands s (l.foldl f s) := by
  induction l generalizing s with
  | nil => exact .refl s
  | cons a l ih => exact (h s a).trans (ih _)

theorem ShowStands.ite {p : Prop} [Decidable p] {s a b : State} (h : ShowStands s a) (k : ShowStands s b) :
    ShowStands s (if p then a else b) := by
  split
  · exact h
  · exact k

/-- A change of the items, the arm queue, the ports, the displays or the link. -/
theorem ShowStands.of_parts {s : State} (items : List Item) (sched : Scheduler) (ports : Vector Port 16)
    (displays : Vector Display 4) (link : Link) : ShowStands s { s with items, sched, ports, displays, link } :=
  ⟨rfl, rfl⟩

/-- A walk trigger changes nothing while a walk is in flight (R103). -/
theorem triggerWalk_showStands {s : State} (h : s.engine.inFlight = true) : ShowStands s (triggerWalk s) := by
  refine ⟨rfl, ?_⟩
  unfold triggerWalk
  rw [← h]

/-- Arming writes items and the arm queue (R116). -/
theorem armElement_record (id : StoryId) (tag : Tag) (s : State) :
    ∃ items sched, armElement id tag s = { s with items, sched } := by
  unfold armElement
  split
  · exact ⟨s.items, s.sched, rfl⟩
  · split
    · split
      · exact ⟨_, _, rfl⟩
      · exact ⟨_, s.sched, rfl⟩
    · exact ⟨s.items, s.sched, rfl⟩

theorem armElement_showStands (id : StoryId) (tag : Tag) (s : State) : ShowStands s (armElement id tag s) := by
  obtain ⟨items, sched, h⟩ := armElement_record id tag s
  rw [h]
  exact .of_parts ..

theorem armElement_ports (id : StoryId) (tag : Tag) (s : State) : (armElement id tag s).ports = s.ports := by
  obtain ⟨items, sched, h⟩ := armElement_record id tag s
  rw [h]

theorem fillFromWaiting_showStands (s : State) : ShowStands s (fillFromWaiting s) :=
  .foldl (fun _ _ => .ite (armElement_showStands ..) (.refl _)) _ _

theorem withdrawElement_showStands (id : StoryId) (tag : Tag) (s : State) :
    ShowStands s (withdrawElement id tag s) := .of_parts ..

theorem withdrawItem_showStands (id : StoryId) (s : State) : ShowStands s (withdrawItem id s) :=
  (ShowStands.foldl (fun _ _ => withdrawElement_showStands ..) _ _).trans (.of_parts ..)

theorem orphanElement_showStands (id : StoryId) (tag : Tag) (s : State) : ShowStands s (orphanElement id tag s) := by
  unfold orphanElement
  split
  · exact .refl s
  · exact (ShowStands.ite (.of_parts ..) (.refl s)).trans (.of_parts ..)

theorem orphanItem_showStands (id : StoryId) (s : State) : ShowStands s (orphanItem id s) :=
  .foldl (fun _ _ => orphanElement_showStands ..) _ _

theorem renderAll_showStands (s : State) : ShowStands s (renderAll s) := .foldl (fun _ _ => .of_parts ..) _ _

theorem closeShowEvent_showStands (s : State) : ShowStands s (closeShowEvent s) :=
  (fillFromWaiting_showStands s).trans (renderAll_showStands _)

theorem leaveStandby_showStands (id : StoryId) (s : State) : ShowStands s (leaveStandby id s) :=
  (ShowStands.of_parts ..).trans ((withdrawItem_showStands ..).trans (orphanItem_showStands ..))

/-- The standby choice writes items: the slot is the item's state (R68, R69). -/
theorem chooseStandby_showStands (s : State) : ShowStands s (chooseStandby s) := by
  have hleave : ∀ chosen : Option StoryId, ShowStands s (match standbyId s with
      | some old => if chosen = some old then s else leaveStandby old s
      | none => s) := by
    intro chosen
    split
    · exact .ite (.refl s) (leaveStandby_showStands ..)
    · exact .refl s
  unfold chooseStandby
  refine .ite (.refl s) ?_
  dsimp only
  split
  · exact (hleave _).trans (.of_parts ..)
  · exact hleave _

theorem announceStandby_showStands {s : State} (h : s.engine.inFlight = true) (before : Option StoryId) :
    ShowStands s (announceStandby before s) :=
  .ite (.refl s) (ShowStands.trans (b := raiseStandby s) ⟨rfl, rfl⟩
    ((triggerWalk_showStands (s := raiseStandby s) h).trans (closeShowEvent_showStands _)))

/-- With a walk in flight a reselection leaves the engine. -/
theorem reselect_showStands {s : State} (h : s.engine.inFlight = true) (before : Option StoryId) :
    ShowStands s (reselect before s) := by
  have hchoose := chooseStandby_showStands s
  exact .ite (announceStandby_showStands h before)
    (hchoose.trans (announceStandby_showStands (hchoose.engine ▸ h) before))

/-- The end of an item edit puts a walk in flight, and changes the sequencer and the engine in nothing else (R61,
R62). -/
theorem closeItemEdit_showStands (before : Option StoryId) (s : State) :
    ShowStands (triggerWalk s) (closeItemEdit before s) := reselect_showStands rfl before

theorem closeItemEdit_inFlight (before : Option StoryId) (s : State) :
    (closeItemEdit before s).engine.inFlight = true :=
  congrArg Engine.inFlight (closeItemEdit_showStands before s).engine

/-! ### Accepted edits and their answers -/

theorem RequestFrame.trans {a b c : State} (h : RequestFrame a b) (k : RequestFrame b c) : RequestFrame a c :=
  ⟨h.toOutside.trans k.toOutside, k.groups.trans h.groups, k.inputs.trans h.inputs, k.tick.trans h.tick,
    k.requests.trans h.requests⟩

theorem Quiet.requestFrame {s t : State} (h : Quiet s t) : RequestFrame s t :=
  ⟨h.toOutside, h.groups, h.inputs, h.tick, h.requests⟩

/-- A change of the store, the sequencer, the engine, the arm queue, the ports or the displays. -/
theorem RequestFrame.of_parts {s : State} (items : List Item) (revision : Nat) (seq : Sequencer) (engine : Engine)
    (sched : Scheduler) (ports : Vector Port 16) (displays : Vector Display 4) :
    RequestFrame s { s with items, revision, seq, engine, sched, ports, displays } :=
  ⟨⟨rfl, rfl, rfl, rfl, rfl, rfl, rfl, rfl, rfl, rfl, rfl, rfl, rfl, rfl⟩, rfl, rfl, rfl, rfl⟩

theorem pushResponse_requestFrame (code : Byte) (body : List Byte) (s : State) :
    RequestFrame s (pushResponse code body s) :=
  ⟨⟨rfl, rfl, rfl, rfl, rfl, rfl, rfl, rfl, rfl, rfl, rfl, rfl, rfl, rfl⟩, rfl, rfl, rfl, rfl⟩

/-- The answer joins the response FIFO as it stood when the request was judged. -/
theorem pushResponse_answered {s t : State} (h : t.link.responses = s.link.responses) (code : Byte)
    (body : List Byte) : Answered code body s (pushResponse code body t) := by
  rw [Answered, pushResponse_link, h]

/-- An edit that is carried out answers OK, its ids, the order revision after it and what else it returns (R42). -/
theorem serve_acceptEdit {code : Byte} {body ids more : List Byte} {rest : List RequestEntry} {s t : State}
    {act : List Byte → State → Reply} (hw : Waiting code body rest s)
    (hact : act body (takeHead rest s) = acceptEdit ids more t) :
    serve code act s = pushResponse code (0#8 :: (ids ++ beBytes 2 t.revision ++ more)) t := by
  rw [serve_waiting hw, hact]
  rfl

/-- A refused edit answers its code, its ids and the order revision, and changes nothing (R42). -/
theorem serve_refuseEdit {code : Byte} {body ids : List Byte} {rest : List RequestEntry} {s : State} {r : Result}
    {act : List Byte → State → Reply} (hw : Waiting code body rest s)
    (hact : act body (takeHead rest s) = refuseEdit r ids (takeHead rest s)) :
    serve code act s = pushResponse code (r.code :: ids ++ beBytes 2 (takeHead rest s).revision) (takeHead rest s) := by
  rw [serve_waiting hw, hact]
  rfl

/-! ### Item edits -/

/-- The order as an edit leaves it, at the next revision, before the walk trigger and the reselection (R22). -/
def reordered (items : List Item) (s : State) : State := bumpRevision { s with items }

theorem reordered_requestFrame (items : List Item) (s : State) : RequestFrame s (reordered items s) := .of_parts ..

/-- What an edit of the order comes to: the new order, the next revision, and a walk in flight. -/
structure OrderEdited (s : State) (items : List Item) (t : State) : Prop where
  rundown : rundown t = items.map Item.hosted
  revision : t.revision = (s.revision + 1) % 65536
  inFlight : t.engine.inFlight = true
  responses : t.link.responses = s.link.responses
  frame : RequestFrame s t

theorem closeItemEdit_orderEdited (before : Option StoryId) (items : List Item) (s : State) :
    OrderEdited s items (closeItemEdit before (reordered items s)) := by
  have hq := closeItemEdit_quiet before (reordered items s)
  exact ⟨hq.rundown, hq.revision, closeItemEdit_inFlight .., hq.responses,
    (reordered_requestFrame items s).trans hq.requestFrame⟩

theorem insertItem_orderEdited (b : InsertBody) (s : State) :
    OrderEdited s (placeItem b.place (newItem b) s.items) (insertItem b s) := closeItemEdit_orderEdited ..

theorem moveItem_orderEdited (i : Item) (place : StoryId) (s : State) :
    OrderEdited s (placeItem place i (s.items.filter (fun x => x.id != i.id))) (moveItem i place s) :=
  closeItemEdit_orderEdited ..

/-- Settles O35. -/
theorem insertPlacesItem : Obligations.InsertPlacesItem := by
  intro s rest body b hw hread
  dsimp only
  intro hrange hplace hfresh hconsistent hroom
  have hact : carryItemInsert body (takeHead rest s) = acceptEdit (beBytes 4 b.id)
      (beBytes 2 (positionOf (insertItem b (takeHead rest s)) b.id)) (insertItem b (takeHead rest s)) := by
    simp only [carryItemInsert, hread]
    exact judgeEdit_accepted (by simp [hrange, hplace, hfresh, hconsistent, hroom]) _ _ _
  have hedit := insertItem_orderEdited b (takeHead rest s)
  exact ⟨_, congrArg Host.Outcome.next (serve_acceptEdit hw hact), pushResponse_answered hedit.responses ..,
    hedit.rundown, hedit.revision, hedit.inFlight, hedit.frame.trans (pushResponse_requestFrame ..)⟩

/-- Settles O37. -/
theorem movePlacesItemAgain : Obligations.MovePlacesItemAgain := by
  intro s rest id place i hid hpl hw
  dsimp only
  intro hne hfound hplace hother hmovable
  have hact : carryItemMove (beBytes 4 id ++ beBytes 4 place) (takeHead rest s) = acceptEdit (beBytes 4 id)
      (beBytes 2 (positionOf (moveItem i place (takeHead rest s)) id)) (moveItem i place (takeHead rest s)) := by
    simp only [carryItemMove, takeNumbers_two hid hpl, hfound]
    exact judgeEdit_accepted (by simp [hne, hplace, hother, hmovable]) _ _ _
  have hedit := moveItem_orderEdited i place (takeHead rest s)
  rw [findItem_id hfound] at hedit
  exact ⟨_, congrArg Host.Outcome.next (serve_acceptEdit hw hact), pushResponse_answered hedit.responses ..,
    hedit.rundown, hedit.revision, hedit.inFlight, hedit.frame.trans (pushResponse_requestFrame ..)⟩

/-! ### Element records (R30, R54) -/

theorem heldFor_cases (k : Kind) (e : Element) : heldFor k e = e.fields ∨ heldFor k e = .empty := by
  by_cases h : e.action.kind = k
  · exact .inl (if_pos h)
  · exact .inr (if_neg h)

/-- What a record does not hold is not held for an amend either. -/
theorem heldFor_none {α : Type} {field : ElementFields → Option α} (hempty : field .empty = none) {k : Kind}
    {e : Element} (h : field e.fields = none) : field (heldFor k e) = none := by
  obtain hk | hk := heldFor_cases k e
  · rw [hk, h]
  · rw [hk, hempty]

/-- A kind with a port needs one, carried or held. -/
theorem buildAction_without_port {k : Kind} {f held : ElementFields} (hk : k ≠ .cueText) (hf : f.port = none)
    (hh : held.port = none) : buildAction k f held = .error .badValue := by
  cases k with
  | serial v => simp [buildAction, hf, hh]
  | pulse => simp [buildAction, hf, hh]
  | cueText => exact absurd rfl hk

/-- A serial verb needs a number, carried or held. -/
theorem buildAction_without_number {v : Verb} {f held : ElementFields} (hf : f.payload = none)
    (hh : held.payload = none) : buildAction (.serial v) f held = .error .badValue := by
  simp [buildAction, hf, hh]

/-- A CUE_TEXT needs displays, text and hold, carried or held. -/
theorem buildAction_without_cue {f held : ElementFields}
    (h : f.displays.or held.displays = none ∨ f.payload.or held.payload = none ∨ f.hold.or held.hold = none) :
    buildAction .cueText f held = .error .badValue := by
  simp only [buildAction]
  split
  · rfl
  · split
    · rename_i hd hp hh
      rw [hd, hp, hh] at h
      simp at h
    · rfl

/-- Displays and a hold belong to CUE_TEXT alone. -/
theorem buildAction_foreign_cue {k : Kind} {f : ElementFields} (held : ElementFields) (hk : k ≠ .cueText)
    (h : f.displays.isSome = true ∨ f.hold.isSome = true) : buildAction k f held = .error .badValue := by
  cases k with
  | serial v => simp [buildAction, h]
  | pulse => simp [buildAction, h]
  | cueText => exact absurd rfl hk

theorem buildAction_foreign_port {f : ElementFields} (held : ElementFields) (h : f.port.isSome = true) :
    buildAction .cueText f held = .error .badValue := by
  simp [buildAction, h]

theorem buildAction_foreign_payload {f : ElementFields} (held : ElementFields) (h : f.payload.isSome = true) :
    buildAction .pulse f held = .error .badValue := by
  simp [buildAction, h]

/-! ### ELEMENT_AMEND (R54) -/

section Judged

variable {body : List Byte} {s : State} {h : AmendHead} {f : ElementFields} {i : Item} {e : Element}
  (hread : readElementAmend body = some (h, f)) (hid : h.id ≠ 0) (htag : h.tag ≠ 0) (hsel : h.select ≠ 0)
  (hmax : h.select < 128) (hrange : f.inRange = true) (hi : findItem s h.id = some i)
  (he : i.findElement h.tag = some e)
include hread hid htag hsel hmax hrange hi he

/-- A record that fails a check of step 4 refuses an ELEMENT_AMEND with its code (R43). -/
theorem carryElementAmend_refused {r : Result}
    (hr : buildAction (f.kindOr e.action.kind) f (heldFor (f.kindOr e.action.kind) e) = .error r) :
    carryElementAmend body s = refuseEdit r (elementIds h.id h.tag) s := by
  have helement : findElement s h.id h.tag = some e := by simp [findElement, hi, he]
  simp [carryElementAmend, hread, helement, hr, judgeEdit, firstFailure, stepChecks, actionFailure, hid, htag, hsel,
    hmax, hrange]

/-- An element that is past amending refuses an ELEMENT_AMEND with COMMITTED (R56). -/
theorem carryElementAmend_committed {a : Action}
    (ha : buildAction (f.kindOr e.action.kind) f (heldFor (f.kindOr e.action.kind) e) = .ok a)
    (hed : editable i e = false) :
    carryElementAmend body s = refuseEdit .committed (elementIds h.id h.tag) s := by
  have helement : findElement s h.id h.tag = some e := by simp [findElement, hi, he]
  simp [carryElementAmend, hread, helement, hi, ha, hed, judgeEdit, firstFailure, stepChecks, actionFailure, hid, htag,
    hsel, hmax, hrange]

theorem carryElementAmend_accepted {a : Action}
    (ha : buildAction (f.kindOr e.action.kind) f (heldFor (f.kindOr e.action.kind) e) = .ok a)
    (hed : editable i e = true) : carryElementAmend body s
      = acceptEdit (elementIds h.id h.tag) [] (amendElement h.id h.tag i e f a s) := by
  have helement : findElement s h.id h.tag = some e := by simp [findElement, hi, he]
  simp [carryElementAmend, hread, helement, hi, ha, hed, judgeEdit, firstFailure, stepChecks, actionFailure, hid, htag,
    hsel, hmax, hrange]

end Judged

/-- What an element edit leaves alone: the order revision, the sequencer, the engine and what every request leaves. -/
structure ElementEdited (s t : State) : Prop where
  revision : t.revision = s.revision
  stands : ShowStands s t
  responses : t.link.responses = s.link.responses
  frame : RequestFrame s t

theorem ElementEdited.trans {a b c : State} (h : ElementEdited a b) (k : ElementEdited b c) : ElementEdited a c :=
  ⟨k.revision.trans h.revision, h.stands.trans k.stands, k.responses.trans h.responses, h.frame.trans k.frame⟩

theorem Quiet.elementEdited {s t : State} (h : Quiet s t) (k : ShowStands s t) : ElementEdited s t :=
  ⟨h.revision, k, h.responses, h.requestFrame⟩

theorem modifyItem_elementEdited (id : StoryId) (f : Item → Item) (s : State) : ElementEdited s (modifyItem id f s) :=
  ⟨rfl, .of_parts .., rfl, .of_parts ..⟩

/-- After the record is amended, the element is armed anew where it was IDLE or ARMED (R63). -/
theorem amendElement_rearms (id : StoryId) (tag : Tag) (i : Item) (e : Element) (f : ElementFields) (a : Action)
    (s : State) :
    let s1 := modifyElement id tag (amendElementRecord f a) s
    let t := amendElement id tag i e f a s
    Quiet s1 t ∧ ShowStands s1 t ∧ t.ports = s1.ports := by
  dsimp only
  unfold amendElement
  dsimp only
  split
  · split
    · exact ⟨armElement_quiet .., armElement_showStands .., armElement_ports ..⟩
    · split
      · exact ⟨(removeEntry_quiet ..).trans (armElement_quiet ..),
          (ShowStands.of_parts ..).trans (armElement_showStands ..), armElement_ports ..⟩
      · exact ⟨.refl _, .refl _, rfl⟩
  · exact ⟨.refl _, .refl _, rfl⟩

theorem amendElement_elementEdited (id : StoryId) (tag : Tag) (i : Item) (e : Element) (f : ElementFields) (a : Action)
    (s : State) : ElementEdited s (amendElement id tag i e f a s) := by
  obtain ⟨hquiet, hshow, -⟩ := amendElement_rearms id tag i e f a s
  exact (modifyItem_elementEdited ..).trans (hquiet.elementEdited hshow)

/-! ### ELEMENT_REMOVE (R55) -/

/-- A change of an item that the host's fields see as `g` is seen so in the rundown. -/
theorem modifyItem_rundown {f : Item → Item} {g : HostedItem → HostedItem} (h : ∀ i, (f i).hosted = g i.hosted)
    (id : StoryId) (s : State) :
    rundown (modifyItem id f s) = (rundown s).map (fun x => if x.id == id then g x else x) := by
  simp only [rundown, modifyItem_items, List.map_map]
  refine List.map_congr_left fun i _ => ?_
  simp only [Function.comp_apply, show i.hosted.id = i.id from rfl]
  split
  · exact h i
  · rfl

/-- The host's fields of an item without one element. -/
def HostedItem.without (tag : Tag) (x : HostedItem) : HostedItem :=
  { x with elements := x.elements.filter (fun e => e.tag != tag) }

theorem dropElement_rundown (id : StoryId) (tag : Tag) (s : State) :
    rundown (dropElement id tag s) = (rundown s).map (fun x => if x.id == id then x.without tag else x) := by
  refine modifyItem_rundown (fun i => ?_) id s
  simp only [Item.hosted, HostedItem.without, List.filter_map]
  rfl

/-- An element's removal takes it out of its list between a withdrawal or a detachment and the filling of the freed
room (R55, R63, R117). -/
theorem removeElement_parts (id : StoryId) (tag : Tag) (e : Element) (s : State) :
    ∃ u, Quiet s u ∧ ShowStands s u ∧ Quiet (dropElement id tag u) (removeElement id tag e s)
      ∧ ShowStands (dropElement id tag u) (removeElement id tag e s) := by
  unfold removeElement
  split
  · exact ⟨_, detach_quiet .., .of_parts .., .refl _, .refl _⟩
  · exact ⟨_, withdrawElement_quiet .., withdrawElement_showStands .., fillFromWaiting_quiet _,
      fillFromWaiting_showStands _⟩
  · exact ⟨s, .refl s, .refl s, .refl _, .refl _⟩

theorem removeElement_elementEdited (id : StoryId) (tag : Tag) (e : Element) (s : State) :
    ElementEdited s (removeElement id tag e s) := by
  obtain ⟨u, hquiet, hshow, hquiet', hshow'⟩ := removeElement_parts id tag e s
  exact (hquiet.elementEdited hshow).trans ((modifyItem_elementEdited ..).trans (hquiet'.elementEdited hshow'))

theorem removeElement_rundown (id : StoryId) (tag : Tag) (e : Element) (s : State) :
    rundown (removeElement id tag e s) = rundown (dropElement id tag s) := by
  obtain ⟨u, hquiet, -, hquiet', -⟩ := removeElement_parts id tag e s
  rw [hquiet'.rundown, dropElement_rundown, hquiet.rundown, dropElement_rundown]

/-- An ELEMENT_REMOVE of an element that may be removed is carried out (R55, R56). -/
theorem carryElementRemove_accepted {id : StoryId} {tag : Tag} {s : State} {i : Item} {e : Element}
    (hidlt : id < 256 ^ 4) (htaglt : tag < 256) (hid : id ≠ 0) (htag : tag ≠ 0) (hi : findItem s id = some i)
    (he : i.findElement tag = some e) (hed : editable i e = true) :
    carryElementRemove (beBytes 4 id ++ beBytes 1 tag) s
      = acceptEdit (elementIds id tag) [] (removeElement id tag e s) := by
  have helement : findElement s id tag = some e := by simp [findElement, hi, he]
  simp only [carryElementRemove, takeNumbers_two hidlt (show tag < 256 ^ 1 by omega), hi, helement]
  exact judgeEdit_accepted (by simp [hid, htag, hed]) _ _ _

/-- Settles O41. -/
theorem elementAmendAndRemove : Obligations.ElementAmendAndRemove := by
  intro s rest i e
  dsimp only
  refine ⟨fun body h f hw hread hid htag hsel hmax hrange hi he => ?_,
    fun id tag hidlt htaglt hw hid htag hi he hed => ?_⟩
  · have hrefused : ∀ r, buildAction (f.kindOr e.action.kind) f (heldFor (f.kindOr e.action.kind) e) = .error r →
        exec .elementAmend s = .next (pushResponse 0x16#8
          (r.code :: elementIds h.id h.tag ++ beBytes 2 (takeHead rest s).revision) (takeHead rest s)) := by
      intro r hr
      exact congrArg Host.Outcome.next
        (serve_refuseEdit hw (carryElementAmend_refused hread hid htag hsel hmax hrange hi he hr))
    have hnew (hk : f.kindOr e.action.kind ≠ e.action.kind) : heldFor (f.kindOr e.action.kind) e = .empty :=
      heldFor_new_kind (Ne.symm hk)
    refine ⟨fun a ha hed => ?_, hrefused, fun hk hf hh => ?_, fun hk hlack => ?_, fun hk hf => ?_, fun hk hf => ?_,
      fun hk hf => ?_, fun hchange hk hlack => ?_, fun hchange hk hlack => ?_, fun a ha hed => ?_⟩
    · obtain ⟨hquiet, -, hports⟩ := amendElement_rearms h.id h.tag i e f a (takeHead rest s)
      have hedit := amendElement_elementEdited h.id h.tag i e f a (takeHead rest s)
      have hanswer := serve_acceptEdit hw (carryElementAmend_accepted hread hid htag hsel hmax hrange hi he ha hed)
      rw [List.append_nil, hedit.revision] at hanswer
      exact ⟨_, congrArg Host.Outcome.next hanswer, pushResponse_answered hedit.responses .., hquiet.rundown,
        hedit.revision, hedit.stands.seq, hedit.stands.engine, hports, hedit.frame.trans (pushResponse_requestFrame ..)⟩
    · exact hrefused _ (buildAction_without_port hk hf (heldFor_none rfl hh))
    · refine hrefused _ ?_
      rw [hk]
      simp only [Option.or_eq_none_iff] at hlack
      refine buildAction_without_cue ?_
      simp only [Option.or_eq_none_iff]
      exact hlack.imp (fun hd => ⟨hd.1, heldFor_none rfl hd.2⟩) (fun hh => .inr ⟨hh.1, heldFor_none rfl hh.2⟩)
    · exact hrefused _ (buildAction_foreign_cue _ hk hf)
    · refine hrefused _ ?_
      rw [hk]
      exact buildAction_foreign_port _ hf
    · refine hrefused _ ?_
      rw [hk]
      exact buildAction_foreign_payload _ hf
    · refine hrefused _ ?_
      rw [hnew hchange]
      obtain hport | ⟨hserial, hpayload⟩ := hlack
      · exact buildAction_without_port hk hport rfl
      · cases hkind : f.kindOr e.action.kind with
        | serial v => exact buildAction_without_number hpayload rfl
        | pulse => exact absurd hkind hserial
        | cueText => exact absurd hkind hk
    · refine hrefused _ ?_
      rw [hnew hchange, hk]
      refine buildAction_without_cue ?_
      simpa [ElementFields.empty] using hlack
    · exact congrArg Host.Outcome.next
        (serve_refuseEdit hw (carryElementAmend_committed hread hid htag hsel hmax hrange hi he ha hed))
  · have hedit := removeElement_elementEdited id tag e (takeHead rest s)
    have hanswer := serve_acceptEdit hw (carryElementRemove_accepted hidlt htaglt hid htag hi he hed)
    rw [List.append_nil, hedit.revision] at hanswer
    exact ⟨_, congrArg Host.Outcome.next hanswer, pushResponse_answered hedit.responses ..,
      removeElement_rundown .., hedit.revision, hedit.stands.seq, hedit.stands.engine,
      hedit.frame.trans (pushResponse_requestFrame ..)⟩

end Sys2Proof.Machine
end

