-- ==== Sys2Proof/Proofs/ShowClear.lean ====
section
/-! SHOW_CLEAR and the resets: an empty store, and the displays rendered without it (R40, R41, R185, R211). -/

namespace Sys2Proof.Machine

/-! ### Rendering all displays (R163) -/

/-- From `s` to `t` displays alone are changed, and of each the target image and what its transfer engine owns. -/
structure Redrawn (s t : State) : Prop where
  rest : t = { s with displays := t.displays }
  record : ∀ x : Fin 4, ∃ v c i g f w, t.displays[x] = { s.displays[x] with
    target := v, clearPending := c, iconsOffPending := i, dirty := g, flight := f, busyWait := w }

theorem Redrawn.refl (s : State) : Redrawn s s := ⟨rfl, fun _ => ⟨_, _, _, _, _, _, rfl⟩⟩

theorem Redrawn.trans {a b c : State} (h : Redrawn a b) (k : Redrawn b c) : Redrawn a c where
  rest := by rw [k.rest, h.rest]
  record x := by
    obtain ⟨_, _, _, _, _, _, hb⟩ := h.record x
    obtain ⟨v, p, i, g, f, w, hc⟩ := k.record x
    exact ⟨v, p, i, g, f, w, by rw [hc, hb]⟩

theorem render_redrawn (n : Fin 4) (s : State) : Redrawn s (render n s) := by
  obtain ⟨v, c, i, g, f, w, h⟩ := render_record n s
  rw [h]
  refine ⟨rfl, fun x => ?_⟩
  by_cases hx : x = n
  · subst hx
    exact ⟨v, c, i, g, f, w, setDisplay_get ..⟩
  · rw [setDisplay_get_ne hx]
    exact ⟨_, _, _, _, _, _, rfl⟩

theorem foldl_render_redrawn (l : List (Fin 4)) (s : State) : Redrawn s (l.foldl (fun s n => render n s) s) := by
  induction l generalizing s with
  | nil => exact .refl s
  | cons n l ih => exact (render_redrawn n s).trans (ih _)

theorem renderAll_redrawn (s : State) : Redrawn s (renderAll s) := foldl_render_redrawn ..

/-- No image is made from what a render changes (R163 to R165). -/
theorem Redrawn.targetImage {s t : State} (h : Redrawn s t) (x : Fin 4) : targetImage t x = targetImage s x := by
  obtain ⟨hrest, hrecord⟩ := h
  obtain ⟨v, c, i, g, f, w, hx⟩ := hrecord x
  generalize t.displays = displays at hrest hx
  subst hrest
  simp only [Machine.targetImage, hx]
  rfl

theorem render_target (n : Fin 4) (s : State) : (render n s).displays[n].target = targetImage s n := by
  rw [render, drive_get, modifyDisplay_get]
  obtain ⟨c, i, g, f, w, h⟩ := driveLine_record s.busy[n] s.clock { s.displays[n] with target := targetImage s n }
  exact congrArg Display.target h

theorem render_get_ne {n x : Fin 4} (hx : x ≠ n) (s : State) : (render n s).displays[x] = s.displays[x] := by
  obtain ⟨v, c, i, g, f, w, h⟩ := render_record n s
  rw [h, setDisplay_get_ne hx]

theorem foldl_render_get_of_not_mem {l : List (Fin 4)} {x : Fin 4} (hx : x ∉ l) (s : State) :
    (l.foldl (fun s n => render n s) s).displays[x] = s.displays[x] := by
  induction l generalizing s with
  | nil => rfl
  | cons n l ih =>
    obtain ⟨hne, hl⟩ := List.ne_and_not_mem_of_not_mem_cons hx
    exact (ih hl _).trans (render_get_ne hne s)

theorem foldl_render_target {l : List (Fin 4)} {x : Fin 4} (hx : x ∈ l) (s : State) :
    (l.foldl (fun s n => render n s) s).displays[x].target = targetImage s x := by
  induction l generalizing s with
  | nil => cases hx
  | cons n l ih =>
    by_cases hl : x ∈ l
    · exact (ih hl _).trans ((render_redrawn n s).targetImage x)
    · obtain rfl : x = n := by simpa [hl] using hx
      exact (congrArg Display.target (foldl_render_get_of_not_mem hl _)).trans (render_target x s)

/-- Once all are rendered every display has the image of this moment (R163). -/
theorem renderAll_target (s : State) (x : Fin 4) :
    (renderAll s).displays[x].target = targetImage (renderAll s) x :=
  (foldl_render_target (List.mem_finRange x) s).trans ((renderAll_redrawn s).targetImage x).symm

/-! ### SHOW_CLEAR (R40, R185) -/

/-- A display without cues (R185). -/
def withoutCues (s : State) (d : Display) : Display := resetCrawl s.day s.cfn { d with cues := [] }

theorem withoutCues_record (s : State) (d : Display) :
    withoutCues s d = { d with cues := [], crawlPosition := 0, nextCrawl := none } := by
  simp [withoutCues, resetCrawl, crawlRuns]

/-- The state that an accepted SHOW_CLEAR renders. -/
def emptiedShow (s : State) : State := { s with
  items := []
  engine := { s.engine with path := [], cleared := true, inFlight := true }
  revision := if s.items.isEmpty then s.revision else (s.revision + 1) % 65536
  seq := { s.seq with cursor := none, nomination := none, lastAdvance := none }
  sched := { s.sched with queue := [] }
  ports := (detachAll s).ports
  displays := s.displays.map (withoutCues s) }

theorem clearShow_eq (s : State) : clearShow s = renderAll (emptiedShow s) := rfl

theorem clearShow_rest (s : State) : ∃ displays, clearShow s = { emptiedShow s with displays } :=
  ⟨_, (renderAll_redrawn (emptiedShow s)).rest⟩

/-- What an accepted SHOW_CLEAR leaves of the blocks but the displays (R40, R89, R133, R160). -/
structure ShowCleared (s t : State) : Prop where
  items : t.items = []
  revision : t.revision = if s.items = [] then s.revision else (s.revision + 1) % 65536
  seq : t.seq = { s.seq with cursor := none, nomination := none, lastAdvance := none }
  sched : t.sched = { s.sched with queue := [] }
  engine : t.engine = { s.engine with inFlight := true, path := [], cleared := true }
  ports : ∀ p : Fin 16, t.ports[p]
    = { s.ports[p] with command := s.ports[p].command.map (fun c => { c with element := none }) }
  link : t.link = s.link
  frame : RequestFrame s t

theorem clearShow_cleared (s : State) : ShowCleared s (clearShow s) := by
  obtain ⟨displays, h⟩ := clearShow_rest s
  rw [h]
  exact ⟨rfl, by simp [emptiedShow], rfl, rfl, rfl, fun _ => Vector.getElem_map .., rfl, .of_parts ..⟩

theorem clearShow_display (s : State) (x : Fin 4) : (clearShow s).displays[x].cues = []
    ∧ (clearShow s).displays[x].nextCrawl = none ∧ (clearShow s).displays[x].crawlPosition = 0
    ∧ (clearShow s).displays[x].target = targetImage (clearShow s) x := by
  have hemptied : (emptiedShow s).displays[x] = withoutCues s s.displays[x] := Vector.getElem_map ..
  obtain ⟨v, c, i, g, f, w, hx⟩ := (renderAll_redrawn (emptiedShow s)).record x
  rw [hemptied, withoutCues_record] at hx
  rw [clearShow_eq]
  refine ⟨?_, ?_, ?_, renderAll_target ..⟩
  · rw [hx]
  · rw [hx]
  · rw [hx]

/-- With no item, no cue and no junction to show, every field but TEXT and CLOCK shows spaces (R164, R185). -/
theorem fieldCodes_blank {s : State} {d : Display} (hitems : s.items = []) (hcleared : s.engine.cleared = true)
    (hcues : d.cues = []) {f : LayoutField}
    (hf : f.kind ∈ [.slugOnair, .slugNext, .note, .remain, .overUnder, .cue]) :
    fieldCodes s d f = List.replicate f.width 0x20#8 := by
  have hslot (st : ItemState) : slotItem st s = none := by simp [slotItem, hitems]
  have honair : onairItem s = none := hslot .onair
  have hnext : nextItem s = none := by simp [nextItem, takingItem, standbyItem, hslot]
  have hremaining : remainingTime s = none := by simp [remainingTime, honair]
  have hjunction : shownJunction s = none := by simp [shownJunction, hcleared]
  simp only [List.mem_cons, List.not_mem_nil, or_false] at hf
  obtain hk | hk | hk | hk | hk | hk := hf
  all_goals simp [fieldCodes, hk, honair, hnext, hremaining, hjunction, hcues]

/-- Settles O42. -/
theorem showClearEmpties : Obligations.ShowClearEmpties := by
  intro s rest hw
  dsimp only
  refine ⟨fun hidle => ?_, fun hbusy => ?_⟩
  · have hact : bodyless carryShowClear [] (takeHead rest s) = accept [] (clearShow (takeHead rest s)) := if_pos hidle
    have hserve : serve 0x1B#8 (bodyless carryShowClear) s
        = pushResponse 0x1B#8 [0#8] (clearShow (takeHead rest s)) := by
      rw [serve_waiting hw, hact]
      rfl
    refine ⟨_, congrArg Host.Outcome.next hserve, ?_⟩
    generalize takeHead rest s = s0
    have hclear := clearShow_cleared s0
    have hdisplay := clearShow_display s0
    generalize clearShow s0 = u at hclear hdisplay
    have hnotices : u.link.notices = s0.link.notices := congrArg Link.notices hclear.link
    refine ⟨pushResponse_answered (congrArg Link.responses hclear.link) .., hclear.items, hclear.revision, hclear.seq,
      hclear.sched, hclear.engine, fun d => ?_, hclear.ports, hnotices,
      hclear.frame.trans (pushResponse_requestFrame ..)⟩
    obtain ⟨hcues, hnext, hposition, htarget⟩ := hdisplay d
    exact ⟨hcues, hnext, hposition, htarget,
      fun f hf => fieldCodes_blank hclear.items (congrArg Engine.cleared hclear.engine) hcues hf⟩
  · have hact : bodyless carryShowClear [] (takeHead rest s) = refuse .state (takeHead rest s) := if_neg hbusy
    refine congrArg Host.Outcome.next ?_
    rw [serve_waiting hw, hact]
    rfl

/-! ### The resets (R211) -/

/-- Settles O31. -/
theorem resetsEmptyTheStore : Obligations.ResetsEmptyTheStore := by
  intro s rest c hc
  obtain rfl | ⟨rfl, hw⟩ := hc
  · exact ⟨_, rfl, rfl, rfl, rfl, fun _ => rfl, rfl, rfl, rfl, rfl, rfl, rfl, rfl⟩
  · have hreset : execDeviceReset s = .next (resetPart s) := by simp [execDeviceReset, hw, isGood]
    exact ⟨_, hreset, rfl, rfl, rfl, fun _ => rfl, rfl, rfl, rfl, rfl, rfl, rfl, rfl⟩

end Sys2Proof.Machine
end

