-- ==== Sys2Proof/Proofs/Store.lean ====
section
/-! The store within its capacities, with ids and tags unique: what every step keeps (R19, R20, R23).  The bounds and
the keys are about what the host put in the rundown alone, so only the edits, SHOW_CLEAR and the resets are followed. -/

namespace Sys2Proof.Machine

/-! ### The store as a list of items -/

/-- An item within its bounds: an id, at most 32 elements, and no tag twice (R20, R23). -/
structure Item.Sound (i : Item) : Prop where
  id : i.id ≠ 0
  room : i.elements.length ≤ Config.elementsPerItem
  tags : (i.elements.map Element.tag).Nodup

/-- A list of items that the store may hold. -/
structure Stored (l : List Item) : Prop where
  slots : l.length ≤ Config.itemSlots
  pool : (l.map (fun i => i.elements.length)).sum ≤ Config.elementPool
  ids : (l.map Item.id).Nodup
  sound : ∀ i ∈ l, i.Sound

theorem stored_iff (s : State) : Stored s.items ↔ StoreBounded s ∧ IdsUnique s := by
  constructor
  · rintro ⟨hslots, hpool, hids, hsound⟩
    exact ⟨⟨hslots, hpool, fun i hi => (hsound i hi).room⟩, hids, fun i hi => (hsound i hi).id,
      fun i hi => (hsound i hi).tags⟩
  · rintro ⟨⟨hslots, hpool, hroom⟩, hids, hid, htags⟩
    exact ⟨hslots, hpool, hids, fun i hi => ⟨hid i hi, hroom i hi, htags i hi⟩⟩

theorem stored_nil : Stored [] := ⟨by decide, by decide, .nil, fun _ h => nomatch h⟩

/-- The bounds of an item are read off the host's fields. -/
theorem Item.Sound.of_hosted {i j : Item} (h : i.hosted = j.hosted) (hi : i.Sound) : j.Sound := by
  have hid : i.id = j.id := congrArg HostedItem.id h
  have helements : i.elements.map Element.hosted = j.elements.map Element.hosted := congrArg HostedItem.elements h
  have hlength : i.elements.length = j.elements.length := by simpa using congrArg List.length helements
  have htags : i.elements.map Element.tag = j.elements.map Element.tag := by
    simpa [Function.comp_def, Element.hosted] using congrArg (List.map HostedElement.tag) helements
  exact ⟨hid ▸ hi.id, hlength ▸ hi.room, htags ▸ hi.tags⟩

/-- So are those of the store. -/
theorem Stored.of_hosted {l m : List Item} (h : l.map Item.hosted = m.map Item.hosted) (hl : Stored l) : Stored m := by
  have hlength : l.length = m.length := by simpa using congrArg List.length h
  have hids : l.map Item.id = m.map Item.id := by
    simpa [Function.comp_def, Item.hosted] using congrArg (List.map HostedItem.id) h
  have hsizes : l.map (fun i => i.elements.length) = m.map (fun i => i.elements.length) := by
    simpa [Function.comp_def, Item.hosted] using congrArg (List.map fun x : HostedItem => x.elements.length) h
  refine ⟨hlength ▸ hl.slots, hsizes ▸ hl.pool, hids ▸ hl.ids, fun j hj => ?_⟩
  obtain ⟨i, hi, hij⟩ : ∃ i ∈ l, i.hosted = j.hosted := by
    have hmem : j.hosted ∈ l.map Item.hosted := h ▸ List.mem_map_of_mem hj
    simpa using hmem
  exact (hl.sound i hi).of_hosted hij

theorem Stored.of_rundown {l : List Item} {t : State} (hl : Stored l) (h : rundown t = l.map Item.hosted) :
    Stored t.items := hl.of_hosted h.symm

theorem Stored.perm {l m : List Item} (h : l.Perm m) (hl : Stored l) : Stored m :=
  ⟨h.length_eq ▸ hl.slots, (h.map fun i => i.elements.length).sum_eq ▸ hl.pool, (h.map _).nodup hl.ids,
    fun i hi => hl.sound i (h.mem_iff.mpr hi)⟩

theorem Stored.sublist {l m : List Item} (h : m.Sublist l) (hl : Stored l) : Stored m where
  slots := h.length_le.trans hl.slots
  pool := (h.map _).sum_le_sum (fun _ _ => Nat.zero_le _) |>.trans hl.pool
  ids := (h.map _).nodup hl.ids
  sound i hi := hl.sound i (h.subset hi)

/-- A new item without elements finds a slot. -/
theorem Stored.cons {l : List Item} {i : Item} (hl : Stored l) (hroom : l.length < Config.itemSlots)
    (hfresh : i.id ∉ l.map Item.id) (hid : i.id ≠ 0) (hempty : i.elements = []) : Stored (i :: l) where
  slots := hroom
  pool := by simpa [hempty] using hl.pool
  ids := List.nodup_cons.mpr ⟨hfresh, hl.ids⟩
  sound := List.forall_mem_cons.mpr ⟨⟨hid, by simp [hempty], by simp [hempty]⟩, hl.sound⟩

/-! ### Changes in place -/

/-- One item is changed in place, as `modifyItem` changes it. -/
def changed (id : StoryId) (f : Item → Item) (l : List Item) : List Item :=
  l.map (fun x => if x.id == id then f x else x)

theorem modifyItem_changed (id : StoryId) (f : Item → Item) (s : State) :
    (modifyItem id f s).items = changed id f s.items := rfl

theorem changed_cons (id : StoryId) (f : Item → Item) (x : Item) (l : List Item) :
    changed id f (x :: l) = (if x.id == id then f x else x) :: changed id f l := rfl

theorem changed_of_not_mem {id : StoryId} (f : Item → Item) {l : List Item} (h : id ∉ l.map Item.id) :
    changed id f l = l := by
  induction l with
  | nil => rfl
  | cons x l ih =>
    obtain ⟨hne, hl⟩ := List.ne_and_not_mem_of_not_mem_cons h
    rw [changed_cons, ih hl, if_neg (by simpa using hne.symm)]

/-- A change in place that keeps the id and the pool in bounds leaves the other bounds to the changed item. -/
theorem Stored.change {id : StoryId} {f : Item → Item} {l : List Item} (hl : Stored l) (hid : ∀ x, (f x).id = x.id)
    (hsound : ∀ x ∈ l, x.id = id → (f x).Sound)
    (hpool : ((changed id f l).map (fun i => i.elements.length)).sum ≤ Config.elementPool) :
    Stored (changed id f l) where
  slots := by simpa [changed] using hl.slots
  pool := hpool
  ids := by
    have hids : (changed id f l).map Item.id = l.map Item.id := by
      simp only [changed, List.map_map]
      refine List.map_congr_left fun x _ => ?_
      simp only [Function.comp_apply]
      split
      · exact hid x
      · rfl
    exact hids ▸ hl.ids
  sound i hi := by
    obtain ⟨x, hx, rfl⟩ := List.mem_map.mp hi
    split
    · exact hsound x hx (by simp_all)
    · exact hl.sound x hx

/-- A change that only takes elements out, or leaves their tags. -/
theorem Stored.change_sublist {id : StoryId} {f : Item → Item} {l : List Item} (hl : Stored l)
    (hid : ∀ x, (f x).id = x.id)
    (htags : ∀ x, ((f x).elements.map Element.tag).Sublist (x.elements.map Element.tag)) : Stored (changed id f l) := by
  have hlength (x : Item) : (f x).elements.length ≤ x.elements.length := by simpa using (htags x).length_le
  refine hl.change hid (fun x hx _ => ?_) (le_trans ?_ hl.pool)
  · have hs := hl.sound x hx
    exact ⟨(hid x).symm ▸ hs.id, (hlength x).trans hs.room, (htags x).nodup hs.tags⟩
  · rw [changed, List.map_map]
    refine List.sum_le_sum fun x _ => ?_
    simp only [Function.comp_apply]
    split
    · exact hlength x
    · exact le_rfl

/-- With the ids unique, an element that one item gains is one element in use (R20). -/
theorem changed_inUse {id : StoryId} {f : Item → Item} {l : List Item} (hids : (l.map Item.id).Nodup)
    (hf : ∀ x ∈ l, x.id = id → (f x).elements.length = x.elements.length + 1) :
    ((changed id f l).map (fun i => i.elements.length)).sum ≤ (l.map (fun i => i.elements.length)).sum + 1 := by
  induction l with
  | nil => simp [changed]
  | cons x l ih =>
    obtain ⟨hx, hl⟩ := List.nodup_cons.mp hids
    by_cases h : x.id = id
    · rw [changed_cons, if_pos (by simpa using h), changed_of_not_mem f (h ▸ hx), List.map_cons, List.sum_cons,
        hf x List.mem_cons_self h, List.map_cons, List.sum_cons]
      omega
    · have := ih hl (fun y hy => hf y (List.mem_cons_of_mem _ hy))
      rw [changed_cons, if_neg (by simpa using h), List.map_cons, List.sum_cons, List.map_cons, List.sum_cons]
      omega

/-! ### Placing in an order -/

/-- A list in which each entry stands for itself, but the one with a key of its own for itself and a new one. -/
theorem flatMap_perm_cons {α κ : Type} {key : α → κ} {p : κ} {new : α} {f : α → List α}
    (hself : ∀ x, key x ≠ p → f x = [x]) (hnew : ∀ x, key x = p → (f x).Perm [new, x]) {l : List α}
    (hl : (l.map key).Nodup) (hp : p ∈ l.map key) : (l.flatMap f).Perm (new :: l) := by
  induction l with
  | nil => cases hp
  | cons x l ih =>
    obtain ⟨hx, hnodup⟩ := List.nodup_cons.mp hl
    rw [List.flatMap_cons]
    by_cases hk : key x = p
    · have hrest : l.flatMap f = l := by
        have hne : ∀ y ∈ l, f y = [y] := fun y hy =>
          hself y fun hy' => hx (List.mem_map.mpr ⟨y, hy, hy'.trans hk.symm⟩)
        rw [List.flatMap_congr hne, List.flatMap_singleton']
      rw [hrest]
      exact (hnew x hk).append_right l
    · have hmem : p ∈ l.map key := by simpa [Ne.symm hk] using hp
      rw [hself x hk]
      exact ((ih hnodup hmem).cons x).trans (.swap ..)

/-- A placed item stands once in the order beside those that were there (R21). -/
theorem placeItem_perm {place : StoryId} {l : List Item} (hids : (l.map Item.id).Nodup)
    (hplace : place = 0 ∨ place ∈ l.map Item.id) (i : Item) : (placeItem place i l).Perm (i :: l) := by
  unfold placeItem
  split
  · exact .refl _
  · exact flatMap_perm_cons (key := Item.id) (fun x hx => by simp [hx])
      (fun x hx => by simpa [hx] using .swap ..) hids (hplace.resolve_left ‹_›)

/-- An element that enters stands once in the list beside those that were there (R29). -/
theorem enterElement_perm {before : Tag} {es : List Element} (htags : (es.map Element.tag).Nodup)
    (hbefore : before = 0 ∨ before ∈ es.map Element.tag) (e : Element) : (enterElement before e es).Perm (e :: es) := by
  unfold enterElement
  split
  · exact List.perm_append_singleton e es
  · exact flatMap_perm_cons (key := Element.tag) (fun x hx => by simp [hx]) (fun x hx => by simp [hx]) htags
      (hbefore.resolve_left ‹_›)

/-- An item taken out of the order and put back is the whole again. -/
theorem cons_filter_perm {l : List Item} (hids : (l.map Item.id).Nodup) {i : Item} (hi : i ∈ l) :
    (i :: l.filter (fun x => x.id != i.id)).Perm l := by
  induction l with
  | nil => cases hi
  | cons x l ih =>
    obtain ⟨hx, hnodup⟩ := List.nodup_cons.mp hids
    obtain rfl | hl := List.mem_cons.mp hi
    · have hrest : l.filter (fun x => x.id != i.id) = l :=
        List.filter_eq_self.mpr fun y hy => by
          have hne : y.id ≠ i.id := fun h => hx (h ▸ List.mem_map_of_mem hy)
          simpa using hne
      simp [hrest]
    · have hne : x.id ≠ i.id := fun h => hx (h ▸ List.mem_map_of_mem hl)
      rw [List.filter_cons_of_pos (by simpa using hne)]
      exact (List.Perm.swap ..).trans ((ih hnodup hl).cons x)

theorem mem_ids_of_findItem {s : State} {id : StoryId} (h : (findItem s id).isSome = true) :
    id ∈ s.items.map Item.id := by
  obtain ⟨i, hi⟩ := Option.isSome_iff_exists.mp h
  exact List.mem_map.mpr ⟨i, findItem_mem hi, findItem_id hi⟩

theorem placeExists_iff (s : State) (place : StoryId) :
    placeExists s place = true ↔ place = 0 ∨ (findItem s place).isSome = true := by
  simp [placeExists]

/-! ### The edits keep the store -/

/-- A request that keeps the store within its bounds. -/
abbrev KeepsStore (act : List Byte → State → Reply) : Prop :=
  ∀ body s, Stored s.items → Stored (act body s).1.items

theorem serve_stored {code : Byte} {act : List Byte → State → Reply} (h : KeepsStore act) {s : State}
    (hs : Stored s.items) : Stored (serve code act s).items := by
  obtain hd | ⟨e, rest, -, -, -, hd⟩ := dispatch_cases (isGood code) (fun e => act e.body) s
  · rw [serve, hd]
    exact hs
  · rw [serve, hd]
    exact h e.body _ (hs.of_rundown (takeHead_rundown rest s))

/-- An edit is carried out with every check met, or changes nothing (R42, R43). -/
theorem judgeEdit_carried_or_same (ids : List Byte) (checks : List (Bool × Result)) (act : State → Reply) (s : State) :
    ((∀ c ∈ checks, c.1 = true) ∧ judgeEdit ids checks act s = act s) ∨ (judgeEdit ids checks act s).1 = s := by
  by_cases h : ∀ c ∈ checks, c.1 = true
  · exact .inl ⟨h, judgeEdit_accepted h ids act s⟩
  · refine .inr ?_
    obtain ⟨c, hc⟩ : ∃ c, checks.find? (fun c => !c.1) = some c := by
      rw [← Option.isSome_iff_exists, List.find?_isSome]
      simpa using h
    simp [judgeEdit, firstFailure, hc, refuseEdit]

/-- What an edit keeps, it keeps when carried out with every check met. -/
theorem judgeEdit_stored {ids : List Byte} {checks : List (Bool × Result)} {act : State → Reply} {s : State}
    (hs : Stored s.items) (h : (∀ c ∈ checks, c.1 = true) → Stored (act s).1.items) :
    Stored (judgeEdit ids checks act s).1.items := by
  obtain ⟨hchecks, hj⟩ | hj := judgeEdit_carried_or_same ids checks act s
  · rw [hj]
    exact h hchecks
  · rw [hj]
    exact hs

theorem insertItem_stored {b : InsertBody} {s : State} (hs : Stored s.items) (hid : b.id ≠ 0)
    (hplace : placeExists s b.place = true) (hfresh : findItem s b.id = none)
    (hroom : s.items.length < Config.itemSlots) : Stored (insertItem b s).items := by
  have hnew : (newItem b).id ∉ s.items.map Item.id := by
    simpa [findItem, newItem] using hfresh
  have hplace := ((placeExists_iff ..).mp hplace).imp_right mem_ids_of_findItem
  exact ((hs.cons hroom hnew hid rfl).perm (placeItem_perm hs.ids hplace _).symm).of_rundown
    (insertItem_orderEdited b s).rundown

theorem insertInRange_id {day : Nat} {b : InsertBody} (h : insertInRange day b = true) : b.id ≠ 0 := by
  intro hid
  simp [insertInRange, hid] at h

theorem carryItemInsert_keepsStore : KeepsStore carryItemInsert := by
  intro body s hs
  unfold carryItemInsert
  split
  · exact hs
  · refine judgeEdit_stored hs fun hchecks => ?_
    simp only [List.forall_mem_cons, decide_eq_true_eq, Option.isNone_iff_eq_none] at hchecks
    obtain ⟨hrange, hplace, hfresh, -, hroom, -⟩ := hchecks
    exact insertItem_stored hs (insertInRange_id hrange) hplace hfresh hroom

theorem amendItem_rundown (b : AmendBody) (i : Item) (s : State) :
    rundown (amendItem b i s) = (changed b.id (amendRecord b) s.items).map Item.hosted := by
  unfold amendItem
  exact ((Quiet.ite (triggerWalk_quiet _) (.refl _)).trans ((Quiet.ite (reselect_quiet ..) (.refl _)).trans
    (Quiet.ite (renderAll_quiet _) (.refl _)))).rundown

theorem carryItemAmend_keepsStore : KeepsStore carryItemAmend := by
  intro body s hs
  unfold carryItemAmend
  split
  · exact hs
  · rename_i select b _
    refine judgeEdit_stored hs fun _ => ?_
    cases findItem s b.id with
    | none => exact hs
    | some i =>
      exact (hs.change_sublist (f := amendRecord b) (fun _ => rfl) (fun _ => .refl _)).of_rundown
        (amendItem_rundown b i s)

theorem moveItem_stored {i : Item} {place : StoryId} {s : State} (hs : Stored s.items) (hi : findItem s i.id = some i)
    (hplace : placeExists s place = true) (hother : place ≠ i.id) : Stored (moveItem i place s).items := by
  have hplace : place = 0 ∨ place ∈ (s.items.filter (fun x => x.id != i.id)).map Item.id := by
    refine ((placeExists_iff ..).mp hplace).imp_right fun h => ?_
    obtain ⟨x, hx⟩ := Option.isSome_iff_exists.mp h
    have hxid := findItem_id hx
    exact List.mem_map.mpr ⟨x, List.mem_filter.mpr ⟨findItem_mem hx, by simpa [hxid] using hother⟩, hxid⟩
  have hids := (List.filter_sublist (p := fun x => x.id != i.id) (l := s.items)).map Item.id |>.nodup hs.ids
  exact (hs.perm ((placeItem_perm hids hplace i).trans (cons_filter_perm hs.ids (findItem_mem hi))).symm).of_rundown
    (moveItem_orderEdited i place s).rundown

theorem carryItemMove_keepsStore : KeepsStore carryItemMove := by
  intro body s hs
  unfold carryItemMove
  split
  · rename_i id place _
    refine judgeEdit_stored hs fun hchecks => ?_
    simp only [List.forall_mem_cons, decide_eq_true_eq] at hchecks
    obtain ⟨-, -, hplace, hother, -⟩ := hchecks
    cases hi : findItem s id with
    | none => exact hs
    | some i =>
      obtain rfl := findItem_id hi
      exact moveItem_stored hs hi hplace hother
  · exact hs

theorem retireElements_quiet (i : Item) (s : State) : Quiet s (retireElements i s) :=
  (withdrawItem_quiet ..).trans (.ite (orphanItem_quiet ..) (.foldl (fun s t => detach_quiet i.id t s) _ _))

theorem releaseReferences_quiet (id : StoryId) (s : State) : Quiet s (releaseReferences id s) := by
  unfold releaseReferences
  exact (endNomination_quiet id s).trans (.ite (.of_parts ..) (.refl _))

theorem removeItem_rundown (id : StoryId) (s : State) :
    rundown (removeItem id s) = (rundown s).filter (fun x => x.id != id) := by
  simp only [rundown, removeItem, List.filter_map]
  rfl

/-- A retirement takes the one item out of the rundown (R50). -/
theorem retireItem_rundown (i : Item) (s : State) :
    rundown (retireItem i s) = (s.items.filter (fun x => x.id != i.id)).map Item.hosted := by
  have hbefore := (retireElements_quiet i s).trans (releaseReferences_quiet i.id _)
  calc rundown (retireItem i s)
      = rundown (removeItem i.id (releaseReferences i.id (retireElements i s))) := (closeItemEdit_quiet ..).rundown
    _ = (rundown s).filter (fun x => x.id != i.id) := by rw [removeItem_rundown, hbefore.rundown]
    _ = rundown (removeItem i.id s) := (removeItem_rundown ..).symm

theorem carryItemRetire_keepsStore : KeepsStore carryItemRetire := by
  intro body s hs
  unfold carryItemRetire
  split
  · rename_i id _
    refine judgeEdit_stored hs fun _ => ?_
    cases findItem s id with
    | none => exact hs
    | some i => exact (hs.sublist List.filter_sublist).of_rundown (retireItem_rundown i s)
  · exact hs

theorem addElement_rundown (h : AddHead) (i : Item) (e : Element) (s : State) : rundown (addElement h i e s)
    = (changed h.id (fun x => { x with elements := enterElement h.before e x.elements }) s.items).map Item.hosted := by
  unfold addElement
  exact (Quiet.ite (armElement_quiet ..) (.refl _)).rundown

/-- An element whose tag is new to its item finds room in the item and in the pool (R20, R53). -/
theorem addElement_stored {h : AddHead} {i : Item} {e : Element} {s : State} (hs : Stored s.items)
    (hi : findItem s h.id = some i) (hbefore : h.before = 0 ∨ (i.findElement h.before).isSome = true)
    (hfresh : i.findElement e.tag = none) (hroom : i.elements.length < Config.elementsPerItem)
    (hpool : elementsInUse s < Config.elementPool) : Stored (addElement h i e s).items := by
  have honly : ∀ x ∈ s.items, x.id = h.id → x = i := fun x hx hid =>
    List.inj_on_of_nodup_map hs.ids hx (findItem_mem hi) (hid.trans (findItem_id hi).symm)
  have hsound := hs.sound i (findItem_mem hi)
  have hmem : h.before = 0 ∨ h.before ∈ i.elements.map Element.tag := by
    refine hbefore.imp_right fun hb => ?_
    simpa [Item.findElement] using hb
  have hnew : e.tag ∉ i.elements.map Element.tag := by simpa [Item.findElement] using hfresh
  have hperm := enterElement_perm hsound.tags hmem e
  refine (hs.change (id := h.id) (f := fun x => { x with elements := enterElement h.before e x.elements })
    (fun _ => rfl) (fun x hx hid => ?_) ?_).of_rundown (addElement_rundown h i e s)
  · obtain rfl := honly x hx hid
    exact ⟨hsound.id, hperm.length_eq.trans_le hroom,
      ((hperm.map _).nodup_iff).mpr (List.nodup_cons.mpr ⟨hnew, hsound.tags⟩)⟩
  · refine (changed_inUse hs.ids fun x hx hid => ?_).trans hpool
    obtain rfl := honly x hx hid
    exact hperm.length_eq

theorem carryElementAdd_keepsStore : KeepsStore carryElementAdd := by
  intro body s hs
  unfold carryElementAdd
  split
  · exact hs
  · rename_i h f _
    refine judgeEdit_stored hs fun hchecks => ?_
    split
    · rename_i i a hi _
      simp only [List.forall_mem_append, List.forall_mem_cons, hi, Option.all_some, Bool.or_eq_true, Bool.and_eq_true,
        decide_eq_true_eq, Option.isNone_iff_eq_none] at hchecks
      obtain ⟨⟨⟨-, -, hbefore, hfresh, -⟩, -⟩, ⟨hroom, hpool⟩, -⟩ := hchecks
      exact addElement_stored hs hi hbefore hfresh hroom hpool
    · exact hs

/-- One element of a list is amended, as an ELEMENT_AMEND amends it. -/
def amendedElements (tag : Tag) (f : ElementFields) (a : Action) (es : List Element) : List Element :=
  es.map (fun y => if y.tag == tag then amendElementRecord f a y else y)

theorem amendedElements_tags (tag : Tag) (f : ElementFields) (a : Action) (es : List Element) :
    (amendedElements tag f a es).map Element.tag = es.map Element.tag := by
  rw [amendedElements, List.map_map]
  refine List.map_congr_left fun y _ => ?_
  simp only [Function.comp_apply]
  split
  · rfl
  · rfl

theorem amendElement_rundown (id : StoryId) (tag : Tag) (i : Item) (e : Element) (f : ElementFields) (a : Action)
    (s : State) : rundown (amendElement id tag i e f a s)
      = (changed id (fun x => { x with elements := amendedElements tag f a x.elements }) s.items).map Item.hosted := by
  obtain ⟨hquiet, -⟩ := amendElement_rearms id tag i e f a s
  exact hquiet.rundown

theorem amendElement_stored {s : State} (hs : Stored s.items) (id : StoryId) (tag : Tag) (i : Item) (e : Element)
    (f : ElementFields) (a : Action) : Stored (amendElement id tag i e f a s).items := by
  refine (hs.change_sublist (f := fun x => { x with elements := amendedElements tag f a x.elements }) (fun _ => rfl)
    (fun x => ?_)).of_rundown (amendElement_rundown id tag i e f a s)
  rw [amendedElements_tags]

theorem carryElementAmend_keepsStore : KeepsStore carryElementAmend := by
  intro body s hs
  unfold carryElementAmend
  split
  · exact hs
  · refine judgeEdit_stored hs fun _ => ?_
    split
    · exact amendElement_stored hs ..
    · exact hs

theorem carryElementRemove_keepsStore : KeepsStore carryElementRemove := by
  intro body s hs
  unfold carryElementRemove
  split
  · rename_i id tag _
    refine judgeEdit_stored hs fun _ => ?_
    cases findElement s id tag with
    | none => exact hs
    | some e =>
      exact (hs.change_sublist (id := id)
        (f := fun x => { x with elements := x.elements.filter (fun y => y.tag != tag) })
        (fun _ => rfl) (fun _ => List.filter_sublist.map _)).of_rundown (removeElement_rundown id tag e s)
  · exact hs

theorem carryShowClear_keepsStore : KeepsStore (bodyless carryShowClear) := by
  intro body s hs
  unfold bodyless carryShowClear
  split
  · split
    · rw [show (accept [] (clearShow s)).1.items = [] from (clearShow_cleared s).items]
      exact stored_nil
    · exact hs
  · exact hs

theorem execDeviceReset_stored {s t : State} (hs : Stored s.items) (h : execDeviceReset s = .next t) :
    Stored t.items := by
  unfold execDeviceReset at h
  split at h
  · cases h
    exact hs
  · split at h
    · cases h
      exact stored_nil
    · cases h
      exact serve_stored (fun _ _ hs => hs) hs

/-! ### Every step -/

theorem exec_stored {c : Instr} {s t : State} (hs : Stored s.items) (h : exec c s = .next t) : Stored t.items := by
  by_cases hc : editsRundown c = true
  · cases c with
    | itemInsert => cases h; exact serve_stored carryItemInsert_keepsStore hs
    | itemAmend => cases h; exact serve_stored carryItemAmend_keepsStore hs
    | itemMove => cases h; exact serve_stored carryItemMove_keepsStore hs
    | itemRetire => cases h; exact serve_stored carryItemRetire_keepsStore hs
    | elementAdd => cases h; exact serve_stored carryElementAdd_keepsStore hs
    | elementAmend => cases h; exact serve_stored carryElementAmend_keepsStore hs
    | elementRemove => cases h; exact serve_stored carryElementRemove_keepsStore hs
    | showClear => cases h; exact serve_stored carryShowClear_keepsStore hs
    | deviceReset => exact execDeviceReset_stored hs h
    | resetN level =>
      cases level with
      | low => cases hc
      | high => cases h; exact stored_nil
    | _ => cases hc
  · obtain ⟨u, hu, hsame⟩ := exec_rundown (by simpa using hc) s
    cases hu.symm.trans h
    exact hs.of_rundown hsame

/-- Settles O7: the command at the front of the queue keeps the store. -/
theorem stepKeepsStore : Obligations.StepKeepsStore := by
  intro s t hbounded hids h
  rw [← stored_iff]
  have hs := (stored_iff s).mpr ⟨hbounded, hids⟩
  unfold step at h
  split at h
  · cases h
    exact hs
  · rename_i rest _
    exact exec_stored (s := { s with pending := rest }) hs h

end Sys2Proof.Machine
end

