-- ==== Sys2Proof/Proofs/Refusals.lean ====
section
/-! A request that is answered with any code but OK: in every branch of its carrying out the state it is judged on
stands (R42, R43, R202). -/

namespace Sys2Proof.Machine

/-- A reply made on `s` that answers OK, or else leaves the state as it was judged. -/
def ChangesOnOk (s : State) (r : Reply) : Prop := r.2.head? = some Result.ok.code ∨ r.1 = s

@[simp] theorem changesOnOk_accept (contents : List Byte) (s t : State) : ChangesOnOk s (accept contents t) := .inl rfl

@[simp] theorem changesOnOk_acceptEdit (ids more : List Byte) (s t : State) :
    ChangesOnOk s (acceptEdit ids more t) := .inl rfl

@[simp] theorem changesOnOk_acceptPort (p : Fin 16) (s t : State) : ChangesOnOk s (acceptPort p t) := .inl rfl

@[simp] theorem changesOnOk_acceptDisplay (d : Fin 4) (s t : State) : ChangesOnOk s (acceptDisplay d t) := .inl rfl

@[simp] theorem changesOnOk_refuse (r : Result) (s : State) : ChangesOnOk s (refuse r s) := .inr rfl

/-- An edit that fails a check is refused whole (R42, R43). -/
theorem changesOnOk_judgeEdit {ids : List Byte} {checks : List (Bool × Result)} {act : State → Reply} {s : State}
    (h : ChangesOnOk s (act s)) : ChangesOnOk s (judgeEdit ids checks act s) := by
  obtain ⟨-, hj⟩ | hj := judgeEdit_carried_or_same ids checks act s
  · rw [hj]
    exact h
  · exact .inr hj

/-- A request that is refused whole, whatever its body. -/
abbrev RefusedWhole (act : List Byte → State → Reply) : Prop := ∀ body s, ChangesOnOk s (act body s)

theorem OnlyReads.refusedWhole {act : List Byte → State → Reply} (h : OnlyReads act) : RefusedWhole act :=
  fun body s => .inr (h body s)

theorem bodyless_refusedWhole {act : State → Reply} (h : ∀ s, ChangesOnOk s (act s)) : RefusedWhole (bodyless act) := by
  intro body s
  cases body with
  | nil => exact h s
  | cons b body => exact changesOnOk_refuse ..

theorem portRequest_refusedWhole {act : Fin 16 → State → Reply} (h : ∀ p s, ChangesOnOk s (act p s)) :
    RefusedWhole (portRequest act) := by
  intro body s
  unfold portRequest
  split
  · split
    · exact changesOnOk_refuse ..
    · exact h ..
  · exact changesOnOk_refuse ..

theorem displayRequest_refusedWhole {act : Fin 4 → State → Reply} (h : ∀ d s, ChangesOnOk s (act d s)) :
    RefusedWhole (displayRequest act) := by
  intro body s
  unfold displayRequest
  split
  · split
    · exact changesOnOk_refuse ..
    · exact h ..
  · exact changesOnOk_refuse ..

/-! ### The edits (R42) -/

theorem carryItemInsert_refusedWhole : RefusedWhole carryItemInsert := by
  intro body s
  unfold carryItemInsert
  split
  · exact changesOnOk_refuse ..
  · exact changesOnOk_judgeEdit (changesOnOk_acceptEdit ..)

theorem carryItemAmend_refusedWhole : RefusedWhole carryItemAmend := by
  intro body s
  unfold carryItemAmend
  split
  · exact changesOnOk_refuse ..
  · exact changesOnOk_judgeEdit (changesOnOk_acceptEdit ..)

theorem carryItemMove_refusedWhole : RefusedWhole carryItemMove := by
  intro body s
  unfold carryItemMove
  split
  · exact changesOnOk_judgeEdit (changesOnOk_acceptEdit ..)
  · exact changesOnOk_refuse ..

theorem carryItemRetire_refusedWhole : RefusedWhole carryItemRetire := by
  intro body s
  unfold carryItemRetire
  split
  · rename_i id _
    refine changesOnOk_judgeEdit ?_
    cases findItem s id with
    | none => exact changesOnOk_acceptEdit ..
    | some i => exact changesOnOk_acceptEdit ..
  · exact changesOnOk_refuse ..

theorem carryItemReset_refusedWhole : RefusedWhole carryItemReset := by
  intro body s
  unfold carryItemReset
  split
  · exact changesOnOk_judgeEdit (changesOnOk_acceptEdit ..)
  · exact changesOnOk_refuse ..

theorem carryElementAdd_refusedWhole : RefusedWhole carryElementAdd := by
  intro body s
  unfold carryElementAdd
  split
  · exact changesOnOk_refuse ..
  · refine changesOnOk_judgeEdit ?_
    split
    · exact changesOnOk_acceptEdit ..
    · exact changesOnOk_acceptEdit ..

theorem carryElementAmend_refusedWhole : RefusedWhole carryElementAmend := by
  intro body s
  unfold carryElementAmend
  split
  · exact changesOnOk_refuse ..
  · refine changesOnOk_judgeEdit ?_
    split
    · exact changesOnOk_acceptEdit ..
    · exact changesOnOk_acceptEdit ..

theorem carryElementRemove_refusedWhole : RefusedWhole carryElementRemove := by
  intro body s
  unfold carryElementRemove
  split
  · exact changesOnOk_judgeEdit (changesOnOk_acceptEdit ..)
  · exact changesOnOk_refuse ..

/-! ### The other requests: in every branch the code alone on the state as it stands, or OK -/

theorem carryShowClear_changesOnOk (s : State) : ChangesOnOk s (carryShowClear s) := by
  unfold carryShowClear
  split
  all_goals simp

theorem carryTake_changesOnOk (s : State) : ChangesOnOk s (carryTake s) := by
  unfold carryTake
  split
  all_goals simp

theorem carryNextSet_refusedWhole : RefusedWhole carryNextSet := by
  intro body s
  unfold carryNextSet
  repeat' split
  all_goals simp

theorem carryHold_changesOnOk (s : State) : ChangesOnOk s (carryHold s) := by
  unfold carryHold
  split
  all_goals simp

theorem carryRelease_changesOnOk (s : State) : ChangesOnOk s (carryRelease s) := by
  unfold carryRelease
  split
  all_goals simp

theorem carryShowStop_changesOnOk (s : State) : ChangesOnOk s (carryShowStop s) := by
  unfold carryShowStop
  split
  all_goals simp

theorem carryShowPlan_refusedWhole : RefusedWhole carryShowPlan := by
  intro body s
  unfold carryShowPlan
  repeat' split
  all_goals simp

theorem carryRateSet_refusedWhole : RefusedWhole carryRateSet := by
  intro body s
  unfold carryRateSet
  repeat' split
  all_goals simp

theorem carryProfileSet_refusedWhole : RefusedWhole carryProfileSet := by
  intro body s
  unfold carryProfileSet
  repeat' split
  all_goals simp

theorem carryGroupSet_refusedWhole : RefusedWhole carryGroupSet := by
  intro body s
  unfold carryGroupSet
  repeat' split
  all_goals simp

theorem judgeBind_changesOnOk (p : Fin 16) (k : Fin 8) (g : Option (Fin 4)) (s : State) :
    ChangesOnOk s (judgeBind p k g s) := by
  unfold judgeBind
  repeat' split
  all_goals simp

theorem carryPortBind_refusedWhole : RefusedWhole carryPortBind := by
  intro body s
  unfold carryPortBind
  repeat' split
  all_goals simp [judgeBind_changesOnOk]

theorem judgeUnbind_changesOnOk (p : Fin 16) (s : State) : ChangesOnOk s (judgeUnbind p s) := by
  unfold judgeUnbind
  split
  all_goals simp

theorem judgeHold_changesOnOk (p : Fin 16) (s : State) : ChangesOnOk s (judgeHold p s) := by
  unfold judgeHold
  split
  all_goals simp

theorem judgeRelease_changesOnOk (p : Fin 16) (s : State) : ChangesOnOk s (judgeRelease p s) := by
  unfold judgeRelease
  split
  all_goals simp

theorem carryLayoutSet_refusedWhole : RefusedWhole carryLayoutSet := by
  intro body s
  unfold carryLayoutSet
  repeat' split
  all_goals simp

theorem carryGlyphSet_refusedWhole : RefusedWhole carryGlyphSet := by
  intro body s
  unfold carryGlyphSet
  repeat' split
  all_goals simp

theorem carryIconSet_refusedWhole : RefusedWhole carryIconSet := by
  intro body s
  unfold carryIconSet
  repeat' split
  all_goals simp

theorem carryCuePush_refusedWhole : RefusedWhole carryCuePush := by
  intro body s
  unfold carryCuePush
  repeat' split
  all_goals simp

theorem judgeCueClear_changesOnOk (d : Fin 4) (s : State) : ChangesOnOk s (judgeCueClear d s) := by
  unfold judgeCueClear
  split
  all_goals simp

theorem judgeBlank_changesOnOk (d : Fin 4) (s : State) : ChangesOnOk s (judgeBlank d s) := by
  unfold judgeBlank
  split
  all_goals simp

theorem judgeUnblank_changesOnOk (d : Fin 4) (s : State) : ChangesOnOk s (judgeUnblank d s) := by
  unfold judgeUnblank
  split
  all_goals simp

theorem carryInputSet_refusedWhole : RefusedWhole carryInputSet := by
  intro body s
  unfold carryInputSet
  repeat' split
  all_goals simp

theorem carryStatusClear_refusedWhole : RefusedWhole carryStatusClear := by
  intro body s
  unfold carryStatusClear
  repeat' split
  all_goals simp

theorem carryMaskSet_refusedWhole : RefusedWhole carryMaskSet := by
  intro body s
  unfold carryMaskSet
  repeat' split
  all_goals simp

/-! ### Request rows -/

/-- The command is the dispatch of a request of this code, which is refused whole. -/
def ServedWhole (code : Byte) (c : Instr) : Prop :=
  ∃ act, (∀ s, exec c s = .next (serve code act s)) ∧ RefusedWhole act

/-- The answer is read back from the response FIFO that it joined. -/
theorem pushResponse_body {code : Byte} {body body' : List Byte} {l : List Response} {t : State}
    (h : (pushResponse code body t).link.responses = l ++ [⟨code, body'⟩]) : body = body' := by
  have hlast := List.append_inj_right' h rfl
  simpa using hlast

theorem ServedWhole.of_carried {code : Byte} {c : Instr} {act : List Byte → State → Reply} (h : RefusedWhole act)
    (hserve : ∀ s, exec c s = .next (serve code act s)) : ServedWhole code c := ⟨act, hserve, h⟩

/-- The requests of section 11.3 with their codes, less DEVICE_RESET. -/
def requestRows : List (Byte × Instr) :=
  [(0x01#8, .rateSet), (0x02#8, .refRead), (0x03#8, .tcConvert), (0x10#8, .itemInsert), (0x11#8, .itemAmend),
    (0x12#8, .itemMove), (0x13#8, .itemRetire), (0x14#8, .itemReset), (0x15#8, .elementAdd), (0x16#8,
    .elementAmend), (0x17#8, .elementRemove), (0x18#8, .itemRead), (0x19#8, .elementRead), (0x1A#8,
    .rundownRead), (0x1B#8, .showClear), (0x20#8, .takeRequest), (0x21#8, .nextSet), (0x22#8, .nextAuto),
    (0x23#8, .holdRequest), (0x24#8, .releaseRequest), (0x25#8, .showStop), (0x26#8, .showPlan), (0x27#8,
    .showRead), (0x28#8, .timingRead), (0x29#8, .armRead), (0x30#8, .profileSet), (0x31#8, .profileRead),
    (0x32#8, .groupSet), (0x33#8, .portBind), (0x34#8, .portUnbind), (0x35#8, .portHold), (0x36#8,
    .portRelease), (0x37#8, .portRead), (0x40#8, .layoutSet), (0x41#8, .glyphSet), (0x42#8, .iconSet), (0x43#8,
    .cuePush), (0x44#8, .cueClear), (0x45#8, .displayBlank), (0x46#8, .displayUnblank), (0x47#8, .displayRead),
    (0x48#8, .inputSet), (0x49#8, .inputRead), (0x50#8, .statusRead), (0x51#8, .statusClear), (0x52#8,
    .maskSet), (0x53#8, .ident)]

theorem requestRows_servedWhole : ∀ row ∈ requestRows, ServedWhole row.1 row.2 := by
  simp only [requestRows, List.forall_mem_cons]
  exact ⟨.of_carried carryRateSet_refusedWhole fun _ => rfl,
    .of_carried (bodyless_refusedWhole fun _ => changesOnOk_accept ..) fun _ => rfl,
    .of_carried carryTcConvert_onlyReads.refusedWhole fun _ => rfl,
    .of_carried carryItemInsert_refusedWhole fun _ => rfl,
    .of_carried carryItemAmend_refusedWhole fun _ => rfl,
    .of_carried carryItemMove_refusedWhole fun _ => rfl,
    .of_carried carryItemRetire_refusedWhole fun _ => rfl,
    .of_carried carryItemReset_refusedWhole fun _ => rfl,
    .of_carried carryElementAdd_refusedWhole fun _ => rfl,
    .of_carried carryElementAmend_refusedWhole fun _ => rfl,
    .of_carried carryElementRemove_refusedWhole fun _ => rfl,
    .of_carried carryItemRead_onlyReads.refusedWhole fun _ => rfl,
    .of_carried carryElementRead_onlyReads.refusedWhole fun _ => rfl,
    .of_carried carryRundownRead_onlyReads.refusedWhole fun _ => rfl,
    .of_carried (bodyless_refusedWhole carryShowClear_changesOnOk) fun _ => rfl,
    .of_carried (bodyless_refusedWhole carryTake_changesOnOk) fun _ => rfl,
    .of_carried carryNextSet_refusedWhole fun _ => rfl,
    .of_carried (bodyless_refusedWhole fun _ => changesOnOk_accept ..) fun _ => rfl,
    .of_carried (bodyless_refusedWhole carryHold_changesOnOk) fun _ => rfl,
    .of_carried (bodyless_refusedWhole carryRelease_changesOnOk) fun _ => rfl,
    .of_carried (bodyless_refusedWhole carryShowStop_changesOnOk) fun _ => rfl,
    .of_carried carryShowPlan_refusedWhole fun _ => rfl,
    .of_carried (bodyless_refusedWhole fun _ => changesOnOk_accept ..) fun _ => rfl,
    .of_carried (bodyless_refusedWhole fun _ => changesOnOk_accept ..) fun _ => rfl,
    .of_carried carryArmRead_onlyReads.refusedWhole fun _ => rfl,
    .of_carried carryProfileSet_refusedWhole fun _ => rfl,
    .of_carried carryProfileRead_onlyReads.refusedWhole fun _ => rfl,
    .of_carried carryGroupSet_refusedWhole fun _ => rfl,
    .of_carried carryPortBind_refusedWhole fun _ => rfl,
    .of_carried (portRequest_refusedWhole judgeUnbind_changesOnOk) fun _ => rfl,
    .of_carried (portRequest_refusedWhole judgeHold_changesOnOk) fun _ => rfl,
    .of_carried (portRequest_refusedWhole judgeRelease_changesOnOk) fun _ => rfl,
    .of_carried (portRequest_refusedWhole fun _ _ => changesOnOk_accept ..) fun _ => rfl,
    .of_carried carryLayoutSet_refusedWhole fun _ => rfl,
    .of_carried carryGlyphSet_refusedWhole fun _ => rfl,
    .of_carried carryIconSet_refusedWhole fun _ => rfl,
    .of_carried carryCuePush_refusedWhole fun _ => rfl,
    .of_carried (displayRequest_refusedWhole judgeCueClear_changesOnOk) fun _ => rfl,
    .of_carried (displayRequest_refusedWhole judgeBlank_changesOnOk) fun _ => rfl,
    .of_carried (displayRequest_refusedWhole judgeUnblank_changesOnOk) fun _ => rfl,
    .of_carried carryDisplayRead_onlyReads.refusedWhole fun _ => rfl,
    .of_carried carryInputSet_refusedWhole fun _ => rfl,
    .of_carried carryInputRead_onlyReads.refusedWhole fun _ => rfl,
    .of_carried (bodyless_refusedWhole fun _ => changesOnOk_accept ..) fun _ => rfl,
    .of_carried carryStatusClear_refusedWhole fun _ => rfl,
    .of_carried carryMaskSet_refusedWhole fun _ => rfl,
    .of_carried (bodyless_refusedWhole fun _ => changesOnOk_accept ..) fun _ => rfl,
    List.forall_mem_nil _⟩

theorem ServedWhole.refused {code : Byte} {c : Instr} (hc : ServedWhole code c) {body : List Byte}
    {rest : List RequestEntry} {s t : State} {r : Byte} {more : List Byte} (hw : Waiting code body rest s)
    (hexec : exec c s = .next t) (hanswer : t.link.responses = s.link.responses ++ [⟨code, r :: more⟩])
    (hr : r ≠ 0#8) : t = pushResponse code (r :: more) (takeHead rest s) := by
  obtain ⟨act, hserve, hwhole⟩ := hc
  cases (hserve s).symm.trans hexec
  rw [serve_waiting hw] at hanswer ⊢
  have hbody := pushResponse_body hanswer
  obtain hok | hsame := hwhole body (takeHead rest s)
  · rw [hbody] at hok
    exact absurd (Option.some.inj hok) hr
  · rw [hbody, hsame]

/-- A DEVICE_RESET with a body is answered BAD_LENGTH (R211). -/
theorem exec_deviceReset_body {s : State} {rest : List RequestEntry} {b : Byte} {bs : List Byte}
    (hw : Waiting 0x54#8 (b :: bs) rest s) :
    exec .deviceReset s = .next (pushResponse 0x54#8 [0x02#8] (takeHead rest s)) := by
  have hserve : exec .deviceReset s = .next (serve 0x54#8 (fun _ => refuse .badLength) s) := by
    simp [exec, execDeviceReset, hw.1]
  rw [hserve, serve_waiting hw]
  rfl

/-- A DEVICE_RESET that has a response has a body, and its response changes nothing. -/
theorem exec_deviceReset_refused {body : List Byte} {rest : List RequestEntry} {s t : State} {r : Byte}
    {more : List Byte} (hw : Waiting 0x54#8 body rest s) (hexec : exec .deviceReset s = .next t)
    (hanswer : t.link.responses = s.link.responses ++ [⟨0x54#8, r :: more⟩]) :
    t = pushResponse 0x54#8 (r :: more) (takeHead rest s) := by
  cases body with
  | nil =>
    have hreset : exec .deviceReset s = .next (resetPart s) := by simp [exec, execDeviceReset, hw.1, isGood]
    cases hreset.symm.trans hexec
    exact absurd (congrArg List.length hanswer) (by simp [resetPart, State.reset])
  | cons b bs =>
    cases (exec_deviceReset_body hw).symm.trans hexec
    rw [pushResponse_body hanswer]

/-- Settles O13: every request row but DEVICE_RESET is refused whole. -/
theorem refusedRequestsChangeNothing : Obligations.RefusedRequestsChangeNothing := by
  refine ⟨fun c code s t rest body r more hw hexec _ hrow hanswer hr => ?_,
    fun s rest b bs hw => exec_deviceReset_body hw⟩
  obtain hserved | hreset := List.mem_append.mp (show (code, c) ∈ requestRows ++ [(0x54#8, .deviceReset)] from hrow)
  · exact (requestRows_servedWhole _ hserved).refused hw hexec hanswer hr
  · cases List.mem_singleton.mp hreset
    exact exec_deviceReset_refused hw hexec hanswer

end Sys2Proof.Machine
end

