-- ==== Sys2Proof/Proofs/ItemEdits.lean ====
section
/-! The edits of one item: ITEM_AMEND (R46, R61), ITEM_RETIRE (R50, R51) and ITEM_RESET (R52). -/

namespace Sys2Proof.Machine

/-! ### ITEM_AMEND (R46, R61) -/

/-- The amend selects PD, a flag or TGT, which triggers a walk (R61). -/
def AmendBody.retimes (b : AmendBody) : Bool :=
  b.duration.isSome || b.float.isSome || b.auto.isSome || b.junction.isSome || b.target.isSome

/-- The amended record, with a walk in flight if the amend triggers one. -/
def amended (b : AmendBody) (s : State) : State :=
  { modifyItem b.id (amendRecord b) s with
    engine := { s.engine with inFlight := s.engine.inFlight || b.retimes } }

theorem amended_eq (b : AmendBody) (s : State) : amended b s =
    if b.retimes then triggerWalk (modifyItem b.id (amendRecord b) s) else modifyItem b.id (amendRecord b) s := by
  unfold amended
  cases b.retimes with
  | true => simp [triggerWalk]
  | false => simp [modifyItem]

theorem amended_requestFrame (b : AmendBody) (s : State) : RequestFrame s (amended b s) := .of_parts ..

/-- A selected FLOAT is among what triggers a walk, so the reselection it asks for finds a walk in flight (R61, R62). -/
theorem amended_inFlight_of_float {b : AmendBody} (h : b.float.isSome = true) (s : State) :
    (amended b s).engine.inFlight = true := by
  simp [amended, AmendBody.retimes, h]

/-- An accepted amend is the amended record, then a reselection when FLOAT is selected, then a render. -/
theorem amendItem_eq (b : AmendBody) (i : Item) (s : State) : amendItem b i s =
    let s3 := if b.float.isSome then reselect (standbyId s) (amended b s) else amended b s
    if i.state.near && (b.slug.isSome || b.note.isSome || b.presenters.isSome) then renderAll s3 else s3 := by
  rw [amended_eq]
  rfl

theorem ElementEdited.when {p : Prop} [Decidable p] {s t : State} (h : p → ElementEdited s t) :
    ElementEdited s (if p then t else s) := by
  split
  · exact h ‹p›
  · exact (Quiet.refl s).elementEdited (.refl s)

/-- Nothing that follows the amended record touches the sequencer or the engine. -/
theorem amendItem_elementEdited (b : AmendBody) (i : Item) (s : State) :
    ElementEdited (amended b s) (amendItem b i s) := by
  have hselect : ElementEdited (amended b s)
      (if b.float.isSome then reselect (standbyId s) (amended b s) else amended b s) :=
    .when fun hfloat => (reselect_quiet ..).elementEdited (reselect_showStands (amended_inFlight_of_float hfloat s) _)
  rw [amendItem_eq]
  exact hselect.trans (.when fun _ => (renderAll_quiet _).elementEdited (renderAll_showStands _))

/-- Settles O36. -/
theorem amendChangesSelectedFields : Obligations.AmendChangesSelectedFields := by
  intro s rest body select b i hw hread
  dsimp only
  intro hrange hfound hconsistent hallowed
  have hact : carryItemAmend body (takeHead rest s)
      = acceptEdit (beBytes 4 b.id) [] (amendItem b i (takeHead rest s)) := by
    simp only [carryItemAmend, hread, hfound]
    exact judgeEdit_accepted (by simp [hrange, hconsistent, hallowed]) _ _ _
  have hedit := amendItem_elementEdited b i (takeHead rest s)
  have hanswer := serve_acceptEdit hw hact
  rw [List.append_nil, hedit.revision] at hanswer
  refine ⟨_, congrArg Host.Outcome.next hanswer,
    pushResponse_answered hedit.responses .., amendItem_rundown .., hedit.revision,
    ((amended_requestFrame ..).trans hedit.frame).trans (pushResponse_requestFrame ..), ?_⟩
  refine hedit.stands.engine.trans ?_
  simp only [amended, AmendBody.retimes, Bool.or_assoc]

/-! ### Ids by the rundown -/

/-- The ids of the items are read off what the host put in them. -/
theorem ids_of_hosted {l m : List Item} (h : l.map Item.hosted = m.map Item.hosted) :
    l.map Item.id = m.map Item.id := by
  simpa [Function.comp_def, Item.hosted] using congrArg (List.map HostedItem.id) h

theorem findItem_eq_none_iff (s : State) (id : StoryId) : findItem s id = none ↔ id ∉ s.items.map Item.id := by
  simp [findItem]

/-! ### ITEM_RETIRE (R50, R51) -/

/-- With ids unique no item stands above itself. -/
theorem itemAbove_ne {l : List Item} (h : (l.map Item.id).Nodup) (id : StoryId) : itemAbove id l ≠ some id := by
  induction l with
  | nil => simp [itemAbove]
  | cons a l ih =>
    cases l with
    | nil => simp [itemAbove]
    | cons b l =>
      obtain ⟨ha, hl⟩ := List.nodup_cons.mp h
      unfold itemAbove
      split
      · rename_i hb
        have hne : a.id ≠ b.id := fun hab => ha (by simp [hab])
        simpa [← beq_iff_eq.mp hb] using hne
      · exact ih hl

theorem endNomination_nomination (id : StoryId) (s : State) : (endNomination id s).seq.nomination ≠ some id := by
  unfold endNomination
  split
  · simp
  · assumption

theorem endNomination_items (id : StoryId) (s : State) : (endNomination id s).items = s.items := by
  unfold endNomination
  split
  · rfl
  · rfl

/-- The references to a retired item are changes of the sequencer alone, and name it no more (R51). -/
structure Released (id : StoryId) (s t : State) : Prop where
  cursor : t.seq.cursor ≠ some id
  nomination : t.seq.nomination ≠ some id
  engine : t.engine = s.engine

theorem releaseReferences_released {id : StoryId} {s : State} (hids : (s.items.map Item.id).Nodup) :
    Released id s (releaseReferences id s) := by
  have hengine : (endNomination id s).engine = s.engine := by
    unfold endNomination
    split
    · rfl
    · rfl
  unfold releaseReferences
  dsimp only
  split
  · exact ⟨itemAbove_ne (endNomination_items id s ▸ hids) id, endNomination_nomination id s, hengine⟩
  · exact ⟨‹_›, endNomination_nomination id s, hengine⟩

theorem retireElements_showStands (i : Item) (s : State) : ShowStands s (retireElements i s) :=
  (withdrawItem_showStands ..).trans (.ite (orphanItem_showStands ..) (.foldl (fun _ _ => .of_parts ..) _ _))

/-- The store without the item, at the next revision, before the walk trigger and the reselection. -/
def withdrawn (i : Item) (s : State) : State :=
  bumpRevision (removeItem i.id (releaseReferences i.id (retireElements i s)))

/-- What the retired item leaves of the revision, the sequencer and the path (R22, R51, R79). -/
structure Retired (id : StoryId) (s t : State) : Prop where
  cursor : t.seq.cursor ≠ some id
  nomination : t.seq.nomination ≠ some id
  path : t.engine.path = s.engine.path.filter (· != id)
  pathLength : t.engine.pathLength = s.engine.pathLength
  revision : t.revision = (s.revision + 1) % 65536
  responses : t.link.responses = s.link.responses
  frame : RequestFrame s t

theorem withdrawn_retired {i : Item} {s : State} (hids : (s.items.map Item.id).Nodup) :
    Retired i.id s (withdrawn i s) := by
  have hshow := retireElements_showStands i s
  have hquiet := (retireElements_quiet i s).trans (releaseReferences_quiet i.id _)
  have hids' : ((retireElements i s).items.map Item.id).Nodup := by
    rwa [ids_of_hosted (retireElements_quiet i s).rundown]
  obtain ⟨hcursor, hnomination, hengine⟩ := releaseReferences_released (id := i.id) hids'
  have hengine := hengine.trans hshow.engine
  have hlength := congrArg Engine.pathLength hengine
  exact {
    cursor := hcursor
    nomination := hnomination
    path := congrArg (fun e => e.path.filter (· != i.id)) hengine
    pathLength := hlength
    revision := congrArg (fun n => (n + 1) % 65536) hquiet.revision
    responses := hquiet.responses
    frame := hquiet.requestFrame.trans (.of_parts ..) }

/-- The end of the edit leaves all of that. -/
theorem retireItem_retired {i : Item} {s : State} (hids : (s.items.map Item.id).Nodup) :
    Retired i.id s (retireItem i s) := by
  have h := withdrawn_retired (i := i) hids
  have hshow : ShowStands (triggerWalk (withdrawn i s)) (retireItem i s) := closeItemEdit_showStands ..
  have hquiet : Quiet (withdrawn i s) (retireItem i s) := closeItemEdit_quiet ..
  exact {
    cursor := hshow.seq ▸ h.cursor
    nomination := hshow.seq ▸ h.nomination
    path := (congrArg Engine.path hshow.engine).trans h.path
    pathLength := (congrArg Engine.pathLength hshow.engine).trans h.pathLength
    revision := hquiet.revision.trans h.revision
    responses := hquiet.responses.trans h.responses
    frame := h.frame.trans hquiet.requestFrame }

theorem retireItem_findItem (i : Item) (s : State) : findItem (retireItem i s) i.id = none := by
  rw [findItem_eq_none_iff, ids_of_hosted (retireItem_rundown i s)]
  simp

/-- Settles O38. -/
theorem retireRemovesItem : Obligations.RetireRemovesItem := by
  intro s rest id i hid hw
  dsimp only
  rintro ⟨hids, -⟩ hne hfound hmovable
  have hact : carryItemRetire (beBytes 4 id) (takeHead rest s) = acceptEdit (beBytes 4 id)
      (beBytes 1 i.elements.length ++ beBytes 1 (orphanCount i)) (retireItem i (takeHead rest s)) := by
    simp only [carryItemRetire, takeNumbers_beBytes_last 4 id hid, hfound]
    exact judgeEdit_accepted (by simp [hne, hmovable]) _ _ _
  obtain rfl := findItem_id hfound
  have h := retireItem_retired (i := i) hids
  exact ⟨_, congrArg Host.Outcome.next (serve_acceptEdit hw hact), pushResponse_answered h.responses ..,
    retireItem_rundown .., retireItem_findItem .., h.cursor, h.nomination, h.path, h.pathLength, h.revision,
    closeItemEdit_inFlight .., h.frame.trans (pushResponse_requestFrame ..)⟩

/-! ### ITEM_RESET (R52)

The record that ITEM_RESET leaves stands through the walk trigger and the reselection: the choice may put the item in
the STANDBY slot, and what it arms are WAITING elements, of which the item has none. -/

/-- An element without a firing, a cause or a lateness. -/
structure Element.Unfired (e : Element) : Prop where
  state : e.state = .idle
  cause : e.cause = none
  lateness : e.lateness = none

/-- An item as ITEM_RESET leaves it, or as the standby choice makes of it. -/
structure Item.Returned (i : Item) : Prop where
  state : i.state = .pending ∨ i.state = .standby
  airFrame : i.airFrame = none
  endFrame : i.endFrame = none
  elements : ∀ e ∈ i.elements, e.Unfired

/-- Every item of the store with this id is as ITEM_RESET leaves it. -/
def ItemReturned (id : StoryId) (s : State) : Prop := ∀ i ∈ s.items, i.id = id → i.Returned

theorem Element.toIdle_unfired (e : Element) : e.toIdle.Unfired := ⟨rfl, rfl, rfl⟩

theorem resetRecord_returned (i : Item) : (resetRecord i).Returned where
  state := .inl rfl
  airFrame := rfl
  endFrame := rfl
  elements e he := by
    obtain ⟨x, -, rfl⟩ := List.mem_map.mp he
    exact x.toIdle_unfired

theorem renderAll_items (s : State) : (renderAll s).items = s.items := by
  rw [(renderAll_redrawn s).rest]

namespace ItemReturned

variable {id : StoryId}

/-- The items alone count. -/
theorem of_items {s t : State} (h : ItemReturned id s) (hitems : t.items = s.items) : ItemReturned id t := by
  unfold ItemReturned
  rw [hitems]
  exact h

theorem foldl {α : Type} {f : State → α → State} {l : List α}
    (hf : ∀ s, ∀ a ∈ l, ItemReturned id s → ItemReturned id (f s a)) {s : State} (h : ItemReturned id s) :
    ItemReturned id (l.foldl f s) := by
  induction l generalizing s with
  | nil => exact h
  | cons a l ih =>
    exact ih (fun s b hb => hf s b (List.mem_cons_of_mem a hb)) (hf s a List.mem_cons_self h)

/-- A change of another item, or one that leaves a returned item returned. -/
theorem modifyItem {s : State} (h : ItemReturned id s) {f : Item → Item} (hid : ∀ i, (f i).id = i.id)
    {other : StoryId} (hf : other = id → ∀ i : Item, i.Returned → (f i).Returned) :
    ItemReturned id (modifyItem other f s) := by
  intro i hi hiid
  obtain ⟨x, hx, rfl⟩ := List.mem_map.mp hi
  by_cases hother : (x.id == other) = true
  · rw [if_pos hother] at hiid ⊢
    have hxid := (hid x).symm.trans hiid
    exact hf ((beq_iff_eq.mp hother).symm.trans hxid) x (h x hx hxid)
  · rw [if_neg hother] at hiid ⊢
    exact h x hx hiid

/-- A change of an element that leaves an unfired one unfired. -/
theorem modifyElement {s : State} (h : ItemReturned id s) {f : Element → Element}
    (hf : ∀ e : Element, e.Unfired → (f e).Unfired) (other : StoryId) (tag : Tag) :
    ItemReturned id (modifyElement other tag f s) := by
  unfold Machine.modifyElement
  refine h.modifyItem (by intro; rfl) ?_
  refine fun _ i hi => ⟨hi.state, hi.airFrame, hi.endFrame, fun e he => ?_⟩
  obtain ⟨x, hx, rfl⟩ := List.mem_map.mp he
  split
  · exact hf x (hi.elements x hx)
  · exact hi.elements x hx

theorem withdrawItem {s : State} (h : ItemReturned id s) (other : StoryId) :
    ItemReturned id (withdrawItem other s) := by
  unfold Machine.withdrawItem
  refine ItemReturned.modifyItem (foldl (fun s t _ hs => ?_) h) (by intro; rfl) ?_
  · exact (hs.modifyElement (fun e _ => e.toIdle_unfired) other t).of_items rfl
  · exact fun _ i hi => ⟨hi.state, hi.airFrame, hi.endFrame, hi.elements⟩

theorem orphanElement {s : State} (h : ItemReturned id s) (other : StoryId) (tag : Tag) :
    ItemReturned id (orphanElement other tag s) := by
  unfold Machine.orphanElement
  split
  · exact h
  · dsimp only
    refine of_items (modifyElement ?_ (fun e _ => e.toIdle_unfired) other tag) (raiseNotice_items ..)
    split
    · exact h.of_items rfl
    · exact h

theorem leaveStandby {s : State} (h : ItemReturned id s) (other : StoryId) :
    ItemReturned id (leaveStandby other s) := by
  refine foldl (fun s t _ hs => hs.orphanElement other t) (withdrawItem ?_ other)
  refine h.modifyItem (by intro; rfl) ?_
  exact fun _ i hi => ⟨.inl rfl, hi.airFrame, hi.endFrame, hi.elements⟩

theorem chooseStandby {s : State} (h : ItemReturned id s) : ItemReturned id (chooseStandby s) := by
  have hleave : ∀ chosen : Option StoryId, ItemReturned id (match standbyId s with
      | some old => if chosen = some old then s else Machine.leaveStandby old s
      | none => s) := by
    intro chosen
    split
    · split
      · exact h
      · exact h.leaveStandby _
    · exact h
  unfold Machine.chooseStandby
  split
  · exact h
  · dsimp only
    split
    · unfold enterStandby
      refine (hleave _).modifyItem (by intro; rfl) ?_
      exact fun _ i hi => ⟨.inr rfl, hi.airFrame, hi.endFrame, hi.elements⟩
    · exact hleave _

theorem armElement_ne {s : State} (h : ItemReturned id s) {other : StoryId} (hne : other ≠ id) (tag : Tag) :
    ItemReturned id (armElement other tag s) := by
  have harm (st : ElementState) : ItemReturned id
      (Machine.modifyElement other tag (fun e => { e with state := st }) s) :=
    h.modifyItem (by intro; rfl) fun heq => absurd heq hne
  unfold armElement
  split
  · exact h
  · split
    · split
      · exact (harm .armed).of_items rfl
      · exact harm .waiting
    · exact h

/-- A WAITING element belongs to another item. -/
theorem waitingOrder_ne {s : State} (h : ItemReturned id s) {w : StoryId × Element} (hw : w ∈ waitingOrder s) :
    w.1 ≠ id := by
  obtain ⟨i, hi, hwi⟩ := List.mem_flatMap.mp hw
  obtain ⟨e, he, rfl⟩ := List.mem_map.mp hwi
  obtain ⟨hmem, hwaiting⟩ := List.mem_filter.mp he
  have hstore : i ∈ s.items := by
    have hslot (st : ItemState) (hst : i ∈ slotItem st s) : i ∈ s.items := List.mem_of_find?_eq_some hst
    simp only [List.mem_append, Option.mem_toList, nextItem, Option.or_eq_some_iff] at hi
    obtain hi | hi | ⟨-, hi⟩ := hi
    · exact hslot _ hi
    · exact hslot _ hi
    · exact hslot _ hi
  intro hid
  have hidle := ((h i hstore hid).elements e hmem).state
  simp [hidle] at hwaiting

theorem fillFromWaiting {s : State} (h : ItemReturned id s) : ItemReturned id (fillFromWaiting s) := by
  unfold Machine.fillFromWaiting
  refine foldl (fun s w hw hs => ?_) h
  split
  · exact hs.armElement_ne (h.waitingOrder_ne hw) _
  · exact hs

theorem closeShowEvent {s : State} (h : ItemReturned id s) : ItemReturned id (closeShowEvent s) :=
  h.fillFromWaiting.of_items (renderAll_items _)

theorem announceStandby {s : State} (h : ItemReturned id s) (before : Option StoryId) :
    ItemReturned id (announceStandby before s) := by
  unfold Machine.announceStandby
  split
  · exact h
  · exact closeShowEvent (h.of_items rfl)

theorem reselect {s : State} (h : ItemReturned id s) (before : Option StoryId) :
    ItemReturned id (reselect before s) := by
  unfold Machine.reselect
  split
  · exact h.announceStandby before
  · exact h.chooseStandby.announceStandby before

end ItemReturned

theorem modifyItem_resetRecord_returned (id : StoryId) (s : State) :
    ItemReturned id (modifyItem id resetRecord s) := by
  intro i hi hid
  obtain ⟨x, -, rfl⟩ := List.mem_map.mp hi
  split at hid
  · rename_i hx
    rw [if_pos hx]
    exact resetRecord_returned x
  · rename_i hx
    exact absurd (beq_iff_eq.mpr hid) hx

theorem resetItem_returned (id : StoryId) (s : State) : ItemReturned id (resetItem id s) :=
  ((modifyItem_resetRecord_returned id _).of_items (triggerWalk_items _)).reselect _

/-- An id of the rundown names an item as long as the rundown stands. -/
theorem findItem_isSome_of_rundown {s t : State} (h : rundown t = rundown s) {id : StoryId} {i : Item}
    (hi : findItem s id = some i) : ∃ j, findItem t id = some j := by
  rw [← Option.ne_none_iff_exists', ne_eq, findItem_eq_none_iff, ids_of_hosted h, ← findItem_eq_none_iff, hi]
  simp

/-- Settles O39. -/
theorem itemResetReturnsItem : Obligations.ItemResetReturnsItem := by
  intro s rest id i hid hw
  dsimp only
  intro hne hfound hstate
  have hact : carryItemReset (beBytes 4 id) (takeHead rest s)
      = acceptEdit (beBytes 4 id) [] (resetItem id (takeHead rest s)) := by
    simp only [carryItemReset, takeNumbers_beBytes_last 4 id hid, hfound]
    exact judgeEdit_accepted (by simp [hne, Item.resettable, hstate]) _ _ _
  have hquiet := resetItem_quiet id (takeHead rest s)
  have hanswer := serve_acceptEdit hw hact
  rw [List.append_nil, hquiet.revision] at hanswer
  obtain ⟨j, hj⟩ := findItem_isSome_of_rundown hquiet.rundown hfound
  obtain ⟨hpending, hair, hend, helements⟩ := resetItem_returned id _ j (findItem_mem hj) (findItem_id hj)
  exact ⟨_, j, congrArg Host.Outcome.next hanswer, pushResponse_answered hquiet.responses .., hj, hpending, hair, hend,
    fun e he => ⟨(helements e he).state, (helements e he).cause, (helements e he).lateness⟩, hquiet.rundown,
    hquiet.revision, closeItemEdit_inFlight .., hquiet.requestFrame.trans (pushResponse_requestFrame ..)⟩

end Sys2Proof.Machine
end

