-- ==== Sys2Proof/Proofs/ElementAdd.lean ====
section
/-! ELEMENT_ADD (R53): the element enters its item's list, and in an item near air it is armed (R63, R112 to R116). -/

namespace Sys2Proof.Machine

/-! ### Element look-ups -/

/-- A change of elements that keeps tags is seen by the look-up of that tag. -/
theorem findElement_map (i : Item) (tag : Tag) {f : Element → Element} (hf : ∀ e, (f e).tag = e.tag) :
    Item.findElement { i with elements := i.elements.map (fun e => if e.tag == tag then f e else e) } tag
      = (i.findElement tag).map f := by
  unfold Item.findElement
  dsimp only
  induction i.elements with
  | nil => rfl
  | cons e es ih =>
    by_cases he : e.tag = tag
    · simp [he, hf]
    · rw [List.map_cons, if_neg (by simpa using he), List.find?_cons_of_neg (by simpa using he), ih,
        List.find?_cons_of_neg (by simpa using he)]

/-- An element whose tag is new to the list is found once it has entered (R29). -/
theorem find_enterElement {before : Tag} {e : Element} {es : List Element}
    (hbefore : before = 0 ∨ (es.find? (fun x => x.tag == before)).isSome = true)
    (hnew : es.find? (fun x => x.tag == e.tag) = none) :
    (enterElement before e es).find? (fun x => x.tag == e.tag) = some e := by
  unfold enterElement
  split
  · simp [List.find?_append, hnew]
  · replace hbefore := hbefore.resolve_left ‹_›
    induction es with
    | nil => simp at hbefore
    | cons x es ih =>
      obtain ⟨hx, hes⟩ : x.tag ≠ e.tag ∧ es.find? (fun x => x.tag == e.tag) = none := by simpa using hnew
      by_cases hb : x.tag = before
      · simp [hb]
      · have hrest : (es.find? (fun x => x.tag == before)).isSome = true := by simpa [hb] using hbefore
        rw [List.flatMap_cons, if_neg (by simpa using hb), List.singleton_append,
          List.find?_cons_of_neg (by simpa using hx)]
        exact ih hes hrest

/-! ### The arm queue (R112 to R116) -/

/-- The lead is that of the rule (R112). -/
theorem leadOf_eq_leadByRule (s : State) (a : Action) : leadOf s a = leadByRule s a := by
  cases a with
  | serial v p n =>
    cases v
    all_goals
      simp only [leadOf, leadByRule, boundProfile]
      cases s.ports[p].profile
      all_goals rfl
  | pulse p => rfl
  | cueText d t n => rfl

/-- The entry that arming makes is the rule's (R112, R113, R116), whatever its sequence number. -/
theorem newEntry_armedEntry (s : State) (id : StoryId) (c : ArmContext) (e : Element) (n : Nat) :
    ArmedEntry s id c.start c.stop e { newEntry s id c e with seq := n } where
  story := rfl
  tag := rfl
  port := rfl
  verb := rfl
  effect := by
    unfold newEntry effectFrame
    cases e.anchor with
    | fromStart => rfl
    | fromEnd => rfl
  issue := by
    rw [← leadOf_eq_leadByRule]
    rfl
  deferred := rfl

/-- An entry is inserted right behind the last one that stays ahead of it, or first (R115). -/
theorem insertBehind_split (p : ArmEntry → Bool) (q : ArmEntry) (queue : List ArmEntry) :
    ∃ l r, queue = l ++ r ∧ insertBehind p q queue = l ++ q :: r ∧ (∀ x ∈ l.getLast?, p x = true)
      ∧ ∀ x ∈ r, p x = false := by
  induction queue with
  | nil => exact ⟨[], [], rfl, rfl, by simp, by simp⟩
  | cons x queue ih =>
    unfold insertBehind
    split
    · rename_i hany
      obtain ⟨l, r, rfl, hinsert, hlast, hrest⟩ := ih
      refine ⟨x :: l, r, rfl, by rw [hinsert]; rfl, ?_, hrest⟩
      cases l with
      | nil =>
        have hx : p x = true := by
          obtain ⟨y, hy, hpy⟩ := List.any_eq_true.mp hany
          obtain rfl | hy := List.mem_cons.mp hy
          · exact hpy
          · exact absurd hpy (by simp [hrest y hy])
        simpa using hx
      | cons y l => simpa [List.getLast?_cons_cons] using hlast
    · rename_i hnone
      exact ⟨[], x :: queue, rfl, rfl, by simp, by simpa using hnone⟩

theorem placeEntry_placedInOrder (q : ArmEntry) (s : State) :
    PlacedInOrder s { q with seq := s.sched.counter } (placeEntry q s).sched.queue := by
  obtain ⟨l, r, hqueue, hinsert, hlast, hrest⟩ := insertBehind_split
    (fun x => decide (signedDiff s.day x.issue s.cfn ≤ signedDiff s.day q.issue s.cfn))
    { q with seq := s.sched.counter } s.sched.queue
  exact ⟨l, r, hqueue, hinsert, fun x hx => of_decide_eq_true (hlast x hx),
    fun x hx => not_le.mp (of_decide_eq_false (hrest x hx))⟩

/-! ### Arming one element (R116, R119) -/

/-- The element's record takes a state. -/
abbrev withState (id : StoryId) (tag : Tag) (st : ElementState) (s : State) : State :=
  modifyElement id tag (fun e => { e with state := st }) s

section Arming

variable {id : StoryId} {tag : Tag} {s : State} {i : Item}

/-- Without an arm context nothing is armed. -/
theorem armElement_no_context (hi : findItem s id = some i) (hc : i.context = none) : armElement id tag s = s := by
  simp [armElement, hi, hc]

variable {c : ArmContext} {e : Element} (hi : findItem s id = some i) (hc : i.context = some c)
  (he : i.findElement tag = some e)
include hi hc he

theorem armElement_room (hroom : s.sched.queue.length < Config.armQueue) :
    armElement id tag s = placeEntry (newEntry s id c e) (withState id tag .armed s) := by
  simp [armElement, hi, hc, he, queueHasRoom, hroom]

theorem armElement_full (hfull : Config.armQueue ≤ s.sched.queue.length) :
    armElement id tag s = withState id tag .waiting s := by
  simp [armElement, hi, hc, he, queueHasRoom, Nat.not_lt.mpr hfull]

omit hc in
/-- The item's look-up once the element has taken a state. -/
theorem findItem_withState (st : ElementState) : ∃ j, findItem (withState id tag st s) id = some j
    ∧ j.findElement tag = some { e with state := st } := by
  have hlook := findItem_modifyItem id id (fun i => { i with
    elements := i.elements.map (fun e => if e.tag == tag then { e with state := st } else e) }) s (fun _ => rfl)
  rw [hi, Option.map_some, if_pos (by simpa using findItem_id hi)] at hlook
  exact ⟨_, hlook, by rw [findElement_map i tag (f := fun e => { e with state := st }) (fun _ => rfl), he]; rfl⟩

end Arming

/-! ### The added element -/

/-- The record of the item that an ELEMENT_ADD names, with the new element in its list (R53). -/
def entered (h : AddHead) (e : Element) (s : State) : State :=
  modifyItem h.id (fun i => { i with elements := enterElement h.before e i.elements }) s

/-- What becomes of the new element and of the arm queue (R53, R63, R116): `j` is the item after the request. -/
structure Added (s : State) (h : AddHead) (i : Item) (e : Element) (t : State) (j : Item) : Prop where
  found : findItem t h.id = some j
  armed : ∀ k : ArmContext, i.state.near = true → i.context = some k →
    s.sched.queue.length < Config.armQueue → j.findElement h.tag = some { e with state := .armed }
      ∧ t.sched.counter = (s.sched.counter + 1) % 65536
      ∧ ∃ q, ArmedEntry s h.id k.start k.stop e q ∧ q.seq = s.sched.counter ∧ PlacedInOrder s q t.sched.queue
  waiting : ∀ k : ArmContext, i.state.near = true → i.context = some k →
    Config.armQueue ≤ s.sched.queue.length → j.findElement h.tag = some { e with state := .waiting } ∧ t.sched = s.sched
  idle : i.state.near = false ∨ i.context = none → j.findElement h.tag = some e ∧ t.sched = s.sched

theorem addElement_added {s : State} {h : AddHead} {i : Item} {e : Element} (htag : e.tag = h.tag)
    (hi : findItem s h.id = some i) (hbefore : h.before = 0 ∨ (i.findElement h.before).isSome = true)
    (hnew : i.findElement h.tag = none) : ∃ j, Added s h i e (addElement h i e s) j := by
  have hlook : findItem (entered h e s) h.id
      = some { i with elements := enterElement h.before e i.elements } := by
    rw [entered, findItem_modifyItem _ _ _ _ (by intro; rfl), hi, Option.map_some,
      if_pos (by simpa using findItem_id hi)]
  have hfind : Item.findElement { i with elements := enterElement h.before e i.elements } h.tag = some e := by
    rw [← htag] at hnew ⊢
    exact find_enterElement hbefore hnew
  have hadd : addElement h i e s = if i.state.near then armElement h.id h.tag (entered h e s) else entered h e s := rfl
  rw [hadd]
  by_cases hnear : i.state.near = true
  · rw [if_pos hnear]
    cases hc : i.context with
    | none =>
      rw [armElement_no_context hlook hc]
      exact ⟨_, hlook, by simp [hc], by simp [hc], fun _ => ⟨hfind, rfl⟩⟩
    | some c =>
      by_cases hroom : s.sched.queue.length < Config.armQueue
      · obtain ⟨j, hj, hje⟩ := findItem_withState hlook hfind .armed
        rw [armElement_room hlook hc hfind hroom]
        refine ⟨j, hj, fun k _ hk _ => ?_, fun _ _ _ hfull => absurd hroom (Nat.not_lt.mpr hfull), by simp [hnear, hc]⟩
        cases hc.symm.trans hk
        exact ⟨hje, rfl, _, newEntry_armedEntry s h.id c e s.sched.counter, rfl,
          placeEntry_placedInOrder (newEntry s h.id c e) s⟩
      · obtain ⟨j, hj, hje⟩ := findItem_withState hlook hfind .waiting
        rw [armElement_full hlook hc hfind (Nat.not_lt.mp hroom)]
        exact ⟨j, hj, fun _ _ _ hr => absurd hr hroom, fun _ _ _ _ => ⟨hje, rfl⟩, by simp [hnear, hc]⟩
  · rw [if_neg hnear]
    exact ⟨_, hlook, by simp [hnear], by simp [hnear], fun _ => ⟨hfind, rfl⟩⟩

theorem addElement_elementEdited (h : AddHead) (i : Item) (e : Element) (s : State) :
    ElementEdited s (addElement h i e s) :=
  (modifyItem_elementEdited ..).trans (.when fun _ => (armElement_quiet ..).elementEdited (armElement_showStands ..))

theorem addElement_ports (h : AddHead) (i : Item) (e : Element) (s : State) : (addElement h i e s).ports = s.ports := by
  unfold addElement
  dsimp only
  split
  · exact armElement_ports ..
  · rfl

/-- Settles O40. -/
theorem elementAddEntersElement : Obligations.ElementAddEntersElement := by
  intro s rest body h f i a hw hread
  dsimp only
  intro hid htag hrange hfound hbefore hnew haction hroom hpool
  obtain ⟨j, hj⟩ := addElement_added (e := newElement h.tag f a) rfl hfound hbefore hnew
  have hact : carryElementAdd body (takeHead rest s) = acceptEdit (elementIds h.id h.tag)
      (beBytes 1 (j.elementPosition h.tag)) (addElement h i (newElement h.tag f a) (takeHead rest s)) := by
    simp only [carryElementAdd, hread, hfound, haction, stepChecks, actionFailure]
    rw [judgeEdit_accepted (by simp [hid, htag, hrange, hbefore, hnew, hroom, hpool])]
    simp only [hj.found, Option.map_some, Option.getD_some]
  have hedit := addElement_elementEdited h i (newElement h.tag f a) (takeHead rest s)
  have hanswer := serve_acceptEdit hw hact
  rw [hedit.revision] at hanswer
  exact ⟨_, j, congrArg Host.Outcome.next hanswer, hj.found, pushResponse_answered hedit.responses ..,
    addElement_rundown .., fun k hnear hk => ⟨hj.armed k hnear hk, hj.waiting k hnear hk⟩, hj.idle, hedit.revision,
    hedit.stands.seq, hedit.stands.engine, addElement_ports .., hedit.frame.trans (pushResponse_requestFrame ..)⟩

end Sys2Proof.Machine
end

