-- ==== Sys2Proof/Proofs/Backstage.lean ====
section
/-! What arming, withdrawing, firing and showing leave of the show: the items but for their elements and arm contexts,
the Show Sequencer and the Timing Engine.  The slots are the items' states, so these operations move none (R66). -/

namespace Sys2Proof.Machine

/-! ### Relations that compose -/

/-- A relation of two states that operations made one after the other carry on. -/
structure Composes (R : State → State → Prop) : Prop where
  refl : ∀ s, R s s
  trans : ∀ {a b c}, R a b → R b c → R a c

namespace Composes

variable {R : State → State → Prop} (h : Composes R)
include h

theorem foldl {α : Type} {f : State → α → State} (hf : ∀ s a, R s (f s a)) (l : List α) (s : State) :
    R s (l.foldl f s) := by
  induction l generalizing s with
  | nil => exact h.refl s
  | cons a l ih => exact h.trans (hf s a) (ih _)

theorem foldScan {f : ScanState → ArmEntry → ScanState} (hf : ∀ c q, R c.state (f c q).state) (l : List ArmEntry)
    (c : ScanState) : R c.state (l.foldl f c).state := by
  induction l generalizing c with
  | nil => exact h.refl _
  | cons q l ih => exact h.trans (hf c q) (ih _)

theorem elim {α : Type} {f : α → State} {s : State} (hf : ∀ a, R s (f a)) (o : Option α) : R s (o.elim s f) := by
  cases o with
  | none => exact h.refl s
  | some a => exact hf a

/-- An operation that is made only if a condition holds. -/
theorem when {p : Prop} [Decidable p] {s a : State} (ha : p → R s a) : R s (if p then a else s) := by
  split
  · exact ha ‹p›
  · exact h.refl s

omit h in
theorem ite {p : Prop} [Decidable p] {s a b : State} (ha : R s a) (hb : R s b) : R s (if p then a else b) := by
  split
  · exact ha
  · exact hb

end Composes

/-! ### The show stands -/

/-- An item but for its elements and its arm context. -/
def Item.core (i : Item) : Item := { i with elements := [], context := none }

/-- The items are the same but for their elements and arm contexts, the Show Sequencer and the Timing Engine are the
same. -/
structure SameShow (s t : State) : Prop where
  cores : t.items.map Item.core = s.items.map Item.core
  seq : t.seq = s.seq
  engine : t.engine = s.engine

/-- Beside that the ports are the same. -/
structure OnlyArmed (s t : State) : Prop extends SameShow s t where
  ports : t.ports = s.ports

theorem sameShow_composes : Composes SameShow where
  refl _ := ⟨rfl, rfl, rfl⟩
  trans h k := ⟨k.cores.trans h.cores, k.seq.trans h.seq, k.engine.trans h.engine⟩

theorem onlyArmed_composes : Composes OnlyArmed where
  refl s := ⟨sameShow_composes.refl s, rfl⟩
  trans h k := ⟨sameShow_composes.trans h.toSameShow k.toSameShow, k.ports.trans h.ports⟩

/-! ### Single updates -/

/-- A change of the arm queue, the displays or the link. -/
theorem OnlyArmed.of_parts {s : State} (sched : Scheduler) (displays : Vector Display 4) (link : Link) :
    OnlyArmed s { s with sched, displays, link } := ⟨⟨rfl, rfl, rfl⟩, rfl⟩

/-- A change of the groups, the ports, the inputs, the tick or the levels of BUSY. -/
theorem SameShow.of_parts {s : State} (groups : Vector Group 4) (ports : Vector Port 16)
    (inputs : Vector PanelInput 8) (tick : TickWork) (busy : Vector Level 4) :
    SameShow s { s with groups, ports, inputs, tick, busy } := ⟨rfl, rfl, rfl⟩

/-- A change of an item's elements and arm context. -/
theorem modifyItem_onlyArmed {f : Item → Item} (hf : ∀ i, (f i).core = i.core) (id : StoryId) (s : State) :
    OnlyArmed s (modifyItem id f s) := by
  refine ⟨⟨?_, rfl, rfl⟩, rfl⟩
  rw [modifyItem_items, List.map_map]
  refine List.map_congr_left fun i _ => ?_
  simp only [Function.comp_apply]
  split
  · exact hf i
  · rfl

theorem modifyElement_onlyArmed (id : StoryId) (tag : Tag) (f : Element → Element) (s : State) :
    OnlyArmed s (modifyElement id tag f s) := modifyItem_onlyArmed (by intro; rfl) ..

theorem raiseNotice_onlyArmed (k : NoticeKind) (a b c d : Nat) (s : State) :
    OnlyArmed s (raiseNotice k a b c d s) := .of_parts ..

theorem removeEntry_onlyArmed (id : StoryId) (tag : Tag) (s : State) : OnlyArmed s (removeEntry id tag s) :=
  .of_parts ..

theorem placeEntry_onlyArmed (e : ArmEntry) (s : State) : OnlyArmed s (placeEntry e s) := .of_parts ..

theorem deferEntry_onlyArmed (id : StoryId) (tag : Tag) (s : State) : OnlyArmed s (deferEntry id tag s) :=
  .of_parts ..

theorem modifyDisplay_onlyArmed (d : Fin 4) (f : Display → Display) (s : State) :
    OnlyArmed s (modifyDisplay d f s) := .of_parts ..

theorem modifyPort_sameShow (p : Fin 16) (f : Port → Port) (s : State) : SameShow s (modifyPort p f s) := .of_parts ..

theorem detach_sameShow (id : StoryId) (tag : Tag) (s : State) : SameShow s (detach id tag s) := .of_parts ..

theorem takeCommand_sameShow (p : Fin 16) (f : Frame) (ref : StoryId × Tag) (a : Action) (s : State) :
    SameShow s (takeCommand p f ref a s) := by
  unfold takeCommand
  refine sameShow_composes.trans ?_ (modifyPort_sameShow ..)
  split
  · exact sameShow_composes.refl s
  · exact .of_parts ..

/-! ### Displays -/

theorem render_onlyArmed (n : Fin 4) (s : State) : OnlyArmed s (render n s) :=
  onlyArmed_composes.trans (modifyDisplay_onlyArmed ..) (modifyDisplay_onlyArmed ..)

theorem renderAll_onlyArmed (s : State) : OnlyArmed s (renderAll s) :=
  onlyArmed_composes.foldl (fun s n => render_onlyArmed n s) _ _

theorem renderThose_onlyArmed (p : Fin 4 → Bool) (s : State) : OnlyArmed s (renderThose p s) :=
  onlyArmed_composes.foldl (fun s n => render_onlyArmed n s) _ _

theorem acknowledge_onlyArmed (n : Fin 4) (s : State) : OnlyArmed s (acknowledge n s) := by
  unfold acknowledge
  split
  · exact onlyArmed_composes.refl s
  · exact .of_parts ..

theorem deliverCue_onlyArmed (c : Cue) (s : State) (n : Fin 4) : OnlyArmed s (deliverCue c s n) := by
  unfold deliverCue
  split
  · exact .of_parts ..
  · exact Composes.ite (.of_parts ..) (.of_parts ..)

theorem expireHead_onlyArmed (n : Fin 4) (s : State) : OnlyArmed s (expireHead n s) := by
  unfold expireHead
  split
  · exact onlyArmed_composes.refl s
  · exact onlyArmed_composes.when fun _ => .of_parts ..

theorem advanceCrawl_onlyArmed (n : Fin 4) (s : State) : OnlyArmed s (advanceCrawl n s) :=
  onlyArmed_composes.when fun _ => .of_parts ..

theorem busyTest_onlyArmed (n : Fin 4) (s : State) : OnlyArmed s (busyTest n s) :=
  onlyArmed_composes.when fun _ => .of_parts ..

theorem displayTick_onlyArmed (n : Fin 4) (s : State) : OnlyArmed s (displayTick n s) :=
  onlyArmed_composes.when fun _ => onlyArmed_composes.trans (expireHead_onlyArmed ..) (onlyArmed_composes.trans
    (advanceCrawl_onlyArmed ..) (onlyArmed_composes.trans (busyTest_onlyArmed ..) (render_onlyArmed ..)))

/-! ### Ports -/

theorem settlePort_sameShow (p : Fin 16) (failure : Bool) (s : State) : SameShow s (settlePort p failure s) :=
  Composes.ite (sameShow_composes.trans (modifyPort_sameShow ..) (raiseNotice_onlyArmed ..).toSameShow)
    (modifyPort_sameShow ..)

theorem failElement_onlyArmed (p : Fin 16) (c : Cause) (r : Option (StoryId × Tag)) (s : State) :
    OnlyArmed s (failElement p c r s) := by
  unfold failElement
  split
  · exact onlyArmed_composes.refl s
  · exact onlyArmed_composes.trans (modifyElement_onlyArmed ..) (.of_parts ..)

theorem takeDeadline_sameShow (p : Fin 16) (s : State) : SameShow s (takeDeadline p s) := by
  unfold takeDeadline
  split
  · exact sameShow_composes.refl s
  · exact sameShow_composes.when fun _ =>
      sameShow_composes.trans (failElement_onlyArmed ..).toSameShow (settlePort_sameShow ..)

theorem takePulseEnd_sameShow (p : Fin 16) (s : State) : SameShow s (takePulseEnd p s) :=
  sameShow_composes.when fun _ => modifyPort_sameShow ..

/-! ### The arm queue -/

theorem armElement_onlyArmed (id : StoryId) (tag : Tag) (s : State) : OnlyArmed s (armElement id tag s) := by
  unfold armElement
  split
  · exact onlyArmed_composes.refl s
  · split
    · exact Composes.ite (onlyArmed_composes.trans (modifyElement_onlyArmed ..) (placeEntry_onlyArmed ..))
        (modifyElement_onlyArmed ..)
    · exact onlyArmed_composes.refl s

theorem armIdle_onlyArmed (id : StoryId) (s : State) : OnlyArmed s (armIdle id s) :=
  onlyArmed_composes.foldl (fun s t => armElement_onlyArmed id t s) _ _

theorem fillFromWaiting_onlyArmed (s : State) : OnlyArmed s (fillFromWaiting s) :=
  onlyArmed_composes.foldl
    (fun s (w : StoryId × Element) => onlyArmed_composes.when fun _ => armElement_onlyArmed w.1 w.2.tag s) _ _

theorem withdrawElement_onlyArmed (id : StoryId) (tag : Tag) (s : State) : OnlyArmed s (withdrawElement id tag s) :=
  onlyArmed_composes.trans (modifyElement_onlyArmed ..) (removeEntry_onlyArmed ..)

theorem withdrawItem_onlyArmed (id : StoryId) (s : State) : OnlyArmed s (withdrawItem id s) :=
  onlyArmed_composes.trans (onlyArmed_composes.foldl (fun s t => withdrawElement_onlyArmed id t s) _ _)
    (modifyItem_onlyArmed (by intro; rfl) ..)

theorem orphanElement_sameShow (id : StoryId) (tag : Tag) (s : State) : SameShow s (orphanElement id tag s) := by
  unfold orphanElement
  split
  · exact sameShow_composes.refl s
  · exact sameShow_composes.trans (sameShow_composes.when fun _ => detach_sameShow ..)
      (onlyArmed_composes.trans (modifyElement_onlyArmed ..) (raiseNotice_onlyArmed ..)).toSameShow

theorem orphanItem_sameShow (id : StoryId) (s : State) : SameShow s (orphanItem id s) :=
  sameShow_composes.foldl (fun s t => orphanElement_sameShow id t s) _ _

theorem retimeEntry_onlyArmed (sweep : Bool) (f : Frame) (e : ArmEntry) (s : State) :
    OnlyArmed s (retimeEntry sweep f e s) :=
  onlyArmed_composes.trans (removeEntry_onlyArmed ..) (placeEntry_onlyArmed ..)

theorem retimeElement_onlyArmed (id : StoryId) (c : ArmContext) (s : State) (e : Element) :
    OnlyArmed s (retimeElement id c s e) := by
  unfold retimeElement
  split
  · exact onlyArmed_composes.refl s
  · exact Composes.ite (onlyArmed_composes.refl s) (retimeEntry_onlyArmed ..)

theorem retimeItem_onlyArmed (p : Element → Bool) (id : StoryId) (c : ArmContext) (s : State) :
    OnlyArmed s (retimeItem p id c s) :=
  onlyArmed_composes.trans (modifyItem_onlyArmed (by intro; rfl) ..)
    (onlyArmed_composes.foldl (fun s e => retimeElement_onlyArmed id c s e) _ _)

theorem sweepToEnd_onlyArmed (id : StoryId) (f : Frame) (s : State) : OnlyArmed s (sweepToEnd id f s) := by
  refine onlyArmed_composes.trans (modifyItem_onlyArmed (by intro; rfl) ..)
    (onlyArmed_composes.foldl (fun s q => onlyArmed_composes.when fun _ => ?_) _ _)
  split
  · exact onlyArmed_composes.when fun _ => retimeEntry_onlyArmed ..
  · exact onlyArmed_composes.refl s

theorem raiseMissed_onlyArmed (id : StoryId) (tag : Tag) (s : State) : OnlyArmed s (raiseMissed id tag s) := by
  unfold raiseMissed
  split
  · exact onlyArmed_composes.refl s
  · exact .of_parts ..

theorem deliverEntry_onlyArmed (q : ArmEntry) (s : State) : OnlyArmed s (deliverEntry q s) := by
  unfold deliverEntry
  split
  · exact removeEntry_onlyArmed ..
  · split
    · exact onlyArmed_composes.trans (onlyArmed_composes.foldl (fun s n => deliverCue_onlyArmed _ s n) _ _)
        (onlyArmed_composes.trans (removeEntry_onlyArmed ..) (modifyElement_onlyArmed ..))
    · exact removeEntry_onlyArmed ..

theorem missEntry_sameShow (q : ArmEntry) (cause : Cause) (c : ScanState) :
    SameShow c.state (missEntry q cause c).state :=
  (onlyArmed_composes.trans (removeEntry_onlyArmed ..) (modifyElement_onlyArmed ..)).toSameShow

theorem offerEntry_sameShow (q : ArmEntry) (p : Fin 16) (c : ScanState) :
    SameShow c.state (offerEntry q p c).state := by
  unfold offerEntry
  split
  · exact (removeEntry_onlyArmed ..).toSameShow
  · split
    · exact sameShow_composes.trans (removeEntry_onlyArmed q.story q.tag _).toSameShow (sameShow_composes.trans
        (takeCommand_sameShow ..) (modifyElement_onlyArmed ..).toSameShow)
    · exact (deferEntry_onlyArmed ..).toSameShow

theorem treatEntry_sameShow (c : ScanState) (q : ArmEntry) : SameShow c.state (treatEntry c q).state := by
  unfold treatEntry
  split
  · exact (deliverEntry_onlyArmed ..).toSameShow
  · split
    · exact missEntry_sameShow ..
    · split
      · exact missEntry_sameShow ..
      · split
        · exact (deferEntry_onlyArmed ..).toSameShow
        · exact offerEntry_sameShow ..

theorem scanEntry_sameShow (c : ScanState) (q : ArmEntry) : SameShow c.state (scanEntry c q).state := by
  unfold scanEntry
  split
  · exact sameShow_composes.trans (treatEntry_sameShow { c with missed := [] } q)
      (onlyArmed_composes.foldl (fun s (m : StoryId × Tag) => raiseMissed_onlyArmed m.1 m.2 s) _ _).toSameShow
  · exact sameShow_composes.refl _

theorem scanQueue_sameShow (s : State) : SameShow s (scanQueue s) :=
  sameShow_composes.trans (sameShow_composes.foldScan scanEntry_sameShow s.sched.queue ⟨s, [], [], []⟩)
    (onlyArmed_composes.trans (fillFromWaiting_onlyArmed _) (renderThose_onlyArmed ..)).toSameShow

theorem takeScan_sameShow (s : State) : SameShow s (takeScan s) :=
  sameShow_composes.when fun _ => sameShow_composes.trans (.of_parts ..) (scanQueue_sameShow _)

theorem missRemaining_onlyArmed (id : StoryId) (s : State) : OnlyArmed s (missRemaining id s) :=
  onlyArmed_composes.trans (onlyArmed_composes.foldl
    (fun _ _ => onlyArmed_composes.trans (removeEntry_onlyArmed ..) (modifyElement_onlyArmed ..)) _ _)
    (modifyItem_onlyArmed (by intro; rfl) ..)

theorem reportMissed_onlyArmed (id : StoryId) (b : List Tag) (s : State) : OnlyArmed s (reportMissed id b s) :=
  onlyArmed_composes.foldl (fun s t => raiseMissed_onlyArmed id t s) _ _

theorem stopItem_onlyArmed (id : StoryId) (s : State) : OnlyArmed s (stopItem id s) :=
  onlyArmed_composes.trans (missRemaining_onlyArmed ..) (reportMissed_onlyArmed ..)

theorem endItem_sameShow (id : StoryId) (s : State) : SameShow s (endItem id s) :=
  sameShow_composes.trans (sameShow_composes.foldScan treatEntry_sameShow _ ⟨s, [], [], []⟩)
    (onlyArmed_composes.trans (missRemaining_onlyArmed ..) (reportMissed_onlyArmed ..)).toSameShow

theorem rearmBusy_onlyArmed (p : Fin 16) (c : Outstanding) (id : StoryId) (tag : Tag) (s : State) :
    OnlyArmed s (rearmBusy p c id tag s) := by
  unfold rearmBusy
  split
  · exact Composes.ite (onlyArmed_composes.trans (modifyElement_onlyArmed ..) (placeEntry_onlyArmed ..))
      (onlyArmed_composes.trans (modifyElement_onlyArmed ..) (.of_parts ..))
  · exact onlyArmed_composes.refl s

theorem settleReply_sameShow (p : Fin 16) (c : Outstanding) (k : ReplyClass) (s : State) :
    SameShow s (settleReply p c k s) := by
  unfold settleReply
  split
  · exact sameShow_composes.trans (onlyArmed_composes.elim (fun _ => modifyElement_onlyArmed ..) _).toSameShow
      (settlePort_sameShow ..)
  · exact sameShow_composes.trans (failElement_onlyArmed ..).toSameShow (settlePort_sameShow ..)
  · exact sameShow_composes.trans (onlyArmed_composes.elim (fun _ => rearmBusy_onlyArmed ..) _).toSameShow
      (settlePort_sameShow ..)
  · exact sameShow_composes.trans (failElement_onlyArmed ..).toSameShow (settlePort_sameShow ..)

/-! ### The Show Sequencer's own uses of them -/

theorem raiseStandbyIfMoved_onlyArmed (b : Option StoryId) (s : State) : OnlyArmed s (raiseStandbyIfMoved b s) :=
  Composes.ite (onlyArmed_composes.refl s) (raiseNotice_onlyArmed ..)

theorem closeShowEvent_onlyArmed (s : State) : OnlyArmed s (closeShowEvent s) :=
  onlyArmed_composes.trans (fillFromWaiting_onlyArmed s) (renderAll_onlyArmed _)

theorem scheduleTake_onlyArmed (id : StoryId) (f : Frame) (d : Nat) (s : State) :
    OnlyArmed s (scheduleTake id f d s) := by
  have hsweep : OnlyArmed s (((onairId s).map (fun o => sweepToEnd o f s)).getD s) := by
    cases onairId s with
    | none => exact onlyArmed_composes.refl s
    | some o => exact sweepToEnd_onlyArmed ..
  exact onlyArmed_composes.trans hsweep (onlyArmed_composes.trans (retimeItem_onlyArmed ..) (armIdle_onlyArmed ..))

theorem scheduleEntry_onlyArmed (id : StoryId) (s : State) : OnlyArmed s (scheduleEntry id s) := by
  unfold scheduleEntry
  split
  · exact onlyArmed_composes.refl s
  · exact onlyArmed_composes.trans (retimeItem_onlyArmed ..) (armIdle_onlyArmed ..)

theorem updateEnd_onlyArmed (i : Item) (f : Frame) (s : State) : OnlyArmed s (updateEnd i f s) :=
  Composes.ite (onlyArmed_composes.refl s) (retimeItem_onlyArmed ..)

theorem updateStandby_onlyArmed (s : State) : OnlyArmed s (updateStandby s) := by
  unfold updateStandby
  split
  · exact onlyArmed_composes.refl s
  · split
    · exact Composes.ite (retimeItem_onlyArmed ..)
        (onlyArmed_composes.trans (retimeItem_onlyArmed ..) (armIdle_onlyArmed ..))
    · exact onlyArmed_composes.when fun _ => withdrawItem_onlyArmed ..

theorem retimeAtCompletion_onlyArmed (s : State) : OnlyArmed s (retimeAtCompletion s) :=
  onlyArmed_composes.trans (onlyArmed_composes.elim (fun _ => updateEnd_onlyArmed ..) _)
    (onlyArmed_composes.trans (onlyArmed_composes.elim (fun _ => updateEnd_onlyArmed ..) _)
      (updateStandby_onlyArmed _))

end Sys2Proof.Machine
end

