-- ==== Sys2Proof/Proofs/Slots.lean ====
section
/-! The slots of the Show Sequencer (R66) as a property of the items and the show state, and what the sequencer's
operations do to them.  TAKING and STANDBY share one place, the next item (R91), and each place is held by one item. -/

namespace Sys2Proof.Machine

/-! ### The slots by membership -/

/-- The places of R66 that one item holds at most: on air, and next, which is TAKING or else STANDBY. -/
inductive Place where
  | air | next
  deriving DecidableEq

def ItemState.place : ItemState → Option Place
  | .onair => some .air
  | .taking => some .next
  | .standby => some .next
  | .pending => none
  | .done => none
  | .dropped => none

/-- States that share a place are the same, or TAKING and STANDBY. -/
theorem ItemState.eq_or_of_place {a b : ItemState} {p : Place} (ha : a.place = some p) (hb : b.place = some p) :
    a = b ∨ (a = .taking ∧ b = .standby) ∨ (a = .standby ∧ b = .taking) := by
  cases p <;> cases a <;> cases b <;> simp_all [ItemState.place]

/-- The item is on air, taken, or a captured STANDBY, as no item is in IDLE or ENDED. -/
def Item.live (i : Item) : Prop :=
  i.state = .onair ∨ i.state = .taking ∨ (i.state = .standby ∧ i.captured = true)

/-- RUNNING or HOLDING. -/
def ShowState.live (m : ShowState) : Prop := m = .running ∨ m = .holding

/-- The slots of R66 under the show state `m`: ids are unique, no place is held twice, and nothing is live in IDLE or
ENDED. -/
structure SlotsFit (m : ShowState) (l : List Item) : Prop where
  ids : (l.map Item.id).Nodup
  alone : ∀ x ∈ l, ∀ y ∈ l, ∀ p, x.state.place = some p → y.state.place = some p → x.id = y.id
  live : ∀ x ∈ l, x.live → m.live

theorem ShowState.live_iff (m : ShowState) : m.live ↔ ¬ (m = .idle ∨ m = .ended) := by
  cases m <;> simp [ShowState.live]

theorem inState_eq_zero {st : ItemState} {s : State} : inState st s = 0 ↔ ∀ x ∈ s.items, x.state ≠ st := by
  simp [inState]

theorem inState_pos {st : ItemState} {s : State} {x : Item} (hx : x ∈ s.items) (h : x.state = st) :
    inState st s ≠ 0 := fun h0 => inState_eq_zero.mp h0 x hx h

/-- With ids unique, at most one item is in a state exactly when all in it share one id. -/
theorem inState_le_one {st : ItemState} {s : State} (hids : (s.items.map Item.id).Nodup) :
    inState st s ≤ 1 ↔ ∀ x ∈ s.items, ∀ y ∈ s.items, x.state = st → y.state = st → x.id = y.id := by
  have hnodup : (s.items.filter (fun i => i.state == st)).Nodup := (List.Nodup.of_map _ hids).filter _
  have hone : inState st s ≤ 1 ↔ (s.items.filter (fun i => i.state == st)).toFinset.card ≤ 1 := by
    rw [List.toFinset_card_of_nodup hnodup]
    rfl
  rw [hone, Finset.card_le_one]
  simp only [List.mem_toFinset, List.mem_filter, beq_iff_eq]
  exact ⟨fun h x hx y hy hxs hys => congrArg Item.id (h x ⟨hx, hxs⟩ y ⟨hy, hys⟩),
    fun h x hx y hy => List.inj_on_of_nodup_map hids hx.1 hy.1 (h x hx.1 y hy.1 hx.2 hy.2)⟩

/-! ### Look-ups of the slots -/

theorem slotItem_mem {st : ItemState} {s : State} {i : Item} (h : slotItem st s = some i) : i ∈ s.items :=
  List.mem_of_find?_eq_some h

theorem slotItem_state {st : ItemState} {s : State} {i : Item} (h : slotItem st s = some i) : i.state = st := by
  simpa using List.find?_some h

theorem slotItem_eq_none {st : ItemState} {s : State} : slotItem st s = none ↔ ∀ x ∈ s.items, x.state ≠ st := by
  simp [slotItem]

theorem findItem_of_mem {s : State} (hids : (s.items.map Item.id).Nodup) {i : Item} (hi : i ∈ s.items) :
    findItem s i.id = some i := by
  obtain ⟨j, hj⟩ : ∃ j, findItem s i.id = some j := by
    rw [← Option.isSome_iff_exists, findItem, List.find?_isSome]
    exact ⟨i, hi, by simp⟩
  rw [hj, List.inj_on_of_nodup_map hids (findItem_mem hj) hi (findItem_id hj)]

namespace SlotsFit

variable {m : ShowState} {l : List Item} {s : State}

/-- Of the items in a state with a place, the slot's item is the only one. -/
theorem slotItem_eq (h : SlotsFit m s.items) {x : Item} (hx : x ∈ s.items) {p : Place} (hp : x.state.place = some p) :
    slotItem x.state s = some x := by
  obtain ⟨i, hi⟩ : ∃ i, slotItem x.state s = some i := by
    rw [← Option.isSome_iff_exists, slotItem, List.find?_isSome]
    exact ⟨x, hx, by simp⟩
  have hid := h.alone i (slotItem_mem hi) x hx p (slotItem_state hi ▸ hp) hp
  rw [hi, List.inj_on_of_nodup_map h.ids (slotItem_mem hi) hx hid]

theorem onairItem_eq (h : SlotsFit m s.items) {x : Item} (hx : x ∈ s.items) (hs : x.state = .onair) :
    onairItem s = some x := by
  have := h.slotItem_eq hx (p := .air) (by rw [hs]; rfl)
  rwa [hs] at this

theorem standbyItem_eq (h : SlotsFit m s.items) {x : Item} (hx : x ∈ s.items) (hs : x.state = .standby) :
    standbyItem s = some x := by
  have := h.slotItem_eq hx (p := .next) (by rw [hs]; rfl)
  rwa [hs] at this

/-- Beside a TAKING item there is no STANDBY. -/
theorem standby_none_of_taking (h : SlotsFit m s.items) {t : Item} (ht : takingItem s = some t) :
    standbyItem s = none := by
  refine slotItem_eq_none.mpr fun x hx hs => ?_
  have hid := h.alone t (slotItem_mem ht) x hx .next (by rw [slotItem_state ht]; rfl) (by rw [hs]; rfl)
  have heq := List.inj_on_of_nodup_map h.ids (slotItem_mem ht) hx hid
  have hstate := slotItem_state ht
  rw [heq, hs] at hstate
  cases hstate

end SlotsFit

/-- The slots of R66, with ids unique, by membership. -/
theorem slotsFit_iff {s : State} (hids : (s.items.map Item.id).Nodup) :
    SlotsFit s.seq.mode s.items ↔ SlotsOk s := by
  constructor
  · intro h
    refine ⟨?_, ?_, ?_, ?_, fun hm => ?_, fun hc => ?_⟩
    · exact (inState_le_one hids).mpr fun x hx y hy hxs hys =>
        h.alone x hx y hy .air (by rw [hxs]; rfl) (by rw [hys]; rfl)
    · exact (inState_le_one hids).mpr fun x hx y hy hxs hys =>
        h.alone x hx y hy .next (by rw [hxs]; rfl) (by rw [hys]; rfl)
    · exact (inState_le_one hids).mpr fun x hx y hy hxs hys =>
        h.alone x hx y hy .next (by rw [hxs]; rfl) (by rw [hys]; rfl)
    · cases ht : takingItem s with
      | none => exact .inl (inState_eq_zero.mpr (slotItem_eq_none.mp ht))
      | some t => exact .inr (inState_eq_zero.mpr (slotItem_eq_none.mp (h.standby_none_of_taking ht)))
    · have hnone : ∀ x ∈ s.items, ¬ x.live := fun x hx hl => (ShowState.live_iff _).mp (h.live x hx hl) hm
      exact ⟨inState_eq_zero.mpr fun x hx hs => hnone x hx (.inl hs),
        inState_eq_zero.mpr fun x hx hs => hnone x hx (.inr (.inl hs))⟩
    · obtain ⟨i, hi, hcap⟩ : ∃ i, standbyItem s = some i ∧ i.captured = true := by
        simpa [standbyCaptured, Option.any_eq_true] using hc
      exact h.live i (slotItem_mem hi) (.inr (.inr ⟨slotItem_state hi, hcap⟩))
  · rintro ⟨hair, htaking, hstandby, hapart, hidle, hcaptured⟩
    refine ⟨hids, fun x hx y hy p hp hq => ?_, fun x hx hl => ?_⟩
    · have hsame : x.state = y.state := by
        obtain h | ⟨hxs, hys⟩ | ⟨hxs, hys⟩ := ItemState.eq_or_of_place hp hq
        · exact h
        · exact absurd hapart (not_or.mpr ⟨inState_pos hx hxs, inState_pos hy hys⟩)
        · exact absurd hapart (not_or.mpr ⟨inState_pos hy hys, inState_pos hx hxs⟩)
      cases hxs : x.state with
      | onair => exact (inState_le_one hids).mp hair x hx y hy hxs (hsame ▸ hxs)
      | taking => exact (inState_le_one hids).mp htaking x hx y hy hxs (hsame ▸ hxs)
      | standby => exact (inState_le_one hids).mp hstandby x hx y hy hxs (hsame ▸ hxs)
      | pending => simp [hxs, ItemState.place] at hp
      | done => simp [hxs, ItemState.place] at hp
      | dropped => simp [hxs, ItemState.place] at hp
    · obtain hs | hs | ⟨hs, hcap⟩ := hl
      · exact (ShowState.live_iff _).mpr fun hm => inState_pos hx hs (hidle hm).1
      · exact (ShowState.live_iff _).mpr fun hm => inState_pos hx hs (hidle hm).2
      · refine hcaptured ?_
        have hone := (inState_le_one hids).mp hstandby
        obtain ⟨i, hi⟩ : ∃ i, standbyItem s = some i := by
          rw [← Option.isSome_iff_exists, standbyItem, slotItem, List.find?_isSome]
          exact ⟨x, hx, by simp [hs]⟩
        have hid := hone i (slotItem_mem hi) x hx (slotItem_state hi) hs
        obtain rfl := List.inj_on_of_nodup_map hids (slotItem_mem hi) hx hid
        simp [standbyCaptured, hi, hcap]

/-! ### Changes of items and of the show state -/

/-- What of an item the slots are read off. -/
def Item.slot (i : Item) : StoryId × ItemState × Bool := (i.id, i.state, i.captured)

namespace SlotsFit

variable {m n : ShowState} {l k : List Item}

theorem sublist (h : SlotsFit m l) (hk : k.Sublist l) : SlotsFit m k where
  ids := (hk.map _).nodup h.ids
  alone x hx y hy := h.alone x (hk.subset hx) y (hk.subset hy)
  live x hx := h.live x (hk.subset hx)

theorem perm (h : SlotsFit m l) (hk : k.Perm l) : SlotsFit m k where
  ids := (hk.map _).nodup_iff.mpr h.ids
  alone x hx y hy := h.alone x (hk.subset hx) y (hk.subset hy)
  live x hx := h.live x (hk.subset hx)

/-- A new item without a place. -/
theorem cons {i : Item} (h : SlotsFit m l) (hi : i.state.place = none) (hnew : i.id ∉ l.map Item.id) :
    SlotsFit m (i :: l) where
  ids := List.nodup_cons.mpr ⟨hnew, h.ids⟩
  alone x hx y hy p hp hq := by
    obtain rfl | hx := List.mem_cons.mp hx
    · simp [hi] at hp
    obtain rfl | hy := List.mem_cons.mp hy
    · simp [hi] at hq
    exact h.alone x hx y hy p hp hq
  live x hx hl := by
    obtain rfl | hx := List.mem_cons.mp hx
    · obtain hs | hs | ⟨hs, -⟩ := hl
      all_goals simp [hs, ItemState.place] at hi
    · exact h.live x hx hl

/-- Ids, states and captured marks alone count. -/
theorem of_slots (h : SlotsFit m l) (hk : k.map Item.slot = l.map Item.slot) : SlotsFit m k := by
  have hid : k.map Item.id = l.map Item.id := by
    simpa [Function.comp_def, Item.slot] using congrArg (List.map Prod.fst) hk
  have hmem : ∀ x ∈ k, ∃ y ∈ l, y.id = x.id ∧ y.state = x.state ∧ y.captured = x.captured := fun x hx => by
    have hx' : x.slot ∈ l.map Item.slot := hk ▸ List.mem_map_of_mem hx
    simpa [Item.slot] using hx'
  refine ⟨hid ▸ h.ids, fun x hx y hy p hp hq => ?_, fun x hx hl => ?_⟩
  · obtain ⟨a, ha, haid, has, -⟩ := hmem x hx
    obtain ⟨b, hb, hbid, hbs, -⟩ := hmem y hy
    rw [← haid, ← hbid]
    exact h.alone a ha b hb p (has ▸ hp) (hbs ▸ hq)
  · obtain ⟨a, ha, -, has, hac⟩ := hmem x hx
    refine h.live a ha ?_
    simpa only [Item.live, has, hac] using hl

theorem of_cores (h : SlotsFit m l) (hk : k.map Item.core = l.map Item.core) : SlotsFit m k := by
  refine h.of_slots ?_
  have hcore : Item.slot = Item.slot ∘ Item.core := rfl
  rw [hcore, ← List.map_map, hk, List.map_map]

/-- In RUNNING and HOLDING anything may be live. -/
theorem mode_live (h : SlotsFit m l) (hn : n.live) : SlotsFit n l := ⟨h.ids, h.alone, fun _ _ _ => hn⟩

/-- With nothing live any show state will do. -/
theorem mode_any (h : SlotsFit m l) (hl : ∀ x ∈ l, ¬ x.live) : SlotsFit n l :=
  ⟨h.ids, h.alone, fun x hx hx' => absurd hx' (hl x hx)⟩

/-- One item takes a state in which it may stand: its place, if it has one, is held by no other item. -/
theorem change {id : StoryId} {f : Item → Item} (h : SlotsFit m l) (hid : ∀ x, (f x).id = x.id)
    (hplace : ∀ x ∈ l, x.id = id → ∀ p, (f x).state.place = some p → ∀ y ∈ l, y.state.place = some p → y.id = id)
    (hlive : ∀ x ∈ l, x.id = id → (f x).live → m.live) : SlotsFit m (changed id f l) := by
  have hcases : ∀ y ∈ changed id f l, ∃ x ∈ l, y.id = x.id ∧ (y = f x ∧ x.id = id ∨ y = x ∧ x.id ≠ id) := by
    intro y hy
    obtain ⟨x, hx, rfl⟩ := List.mem_map.mp hy
    refine ⟨x, hx, ?_⟩
    by_cases hxid : x.id = id
    · rw [if_pos (beq_iff_eq.mpr hxid)]
      exact ⟨hid x, .inl ⟨rfl, hxid⟩⟩
    · rw [if_neg (by simpa using hxid)]
      exact ⟨rfl, .inr ⟨rfl, hxid⟩⟩
  refine ⟨?_, fun a ha b hb p hp hq => ?_, fun a ha hl => ?_⟩
  · have hids : (changed id f l).map Item.id = l.map Item.id := by
      simp only [changed, List.map_map]
      refine List.map_congr_left fun x _ => ?_
      simp only [Function.comp_apply]
      split
      · exact hid x
      · rfl
    exact hids ▸ h.ids
  · obtain ⟨x, hx, hax, ⟨rfl, hxid⟩ | ⟨rfl, hxid⟩⟩ := hcases a ha
    · obtain ⟨y, hy, hby, ⟨rfl, hyid⟩ | ⟨rfl, hyid⟩⟩ := hcases b hb
      · rw [hax, hby, hxid, hyid]
      · exact absurd (hplace x hx hxid p hp b hy hq) hyid
    · obtain ⟨y, hy, hby, ⟨rfl, hyid⟩ | ⟨rfl, hyid⟩⟩ := hcases b hb
      · exact absurd (hplace y hy hyid p hq a hx hp) hxid
      · exact h.alone a hx b hy p hp hq
  · obtain ⟨x, hx, -, ⟨rfl, hxid⟩ | ⟨rfl, -⟩⟩ := hcases a ha
    · exact hlive x hx hxid hl
    · exact h.live a hx hl

/-- One item leaves its place. -/
theorem vacate {id : StoryId} {f : Item → Item} (h : SlotsFit m l) (hid : ∀ x, (f x).id = x.id)
    (hf : ∀ x, (f x).state.place = none) : SlotsFit m (changed id f l) := by
  refine h.change hid (fun x _ _ p hp => by simp [hf x] at hp) fun x _ _ hl => ?_
  have hx := hf x
  obtain hs | hs | ⟨hs, -⟩ := hl
  all_goals simp [hs, ItemState.place] at hx

end SlotsFit

end Sys2Proof.Machine
end

