-- ==== Sys2Proof/Proofs/Sequencer.lean ====
section
/-! What the Show Sequencer's operations do to the items, the slots, the sequencer and the engine: the standby choice
(R68, R69), the take (R75), the entry to air (R76), the capture (R80), HOLD, RELEASE and SHOW_STOP (R83, R84). -/

namespace Sys2Proof.Machine

/-! ### One item's record but for its elements and its arm context -/

/-- The named item but for its elements and its arm context. -/
def coreOf (s : State) (id : StoryId) : Option Item := (findItem s id).map Item.core

theorem coreOf_eq_some {s : State} {id : StoryId} {c : Item} :
    coreOf s id = some c ↔ ∃ i, findItem s id = some i ∧ i.core = c := by
  simp [coreOf]

theorem coreOf_id {s : State} {id : StoryId} {c : Item} (h : coreOf s id = some c) : c.id = id := by
  obtain ⟨i, hi, rfl⟩ := coreOf_eq_some.mp h
  exact findItem_id (i := i) hi

theorem coreOf_of_cores {s t : State} (h : t.items.map Item.core = s.items.map Item.core) (id : StoryId) :
    coreOf t id = coreOf s id := by
  have hlook : ∀ l : List Item, (l.find? (fun i => i.id == id)).map Item.core
      = (l.map Item.core).find? (fun i => i.id == id) := by
    intro l
    rw [List.find?_map]
    rfl
  simp only [coreOf, findItem, hlook, h]

theorem SameShow.coreOf {s t : State} (h : SameShow s t) (id : StoryId) : coreOf t id = coreOf s id :=
  coreOf_of_cores h.cores id

/-- A change of one item that does not look at its elements or its context. -/
theorem coreOf_modifyItem {f : Item → Item} (hid : ∀ i, (f i).id = i.id) (hcore : ∀ i, (f i).core = f i.core)
    (id : StoryId) {x : StoryId} {s : State} {c : Item} (h : coreOf s x = some c) :
    coreOf (modifyItem id f s) x = some (if c.id = id then f c else c) := by
  obtain ⟨i, hi, rfl⟩ := coreOf_eq_some.mp h
  rw [coreOf, findItem_modifyItem id x f s hid, hi]
  by_cases hx : i.id = id
  · rw [if_pos (show i.core.id = id from hx), Option.map_some, Option.map_some, if_pos (beq_iff_eq.mpr hx), hcore]
  · rw [if_neg (show ¬ i.core.id = id from hx), Option.map_some, Option.map_some, if_neg (by simpa using hx)]

/-- A change of one item that does not look at its elements or its context, made on either side. -/
theorem modifyItem_cores {f : Item → Item} (hcore : ∀ i, (f i).core = f i.core) {s t : State}
    (h : t.items.map Item.core = s.items.map Item.core) (id : StoryId) :
    (modifyItem id f t).items.map Item.core = (modifyItem id f s).items.map Item.core := by
  have hchange : ∀ l : List Item, (changed id f l).map Item.core = changed id f (l.map Item.core) := by
    intro l
    simp only [changed, List.map_map]
    refine List.map_congr_left fun i _ => ?_
    simp only [Function.comp_apply, show i.core.id = i.id from rfl]
    split
    · exact hcore i
    · rfl
  rw [modifyItem_changed, modifyItem_changed, hchange, hchange, h]

/-! ### Changes of the sequencer alone -/

theorem setShow_items (m : ShowState) (s : State) : (setShow m s).items = s.items := by
  unfold setShow
  split
  · rfl
  · rfl

theorem setShow_seq (m : ShowState) (s : State) : (setShow m s).seq = { s.seq with mode := m } := by
  unfold setShow
  split
  · rename_i h
    rw [← h]
  · rfl

theorem setShow_engine (m : ShowState) (s : State) : (setShow m s).engine = s.engine := by
  unfold setShow
  split
  · rfl
  · rfl

theorem setShow_ports (m : ShowState) (s : State) : (setShow m s).ports = s.ports := by
  unfold setShow
  split
  · rfl
  · rfl

theorem endNomination_eq (id : StoryId) (s : State) : endNomination id s = { s with
    seq := { s.seq with nomination := if s.seq.nomination = some id then none else s.seq.nomination } } := by
  unfold endNomination
  by_cases h : s.seq.nomination = some id
  · rw [if_pos h, if_pos h]
  · rw [if_neg h, if_neg h]

/-! ### The standby choice (R68, R69) -/

/-- The record of an item that leaves the STANDBY slot (R69). -/
def Item.leftStandby (i : Item) : Item := { i with state := .pending, nominated := false, captured := false }

theorem leaveStandby_sameShow (id : StoryId) (s : State) :
    SameShow (modifyItem id Item.leftStandby s) (leaveStandby id s) :=
  sameShow_composes.trans (withdrawItem_onlyArmed ..).toSameShow (orphanItem_sameShow ..)

/-- The STANDBY slot is emptied unless the item to come holds it. -/
def makeRoom (chosen : Option StoryId) (s : State) : State :=
  match standbyId s with
  | some old => if chosen = some old then s else modifyItem old Item.leftStandby s
  | none => s

/-- The item that the standby choice puts in the slot (R68). -/
def chosenStandby (s : State) : Option StoryId := (liveNomination s).or (automaticChoice s)

/-- The items after a standby choice that is made. -/
def standbySeated (s : State) : State :=
  match chosenStandby s with
  | some id => enterStandby (liveNomination s).isSome false id (makeRoom (chosenStandby s) s)
  | none => makeRoom (chosenStandby s) s

theorem makeRoom_rest (c : Option StoryId) (s : State) : ∃ items, makeRoom c s = { s with items } := by
  unfold makeRoom
  split
  · split
    · exact ⟨s.items, rfl⟩
    · exact ⟨_, rfl⟩
  · exact ⟨s.items, rfl⟩

theorem chooseStandby_kept {s : State} (h : (takingItem s).isSome = true ∨ standbyCaptured s = true) :
    chooseStandby s = s := by
  unfold chooseStandby
  rw [if_pos (by simpa using h)]

theorem chooseStandby_cores {s : State} (ht : takingItem s = none) (hc : standbyCaptured s = false) :
    (chooseStandby s).items.map Item.core = (standbySeated s).items.map Item.core := by
  have hroom : (match standbyId s with
      | some old => if chosenStandby s = some old then s else leaveStandby old s
      | none => s).items.map Item.core = (makeRoom (chosenStandby s) s).items.map Item.core := by
    unfold makeRoom
    split
    · split
      · rfl
      · exact (leaveStandby_sameShow ..).cores
    · rfl
  have hchoose : chooseStandby s = match chosenStandby s with
      | some id => enterStandby (liveNomination s).isSome false id (match standbyId s with
        | some old => if chosenStandby s = some old then s else leaveStandby old s
        | none => s)
      | none => match standbyId s with
        | some old => if chosenStandby s = some old then s else leaveStandby old s
        | none => s := by
    unfold chooseStandby
    rw [if_neg (by simp [ht, hc])]
    rfl
  rw [hchoose]
  unfold standbySeated
  split
  · exact modifyItem_cores (by intro; rfl) hroom _
  · exact hroom

/-! ### The standby choice and the slots -/

theorem makeRoom_fit {m : ShowState} {s : State} (h : SlotsFit m s.items) (c : Option StoryId) :
    SlotsFit m (makeRoom c s).items := by
  unfold makeRoom
  split
  · split
    · exact h
    · exact h.vacate (fun _ => rfl) (fun _ => rfl)
  · exact h

/-- Once there is room, only the item to come may hold the next place. -/
theorem makeRoom_next {m : ShowState} {s : State} (h : SlotsFit m s.items) (ht : takingItem s = none)
    (c : Option StoryId) : ∀ y ∈ (makeRoom c s).items, y.state.place = some .next → c = some y.id := by
  have hstandby : ∀ y ∈ s.items, y.state.place = some .next → standbyId s = some y.id := by
    intro y hy hp
    obtain hs | ⟨hs, -⟩ | ⟨hs, -⟩ := ItemState.eq_or_of_place (b := .standby) hp rfl
    · rw [standbyId, h.standbyItem_eq hy hs]
      rfl
    · exact absurd hs (slotItem_eq_none.mp ht y hy)
    · rw [standbyId, h.standbyItem_eq hy hs]
      rfl
  intro y hy hp
  unfold makeRoom at hy
  split at hy
  · rename_i old hold
    split at hy
    · rename_i hc
      rw [hc, ← hold]
      exact hstandby y hy hp
    · obtain ⟨x, hx, rfl⟩ := List.mem_map.mp hy
      split at hp
      · cases hp
      · rename_i hne
        rw [if_neg hne]
        have hid := Option.some.inj (hold.symm.trans (hstandby x hx hp))
        exact absurd (beq_iff_eq.mpr hid.symm) hne
  · rename_i hnone
    rw [hstandby y hy hp] at hnone
    cases hnone

/-- An item that takes the STANDBY slot once there is room for it. -/
theorem enterStandby_fit {m : ShowState} {s : State} (h : SlotsFit m s.items) (ht : takingItem s = none)
    (nominated : Bool) {captured : Bool} (hlive : captured = true → m.live) (id : StoryId) :
    SlotsFit m (enterStandby nominated captured id (makeRoom (some id) s)).items := by
  refine (makeRoom_fit h (some id)).change (fun _ => rfl) (fun x _ _ p hp y hy hq => ?_) (fun x _ _ hl => hlive ?_)
  · cases hp
    exact (Option.some.inj (makeRoom_next h ht (some id) y hy hq)).symm
  · obtain hs | hs | ⟨-, hc⟩ := hl
    · cases hs
    · cases hs
    · exact hc

theorem chooseStandby_fit {m : ShowState} {s : State} (h : SlotsFit m s.items) :
    SlotsFit m (chooseStandby s).items := by
  by_cases hskip : (takingItem s).isSome = true ∨ standbyCaptured s = true
  · rwa [chooseStandby_kept hskip]
  obtain ⟨ht, hc⟩ : takingItem s = none ∧ standbyCaptured s = false := by simpa using hskip
  refine SlotsFit.of_cores ?_ (chooseStandby_cores ht hc)
  unfold standbySeated
  split
  · rename_i id hid
    rw [hid]
    exact enterStandby_fit h ht _ (by simp) id
  · exact makeRoom_fit h _

/-! ### The standby choice and one item -/

/-- The item is PENDING or STANDBY, so it may stand by or wait again. -/
def Item.waits (i : Item) : Prop := i.state = .pending ∨ i.state = .standby

/-- What a standby choice may make of an item: it stands, or being PENDING or STANDBY it stays one of the two. -/
def Restood (c d : Item) : Prop := d = c ∨ (c.waits ∧ d.waits ∧ d.id = c.id)

theorem mem_itemsAfter {id : StoryId} {l : List Item} {i : Item} (h : i ∈ itemsAfter id l) : i ∈ l := by
  induction l with
  | nil => exact h
  | cons a l ih =>
    unfold itemsAfter at h
    split at h
    · exact List.mem_cons_of_mem _ h
    · exact List.mem_cons_of_mem _ (ih h)

theorem afterCursor_subset {s : State} {i : Item} (h : i ∈ afterCursor s) : i ∈ s.items := by
  unfold afterCursor at h
  split at h
  · exact h
  · exact mem_itemsAfter h

/-- The chosen item is PENDING or STANDBY (R68). -/
theorem chosenStandby_waits {s : State} (hids : (s.items.map Item.id).Nodup) {id : StoryId} {c : Item}
    (h : chosenStandby s = some id) (hc : coreOf s id = some c) : c.waits := by
  obtain ⟨i, hi, rfl⟩ := coreOf_eq_some.mp hc
  obtain hn | ⟨-, ha⟩ := Option.or_eq_some_iff.mp h
  · have hany := Option.filter_eq_some_iff.mp hn |>.2
    simpa [hi, Item.waits, Item.core] using hany
  · obtain ⟨x, hx, rfl⟩ := Option.map_eq_some_iff.mp ha
    have hstate := List.find?_some hx
    have hmem := findItem_of_mem hids (afterCursor_subset (List.mem_of_find?_eq_some hx))
    cases hmem.symm.trans hi
    simp only [Bool.and_eq_true, Bool.or_eq_true, beq_iff_eq] at hstate
    exact hstate.1

theorem coreOf_makeRoom {m : ShowState} {s : State} (h : SlotsFit m s.items) (chosen : Option StoryId) {x : StoryId}
    {c : Item} (hc : coreOf s x = some c) : ∃ d, coreOf (makeRoom chosen s) x = some d ∧ Restood c d := by
  unfold makeRoom
  split
  · rename_i old hold
    split
    · exact ⟨c, hc, .inl rfl⟩
    · refine ⟨_, coreOf_modifyItem (by intro; rfl) (by intro; rfl) old hc, ?_⟩
      split
      · rename_i hid
        obtain ⟨y, hy, rfl⟩ := Option.map_eq_some_iff.mp hold
        obtain ⟨i, hi, rfl⟩ := coreOf_eq_some.mp hc
        have heq := List.inj_on_of_nodup_map h.ids (findItem_mem hi) (slotItem_mem hy) hid
        exact .inr ⟨.inr (show i.state = .standby from heq ▸ slotItem_state hy), .inl rfl, rfl⟩
      · exact .inl rfl
  · exact ⟨c, hc, .inl rfl⟩

theorem Restood.trans {a b c : Item} (h : Restood a b) (k : Restood b c) : Restood a c := by
  obtain rfl | ⟨ha, hb, hid⟩ := h
  · exact k
  · obtain rfl | ⟨-, hc, hid'⟩ := k
    · exact .inr ⟨ha, hb, hid⟩
    · exact .inr ⟨ha, hc, hid'.trans hid⟩

/-- What a standby choice makes of each item. -/
theorem coreOf_chooseStandby {m : ShowState} {s : State} (h : SlotsFit m s.items) {x : StoryId} {c : Item}
    (hc : coreOf s x = some c) : ∃ d, coreOf (chooseStandby s) x = some d ∧ Restood c d := by
  by_cases hskip : (takingItem s).isSome = true ∨ standbyCaptured s = true
  · rw [chooseStandby_kept hskip]
    exact ⟨c, hc, .inl rfl⟩
  obtain ⟨ht, hcap⟩ : takingItem s = none ∧ standbyCaptured s = false := by simpa using hskip
  rw [coreOf_of_cores (chooseStandby_cores ht hcap)]
  obtain ⟨d, hd, hcd⟩ := coreOf_makeRoom h (chosenStandby s) hc
  unfold standbySeated
  split
  · rename_i id hid
    refine ⟨_, coreOf_modifyItem (by intro; rfl) (by intro; rfl) id hd, ?_⟩
    split
    · rename_i hdid
      have hx : x = id := (coreOf_id hd).symm.trans hdid
      subst hx
      refine .inr ⟨chosenStandby_waits h.ids hid hc, .inr rfl, ?_⟩
      exact (coreOf_id hd).trans (coreOf_id hc).symm
    · exact hcd
  · exact ⟨d, hd, hcd⟩

/-! ### The take (R75) -/

/-- The record of an item that is taken (R75). -/
def Item.taken (af : Frame) (i : Item) : Item :=
  { i with state := .taking, nominated := false, captured := false, airFrame := some af }

/-- The show once an item is taken, before the scheduler's part. -/
def takenUp (i : Item) (s : State) : State :=
  { modifyItem i.id (Item.taken (addFrames s.day s.cfn (takeLead s i))) s with
    seq := { s.seq with
      nomination := if s.seq.nomination = some i.id then none else s.seq.nomination
      lastAdvance := some s.cfn } }

theorem acceptTake_eq (i : Item) (s : State) : acceptTake i s
    = closeShowEvent (setShow .running (raiseStandby (triggerWalk
        (scheduleTake i.id (addFrames s.day s.cfn (takeLead s i)) i.duration (takenUp i s))))) := by
  unfold acceptTake
  dsimp only
  rw [endNomination_eq]
  rfl

/-- What an accepted take does to the show. -/
structure Taken (i : Item) (s t : State) : Prop where
  cores : t.items.map Item.core = (takenUp i s).items.map Item.core
  seq : t.seq = { (takenUp i s).seq with mode := .running }
  engine : t.engine = { s.engine with inFlight := true }
  ports : t.ports = s.ports

theorem acceptTake_taken (i : Item) (s : State) : Taken i s (acceptTake i s) := by
  rw [acceptTake_eq]
  have hschedule := scheduleTake_onlyArmed i.id (addFrames s.day s.cfn (takeLead s i)) i.duration (takenUp i s)
  generalize scheduleTake i.id (addFrames s.day s.cfn (takeLead s i)) i.duration (takenUp i s) = u at hschedule
  have hclose := closeShowEvent_onlyArmed (setShow .running (raiseStandby (triggerWalk u)))
  exact {
    cores := by rw [hclose.cores, setShow_items, ← hschedule.cores]; rfl
    seq := by rw [hclose.seq, setShow_seq, ← hschedule.seq]; rfl
    engine := by
      rw [hclose.engine, setShow_engine]
      exact congrArg (fun e : Engine => { e with inFlight := true }) hschedule.engine
    ports := by rw [hclose.ports, setShow_ports]; exact hschedule.ports }

/-- A taken STANDBY keeps the next place, and a show that was taken up is RUNNING. -/
theorem acceptTake_fit {m : ShowState} {i : Item} {s : State} (h : SlotsFit m s.items)
    (hi : standbyItem s = some i) : SlotsFit .running (acceptTake i s).items := by
  refine SlotsFit.of_cores ?_ (acceptTake_taken i s).cores
  refine (h.mode_live (.inl rfl)).change (fun _ => rfl) (fun x _ _ p hp y hy hq => ?_) fun _ _ _ _ => .inl rfl
  cases hp
  exact h.alone y hy i (slotItem_mem hi) .next hq (by rw [slotItem_state hi]; rfl)

end Sys2Proof.Machine
end

