-- ==== Sys2Proof/Proofs/OnAir.lean ====
section
/-! The entry to air (R76), the end of the show (R78), the capture of a junction (R80, R81), HOLD and RELEASE (R83) and
SHOW_STOP (R84): what they make of the items, the slots, the sequencer and the engine. -/

namespace Sys2Proof.Machine

/-- A change of one item that does not look at its elements or its context, made on either side. -/
theorem SameShow.modifyItem {f : Item → Item} (hcore : ∀ i, (f i).core = f i.core) {s t : State} (h : SameShow s t)
    (id : StoryId) : SameShow (modifyItem id f s) (modifyItem id f t) :=
  ⟨modifyItem_cores hcore h.cores id, h.seq, h.engine⟩

/-! ### A change of the item in a slot -/

/-- The item in a slot is changed, if there is one. -/
def slotChanged (st : ItemState) (f : Item → Item) (s : State) : State :=
  (slotItem st s).elim s (fun i => modifyItem i.id f s)

theorem slotChanged_rest (st : ItemState) (f : Item → Item) (s : State) :
    ∃ items, slotChanged st f s = { s with items } := by
  unfold slotChanged
  cases slotItem st s with
  | none => exact ⟨s.items, rfl⟩
  | some i => exact ⟨_, rfl⟩

section SlotChanged

variable {m : ShowState} {s : State} (h : SlotsFit m s.items) {st : ItemState} {p : Place} (hp : st.place = some p)
include h hp

/-- The changed item is the only one that was in the slot's state. -/
theorem slotChanged_mem {f : Item → Item} {y : Item} (hy : y ∈ (slotChanged st f s).items) :
    (∃ x ∈ s.items, x.state = st ∧ y = f x) ∨ (y ∈ s.items ∧ y.state ≠ st) := by
  unfold slotChanged at hy
  cases hi : slotItem st s with
  | none =>
    rw [hi] at hy
    exact .inr ⟨hy, slotItem_eq_none.mp hi y hy⟩
  | some i =>
    rw [hi] at hy
    obtain ⟨x, hx, rfl⟩ := List.mem_map.mp hy
    by_cases hid : x.id = i.id
    · obtain rfl := List.inj_on_of_nodup_map h.ids hx (slotItem_mem hi) hid
      rw [if_pos (beq_self_eq_true _)]
      exact .inl ⟨x, hx, slotItem_state hi, rfl⟩
    · rw [if_neg (by simpa using hid)]
      refine .inr ⟨hx, fun hs => hid ?_⟩
      exact h.alone x hx i (slotItem_mem hi) p (hs ▸ hp) (slotItem_state hi ▸ hp)

/-- The item in the slot is seen by its state. -/
theorem coreOf_slotChanged {f : Item → Item} (hid : ∀ i, (f i).id = i.id) (hcore : ∀ i, (f i).core = f i.core)
    {x : StoryId} {c : Item} (hc : coreOf s x = some c) :
    coreOf (slotChanged st f s) x = some (if c.state = st then f c else c) := by
  obtain ⟨y, hy, rfl⟩ := coreOf_eq_some.mp hc
  unfold slotChanged
  cases hi : slotItem st s with
  | none =>
    rw [if_neg (show ¬ y.core.state = st from slotItem_eq_none.mp hi y (findItem_mem hy))]
    exact hc
  | some i =>
    refine (coreOf_modifyItem hid hcore i.id hc).trans (congrArg some ?_)
    by_cases hs : y.state = st
    · have hyi := h.alone y (findItem_mem hy) i (slotItem_mem hi) p (hs ▸ hp) (slotItem_state hi ▸ hp)
      rw [if_pos (show y.core.id = i.id from hyi), if_pos (show y.core.state = st from hs)]
    · have hne : y.id ≠ i.id := fun hyi => by
        rw [List.inj_on_of_nodup_map h.ids (findItem_mem hy) (slotItem_mem hi) hyi] at hs
        exact hs (slotItem_state hi)
      rw [if_neg (show ¬ y.core.id = i.id from hne), if_neg (show ¬ y.core.state = st from hs)]

end SlotChanged

theorem slotId_of_cores {s t : State} (h : t.items.map Item.core = s.items.map Item.core) (st : ItemState) :
    (slotItem st t).map Item.id = (slotItem st s).map Item.id := by
  have hlook : ∀ l : List Item, (l.find? (fun i => i.state == st)).map Item.id
      = ((l.map Item.core).find? (fun i => i.state == st)).map Item.id := by
    intro l
    rw [List.find?_map, Option.map_map]
    rfl
  rw [slotItem, slotItem, hlook, h, ← hlook]

theorem SameShow.slotId {s t : State} (h : SameShow s t) (st : ItemState) :
    (slotItem st t).map Item.id = (slotItem st s).map Item.id := slotId_of_cores h.cores st

/-- An operation on the item in a slot that comes to a change of its record. -/
theorem slotChanged_sameShow {f : Item → Item} (hcore : ∀ i, (f i).core = f i.core) {op : Item → State → State}
    (hop : ∀ i u, SameShow (modifyItem i.id f u) (op i u)) {s t : State} (h : SameShow s t) (st : ItemState) :
    SameShow (slotChanged st f s) ((slotItem st t).elim t (fun i => op i t)) := by
  have hid := h.slotId st
  unfold slotChanged
  cases hs : slotItem st s with
  | none =>
    rw [hs, Option.map_none, Option.map_eq_none_iff] at hid
    rw [hid]
    exact h
  | some i =>
    rw [hs, Option.map_some, Option.map_eq_some_iff] at hid
    obtain ⟨k, hk, hki⟩ := hid
    rw [hk]
    exact sameShow_composes.trans (h.modifyItem hcore i.id) (hki ▸ hop k t)

/-! ### The records that an entry to air writes (R76, R82) -/

/-- The outgoing item's record (R76). -/
def Item.ended (af : Frame) (i : Item) : Item := { i with state := .done, endFrame := some af }

/-- The entering item's record (R76). -/
def Item.aired (af : Frame) (i : Item) : Item :=
  { i with state := .onair, nominated := false, captured := false, airFrame := some af }

/-- A skipped item's record (R82). -/
def Item.skipped (i : Item) : Item := { i with state := .dropped }

@[simp] theorem Item.ended_id (af : Frame) (i : Item) : (i.ended af).id = i.id := rfl
@[simp] theorem Item.ended_ended (af : Frame) (i : Item) : (i.ended af).ended af = i.ended af := rfl
@[simp] theorem Item.aired_id (af : Frame) (i : Item) : (i.aired af).id = i.id := rfl

/-- The outgoing item, if there is one, is DONE. -/
def outgoingEnded (af : Frame) (s t : State) : State := (onairId s).elim t (fun o => modifyItem o (Item.ended af) t)

/-- The items that an entry to air drops (R82). -/
def skippedBy (path : AirPath) (id : StoryId) (s : State) : List StoryId :=
  match path, onairId s with
  | .junction, some o => skippedItems o id s.items
  | _, _ => []

/-- The item has entered air, and nothing else is done yet. -/
def airEntered (id : StoryId) (af : Frame) (s : State) : State :=
  { modifyItem id (Item.aired af) (outgoingEnded af s s) with
    seq := { s.seq with
      nomination := if s.seq.nomination = some id then none else s.seq.nomination
      cursor := some id
      lastAdvance := some s.cfn
      overdue := false } }

/-- The show that the standby choice of an entry to air finds. -/
def airTaken (path : AirPath) (id : StoryId) (af : Frame) (s : State) : State :=
  (skippedBy path id s).foldl (fun t x => modifyItem x Item.skipped t) (outgoingEnded af s (airEntered id af s))

theorem outgoingEnded_rest (af : Frame) (s t : State) : ∃ items, outgoingEnded af s t = { t with items } := by
  unfold outgoingEnded
  cases onairId s with
  | none => exact ⟨t.items, rfl⟩
  | some o => exact ⟨_, rfl⟩

theorem finishOutgoing_sameShow (v : Nat) (af : Frame) (id : StoryId) (s : State) :
    SameShow (modifyItem id (Item.ended af) s) (finishOutgoing v af id s) :=
  sameShow_composes.trans (raiseNotice_onlyArmed ..).toSameShow (endItem_sameShow ..)

/-- Of the drops only the records count. -/
theorem foldl_dropItem_sameShow (j : StoryId) (l : List StoryId) {s t : State} (h : SameShow s t) :
    SameShow (l.foldl (fun t x => modifyItem x Item.skipped t) s) (l.foldl (dropItem j) t) := by
  induction l generalizing s t with
  | nil => exact h
  | cons x l ih =>
    exact ih (sameShow_composes.trans (h.modifyItem (by intro; rfl) x) (raiseNotice_onlyArmed ..).toSameShow)

/-- The entry to air as the standby choice finds it, firings, notices and re-timings aside. -/
theorem enterAir_eq (path : AirPath) (id : StoryId) (af : Frame) (s : State) : ∃ u, SameShow (airTaken path id af s) u
    ∧ enterAir path id af s
      = closeShowEvent (triggerWalk (raiseStandbyIfMoved (standbyId s) (chooseStandby u))) := by
  have hentered : ({ endNomination id (modifyItem id (Item.aired af) (outgoingEnded af s s)) with
      seq := { (endNomination id (modifyItem id (Item.aired af) (outgoingEnded af s s))).seq with
        cursor := some id, lastAdvance := some (endNomination id (modifyItem id (Item.aired af)
          (outgoingEnded af s s))).cfn, overdue := false } } : State) = airEntered id af s := by
    obtain ⟨items, hitems⟩ := outgoingEnded_rest af s s
    rw [endNomination_eq, airEntered, hitems]
    rfl
  have hfinish : SameShow (outgoingEnded af s (airEntered id af s))
      ((onairId s).elim (raiseNotice .itemOnair id 0 255 path.code (airEntered id af s))
        (fun o => finishOutgoing 0 af o (raiseNotice .itemOnair id 0 255 path.code (airEntered id af s)))) := by
    have hnotice := (raiseNotice_onlyArmed .itemOnair id 0 255 path.code (airEntered id af s)).toSameShow
    unfold outgoingEnded
    cases onairId s with
    | none => exact hnotice
    | some o => exact sameShow_composes.trans (hnotice.modifyItem (by intro; rfl) o) (finishOutgoing_sameShow ..)
  have hschedule := sameShow_composes.trans hfinish (scheduleEntry_onlyArmed id _).toSameShow
  refine ⟨_, foldl_dropItem_sameShow id (skippedBy path id s) hschedule, ?_⟩
  rw [← hentered]
  rfl

/-! ### The sequencer and the engine after an entry to air -/

theorem foldl_skipped_rest (l : List StoryId) (s : State) :
    ∃ items, l.foldl (fun t x => modifyItem x Item.skipped t) s = { s with items } := by
  induction l generalizing s with
  | nil => exact ⟨s.items, rfl⟩
  | cons x l ih =>
    obtain ⟨items, h⟩ := ih (modifyItem x Item.skipped s)
    exact ⟨items, h⟩

theorem airTaken_rest (path : AirPath) (id : StoryId) (af : Frame) (s : State) :
    ∃ items, airTaken path id af s = { s with items, seq := (airEntered id af s).seq } := by
  obtain ⟨items, h⟩ := foldl_skipped_rest (skippedBy path id s) (outgoingEnded af s (airEntered id af s))
  obtain ⟨items', h'⟩ := outgoingEnded_rest af s (airEntered id af s)
  obtain ⟨items'', h''⟩ := outgoingEnded_rest af s s
  refine ⟨items, ?_⟩
  rw [airTaken, h, h', airEntered, h'']
  rfl

/-- What an entry to air makes of the sequencer and the engine, and of the items by the standby choice. -/
structure EntersAir (path : AirPath) (id : StoryId) (af : Frame) (s t : State) : Prop where
  chosen : ∃ u, SameShow (airTaken path id af s) u
    ∧ t.items.map Item.core = (chooseStandby u).items.map Item.core
  seq : t.seq = (airEntered id af s).seq
  engine : t.engine = { s.engine with inFlight := true }

theorem enterAir_entersAir (path : AirPath) (id : StoryId) (af : Frame) (s : State) :
    EntersAir path id af s (enterAir path id af s) := by
  obtain ⟨u, hu, henter⟩ := enterAir_eq path id af s
  obtain ⟨items, hrest⟩ := airTaken_rest path id af s
  have hchoose := chooseStandby_showStands u
  have hraise := raiseStandbyIfMoved_onlyArmed (standbyId s) (chooseStandby u)
  have hclose := closeShowEvent_onlyArmed (triggerWalk (raiseStandbyIfMoved (standbyId s) (chooseStandby u)))
  rw [henter]
  refine ⟨⟨u, hu, hclose.cores.trans hraise.cores⟩, ?_, ?_⟩
  · refine hclose.seq.trans (hraise.seq.trans (hchoose.seq.trans (hu.seq.trans ?_)))
    rw [hrest]
  · refine hclose.engine.trans (congrArg (fun e : Engine => { e with inFlight := true })
      (hraise.engine.trans (hchoose.engine.trans (hu.engine.trans ?_))))
    rw [hrest]

/-! ### The slots after an entry to air -/

theorem outgoingEnded_fit {m : ShowState} {s t : State} (h : SlotsFit m t.items) (af : Frame) :
    SlotsFit m (outgoingEnded af s t).items := by
  unfold outgoingEnded
  cases onairId s with
  | none => exact h
  | some o => exact h.vacate (fun _ => rfl) (fun _ => rfl)

theorem outgoingEnded_eq (af : Frame) (s : State) : outgoingEnded af s s = slotChanged .onair (Item.ended af) s := by
  unfold outgoingEnded slotChanged onairId onairItem
  cases slotItem .onair s with
  | none => rfl
  | some o => rfl

/-- Once the outgoing item has ended nothing is on air. -/
theorem outgoingEnded_air {m : ShowState} {s : State} (h : SlotsFit m s.items) (af : Frame) :
    ∀ y ∈ (outgoingEnded af s s).items, y.state ≠ .onair := by
  intro y hy
  rw [outgoingEnded_eq] at hy
  obtain ⟨x, -, -, rfl⟩ | ⟨-, hs⟩ := slotChanged_mem h (p := .air) rfl hy
  · exact nofun
  · exact hs

theorem airEntered_fit {m : ShowState} (hm : m.live) {s : State} (h : SlotsFit m s.items) (id : StoryId) (af : Frame) :
    SlotsFit m (airEntered id af s).items := by
  refine (outgoingEnded_fit h af).change (fun _ => rfl) (fun x _ _ p hp y hy hq => ?_) fun _ _ _ _ => hm
  cases hp
  obtain hs | ⟨-, hs⟩ | ⟨-, hs⟩ := ItemState.eq_or_of_place (b := .onair) hq rfl
  · exact absurd hs (outgoingEnded_air h af y hy)
  · cases hs
  · cases hs

theorem airTaken_fit {m : ShowState} (hm : m.live) {s : State} (h : SlotsFit m s.items) (path : AirPath) (id : StoryId)
    (af : Frame) : SlotsFit m (airTaken path id af s).items := by
  have hskip : ∀ (l : List StoryId) (t : State), SlotsFit m t.items →
      SlotsFit m (l.foldl (fun t x => modifyItem x Item.skipped t) t).items := by
    intro l
    induction l with
    | nil => exact fun _ ht => ht
    | cons x l ih => exact fun t ht => ih _ (ht.vacate (fun _ => rfl) (fun _ => rfl))
  exact hskip _ _ (outgoingEnded_fit (airEntered_fit hm h id af) af)

/-- In RUNNING and HOLDING an entry to air keeps the slots. -/
theorem enterAir_fit {m : ShowState} (hm : m.live) {s : State} (h : SlotsFit m s.items) (path : AirPath) (id : StoryId)
    (af : Frame) : SlotsFit m (enterAir path id af s).items := by
  obtain ⟨u, hu, hcores⟩ := (enterAir_entersAir path id af s).chosen
  exact (chooseStandby_fit ((airTaken_fit hm h path id af).of_cores hu.cores)).of_cores hcores

/-! ### One item at an entry to air -/

/-- What an entry to air makes of one item, the standby choice aside. -/
def airRecord (path : AirPath) (id : StoryId) (af : Frame) (s : State) (c : Item) : Item :=
  if c.id ∈ skippedBy path id s then
    (if onairId s = some c.id then c.ended af else if c.id = id then c.aired af else c).skipped
  else if onairId s = some c.id then c.ended af else if c.id = id then c.aired af else c

theorem coreOf_outgoingEnded {s t : State} (af : Frame) {x : StoryId} {c : Item} (h : coreOf t x = some c) :
    coreOf (outgoingEnded af s t) x = some (if onairId s = some c.id then c.ended af else c) := by
  unfold outgoingEnded
  cases onairId s with
  | none => simpa using h
  | some o => simpa [eq_comm] using coreOf_modifyItem (f := Item.ended af) (fun _ => rfl) (fun _ => rfl) o h

theorem coreOf_foldl_skipped (l : List StoryId) {s : State} {x : StoryId} {c : Item} (h : coreOf s x = some c) :
    coreOf (l.foldl (fun t y => modifyItem y Item.skipped t) s) x = some (if c.id ∈ l then c.skipped else c) := by
  induction l generalizing s c with
  | nil => simpa using h
  | cons y l ih =>
    have hstep := ih (coreOf_modifyItem (f := Item.skipped) (fun _ => rfl) (fun _ => rfl) y h)
    rw [List.foldl_cons, hstep]
    by_cases hy : c.id = y
    · rw [if_pos hy, if_pos (List.mem_cons.mpr (.inl hy))]
      split
      · rfl
      · rfl
    · simp [hy]

theorem enterAir_coreOf {m : ShowState} (hm : m.live) {s : State} (h : SlotsFit m s.items) (path : AirPath)
    {id x : StoryId} (af : Frame) {c : Item} (hc : coreOf s x = some c) (hne : onairId s ≠ some id) :
    ∃ d, coreOf (enterAir path id af s) x = some d ∧ Restood (airRecord path id af s c) d := by
  obtain ⟨u, hu, hcores⟩ := (enterAir_entersAir path id af s).chosen
  have hair := coreOf_modifyItem (f := Item.aired af) (fun _ => rfl) (fun _ => rfl) id
    (coreOf_outgoingEnded (s := s) af hc)
  have hentered : coreOf (airEntered id af s) x = some (if onairId s = some c.id then c.ended af
      else if c.id = id then c.aired af else c) := by
    refine Eq.trans ?_ (hair.trans ?_)
    · rfl
    · by_cases ho : onairId s = some c.id
      · have hid : c.id ≠ id := fun hid => hne (hid ▸ ho)
        simp [ho, hid]
      · simp [ho]
  have htaken : coreOf (airTaken path id af s) x = some (airRecord path id af s c) := by
    refine (coreOf_foldl_skipped _ (coreOf_outgoingEnded (s := s) af hentered)).trans ?_
    unfold airRecord
    by_cases ho : onairId s = some c.id
    · simp [ho]
    · by_cases hid : c.id = id
      · have ho' : onairId s ≠ some id := hid ▸ ho
        simp [ho', hid]
      · simp [ho, hid]
  obtain ⟨d, hd, hrestood⟩ := coreOf_chooseStandby ((airTaken_fit hm h path id af).of_cores hu.cores)
    ((hu.coreOf x).trans htaken)
  exact ⟨d, (coreOf_of_cores hcores x).trans hd, hrestood⟩

/-! ### The end of the show (R78) -/

/-- The show state becomes `m` and a walk is triggered; of the items nothing but elements and contexts changes. -/
structure ShowMoved (m : ShowState) (s t : State) : Prop where
  cores : t.items.map Item.core = s.items.map Item.core
  seq : t.seq = { s.seq with mode := m }
  engine : t.engine = { s.engine with inFlight := true }

/-- Of the ends of a sequencer event the show state and the walk trigger count. -/
theorem moveShow_moved (m : ShowState) {s u : State} (h : SameShow s u) :
    ShowMoved m s (closeShowEvent (setShow m (triggerWalk u))) := by
  have hclose := closeShowEvent_onlyArmed (setShow m (triggerWalk u))
  refine ⟨?_, ?_, ?_⟩
  · rw [hclose.cores, setShow_items]
    exact h.cores
  · rw [hclose.seq, setShow_seq]
    exact congrArg (fun q : Sequencer => { q with mode := m }) h.seq
  · rw [hclose.engine, setShow_engine]
    exact congrArg (fun e : Engine => { e with inFlight := true }) h.engine

theorem endShow_moved (i : Item) (ef : Frame) (s : State) :
    ShowMoved .ended (modifyItem i.id (Item.ended ef) s) (endShow i ef s) :=
  moveShow_moved .ended (finishOutgoing_sameShow 1 ef i.id s)

/-- With nothing next, the end of the item on air leaves nothing live. -/
theorem endShow_fit {m n : ShowState} {s : State} {i : Item} (h : SlotsFit m s.items) (hi : onairItem s = some i)
    (ht : takingItem s = none) (hb : standbyItem s = none) (ef : Frame) : SlotsFit n (endShow i ef s).items := by
  refine SlotsFit.of_cores ?_ (endShow_moved i ef s).cores
  have heq : modifyItem i.id (Item.ended ef) s = slotChanged .onair (Item.ended ef) s := by
    rw [slotChanged, show slotItem .onair s = some i from hi]
    rfl
  have hfit : SlotsFit m (modifyItem i.id (Item.ended ef) s).items := h.vacate (fun _ => rfl) (fun _ => rfl)
  refine hfit.mode_any fun y hy hl => ?_
  rw [heq] at hy
  obtain ⟨x, -, -, rfl⟩ | ⟨hmem, hs⟩ := slotChanged_mem h (p := .air) rfl hy
  · obtain hs | hs | ⟨hs, -⟩ := hl
    all_goals cases hs
  · obtain hs' | hs' | ⟨hs', -⟩ := hl
    · exact hs hs'
    · exact slotItem_eq_none.mp ht y hmem hs'
    · exact slotItem_eq_none.mp hb y hmem hs'

/-! ### HOLD and RELEASE (R83) -/

theorem heldStandby_onlyArmed (s : State) : OnlyArmed s (match standbyItem s with
    | some i => if i.captured then s else withdrawItem i.id s
    | none => s) := by
  split
  · exact Composes.ite (onlyArmed_composes.refl s) (withdrawItem_onlyArmed ..)
  · exact onlyArmed_composes.refl s

theorem holdShow_moved (s : State) : ShowMoved .holding s (holdShow s) := by
  have hclose := closeShowEvent_onlyArmed (triggerWalk (setShow .holding (match standbyItem s with
    | some i => if i.captured then s else withdrawItem i.id s
    | none => s)))
  have hheld := heldStandby_onlyArmed s
  refine ⟨?_, ?_, ?_⟩
  · refine hclose.cores.trans (Eq.trans ?_ hheld.cores)
    exact congrArg (List.map Item.core) (setShow_items ..)
  · refine hclose.seq.trans ((setShow_seq ..).trans ?_)
    exact congrArg (fun q : Sequencer => { q with mode := .holding }) hheld.seq
  · refine hclose.engine.trans ?_
    exact congrArg (fun e : Engine => { e with inFlight := true }) ((setShow_engine ..).trans hheld.engine)

theorem holdShow_ports (s : State) : (holdShow s).ports = s.ports :=
  (closeShowEvent_onlyArmed _).ports.trans ((setShow_ports ..).trans (heldStandby_onlyArmed s).ports)

theorem releaseShow_moved (s : State) : ShowMoved .running s (releaseShow s) := by
  have hclose := closeShowEvent_onlyArmed (triggerWalk (setShow .running s))
  refine ⟨hclose.cores.trans (congrArg (List.map Item.core) (setShow_items ..)),
    hclose.seq.trans (setShow_seq ..), hclose.engine.trans ?_⟩
  exact congrArg (fun e : Engine => { e with inFlight := true }) (setShow_engine .running s)

theorem releaseShow_ports (s : State) : (releaseShow s).ports = s.ports :=
  (closeShowEvent_onlyArmed _).ports.trans (setShow_ports ..)

/-! ### The capture (R80) -/

/-- The show with the junction captured, before a late capture's entry and the end of the event. -/
def junctionCaptured (j : Item) (s : State) : State :=
  enterStandby false true j.id (makeRoom (some j.id) { s with seq := { s.seq with nomination := none } })

/-- The present STANDBY leaves unless it is the item to come. -/
theorem makeRoom_sameShow (id : StoryId) (s : State) : SameShow (makeRoom (some id) s) (match standbyId s with
    | some old => if old = id then s else leaveStandby old s
    | none => s) := by
  unfold makeRoom
  cases standbyId s with
  | none => exact sameShow_composes.refl s
  | some old =>
    dsimp only
    by_cases hold : old = id
    · rw [if_pos hold, if_pos (congrArg some hold.symm)]
      exact sameShow_composes.refl s
    · rw [if_neg hold, if_neg fun h => hold (Option.some.inj h).symm]
      exact leaveStandby_sameShow old s

theorem captureJunction_eq (j : Item) (s : State) :
    ∃ u, SameShow (junctionCaptured j s) u ∧ captureJunction j s = triggerWalk u := by
  have hroom := makeRoom_sameShow j.id { s with seq := { s.seq with nomination := none } }
  refine ⟨_, ?_, rfl⟩
  exact sameShow_composes.trans (hroom.modifyItem (by intro; rfl) j.id) (onlyArmed_composes.trans
    (raiseStandbyIfMoved_onlyArmed ..) (onlyArmed_composes.trans (raiseNotice_onlyArmed ..)
      (onlyArmed_composes.trans (retimeItem_onlyArmed ..) (armIdle_onlyArmed ..)))).toSameShow

theorem junctionCaptured_rest (j : Item) (s : State) : ∃ items, junctionCaptured j s
    = { s with items, seq := { s.seq with nomination := none } } := by
  obtain ⟨items, h⟩ := makeRoom_rest (some j.id) { s with seq := { s.seq with nomination := none } }
  exact ⟨_, by rw [junctionCaptured, h]; rfl⟩

/-- What a capture makes of the show. -/
structure Captured (j : Item) (s t : State) : Prop where
  cores : t.items.map Item.core = (junctionCaptured j s).items.map Item.core
  seq : t.seq = { s.seq with nomination := none }
  engine : t.engine = { s.engine with inFlight := true }

theorem captureJunction_captured (j : Item) (s : State) : Captured j s (captureJunction j s) := by
  obtain ⟨u, hu, hcapture⟩ := captureJunction_eq j s
  obtain ⟨items, hrest⟩ := junctionCaptured_rest j s
  rw [hcapture]
  refine ⟨hu.cores, hu.seq.trans ?_, congrArg (fun e : Engine => { e with inFlight := true }) (hu.engine.trans ?_)⟩
  · rw [hrest]
  · rw [hrest]

theorem junctionCaptured_fit {m : ShowState} (hm : m.live) {s : State} (h : SlotsFit m s.items)
    (ht : takingItem s = none) (j : Item) : SlotsFit m (junctionCaptured j s).items :=
  enterStandby_fit (s := { s with seq := { s.seq with nomination := none } }) h ht false (fun _ => hm) j.id

theorem captureJunction_fit {m : ShowState} (hm : m.live) {s : State} (h : SlotsFit m s.items)
    (ht : takingItem s = none) (j : Item) : SlotsFit m (captureJunction j s).items :=
  (junctionCaptured_fit hm h ht j).of_cores (captureJunction_captured j s).cores

/-! ### SHOW_STOP (R84) -/

/-- The record of a TAKING item that a SHOW_STOP returns. -/
def Item.untaken (i : Item) : Item := { i with state := .pending, airFrame := none }

/-- The record of a STANDBY that a SHOW_STOP leaves in its slot. -/
def Item.uncaptured (i : Item) : Item := { i with captured := false }

/-- The items that a SHOW_STOP leaves to the standby choice. -/
def showStopped (s : State) : State :=
  slotChanged .standby Item.uncaptured (slotChanged .taking Item.untaken
    (slotChanged .onair (Item.ended s.cfn) s))

theorem stopOnair_sameShow (s : State) (i : Item) (u : State) (hu : u.cfn = s.cfn) :
    SameShow (modifyItem i.id (Item.ended s.cfn) u) (stopOnair i u) := by
  rw [← hu]
  exact (onlyArmed_composes.trans (raiseNotice_onlyArmed ..) (stopItem_onlyArmed ..)).toSameShow

theorem stopTaking_sameShow (i : Item) (u : State) : SameShow (modifyItem i.id Item.untaken u) (stopTaking i u) :=
  sameShow_composes.trans (withdrawItem_onlyArmed ..).toSameShow (orphanItem_sameShow ..)

theorem stopStandby_sameShow (i : Item) (u : State) : SameShow (modifyItem i.id Item.uncaptured u) (stopStandby i u) :=
  (withdrawItem_onlyArmed ..).toSameShow

theorem stopShow_eq (s : State) : ∃ u, SameShow (showStopped s) u ∧ stopShow s
    = closeShowEvent (setShow .idle (raiseStandbyIfMoved (standbyId s) (chooseStandby (triggerWalk u)))) := by
  have honair : SameShow (slotChanged .onair (Item.ended s.cfn) s) ((onairItem s).elim s (fun i => stopOnair i s)) := by
    unfold slotChanged onairItem
    cases slotItem .onair s with
    | none => exact sameShow_composes.refl s
    | some i => exact stopOnair_sameShow s i s rfl
  exact ⟨_, slotChanged_sameShow (by intro; rfl) stopStandby_sameShow
    (slotChanged_sameShow (by intro; rfl) stopTaking_sameShow honair .taking) .standby, rfl⟩

theorem showStopped_rest (s : State) : ∃ items, showStopped s = { s with items } := by
  obtain ⟨a, ha⟩ := slotChanged_rest .onair (Item.ended s.cfn) s
  obtain ⟨b, hb⟩ := slotChanged_rest .taking Item.untaken { s with items := a }
  obtain ⟨c, hc⟩ := slotChanged_rest .standby Item.uncaptured { s with items := b }
  refine ⟨c, ?_⟩
  rw [showStopped, ha, hb, hc]

theorem slotChanged_fit {m : ShowState} {s : State} (h : SlotsFit m s.items) (st : ItemState) {f : Item → Item}
    (hid : ∀ x, (f x).id = x.id) (hf : ∀ x, (f x).state.place = none) : SlotsFit m (slotChanged st f s).items := by
  unfold slotChanged
  cases slotItem st s with
  | none => exact h
  | some i => exact h.vacate hid hf

/-- A SHOW_STOP leaves nothing live. -/
theorem showStopped_fit {m n : ShowState} {s : State} (h : SlotsFit m s.items) : SlotsFit n (showStopped s).items := by
  have h1 : SlotsFit m (slotChanged .onair (Item.ended s.cfn) s).items :=
    slotChanged_fit h _ (fun _ => rfl) (fun _ => rfl)
  have h2 : SlotsFit m (slotChanged .taking Item.untaken (slotChanged .onair (Item.ended s.cfn) s)).items :=
    slotChanged_fit h1 _ (fun _ => rfl) (fun _ => rfl)
  have hair : ∀ y ∈ (slotChanged .onair (Item.ended s.cfn) s).items, y.state ≠ .onair := fun y hy => by
    obtain ⟨x, -, -, rfl⟩ | ⟨-, hs⟩ := slotChanged_mem h (p := .air) rfl hy
    · exact nofun
    · exact hs
  have hnext : ∀ y ∈ (slotChanged .taking Item.untaken (slotChanged .onair (Item.ended s.cfn) s)).items,
      y.state ≠ .onair ∧ y.state ≠ .taking := fun y hy => by
    obtain ⟨x, -, -, rfl⟩ | ⟨hmem, hs⟩ := slotChanged_mem h1 (p := .next) rfl hy
    · exact ⟨nofun, nofun⟩
    · exact ⟨hair y hmem, hs⟩
  have h3 : SlotsFit m (showStopped s).items := by
    unfold showStopped
    rw [slotChanged]
    cases hb : slotItem .standby _ with
    | none => exact h2
    | some b =>
      refine h2.change (fun _ => rfl) (fun x hx hid p hp y hy hq => ?_) fun x hx _ hl => ?_
      · exact (h2.alone y hy x hx p hq hp).trans hid
      · obtain hs | hs | ⟨-, hc⟩ := hl
        · exact absurd hs (hnext x hx).1
        · exact absurd hs (hnext x hx).2
        · cases hc
  refine h3.mode_any fun y hy hl => ?_
  obtain ⟨x, hx, hxs, rfl⟩ | ⟨hmem, hs⟩ := slotChanged_mem h2 (p := .next) rfl hy
  · obtain hs | hs | ⟨-, hc⟩ := hl
    · exact (hnext x hx).1 hs
    · exact (hnext x hx).2 hs
    · cases hc
  · obtain hs' | hs' | ⟨hs', -⟩ := hl
    · exact (hnext y hmem).1 hs'
    · exact (hnext y hmem).2 hs'
    · exact hs hs'

/-- What a SHOW_STOP makes of the show. -/
structure Stopped (s t : State) : Prop where
  chosen : ∃ u, SameShow (showStopped s) u ∧ t.items.map Item.core = (chooseStandby (triggerWalk u)).items.map Item.core
  seq : t.seq = { s.seq with mode := .idle }
  engine : t.engine = { s.engine with inFlight := true }

theorem stopShow_stopped (s : State) : Stopped s (stopShow s) := by
  obtain ⟨u, hu, hstop⟩ := stopShow_eq s
  obtain ⟨items, hrest⟩ := showStopped_rest s
  have hchoose := chooseStandby_showStands (triggerWalk u)
  have hraise := raiseStandbyIfMoved_onlyArmed (standbyId s) (chooseStandby (triggerWalk u))
  have hclose := closeShowEvent_onlyArmed
    (setShow .idle (raiseStandbyIfMoved (standbyId s) (chooseStandby (triggerWalk u))))
  rw [hstop]
  refine ⟨⟨u, hu, ?_⟩, ?_, ?_⟩
  · rw [hclose.cores, setShow_items, hraise.cores]
  · rw [hclose.seq, setShow_seq, hraise.seq, hchoose.seq]
    refine congrArg (fun q : Sequencer => { q with mode := .idle }) (hu.seq.trans ?_)
    rw [hrest]
  · rw [hclose.engine, setShow_engine, hraise.engine, hchoose.engine]
    refine congrArg (fun e : Engine => { e with inFlight := true }) (hu.engine.trans ?_)
    rw [hrest]

theorem stopShow_fit {m n : ShowState} {s : State} (h : SlotsFit m s.items) : SlotsFit n (stopShow s).items := by
  obtain ⟨u, hu, hcores⟩ := (stopShow_stopped s).chosen
  have hfit : SlotsFit n (triggerWalk u).items := (showStopped_fit h).of_cores hu.cores
  exact (chooseStandby_fit hfit).of_cores hcores

end Sys2Proof.Machine
end

