-- ==== Sys2Proof/Proofs/SlotsKept.lean ====
section
/-! Every step keeps the slots of the Show Sequencer (R66).  The operations that move an item between the slots are
followed one by one; every other one leaves ids, states, captured marks and the show state alone. -/

namespace Sys2Proof.Machine

/-- The slots of R66 stand as they may, with ids unique. -/
def Staged (s : State) : Prop := SlotsFit s.seq.mode s.items

theorem staged_iff (s : State) : Staged s ↔ (s.items.map Item.id).Nodup ∧ SlotsOk s :=
  ⟨fun h => ⟨h.ids, (slotsFit_iff h.ids).mp h⟩, fun h => (slotsFit_iff h.1).mpr h.2⟩

/-- From `s` to `t` the slots are kept. -/
structure KeepsSlots (s t : State) : Prop where
  staged : Staged s → Staged t

theorem keepsSlots_composes : Composes KeepsSlots where
  refl _ := ⟨id⟩
  trans h k := ⟨k.staged ∘ h.staged⟩

/-- What no slot is read off has changed. -/
theorem KeepsSlots.of_slots {s t : State} (hitems : t.items.map Item.slot = s.items.map Item.slot)
    (hmode : t.seq.mode = s.seq.mode) : KeepsSlots s t := by
  refine ⟨fun h => ?_⟩
  unfold Staged
  rw [hmode]
  exact h.of_slots hitems

theorem KeepsSlots.of_cores {s t : State} (hcores : t.items.map Item.core = s.items.map Item.core)
    (hmode : t.seq.mode = s.seq.mode) : KeepsSlots s t := by
  refine ⟨fun h => ?_⟩
  unfold Staged
  rw [hmode]
  exact SlotsFit.of_cores h hcores

theorem KeepsSlots.of_same {s t : State} (hitems : t.items = s.items) (hmode : t.seq.mode = s.seq.mode) :
    KeepsSlots s t := .of_cores (congrArg _ hitems) hmode

theorem KeepsSlots.of_tick (w : TickWork) (s : State) : KeepsSlots s { s with tick := w } := .of_same rfl rfl

theorem SameShow.keepsSlots {s t : State} (h : SameShow s t) : KeepsSlots s t :=
  .of_cores h.cores (congrArg Sequencer.mode h.seq)

theorem OnlyArmed.keepsSlots {s t : State} (h : OnlyArmed s t) : KeepsSlots s t := h.toSameShow.keepsSlots

/-! ### The live show -/

theorem Staged.live_of_onair {s : State} (h : Staged s) {i : Item} (hi : onairItem s = some i) : s.seq.mode.live :=
  h.live i (slotItem_mem hi) (.inl (slotItem_state hi))

theorem Staged.live_of_taking {s : State} (h : Staged s) {i : Item} (hi : takingItem s = some i) : s.seq.mode.live :=
  h.live i (slotItem_mem hi) (.inr (.inl (slotItem_state hi)))

theorem Staged.live_of_captured {s : State} (h : Staged s) {i : Item} (hi : standbyItem s = some i)
    (hc : i.captured = true) : s.seq.mode.live :=
  h.live i (slotItem_mem hi) (.inr (.inr ⟨slotItem_state hi, hc⟩))

/-! ### The sequencer's operations -/

theorem chooseStandby_keepsSlots (s : State) : KeepsSlots s (chooseStandby s) := by
  refine ⟨fun h => ?_⟩
  unfold Staged
  rw [(chooseStandby_showStands s).seq]
  exact chooseStandby_fit h

theorem announceStandby_keepsSlots (before : Option StoryId) (s : State) : KeepsSlots s (announceStandby before s) :=
  Composes.ite (keepsSlots_composes.refl s) (keepsSlots_composes.trans (b := triggerWalk (raiseStandby s))
    (.of_same rfl rfl) (closeShowEvent_onlyArmed _).keepsSlots)

theorem reselect_keepsSlots (before : Option StoryId) (s : State) : KeepsSlots s (reselect before s) :=
  Composes.ite (announceStandby_keepsSlots ..)
    (keepsSlots_composes.trans (chooseStandby_keepsSlots s) (announceStandby_keepsSlots ..))

theorem acceptTake_keepsSlots {i : Item} {s : State} (hi : standbyItem s = some i) :
    KeepsSlots s (acceptTake i s) := by
  refine ⟨fun h => ?_⟩
  unfold Staged
  rw [(acceptTake_taken i s).seq]
  exact acceptTake_fit h hi

theorem enterAir_keepsSlots {s : State} (hm : Staged s → s.seq.mode.live) (path : AirPath) (id : StoryId) (af : Frame) :
    KeepsSlots s (enterAir path id af s) := by
  refine ⟨fun h => ?_⟩
  unfold Staged
  rw [(enterAir_entersAir path id af s).seq]
  exact enterAir_fit (hm h) h path id af

theorem ShowMoved.keepsSlots {m : ShowState} (hm : m.live) {s t : State} (h : ShowMoved m s t) : KeepsSlots s t := by
  refine ⟨fun hs => ?_⟩
  unfold Staged
  rw [h.seq]
  exact (hs.mode_live hm).of_cores h.cores

theorem endShow_keepsSlots {s : State} {i : Item} (hi : onairItem s = some i) (ht : takingItem s = none)
    (hb : standbyItem s = none) (ef : Frame) : KeepsSlots s (endShow i ef s) := by
  refine ⟨fun h => ?_⟩
  unfold Staged
  rw [(endShow_moved i ef s).seq]
  exact endShow_fit h hi ht hb ef

theorem stopShow_keepsSlots (s : State) : KeepsSlots s (stopShow s) := by
  refine ⟨fun h => ?_⟩
  unfold Staged
  rw [(stopShow_stopped s).seq]
  exact stopShow_fit h

/-! ### The steps of a tick (R72) -/

theorem airFrameDue_taking {s : State} {i : Item} (h : airFrameDue s = some i) : takingItem s = some i :=
  (Option.filter_eq_some_iff.mp h).1

theorem junctionDue_captured {s : State} {i : Item} (h : junctionDue s = some i) :
    standbyItem s = some i ∧ i.captured = true := by
  obtain ⟨hi, hdue⟩ := Option.filter_eq_some_iff.mp h
  simp only [Bool.and_eq_true] at hdue
  exact ⟨hi, hdue.1⟩

theorem followDue_onair {s : State} {i : Item} (h : followDue s = some i) :
    onairItem s = some i ∧ takingItem s = none := by
  obtain ⟨hi, hdue⟩ := Option.filter_eq_some_iff.mp h
  simp only [Bool.and_eq_true, Option.isNone_iff_eq_none] at hdue
  obtain ⟨⟨-, ht⟩, -⟩ := hdue
  exact ⟨hi, ht⟩

theorem captureDue_live {s : State} {j : Item} (h : captureDue s = some j) :
    s.seq.mode.live ∧ takingItem s = none := by
  unfold captureDue at h
  split at h
  · rename_i hc
    simpa [ShowState.live] using hc
  · cases h

theorem stepAirFrame_keepsSlots (s : State) : KeepsSlots s (stepAirFrame s) := by
  unfold stepAirFrame
  split
  · exact keepsSlots_composes.refl s
  · rename_i i hi
    exact enterAir_keepsSlots (fun h => h.live_of_taking (airFrameDue_taking hi)) ..

theorem stepJunction_keepsSlots (s : State) : KeepsSlots s (stepJunction s) := by
  unfold stepJunction
  split
  · exact keepsSlots_composes.refl s
  · rename_i i hi
    obtain ⟨hstandby, hcaptured⟩ := junctionDue_captured hi
    exact enterAir_keepsSlots (fun h => h.live_of_captured hstandby hcaptured) ..

theorem stepFollow_keepsSlots (s : State) : KeepsSlots s (stepFollow s) := by
  unfold stepFollow
  split
  · exact keepsSlots_composes.refl s
  · rename_i i hi
    obtain ⟨honair, ht⟩ := followDue_onair hi
    dsimp only
    split
    · exact endShow_keepsSlots honair ht ‹_› _
    · exact Composes.ite (keepsSlots_composes.refl s) (enterAir_keepsSlots (fun h => h.live_of_onair honair) ..)

theorem stepOverdue_keepsSlots (s : State) : KeepsSlots s (stepOverdue s) := by
  unfold stepOverdue
  split
  · exact keepsSlots_composes.refl s
  · exact .of_same rfl rfl

theorem captureJunction_keepsSlots {j : Item} {s : State} (hm : s.seq.mode.live) (ht : takingItem s = none) :
    KeepsSlots s (captureJunction j s) := by
  refine ⟨fun h => ?_⟩
  unfold Staged
  rw [(captureJunction_captured j s).seq]
  exact captureJunction_fit hm h ht j

theorem captureTest_keepsSlots (s : State) : KeepsSlots s (captureTest s) := by
  unfold captureTest
  split
  · exact keepsSlots_composes.refl s
  · rename_i j hj
    obtain ⟨hm, ht⟩ := captureDue_live hj
    have hcapture : KeepsSlots s (captureJunction j s) := captureJunction_keepsSlots hm ht
    have hmode : (captureJunction j s).seq.mode = s.seq.mode := by rw [(captureJunction_captured j s).seq]
    refine Composes.ite (keepsSlots_composes.trans hcapture ?_)
      (keepsSlots_composes.trans hcapture (closeShowEvent_onlyArmed _).keepsSlots)
    refine keepsSlots_composes.trans (raiseNotice_onlyArmed ..).keepsSlots (enterAir_keepsSlots (fun _ => ?_) ..)
    rw [raiseNotice_seq, hmode]
    exact hm

theorem takePhase_keepsSlots (s : State) : KeepsSlots s (takePhase s) := by
  unfold takePhase
  split
  · exact keepsSlots_composes.trans (stepAirFrame_keepsSlots s) (.of_same rfl rfl)
  · exact keepsSlots_composes.trans (stepJunction_keepsSlots s) (.of_same rfl rfl)
  · exact keepsSlots_composes.trans (stepFollow_keepsSlots s)
      (keepsSlots_composes.trans (stepOverdue_keepsSlots _) (.of_same rfl rfl))
  · exact keepsSlots_composes.trans (captureTest_keepsSlots s) (.of_same rfl rfl)
  · exact keepsSlots_composes.refl s

theorem passPhases_keepsSlots (k : Nat) (s : State) : KeepsSlots s (passPhases k s) := by
  induction k generalizing s with
  | zero => exact keepsSlots_composes.refl s
  | succ k ih =>
    exact Composes.ite (keepsSlots_composes.refl s) (keepsSlots_composes.trans (takePhase_keepsSlots s) (ih _))

theorem finishPhases_keepsSlots (s : State) : KeepsSlots s (finishPhases s) :=
  keepsSlots_composes.trans (takePhase_keepsSlots s) (keepsSlots_composes.trans (takePhase_keepsSlots _)
    (keepsSlots_composes.trans (takePhase_keepsSlots _) (takePhase_keepsSlots _)))

theorem takeNamedPhase_keepsSlots (p : TickPhase) (s : State) : KeepsSlots s (takeNamedPhase p s) :=
  keepsSlots_composes.when fun _ => keepsSlots_composes.trans (passPhases_keepsSlots 4 s)
    (keepsSlots_composes.trans (takePhase_keepsSlots _) (.of_same rfl rfl))

theorem settleSteps_keepsSlots (s : State) : KeepsSlots s (settleSteps s) :=
  keepsSlots_composes.when fun _ => finishPhases_keepsSlots s

/-- A walk writes projections, of which no slot is made (R99). -/
theorem writeWalk_keepsSlots (s : State) : KeepsSlots s (writeWalk s) := by
  refine .of_slots ?_ rfl
  simp only [writeWalk, List.map_map]
  refine List.map_congr_left fun i _ => ?_
  simp only [Function.comp_apply, projectItem]
  split
  · rfl
  · rfl

theorem completeWalk_keepsSlots (s : State) : KeepsSlots s (completeWalk s) :=
  keepsSlots_composes.trans (writeWalk_keepsSlots s) (keepsSlots_composes.trans
    (retimeAtCompletion_onlyArmed _).keepsSlots (keepsSlots_composes.trans (captureTest_keepsSlots _)
      (closeShowEvent_onlyArmed _).keepsSlots))

/-! ### Panel edges (R188 to R192) -/

theorem judgeTake_accepted {s : State} {i : Item} (h : judgeTake s = .accepted i) :
    standbyItem s = some i ∧ i.captured = false := by
  unfold judgeTake at h
  split at h
  · cases h
  · split at h
    · cases h
    · rename_i k _ hk
      split at h
      · cases h
      · rename_i hc
        cases h
        exact ⟨hk, by simpa using hc⟩
    · cases h

theorem panelTakeShow_keepsSlots (n : Fin 8) (s : State) : KeepsSlots s (panelTakeShow n s) := by
  unfold panelTakeShow
  split
  · rename_i i hi
    exact acceptTake_keepsSlots (judgeTake_accepted hi).1
  · exact (raiseNotice_onlyArmed ..).keepsSlots
  · exact (raiseNotice_onlyArmed ..).keepsSlots
  · exact keepsSlots_composes.refl s
  · exact keepsSlots_composes.refl s

theorem panelToggleHold_keepsSlots (s : State) : KeepsSlots s (panelToggleHold s) := by
  unfold panelToggleHold
  split
  · exact (holdShow_moved s).keepsSlots (.inr rfl)
  · exact (releaseShow_moved s).keepsSlots (.inl rfl)
  · exact keepsSlots_composes.refl s
  · exact keepsSlots_composes.refl s

theorem performFunction_keepsSlots (n : Fin 8) (s : State) : KeepsSlots s (performFunction n s) := by
  unfold performFunction
  split
  · exact keepsSlots_composes.refl s
  · exact panelTakeShow_keepsSlots n s
  · exact panelToggleHold_keepsSlots s
  · exact Composes.ite (keepsSlots_composes.refl s)
      (onlyArmed_composes.trans (acknowledge_onlyArmed ..) (render_onlyArmed ..)).keepsSlots
  · exact (raiseNotice_onlyArmed ..).keepsSlots

theorem performEdge_keepsSlots (n : Fin 8) (s : State) : KeepsSlots s (performEdge n s) := by
  have hedge : KeepsSlots s (modifyInput n takeEdge s) := .of_same rfl rfl
  exact Composes.ite (keepsSlots_composes.trans hedge (performFunction_keepsSlots n _)) hedge

theorem takeActiveEdge_keepsSlots (f : InputFunction) (n : Fin 8) (s : State) :
    KeepsSlots s (takeActiveEdge f n s) :=
  keepsSlots_composes.when fun _ => keepsSlots_composes.trans (settleSteps_keepsSlots s) (performEdge_keepsSlots n _)

/-! ### Completing a tick -/

theorem finishWork_keepsSlots (s : State) : KeepsSlots s (finishWork s) := by
  have hk := keepsSlots_composes
  have hports (s : State) (p : Fin 16) : KeepsSlots s (takePulseEnd p (takeDeadline p s)) :=
    (sameShow_composes.trans (takeDeadline_sameShow p s) (takePulseEnd_sameShow p _)).keepsSlots
  have hdisplays (s : State) (n : Fin 4) : KeepsSlots s (displayTick n s) := (displayTick_onlyArmed n s).keepsSlots
  have hinputs (s : State) (n : Fin 8) : KeepsSlots s (inputTick n s) := hk.when fun _ => performEdge_keepsSlots n s
  exact hk.trans (finishPhases_keepsSlots s) (hk.trans (takeScan_sameShow _).keepsSlots
    (hk.trans (hk.foldl hports allPorts _) (hk.trans (hk.foldl hdisplays allDisplays _)
      (hk.trans (hk.foldl hinputs allInputs _) (.of_tick _ _)))))

theorem settleTick_keepsSlots (s : State) : KeepsSlots s (settleTick s) :=
  keepsSlots_composes.when fun _ => finishWork_keepsSlots s

theorem makeTick_keepsSlots (n : Nat) (m : PulseMode) (lines : BitVec 8) (s : State) :
    KeepsSlots s (makeTick n m lines s) := by
  have hbehind := makeTick_behind n m lines s
  have hreference : ∀ u : State, (referenceTick u).items = u.items ∧ (referenceTick u).seq = u.seq := by
    intro u
    refine ⟨referenceTick_items u, ?_⟩
    obtain ⟨r, jump, hcheck⟩ : ∃ r jump, checkLabel u.rtu = (r, jump) := ⟨_, _, rfl⟩
    cases jump with
    | none => rw [referenceTick_steady hcheck]
    | some d => rw [referenceTick_jump hcheck]
  refine keepsSlots_composes.trans (settleTick_keepsSlots s) (.of_same ?_ ?_)
  · exact hbehind.items.trans (hreference _).1
  · exact congrArg Sequencer.mode (hbehind.seq.trans (hreference _).2)

end Sys2Proof.Machine
end

