-- ==== Sys2Proof/Proofs/SlotsOfCommands.lean ====
section
/-! Every command keeps the slots of the Show Sequencer (R66): the requests, the ticks and the line events. -/

namespace Sys2Proof.Machine

/-! ### Changes that no slot is read off -/

theorem KeepsSlots.of_link (l : Link) (s : State) : KeepsSlots s { s with link := l } := .of_same rfl rfl

theorem KeepsSlots.of_revision (n : Nat) (s : State) : KeepsSlots s { s with revision := n } := .of_same rfl rfl

theorem KeepsSlots.of_nomination (n : Option StoryId) (s : State) :
    KeepsSlots s { s with seq := { s.seq with nomination := n } } := .of_same rfl rfl

theorem triggerWalk_keepsSlots (s : State) : KeepsSlots s (triggerWalk s) := .of_same rfl rfl

/-! ### The ways of a request -/

/-- A request that keeps the slots, however it is answered. -/
abbrev RequestKeepsSlots (act : List Byte → State → Reply) : Prop := ∀ body s, KeepsSlots s (act body s).1

theorem takeHead_keepsSlots (rest : List RequestEntry) (s : State) : KeepsSlots s (takeHead rest s) :=
  keepsSlots_composes.trans (.of_link ..) (settleTick_keepsSlots _)

theorem dispatch_keepsSlots {p : RequestEntry → Bool} {act : RequestEntry → State → Reply}
    (h : ∀ e s, KeepsSlots s (act e s).1) (s : State) : KeepsSlots s (dispatch p act s) := by
  obtain hd | ⟨e, rest, -, -, -, hd⟩ := dispatch_cases p act s
  · rw [hd]
    exact keepsSlots_composes.refl s
  · rw [hd]
    exact keepsSlots_composes.trans (takeHead_keepsSlots rest s)
      (keepsSlots_composes.trans (h e _) (.of_link ..))

theorem serve_keepsSlots {code : Byte} {act : List Byte → State → Reply} (h : RequestKeepsSlots act) (s : State) :
    KeepsSlots s (serve code act s) := dispatch_keepsSlots (fun e => h e.body) s

theorem OnlyReads.keepsSlots {act : List Byte → State → Reply} (h : OnlyReads act) : RequestKeepsSlots act :=
  fun body s => .of_same (by rw [h body s]) (by rw [h body s])

theorem bodyless_keepsSlots {act : State → Reply} (h : ∀ s, KeepsSlots s (act s).1) :
    RequestKeepsSlots (bodyless act) := by
  intro body s
  unfold bodyless
  split
  · exact h s
  · exact keepsSlots_composes.refl s

theorem portRequest_keepsSlots {act : Fin 16 → State → Reply} (h : ∀ p s, KeepsSlots s (act p s).1) :
    RequestKeepsSlots (portRequest act) := by
  intro body s
  unfold portRequest
  split
  · split
    · exact keepsSlots_composes.refl s
    · exact h ..
  · exact keepsSlots_composes.refl s

theorem displayRequest_keepsSlots {act : Fin 4 → State → Reply} (h : ∀ d s, KeepsSlots s (act d s).1) :
    RequestKeepsSlots (displayRequest act) := by
  intro body s
  unfold displayRequest
  split
  · split
    · exact keepsSlots_composes.refl s
    · exact h ..
  · exact keepsSlots_composes.refl s

/-- What an edit keeps, it keeps when carried out with every check met (R42, R43). -/
theorem judgeEdit_keepsSlots {ids : List Byte} {checks : List (Bool × Result)} {act : State → Reply} {s : State}
    (h : (∀ c ∈ checks, c.1 = true) → KeepsSlots s (act s).1) : KeepsSlots s (judgeEdit ids checks act s).1 := by
  obtain ⟨hchecks, hj⟩ | hj := judgeEdit_carried_or_same ids checks act s
  · rw [hj]
    exact h hchecks
  · rw [hj]
    exact keepsSlots_composes.refl s

/-! ### The edits (chapter 3) -/

theorem closeItemEdit_keepsSlots (before : Option StoryId) (s : State) : KeepsSlots s (closeItemEdit before s) :=
  keepsSlots_composes.trans (triggerWalk_keepsSlots s) (reselect_keepsSlots ..)

/-- A new item is PENDING (R45). -/
theorem insertItem_keepsSlots {b : InsertBody} {s : State} (hplace : placeExists s b.place = true)
    (hfresh : findItem s b.id = none) : KeepsSlots s (insertItem b s) := by
  have hplace := ((placeExists_iff ..).mp hplace).imp_right mem_ids_of_findItem
  have hnew : (newItem b).id ∉ s.items.map Item.id := by simpa [findItem, newItem] using hfresh
  have hplaced : KeepsSlots s (bumpRevision { s with items := placeItem b.place (newItem b) s.items }) :=
    ⟨fun h => (SlotsFit.cons h rfl hnew).perm (placeItem_perm h.ids hplace _)⟩
  exact keepsSlots_composes.trans hplaced (closeItemEdit_keepsSlots ..)

theorem carryItemInsert_keepsSlots : RequestKeepsSlots carryItemInsert := by
  intro body s
  unfold carryItemInsert
  split
  · exact keepsSlots_composes.refl s
  · refine judgeEdit_keepsSlots fun hchecks => ?_
    simp only [List.forall_mem_cons, Option.isNone_iff_eq_none] at hchecks
    obtain ⟨-, hplace, hfresh, -⟩ := hchecks
    exact insertItem_keepsSlots hplace hfresh

/-- No slot is read off the fields an amend selects (R46). -/
theorem amendRecord_keepsSlots (b : AmendBody) (s : State) : KeepsSlots s (modifyItem b.id (amendRecord b) s) := by
  refine .of_slots ?_ rfl
  rw [modifyItem_items, List.map_map]
  refine List.map_congr_left fun i _ => ?_
  simp only [Function.comp_apply]
  split
  · rfl
  · rfl

theorem amendItem_keepsSlots (b : AmendBody) (i : Item) (s : State) : KeepsSlots s (amendItem b i s) := by
  have hk := keepsSlots_composes
  unfold amendItem
  exact hk.trans (amendRecord_keepsSlots b s) (hk.trans (hk.when fun _ => triggerWalk_keepsSlots _)
    (hk.trans (hk.when fun _ => reselect_keepsSlots ..) (hk.when fun _ => (renderAll_onlyArmed _).keepsSlots)))

theorem carryItemAmend_keepsSlots : RequestKeepsSlots carryItemAmend := by
  intro body s
  unfold carryItemAmend
  split
  · exact keepsSlots_composes.refl s
  · exact judgeEdit_keepsSlots fun _ => keepsSlots_composes.elim (fun i => amendItem_keepsSlots _ i s) _

/-- A move reorders the items (R49). -/
theorem moveItem_keepsSlots {i : Item} {place : StoryId} {s : State} (hi : i ∈ s.items)
    (hplace : placeExists s place = true) (hother : place ≠ i.id) : KeepsSlots s (moveItem i place s) := by
  have hplace : place = 0 ∨ place ∈ (s.items.filter (fun x => x.id != i.id)).map Item.id := by
    refine ((placeExists_iff ..).mp hplace).imp_right fun h => ?_
    obtain ⟨x, hx⟩ := Option.isSome_iff_exists.mp h
    have hxid := findItem_id hx
    exact List.mem_map.mpr ⟨x, List.mem_filter.mpr ⟨findItem_mem hx, by simpa [hxid] using hother⟩, hxid⟩
  have hmoved : KeepsSlots s
      (bumpRevision { s with items := placeItem place i (s.items.filter (fun x => x.id != i.id)) }) := by
    refine ⟨fun h => SlotsFit.perm h ?_⟩
    have hids := (List.filter_sublist (p := fun x => x.id != i.id) (l := s.items)).map Item.id |>.nodup h.ids
    exact (placeItem_perm hids hplace i).trans (cons_filter_perm h.ids hi)
  exact keepsSlots_composes.trans hmoved (closeItemEdit_keepsSlots ..)

theorem carryItemMove_keepsSlots : RequestKeepsSlots carryItemMove := by
  intro body s
  unfold carryItemMove
  split
  · rename_i id place _
    refine judgeEdit_keepsSlots fun hchecks => ?_
    simp only [List.forall_mem_cons, decide_eq_true_eq] at hchecks
    obtain ⟨-, -, hplace, hother, -⟩ := hchecks
    cases hi : findItem s id with
    | none => exact keepsSlots_composes.refl s
    | some i =>
      obtain rfl := findItem_id hi
      exact moveItem_keepsSlots (findItem_mem hi) hplace hother
  · exact keepsSlots_composes.refl s

theorem retireElements_sameShow (i : Item) (s : State) : SameShow s (retireElements i s) :=
  sameShow_composes.trans (withdrawItem_onlyArmed i.id s).toSameShow (Composes.ite (orphanItem_sameShow ..)
    (sameShow_composes.foldl (fun s t => detach_sameShow i.id t s) _ _))

theorem releaseReferences_keepsSlots (id : StoryId) (s : State) : KeepsSlots s (releaseReferences id s) := by
  unfold releaseReferences
  rw [endNomination_eq]
  exact Composes.ite (.of_same rfl rfl) (.of_same rfl rfl)

theorem removeItem_keepsSlots (id : StoryId) (s : State) : KeepsSlots s (removeItem id s) :=
  ⟨fun h => h.sublist List.filter_sublist⟩

theorem retireItem_keepsSlots (i : Item) (s : State) : KeepsSlots s (retireItem i s) := by
  have hk := keepsSlots_composes
  exact hk.trans (retireElements_sameShow i s).keepsSlots (hk.trans (releaseReferences_keepsSlots i.id _)
    (hk.trans (removeItem_keepsSlots i.id _) (hk.trans (.of_revision ..) (closeItemEdit_keepsSlots ..))))

theorem carryItemRetire_keepsSlots : RequestKeepsSlots carryItemRetire := by
  intro body s
  unfold carryItemRetire
  split
  · rename_i id _
    refine judgeEdit_keepsSlots fun _ => ?_
    cases findItem s id with
    | none => exact keepsSlots_composes.refl s
    | some i => exact retireItem_keepsSlots i s
  · exact keepsSlots_composes.refl s

/-- A reset item is PENDING (R52). -/
theorem resetItem_keepsSlots (id : StoryId) (s : State) : KeepsSlots s (resetItem id s) := by
  have hdetached := sameShow_composes.foldl (fun s t => detach_sameShow id t s) (tagsIn s id (· == .issued)) s
  have hreset (u : State) : KeepsSlots u (modifyItem id resetRecord u) :=
    ⟨fun h => h.vacate (fun _ => rfl) (fun _ => rfl)⟩
  exact keepsSlots_composes.trans hdetached.keepsSlots
    (keepsSlots_composes.trans (hreset _) (closeItemEdit_keepsSlots ..))

theorem carryItemReset_keepsSlots : RequestKeepsSlots carryItemReset := by
  intro body s
  unfold carryItemReset
  split
  · exact judgeEdit_keepsSlots fun _ => resetItem_keepsSlots ..
  · exact keepsSlots_composes.refl s

theorem carryElementAdd_keepsSlots : RequestKeepsSlots carryElementAdd := by
  intro body s
  unfold carryElementAdd
  split
  · exact keepsSlots_composes.refl s
  · refine judgeEdit_keepsSlots fun _ => ?_
    split
    · exact (onlyArmed_composes.trans (modifyItem_onlyArmed (by intro; rfl) ..)
        (onlyArmed_composes.when fun _ => armElement_onlyArmed ..)).keepsSlots
    · exact keepsSlots_composes.refl s

theorem amendElement_onlyArmed (id : StoryId) (tag : Tag) (i : Item) (e : Element) (f : ElementFields) (a : Action)
    (s : State) : OnlyArmed s (amendElement id tag i e f a s) := by
  have hk := onlyArmed_composes
  unfold amendElement
  exact hk.trans (modifyElement_onlyArmed ..) (hk.when fun _ => Composes.ite (armElement_onlyArmed ..)
    (hk.when fun _ => hk.trans (removeEntry_onlyArmed ..) (armElement_onlyArmed ..)))

theorem carryElementAmend_keepsSlots : RequestKeepsSlots carryElementAmend := by
  intro body s
  unfold carryElementAmend
  split
  · exact keepsSlots_composes.refl s
  · refine judgeEdit_keepsSlots fun _ => ?_
    split
    · exact (amendElement_onlyArmed ..).keepsSlots
    · exact keepsSlots_composes.refl s

theorem dropElement_onlyArmed (id : StoryId) (tag : Tag) (s : State) : OnlyArmed s (dropElement id tag s) :=
  modifyItem_onlyArmed (by intro; rfl) ..

theorem removeElement_sameShow (id : StoryId) (tag : Tag) (e : Element) (s : State) :
    SameShow s (removeElement id tag e s) := by
  unfold removeElement
  split
  · exact sameShow_composes.trans (detach_sameShow ..) (dropElement_onlyArmed ..).toSameShow
  · exact (onlyArmed_composes.trans (withdrawElement_onlyArmed ..)
      (onlyArmed_composes.trans (dropElement_onlyArmed ..) (fillFromWaiting_onlyArmed _))).toSameShow
  · exact (dropElement_onlyArmed ..).toSameShow

theorem carryElementRemove_keepsSlots : RequestKeepsSlots carryElementRemove := by
  intro body s
  unfold carryElementRemove
  split
  · exact judgeEdit_keepsSlots fun _ =>
      (sameShow_composes.elim (fun e => removeElement_sameShow _ _ e s) _).keepsSlots
  · exact keepsSlots_composes.refl s

theorem staged_of_empty {s : State} (h : s.items = []) : Staged s := by
  unfold Staged
  rw [h]
  exact ⟨.nil, fun _ hx => absurd hx List.not_mem_nil, fun _ hx => absurd hx List.not_mem_nil⟩

theorem carryShowClear_keepsSlots (s : State) : KeepsSlots s (carryShowClear s).1 := by
  unfold carryShowClear
  split
  · exact ⟨fun _ => staged_of_empty (s := clearShow s) (clearShow_cleared s).items⟩
  · exact keepsSlots_composes.refl s

/-! ### The show requests (chapter 4) -/

theorem carryTake_keepsSlots (s : State) : KeepsSlots s (carryTake s).1 := by
  unfold carryTake
  split
  · exact keepsSlots_composes.refl s
  · exact keepsSlots_composes.refl s
  · exact keepsSlots_composes.refl s
  · exact keepsSlots_composes.refl s
  · rename_i i hi
    exact acceptTake_keepsSlots (judgeTake_accepted hi).1

theorem nominate_keepsSlots (id : StoryId) (s : State) : KeepsSlots s (nominate id s) :=
  keepsSlots_composes.trans (.of_nomination (some id) s)
    (keepsSlots_composes.trans (chooseStandby_keepsSlots _) (announceStandby_keepsSlots ..))

theorem carryNextSet_keepsSlots : RequestKeepsSlots carryNextSet := by
  intro body s
  unfold carryNextSet
  split
  · split
    · exact keepsSlots_composes.refl s
    · split
      · exact keepsSlots_composes.refl s
      · split
        · exact keepsSlots_composes.refl s
        · exact Composes.ite (keepsSlots_composes.refl s) (nominate_keepsSlots ..)
  · exact keepsSlots_composes.refl s

theorem unnominate_keepsSlots (id : StoryId) (s : State) : KeepsSlots s (unnominate id s) := by
  have hk := keepsSlots_composes
  refine hk.trans (b := modifyItem id (fun i => { i with nominated := false }) s) (.of_slots ?_ rfl)
    (hk.trans (.of_nomination none _) (hk.trans (chooseStandby_keepsSlots _) (announceStandby_keepsSlots ..)))
  rw [modifyItem_items, List.map_map]
  refine List.map_congr_left fun i _ => ?_
  simp only [Function.comp_apply]
  split
  · rfl
  · rfl

theorem carryNextAuto_keepsSlots (s : State) : KeepsSlots s (carryNextAuto s).1 :=
  keepsSlots_composes.elim (fun id => unnominate_keepsSlots id s) _

theorem carryHold_keepsSlots (s : State) : KeepsSlots s (carryHold s).1 := by
  unfold carryHold
  split
  · exact (holdShow_moved s).keepsSlots (.inr rfl)
  · exact keepsSlots_composes.refl s
  · exact keepsSlots_composes.refl s
  · exact keepsSlots_composes.refl s

theorem carryRelease_keepsSlots (s : State) : KeepsSlots s (carryRelease s).1 := by
  unfold carryRelease
  split
  · exact keepsSlots_composes.refl s
  · exact (releaseShow_moved s).keepsSlots (.inl rfl)
  · exact keepsSlots_composes.refl s
  · exact keepsSlots_composes.refl s

/-- In ENDED nothing is live, so that the show may go to IDLE as it stands. -/
theorem carryShowStop_keepsSlots (s : State) : KeepsSlots s (carryShowStop s).1 := by
  unfold carryShowStop
  split
  · exact keepsSlots_composes.refl s
  · rename_i hmode
    refine keepsSlots_composes.trans (b := setShow .idle (triggerWalk s)) ⟨fun h => ?_⟩
      (closeShowEvent_onlyArmed _).keepsSlots
    have hnone : ∀ x ∈ s.items, ¬ x.live := fun x hx hl => by simpa [hmode, ShowState.live] using h.live x hx hl
    unfold Staged
    rw [setShow_seq, setShow_items, triggerWalk_items]
    exact SlotsFit.mode_any h hnone
  · exact stopShow_keepsSlots s
  · exact stopShow_keepsSlots s

theorem carryShowPlan_keepsSlots : RequestKeepsSlots carryShowPlan := by
  intro body s
  obtain h | ⟨select, b, -, h⟩ := carryShowPlan_cases body s
  · rw [h]
    exact keepsSlots_composes.refl s
  · obtain ⟨w, hw⟩ := setPlan_record b s
    rw [h, hw]
    exact .of_same rfl rfl

/-! ### The requests of the reference, the link, the ports, the displays and the inputs

None of them writes an item or the show state. -/

theorem carryRateSet_keepsSlots : RequestKeepsSlots carryRateSet := by
  intro body s
  obtain h | ⟨r, h⟩ := carryRateSet_cases body s
  · rw [h]
    exact keepsSlots_composes.refl s
  · obtain ⟨l, hl, -⟩ := setRate_record r s
    rw [h, hl]
    exact .of_same rfl rfl

theorem carryStatusClear_keepsSlots : RequestKeepsSlots carryStatusClear := by
  intro body s
  obtain ⟨l, hl⟩ := carryStatusClear_record body s
  rw [hl]
  exact .of_same rfl rfl

theorem carryMaskSet_keepsSlots : RequestKeepsSlots carryMaskSet := by
  intro body s
  unfold carryMaskSet
  repeat' split
  all_goals exact .of_same rfl rfl

theorem carryProfileSet_keepsSlots : RequestKeepsSlots carryProfileSet := by
  intro body s
  unfold carryProfileSet
  repeat' split
  all_goals exact .of_same rfl rfl

theorem carryGroupSet_keepsSlots : RequestKeepsSlots carryGroupSet := by
  intro body s
  unfold carryGroupSet
  dsimp only
  repeat' split
  all_goals exact .of_same rfl rfl

theorem judgeBind_keepsSlots (p : Fin 16) (k : Fin 8) (g : Option (Fin 4)) (s : State) :
    KeepsSlots s (judgeBind p k g s).1 := by
  unfold judgeBind bindPort
  dsimp only
  repeat' split
  all_goals exact .of_same rfl rfl

theorem carryPortBind_keepsSlots : RequestKeepsSlots carryPortBind := by
  intro body s
  unfold carryPortBind
  split
  · split
    · split
      · exact judgeBind_keepsSlots ..
      · split
        · exact keepsSlots_composes.refl s
        · exact judgeBind_keepsSlots ..
    · exact keepsSlots_composes.refl s
  · exact keepsSlots_composes.refl s

theorem judgeUnbind_keepsSlots (p : Fin 16) (s : State) : KeepsSlots s (judgeUnbind p s).1 := by
  unfold judgeUnbind
  split
  all_goals exact .of_same rfl rfl

theorem judgeHold_keepsSlots (p : Fin 16) (s : State) : KeepsSlots s (judgeHold p s).1 := by
  unfold judgeHold
  split
  all_goals exact .of_same rfl rfl

theorem judgeRelease_keepsSlots (p : Fin 16) (s : State) : KeepsSlots s (judgeRelease p s).1 := by
  unfold judgeRelease releaseHeld
  dsimp only
  repeat' split
  all_goals exact .of_same rfl rfl

theorem carryLayoutSet_keepsSlots : RequestKeepsSlots carryLayoutSet := by
  intro body s
  unfold carryLayoutSet
  repeat' split
  all_goals exact .of_same rfl rfl

theorem carryGlyphSet_keepsSlots : RequestKeepsSlots carryGlyphSet := by
  intro body s
  unfold carryGlyphSet
  repeat' split
  all_goals exact .of_same rfl rfl

theorem carryIconSet_keepsSlots : RequestKeepsSlots carryIconSet := by
  intro body s
  unfold carryIconSet
  repeat' split
  all_goals exact .of_same rfl rfl

theorem pushCue_onlyArmed (b : PushBody) (s : State) : OnlyArmed s (pushCue b s) :=
  onlyArmed_composes.foldl
    (fun _ _ => onlyArmed_composes.trans (modifyDisplay_onlyArmed ..) (render_onlyArmed ..)) _ _

theorem carryCuePush_keepsSlots : RequestKeepsSlots carryCuePush := by
  intro body s
  unfold carryCuePush
  split
  · exact keepsSlots_composes.refl s
  · split
    · exact keepsSlots_composes.refl s
    · split
      · exact keepsSlots_composes.refl s
      · exact (pushCue_onlyArmed ..).keepsSlots

theorem judgeCueClear_keepsSlots (d : Fin 4) (s : State) : KeepsSlots s (judgeCueClear d s).1 := by
  unfold judgeCueClear
  split
  · exact keepsSlots_composes.refl s
  · exact (onlyArmed_composes.trans (acknowledge_onlyArmed d s) (render_onlyArmed ..)).keepsSlots

theorem judgeBlank_keepsSlots (d : Fin 4) (s : State) : KeepsSlots s (judgeBlank d s).1 := by
  unfold judgeBlank
  split
  all_goals exact .of_same rfl rfl

theorem judgeUnblank_keepsSlots (d : Fin 4) (s : State) : KeepsSlots s (judgeUnblank d s).1 := by
  unfold judgeUnblank
  split
  all_goals exact .of_same rfl rfl

theorem carryInputSet_keepsSlots : RequestKeepsSlots carryInputSet := by
  intro body s
  unfold carryInputSet
  dsimp only
  repeat' split
  all_goals exact .of_same rfl rfl

/-! ### Frames, ticks and line events -/

/-- A part of a frame keeps the slots if what its end does keeps them. -/
theorem takePart_keepsSlots {α : Type} {h : α → TypedFrame → State → State}
    (hk : ∀ x t s, KeepsSlots s (h x t s)) (part : FramePart α) (type : Byte) (size : α → Nat) (s : State) :
    KeepsSlots s (takePart part type size h s) := by
  obtain hp | ⟨f, hp⟩ | ⟨x, -, hp⟩ := takePart_cases part type size h s
  · rw [hp]
    exact keepsSlots_composes.refl s
  · rw [hp]
    exact .of_same rfl rfl
  · rw [hp]
    exact keepsSlots_composes.trans (b := endFrame _ s) (.of_same rfl rfl) (hk ..)

/-- The command goes on to a state in which the slots are kept. -/
def GoesOnWithSlots (s : State) (o : Host.Outcome State Fault Refusal) : Prop := ∃ t, o = .next t ∧ KeepsSlots s t

theorem KeepsSlots.goesOn {s t : State} (h : KeepsSlots s t) : GoesOnWithSlots s (.next t) := ⟨t, rfl, h⟩

theorem goesOn_unmoved (s : State) : GoesOnWithSlots s (.next s) := (keepsSlots_composes.refl s).goesOn

/-- An event that occurs only when it is due. -/
theorem KeepsSlots.goesOn_if {s t : State} (h : KeepsSlots s t) (p : Prop) [Decidable p] :
    GoesOnWithSlots s (if p then .next t else .next s) := by
  split
  · exact h.goesOn
  · exact goesOn_unmoved s

/-- The part of an event of another block, before which the sequencer's steps are completed. -/
theorem keepsSlots_afterSteps {s t : State} (h : SameShow (settleSteps s) t) : KeepsSlots s t :=
  keepsSlots_composes.trans (settleSteps_keepsSlots s) h.keepsSlots

theorem execRefFramePulse_keepsSlots (n : Nat) (lines : BitVec 8) (s : State) :
    GoesOnWithSlots s (execRefFramePulse n lines s) := by
  unfold execRefFramePulse
  dsimp only
  split
  · split
    · exact KeepsSlots.goesOn (.of_same rfl rfl)
    · split
      · exact (makeTick_keepsSlots ..).goesOn
      · exact goesOn_unmoved s
  · split
    · exact KeepsSlots.goesOn (.of_same rfl rfl)
    · split
      · exact (makeTick_keepsSlots ..).goesOn
      · exact goesOn_unmoved s

theorem execSubstituteTick_keepsSlots (lines : BitVec 8) (s : State) :
    GoesOnWithSlots s (execSubstituteTick lines s) := by
  unfold execSubstituteTick
  split
  · exact (makeTick_keepsSlots ..).goesOn
  · exact goesOn_unmoved s

theorem execOscillatorTick_keepsSlots (lines : BitVec 8) (s : State) :
    GoesOnWithSlots s (execOscillatorTick lines s) := by
  unfold execOscillatorTick
  split
  · exact goesOn_unmoved s
  · exact (makeTick_keepsSlots ..).goesOn

theorem execFetchResponse_keepsSlots (part : FramePart Nat) (s : State) :
    GoesOnWithSlots s (execFetchResponse part s) := by
  refine (takePart_keepsSlots (fun clocked t s => ?_) ..).goesOn
  split
  · exact .of_link ..
  · exact keepsSlots_composes.refl s

theorem execFetchNotice_keepsSlots (part : FramePart Nat) (s : State) :
    GoesOnWithSlots s (execFetchNotice part s) := by
  refine (takePart_keepsSlots (fun clocked t s => ?_) ..).goesOn
  split
  · exact .of_link ..
  · exact keepsSlots_composes.refl s

theorem setFrameFault_keepsSlots (s : State) : KeepsSlots s (setFrameFault s) := .of_same rfl rfl

theorem endShortFrame_keepsSlots (s : State) : KeepsSlots s (endShortFrame s) := by
  unfold endShortFrame
  split
  · exact .of_same rfl rfl
  · exact .of_same rfl rfl

theorem execDiscardedFrame_keepsSlots (type : Byte) (part : FramePart Nat) (s : State) :
    GoesOnWithSlots s (execDiscardedFrame type part s) := by
  unfold execDiscardedFrame
  split
  · split
    · exact (endShortFrame_keepsSlots s).goesOn
    · exact (takePart_keepsSlots (fun _ _ s => setFrameFault_keepsSlots s) ..).goesOn
  · exact goesOn_unmoved s

theorem execReplyByte_keepsSlots (p : Fin 16) (value : Byte) (parityOk stopHigh : Bool) (s : State) :
    GoesOnWithSlots s (execReplyByte p value parityOk stopHigh s) := by
  unfold execReplyByte
  dsimp only
  split
  · exact goesOn_unmoved s
  · exact (keepsSlots_afterSteps (settleReply_sameShow ..)).goesOn

theorem drive_keepsSlots (d : Fin 4) (s : State) : KeepsSlots s (drive d s) := .of_same rfl rfl

theorem execBusyFall_keepsSlots (d : Fin 4) (s : State) : GoesOnWithSlots s (execBusyFall d s) := by
  have hk := keepsSlots_composes
  have hlow : KeepsSlots s (setBusy d .low (displayTick d (settleSteps s))) :=
    hk.trans (b := displayTick d (settleSteps s)) (keepsSlots_afterSteps (displayTick_onlyArmed ..).toSameShow)
      (.of_same rfl rfl)
  unfold execBusyFall
  dsimp only
  split
  · exact (hk.trans hlow (hk.trans (modifyDisplay_onlyArmed ..).keepsSlots
      (hk.trans (raiseNotice_onlyArmed ..).keepsSlots (drive_keepsSlots ..)))).goesOn
  · exact (hk.trans hlow (modifyDisplay_onlyArmed ..).keepsSlots).goesOn

theorem execUnitCompletion_keepsSlots (d : Fin 4) (n : Nat) (busy : Level) (s : State) :
    GoesOnWithSlots s (execUnitCompletion d n busy s) := by
  unfold execUnitCompletion
  repeat' split
  all_goals exact KeepsSlots.goesOn (.of_same rfl rfl)

theorem execDisplayByte_keepsSlots (d : Fin 4) (n : Nat) (busy : Level) (s : State) :
    GoesOnWithSlots s (execDisplayByte d n busy s) := by
  unfold execDisplayByte
  repeat' split
  all_goals exact KeepsSlots.goesOn (.of_same rfl rfl)

/-- DEVICE_RESET empties the store, or passes through the FIFOs as a refused request (R211). -/
theorem execDeviceReset_keepsSlots (s : State) : GoesOnWithSlots s (execDeviceReset s) := by
  unfold execDeviceReset
  split
  · exact goesOn_unmoved s
  · split
    · exact KeepsSlots.goesOn ⟨fun _ => staged_of_empty rfl⟩
    · exact (serve_keepsSlots (fun _ s => keepsSlots_composes.refl s) s).goesOn

/-! ### Every command -/

theorem exec_keepsSlots (c : Instr) (s : State) : GoesOnWithSlots s (exec c s) := by
  have hk := keepsSlots_composes
  have read {act : List Byte → State → Reply} (h : OnlyReads act) (code : Byte) :
      GoesOnWithSlots s (.next (serve code act s)) := (serve_keepsSlots h.keepsSlots s).goesOn
  have request {act : List Byte → State → Reply} (h : RequestKeepsSlots act) (code : Byte) :
      GoesOnWithSlots s (.next (serve code act s)) := (serve_keepsSlots h s).goesOn
  cases c with
  | resetN level =>
    cases level with
    | low => exact KeepsSlots.goesOn (.of_same rfl rfl)
    | high => exact KeepsSlots.goesOn ⟨fun _ => staged_of_empty rfl⟩
  | deviceReset => exact execDeviceReset_keepsSlots s
  | refFramePulse n lines => exact execRefFramePulse_keepsSlots n lines s
  | substituteTick lines => exact execSubstituteTick_keepsSlots lines s
  | oscillatorTick lines => exact execOscillatorTick_keepsSlots lines s
  | refDataMessage bytes => exact KeepsSlots.goesOn (.of_same rfl rfl)
  | refDataTimeout => exact KeepsSlots.goesOn (.of_same rfl rfl)
  | lowStopBit => exact KeepsSlots.goesOn (.of_same rfl rfl)
  | requestFrame part => exact (takePart_keepsSlots (fun _ _ s => .of_link _ s) ..).goesOn
  | fetchResponse part => exact execFetchResponse_keepsSlots part s
  | fetchNotice part => exact execFetchNotice_keepsSlots part s
  | discardedFrame type part => exact execDiscardedFrame_keepsSlots type part s
  | spiCsNHigh => exact KeepsSlots.goesOn (.of_same rfl rfl)
  | unknownRequest => exact (dispatch_keepsSlots (fun _ s => hk.refl s) s).goesOn
  | faultedEntry => exact (dispatch_keepsSlots (fun _ s => hk.refl s) s).goesOn
  | tcConvert => exact read carryTcConvert_onlyReads _
  | itemRead => exact read carryItemRead_onlyReads _
  | elementRead => exact read carryElementRead_onlyReads _
  | rundownRead => exact read carryRundownRead_onlyReads _
  | armRead => exact read carryArmRead_onlyReads _
  | profileRead => exact read carryProfileRead_onlyReads _
  | displayRead => exact read carryDisplayRead_onlyReads _
  | inputRead => exact read carryInputRead_onlyReads _
  | refRead => exact read (bodyless_onlyReads fun _ => rfl) _
  | showRead => exact read (bodyless_onlyReads fun _ => rfl) _
  | timingRead => exact read (bodyless_onlyReads fun _ => rfl) _
  | statusRead => exact read (bodyless_onlyReads fun _ => rfl) _
  | ident => exact read (bodyless_onlyReads fun _ => rfl) _
  | portRead => exact request (portRequest_keepsSlots fun _ s => hk.refl s) _
  | itemInsert => exact request carryItemInsert_keepsSlots _
  | itemAmend => exact request carryItemAmend_keepsSlots _
  | itemMove => exact request carryItemMove_keepsSlots _
  | itemRetire => exact request carryItemRetire_keepsSlots _
  | itemReset => exact request carryItemReset_keepsSlots _
  | elementAdd => exact request carryElementAdd_keepsSlots _
  | elementAmend => exact request carryElementAmend_keepsSlots _
  | elementRemove => exact request carryElementRemove_keepsSlots _
  | showClear => exact request (bodyless_keepsSlots carryShowClear_keepsSlots) _
  | takeRequest => exact request (bodyless_keepsSlots carryTake_keepsSlots) _
  | nextSet => exact request carryNextSet_keepsSlots _
  | nextAuto => exact request (bodyless_keepsSlots carryNextAuto_keepsSlots) _
  | holdRequest => exact request (bodyless_keepsSlots carryHold_keepsSlots) _
  | releaseRequest => exact request (bodyless_keepsSlots carryRelease_keepsSlots) _
  | showStop => exact request (bodyless_keepsSlots carryShowStop_keepsSlots) _
  | showPlan => exact request carryShowPlan_keepsSlots _
  | rateSet => exact request carryRateSet_keepsSlots _
  | statusClear => exact request carryStatusClear_keepsSlots _
  | maskSet => exact request carryMaskSet_keepsSlots _
  | profileSet => exact request carryProfileSet_keepsSlots _
  | groupSet => exact request carryGroupSet_keepsSlots _
  | portBind => exact request carryPortBind_keepsSlots _
  | portUnbind => exact request (portRequest_keepsSlots judgeUnbind_keepsSlots) _
  | portHold => exact request (portRequest_keepsSlots judgeHold_keepsSlots) _
  | portRelease => exact request (portRequest_keepsSlots judgeRelease_keepsSlots) _
  | layoutSet => exact request carryLayoutSet_keepsSlots _
  | glyphSet => exact request carryGlyphSet_keepsSlots _
  | iconSet => exact request carryIconSet_keepsSlots _
  | cuePush => exact request carryCuePush_keepsSlots _
  | cueClear => exact request (displayRequest_keepsSlots judgeCueClear_keepsSlots) _
  | displayBlank => exact request (displayRequest_keepsSlots judgeBlank_keepsSlots) _
  | displayUnblank => exact request (displayRequest_keepsSlots judgeUnblank_keepsSlots) _
  | inputSet => exact request carryInputSet_keepsSlots _
  | takingAirFrame => exact (takeNamedPhase_keepsSlots _ s).goesOn
  | junctionTake => exact (takeNamedPhase_keepsSlots _ s).goesOn
  | autoFollow => exact (takeNamedPhase_keepsSlots _ s).goesOn
  | capture => exact (takeNamedPhase_keepsSlots _ s).goesOn
  | walkCompletion => exact (hk.trans (settleTick_keepsSlots s) (completeWalk_keepsSlots _)).goesOn_if _
  | dueScan => exact (keepsSlots_afterSteps (takeScan_sameShow _)).goesOn_if _
  | replyByte p value parityOk stopHigh => exact execReplyByte_keepsSlots p value parityOk stopHigh s
  | replyTimeout p => exact (keepsSlots_afterSteps (takeDeadline_sameShow p _)).goesOn_if _
  | pulseEnd p => exact (keepsSlots_afterSteps (takePulseEnd_sameShow p _)).goesOn_if _
  | cueExpiry d =>
    exact (keepsSlots_afterSteps
      (onlyArmed_composes.trans (expireHead_onlyArmed d _) (render_onlyArmed ..)).toSameShow).goesOn_if _
  | crawl d =>
    exact (keepsSlots_afterSteps
      (onlyArmed_composes.trans (advanceCrawl_onlyArmed d _) (render_onlyArmed ..)).toSameShow).goesOn_if _
  | displayFault d =>
    exact (keepsSlots_afterSteps
      (onlyArmed_composes.trans (busyTest_onlyArmed d _) (render_onlyArmed ..)).toSameShow).goesOn_if _
  | busyFall d => exact execBusyFall_keepsSlots d s
  | unitCompletion d n busy => exact execUnitCompletion_keepsSlots d n busy s
  | displayByte d n busy => exact execDisplayByte_keepsSlots d n busy s
  | activeEdge n => exact (takeActiveEdge_keepsSlots .nothing n s).goesOn
  | panelTake n => exact (takeActiveEdge_keepsSlots .take n s).goesOn
  | panelHold n => exact (takeActiveEdge_keepsSlots .hold n s).goesOn
  | panelAck n => exact (takeActiveEdge_keepsSlots .ack n s).goesOn
  | panelReport n => exact (takeActiveEdge_keepsSlots .report n s).goesOn
  | inactiveEdge n => exact (hk.trans (settleSteps_keepsSlots s) (performEdge_keepsSlots n _)).goesOn_if _

/-- Settles O8: the command at the front of the queue keeps the slots. -/
theorem stepKeepsSlots : Obligations.StepKeepsSlots := by
  intro s t hids hslots h
  have hstaged : Staged s := (staged_iff s).mpr ⟨hids.1, hslots⟩
  suffices Staged t from ((staged_iff t).mp this).2
  unfold step at h
  split at h
  · cases h
    exact hstaged
  · rename_i c rest _
    obtain ⟨u, hu, hkeeps⟩ := exec_keepsSlots c { s with pending := rest }
    cases hu.symm.trans h
    exact hkeeps.staged hstaged

end Sys2Proof.Machine
end

