-- ==== Sys2Proof/Proofs/ShowRequests.lean ====
section
/-! The requests of the Show Sequencer but for TAKE: NEXT_SET and NEXT_AUTO (R70, R71), HOLD and RELEASE (R83),
SHOW_STOP (R84) and SHOW_PLAN (R86). -/

namespace Sys2Proof.Machine

/-- A request that is carried out answers OK and its contents. -/
theorem serve_accept {code : Byte} {body contents : List Byte} {rest : List RequestEntry} {s t : State}
    {act : List Byte → State → Reply} (hw : Waiting code body rest s)
    (hact : act body (takeHead rest s) = accept contents t) :
    serve code act s = pushResponse code (0#8 :: contents) t := by
  rw [serve_waiting hw, hact]
  rfl

/-- A refused request answers its code and changes nothing. -/
theorem serve_refuse {code : Byte} {body : List Byte} {rest : List RequestEntry} {s : State} {r : Result}
    {act : List Byte → State → Reply} (hw : Waiting code body rest s)
    (hact : act body (takeHead rest s) = refuse r (takeHead rest s)) :
    serve code act s = pushResponse code [r.code] (takeHead rest s) := by
  rw [serve_waiting hw, hact]
  rfl

/-! ### SHOW_PLAN (R86) -/

theorem setPlan_eq (b : PlanBody) (s : State) : setPlan b s = { s with
    seq := { s.seq with
      planStart := b.planStart.getD s.seq.planStart
      margin := b.margin.getD s.seq.margin
      takeGuard := b.takeGuard.getD s.seq.takeGuard }
    engine := { s.engine with inFlight := s.engine.inFlight || b.planStart.isSome } } := by
  unfold setPlan
  cases b.planStart with
  | none => simp
  | some n => simp [triggerWalk]

/-- Settles O47. -/
theorem showPlanSetsParameters : Obligations.ShowPlanSetsParameters := by
  intro s rest body select b hw hread
  dsimp only
  intro hrange
  have hact : carryShowPlan body (takeHead rest s) = accept [] (setPlan b (takeHead rest s)) := by
    simp only [carryShowPlan, hread, hrange, if_true]
  rw [setPlan_eq] at hact
  exact congrArg Host.Outcome.next (serve_accept hw hact)

/-! ### HOLD and RELEASE (R83) -/

theorem carryHold_running {s : State} (h : s.seq.mode = .running) : carryHold s = accept [] (holdShow s) := by
  simp only [carryHold, h]

theorem carryHold_holding {s : State} (h : s.seq.mode = .holding) : carryHold s = accept [] s := by
  simp only [carryHold, h]

theorem carryHold_refused {s : State} (h : s.seq.mode = .idle ∨ s.seq.mode = .ended) :
    carryHold s = refuse .state s := by
  obtain h | h := h
  · simp only [carryHold, h]
  · simp only [carryHold, h]

theorem carryRelease_holding {s : State} (h : s.seq.mode = .holding) : carryRelease s = accept [] (releaseShow s) := by
  simp only [carryRelease, h]

theorem carryRelease_running {s : State} (h : s.seq.mode = .running) : carryRelease s = accept [] s := by
  simp only [carryRelease, h]

theorem carryRelease_refused {s : State} (h : s.seq.mode = .idle ∨ s.seq.mode = .ended) :
    carryRelease s = refuse .state s := by
  obtain h | h := h
  · simp only [carryRelease, h]
  · simp only [carryRelease, h]

/-- The answer to a request that moves the show. -/
theorem ShowMoved.answered {m : ShowState} {s t : State} (h : ShowMoved m s t) (hq : Quiet s t)
    (hports : t.ports = s.ports) (code : Byte) (contents : List Byte) :
    Answered code contents s (pushResponse code contents t) ∧ (pushResponse code contents t).seq = { s.seq with mode := m }
      ∧ (pushResponse code contents t).engine = { s.engine with inFlight := true }
      ∧ (pushResponse code contents t).ports = s.ports ∧ rundown (pushResponse code contents t) = rundown s
      ∧ (pushResponse code contents t).revision = s.revision ∧ RequestFrame s (pushResponse code contents t) :=
  ⟨pushResponse_answered hq.responses .., h.seq, h.engine, hports, hq.rundown, hq.revision,
    hq.requestFrame.trans (pushResponse_requestFrame ..)⟩

/-- Settles O45, by the show state the request finds. -/
theorem holdAndRelease : Obligations.HoldAndRelease := by
  intro s rest
  dsimp only
  have hholds := (holdShow_moved (takeHead rest s)).answered (holdShow_quiet _) (holdShow_ports _) 0x23#8 [0#8]
  have hreleases :=
    (releaseShow_moved (takeHead rest s)).answered (releaseShow_quiet _) (releaseShow_ports _) 0x24#8 [0#8]
  refine ⟨fun hw => ⟨fun hm => ⟨_, ?_, hholds⟩, fun hm => ?_, fun hm => ?_⟩,
    fun hw => ⟨fun hm => ⟨_, ?_, hreleases⟩, fun hm => ?_, fun hm => ?_⟩⟩
  · exact congrArg Host.Outcome.next (serve_accept (act := bodyless carryHold) hw (carryHold_running hm))
  · exact congrArg Host.Outcome.next (serve_accept (act := bodyless carryHold) hw (carryHold_holding hm))
  · exact congrArg Host.Outcome.next (serve_refuse (act := bodyless carryHold) hw (carryHold_refused hm))
  · exact congrArg Host.Outcome.next (serve_accept (act := bodyless carryRelease) hw (carryRelease_holding hm))
  · exact congrArg Host.Outcome.next (serve_accept (act := bodyless carryRelease) hw (carryRelease_running hm))
  · exact congrArg Host.Outcome.next (serve_refuse (act := bodyless carryRelease) hw (carryRelease_refused hm))

/-! ### SHOW_STOP (R84) -/

/-- Between two items of one id the core tells all but the elements and the context. -/
theorem findItem_of_coreOf {s : State} {id : StoryId} {c : Item} (h : coreOf s id = some c) :
    ∃ i, findItem s id = some i ∧ i.state = c.state ∧ i.captured = c.captured ∧ i.nominated = c.nominated
      ∧ i.airFrame = c.airFrame ∧ i.endFrame = c.endFrame := by
  obtain ⟨i, hi, rfl⟩ := coreOf_eq_some.mp h
  exact ⟨i, hi, rfl, rfl, rfl, rfl, rfl⟩

theorem coreOf_of_mem {s : State} (hids : (s.items.map Item.id).Nodup) {i : Item} (hi : i ∈ s.items) :
    coreOf s i.id = some i.core := coreOf_eq_some.mpr ⟨i, findItem_of_mem hids hi, rfl⟩

/-- An item that neither waits nor stands by is none that a standby choice moves. -/
theorem Restood.eq_of_not_waits {c d : Item} (h : Restood c d) (hc : ¬ c.waits) : d = c :=
  h.resolve_right fun hw => hc hw.1

/-- The item on air when a SHOW_STOP comes is DONE with EF = CFN. -/
theorem stopShow_onair {m : ShowState} {s : State} (h : SlotsFit m s.items) {i : Item} (hi : i ∈ s.items)
    (hs : i.state = .onair) : coreOf (stopShow s) i.id = some (i.core.ended s.cfn) := by
  obtain ⟨u, hu, hcores⟩ := (stopShow_stopped s).chosen
  have hcore : i.core.state = .onair := hs
  have hended := coreOf_slotChanged h (st := .onair) (p := .air) rfl (f := Item.ended s.cfn) (fun _ => rfl)
    (fun _ => rfl) (coreOf_of_mem h.ids hi)
  rw [if_pos hcore] at hended
  have hfit1 : SlotsFit m (slotChanged .onair (Item.ended s.cfn) s).items :=
    slotChanged_fit h _ (fun _ => rfl) (fun _ => rfl)
  have htaking := coreOf_slotChanged hfit1 (st := .taking) (p := .next) rfl (f := Item.untaken) (fun _ => rfl)
    (fun _ => rfl) hended
  have hfit2 : SlotsFit m (slotChanged .taking Item.untaken (slotChanged .onair (Item.ended s.cfn) s)).items :=
    slotChanged_fit hfit1 _ (fun _ => rfl) (fun _ => rfl)
  have hstopped : coreOf (showStopped s) i.id = some (i.core.ended s.cfn) :=
    coreOf_slotChanged hfit2 (st := .standby) (p := .next) rfl (f := Item.uncaptured) (fun _ => rfl) (fun _ => rfl)
      htaking
  obtain ⟨d, hd, hrestood⟩ := coreOf_chooseStandby (m := .idle) (s := triggerWalk u)
    ((showStopped_fit h).of_cores hu.cores) ((hu.coreOf i.id).trans hstopped)
  rw [coreOf_of_cores hcores, hd, hrestood.eq_of_not_waits (by simp [Item.waits, Item.ended])]

/-- A state that any SHOW_STOP outside IDLE goes on to. -/
structure ShowIdled (s t : State) : Prop where
  quiet : Quiet s t
  seq : t.seq = { s.seq with mode := .idle }
  engine : t.engine = { s.engine with inFlight := true }
  fit : SlotsFit .idle t.items
  ended : ∀ i ∈ s.items, i.state = .onair → coreOf t i.id = some (i.core.ended s.cfn)

theorem carryShowStop_idled {s : State} (h : Staged s) (hm : s.seq.mode ≠ .idle) :
    ∃ t, carryShowStop s = accept [] t ∧ ShowIdled s t := by
  have hstop : ShowIdled s (stopShow s) :=
    ⟨stopShow_quiet s, (stopShow_stopped s).seq, (stopShow_stopped s).engine, stopShow_fit h,
      fun i hi hs => stopShow_onair h hi hs⟩
  unfold carryShowStop
  split
  · exact absurd ‹_› hm
  · rename_i hmode
    have hmoved := moveShow_moved .idle (sameShow_composes.refl s)
    have hnone : ∀ x ∈ s.items, ¬ x.live := fun x hx hl => by simpa [hmode, ShowState.live] using h.live x hx hl
    exact ⟨_, rfl, (triggerWalk_quiet s).trans ((setShow_quiet ..).trans (closeShowEvent_quiet _)), hmoved.seq,
      hmoved.engine, (SlotsFit.mode_any h hnone).of_cores hmoved.cores, fun i hi hs => absurd (.inl hs) (hnone i hi)⟩
  · exact ⟨_, rfl, hstop⟩
  · exact ⟨_, rfl, hstop⟩

/-- Settles O46. -/
theorem showStopIdlesShow : Obligations.ShowStopIdlesShow := by
  intro s rest hw
  dsimp only
  refine ⟨fun hids hslots hm => ?_, fun hm => ?_⟩
  · obtain ⟨t, hcarry, hidled⟩ := carryShowStop_idled ((staged_iff _).mpr ⟨hids.1, hslots⟩) hm
    obtain ⟨-, -, -, -, hidle, hcaptured⟩ : SlotsOk t := by
      refine (slotsFit_iff hidled.fit.ids).mp ?_
      rw [hidled.seq]
      exact hidled.fit
    have hmode : t.seq.mode = .idle := by rw [hidled.seq]
    obtain ⟨honair, htaking⟩ := hidle (.inl hmode)
    refine ⟨_, congrArg Host.Outcome.next (serve_accept (act := bodyless carryShowStop) hw hcarry),
      pushResponse_answered hidled.quiet.responses .., hidled.seq, honair, htaking, ?_, fun i hi hs => ?_,
      hidled.engine, hidled.quiet.rundown, hidled.quiet.revision,
      hidled.quiet.requestFrame.trans (pushResponse_requestFrame ..)⟩
    · exact Bool.eq_false_iff.mpr fun hc => by simpa [hmode] using hcaptured hc
    · obtain ⟨j, hj, hstate, -, -, hair, hend⟩ := findItem_of_coreOf (hidled.ended i hi hs)
      exact ⟨j, hj, hstate, hend, hair⟩
  · have hact : carryShowStop (takeHead rest s) = refuse .state (takeHead rest s) := by simp only [carryShowStop, hm]
    exact congrArg Host.Outcome.next (serve_refuse (act := bodyless carryShowStop) hw hact)

/-! ### NEXT_SET and NEXT_AUTO (R70, R71) -/

theorem announceStandby_cores (before : Option StoryId) (s : State) :
    (announceStandby before s).items.map Item.core = s.items.map Item.core := by
  unfold announceStandby
  split
  · rfl
  · exact (closeShowEvent_onlyArmed (triggerWalk (raiseStandby s))).cores

theorem announceStandby_seq (before : Option StoryId) (s : State) : (announceStandby before s).seq = s.seq := by
  unfold announceStandby
  split
  · rfl
  · exact (closeShowEvent_onlyArmed (triggerWalk (raiseStandby s))).seq

/-- A nomination that can stand by is the choice (R68). -/
theorem chosenStandby_nominated {s : State} {id : StoryId} {i : Item} (hn : s.seq.nomination = some id)
    (hi : findItem s id = some i) (hw : i.waits) : chosenStandby s = some id := by
  have hlive : liveNomination s = some id :=
    Option.filter_eq_some_iff.mpr ⟨hn, by simpa [hi, Item.waits] using hw⟩
  rw [chosenStandby, hlive, Option.some_or]

/-- The chosen item is the STANDBY after a choice that is made. -/
theorem standbyId_chooseStandby {m : ShowState} {s : State} (h : SlotsFit m s.items) (ht : takingItem s = none)
    (hc : standbyCaptured s = false) {id : StoryId} {i : Item} (hchosen : chosenStandby s = some id)
    (hi : findItem s id = some i) : standbyId (chooseStandby s) = some id := by
  obtain ⟨d, hd, -⟩ := coreOf_makeRoom h (some id) (coreOf_eq_some.mpr ⟨i, hi, rfl⟩)
  have hseated : coreOf (chooseStandby s) id = some { d with
      state := .standby, nominated := (liveNomination s).isSome, captured := false } := by
    rw [coreOf_of_cores (chooseStandby_cores ht hc), standbySeated, hchosen]
    exact (coreOf_modifyItem (by intro; rfl) (by intro; rfl) id hd).trans
      (congrArg some (if_pos (coreOf_id hd)))
  obtain ⟨j, hj, hstate, -⟩ := findItem_of_coreOf hseated
  rw [standbyId, (chooseStandby_fit h).standbyItem_eq (findItem_mem hj) hstate, Option.map_some, findItem_id hj]

/-- NEXT_SET of an item that can stand by, with no captured junction in the slot. -/
theorem carryNextSet_accepted {id : StoryId} {i : Item} {s : State} (hid : id < 256 ^ 4) (hne : id ≠ 0)
    (hi : findItem s id = some i) (hw : i.waits) (hcap : standbyCaptured s = false) :
    carryNextSet (beBytes 4 id) s
      = if s.seq.nomination = some id then accept (idBytes (standbyId s)) s
        else accept (idBytes (standbyId (nominate id s))) (nominate id s) := by
  have hjudged : ¬ ((i.state ≠ .pending ∧ i.state ≠ .standby) ∨ standbyCaptured s = true) := by
    rintro (⟨hp, hs⟩ | hc)
    · exact hw.elim hp hs
    · exact absurd hc (by simp [hcap])
  simp only [carryNextSet, takeNumbers_beBytes_last 4 id hid, hne, hi, hjudged, if_false]
  split
  · rfl
  · rfl

/-- Settles O44. -/
theorem nominationRequests : Obligations.NominationRequests := by
  intro s rest
  dsimp only
  intro hids hslots
  have hfit : Staged (takeHead rest s) := (staged_iff _).mpr ⟨hids.1, hslots⟩
  have hbeside : takingItem (takeHead rest s) ≠ none → standbyId (takeHead rest s) = none := by
    intro ht
    obtain ⟨k, hk⟩ := Option.ne_none_iff_exists'.mp ht
    rw [standbyId, hfit.standby_none_of_taking hk]
    rfl
  refine ⟨fun id i hid hw hne hi hstate hcap hnom => ?_, fun id i hid hw hne hi hstate hcap hnom => ⟨?_, hbeside⟩,
    fun id hw hnom => ?_, fun hw hnom => ?_⟩
  · have hact : carryNextSet (beBytes 4 id) (takeHead rest s)
        = accept (idBytes (standbyId (nominate id (takeHead rest s)))) (nominate id (takeHead rest s)) := by
      rw [carryNextSet_accepted hid hne hi hstate hcap, if_neg hnom]
    have hquiet := nominate_quiet id (takeHead rest s)
    have hstandby : standbyId (nominate id (takeHead rest s)) = _ :=
      slotId_of_cores (announceStandby_cores (standbyId (takeHead rest s)) _) .standby
    refine ⟨_, congrArg Host.Outcome.next (serve_accept hw hact), pushResponse_answered hquiet.responses ..,
      (announceStandby_seq ..).trans (chooseStandby_showStands _).seq, fun ht => hstandby.trans ?_,
      fun ht => hstandby.trans ?_, hquiet.rundown, hquiet.revision,
      hquiet.requestFrame.trans (pushResponse_requestFrame ..)⟩
    · exact standbyId_chooseStandby (s := { takeHead rest s with
        seq := { (takeHead rest s).seq with nomination := some id } }) hfit ht hcap
        (chosenStandby_nominated rfl hi hstate) hi
    · have hkept := chooseStandby_kept (s := { takeHead rest s with
        seq := { (takeHead rest s).seq with nomination := some id } }) (.inl (Option.isSome_iff_ne_none.mpr ht))
      exact (congrArg standbyId hkept).trans (hbeside ht)
  · have hact : carryNextSet (beBytes 4 id) (takeHead rest s)
        = accept (idBytes (standbyId (takeHead rest s))) (takeHead rest s) := by
      rw [carryNextSet_accepted hid hne hi hstate hcap, if_pos hnom]
    exact congrArg Host.Outcome.next (serve_accept hw hact)
  · have hact : bodyless carryNextAuto [] (takeHead rest s)
        = accept (idBytes (standbyId (unnominate id (takeHead rest s)))) (unnominate id (takeHead rest s)) := by
      simp only [bodyless, carryNextAuto, hnom, Option.elim_some]
    have hquiet := unnominate_quiet id (takeHead rest s)
    exact ⟨_, congrArg Host.Outcome.next (serve_accept hw hact), pushResponse_answered hquiet.responses ..,
      (announceStandby_seq ..).trans (chooseStandby_showStands _).seq, hquiet.rundown, hquiet.revision,
      hquiet.requestFrame.trans (pushResponse_requestFrame ..)⟩
  · have hact : bodyless carryNextAuto [] (takeHead rest s)
        = accept (idBytes (standbyId (takeHead rest s))) (takeHead rest s) := by
      simp only [bodyless, carryNextAuto, hnom, Option.elim_none]
    exact congrArg Host.Outcome.next (serve_accept hw hact)

end Sys2Proof.Machine
end

