-- ==== Sys2Proof/Proofs/RequestBodies.lean ====
section
/-! The bodies of the structured requests are read back field by field: a number, a text, a marked or selected field
and a list each take their own bytes from the front of a body (R213, R216). -/

namespace Sys2Proof.Machine

/-! ### Select bytes -/

theorem bitsValue_cons (b : Bool) (bs : List Bool) : bitsValue (b :: bs) = Nat.bit b (bitsValue bs) := by
  rw [Nat.bit_val, bitsValue, List.foldr_cons, Nat.add_comm]
  rfl

/-- Bit `k` of a select byte is the mark of field `k`. -/
theorem bitsValue_testBit (bs : List Bool) (k : Nat) : (bitsValue bs).testBit k = bs.getD k false := by
  induction bs generalizing k with
  | nil => simp [bitsValue]
  | cons b bs ih =>
    rw [bitsValue_cons]
    cases k with
    | zero => simp
    | succ k => simp [Nat.testBit_bit_succ, ih]

theorem bitsValue_lt (bs : List Bool) : bitsValue bs < 2 ^ bs.length := by
  induction bs with
  | nil => simp [bitsValue]
  | cons b bs ih =>
    rw [bitsValue_cons, List.length_cons, Nat.pow_succ, Nat.bit_val]
    have := b.toNat_le
    omega

/-! ### Fields at the front of a body -/

theorem takeText_front {t : Text} (h : t.length < 256) (more : List Byte) :
    takeText (beBytes 1 t.length ++ (t ++ more)) = some (t, more) := by
  rw [← List.append_assoc]
  exact takeText_spelt t more h

theorem takeText_textBytes {t : Text} (h : t.length < 256) (more : List Byte) :
    takeText (textBytes t ++ more) = some (t, more) := takeText_spelt t more h

/-- A field that a select bit adds is read if it is there, and leaves the body if it is not. -/
theorem takeIf_selected {α : Type} {p : List Byte → Option (α × List Byte)} {f : α → List Byte} {x : Option α}
    {selected : Bool} (hsel : selected = x.isSome) (hread : ∀ a, x = some a → ∀ more, p (f a ++ more) = some (a, more))
    (more : List Byte) : takeIf selected p (ifSelected f x ++ more) = some (x, more) := by
  subst hsel
  cases x with
  | none => rfl
  | some a => simp [takeIf, ifSelected, hread a rfl]

theorem takeIf_number {k : Nat} {x : Option Nat} {selected : Bool} (hsel : selected = x.isSome) (h : fitsIn k x)
    (more : List Byte) : takeIf selected (takeNumber k) (ifSelected (beBytes k) x ++ more) = some (x, more) := by
  refine takeIf_selected hsel (fun n hn more => takeNumber_beBytes k n more ?_) more
  subst hn
  exact of_decide_eq_true h

theorem takeIf_text {x : Option Text} {selected : Bool} (hsel : selected = x.isSome) (h : textFits x)
    (more : List Byte) : takeIf selected takeText (ifSelected textBytes x ++ more) = some (x, more) := by
  refine takeIf_selected hsel (fun t ht more => takeText_textBytes ?_ more) more
  subst ht
  exact of_decide_eq_true h

theorem takePayload_front {p : Payload} (h : p.fits) (more : List Byte) :
    takePayload (payloadBytes p ++ more) = some (p, more) := by
  cases p with
  | number n =>
    rw [payloadBytes, takePayload, List.append_assoc, takeNumber_beBytes 1 0 _ (by decide)]
    simp only [Option.bind_some, if_true, takeNumber_beBytes 2 n more h, Option.map_some]
  | text t =>
    rw [payloadBytes, takePayload, List.append_assoc, takeNumber_beBytes 1 1 _ (by decide)]
    simp only [Option.bind_some, one_ne_zero, if_false, if_true, takeText_textBytes h, Option.map_some]

theorem takeIf_payload {x : Option Payload} {selected : Bool} (hsel : selected = x.isSome)
    (h : ∀ p, x = some p → p.fits) (more : List Byte) :
    takeIf selected takePayload (ifSelected payloadBytes x ++ more) = some (x, more) :=
  takeIf_selected hsel (fun p hp => takePayload_front (h p hp)) more

/-! ### The rundown's edits (section 11.4) -/

theorem readInsert_insertBytes {b : InsertBody} (h : b.fits) : readInsert (insertBytes b) = some b := by
  obtain ⟨hid, hplace, hpresenters, hduration, hflags, hmark, htarget, hslug, hnote⟩ := h
  rw [← List.append_nil (insertBytes b)]
  simp only [readInsert, insertBytes, List.append_assoc, takeNumber_beBytes 4 b.id _ hid,
    takeNumber_beBytes 4 b.place _ hplace, takeNumber_beBytes 1 b.presenters _ hpresenters,
    takeNumber_beBytes 3 b.duration _ hduration, takeNumber_beBytes 1 b.flags _ hflags,
    takeNumber_beBytes 1 b.mark _ hmark, takeNumber_beBytes 3 b.target _ htarget, takeText_front hslug,
    takeText_front hnote, Option.bind_some]
  rfl

theorem readAmend_amendBytes {b : AmendBody} (h : b.fits) : readAmend (amendBytes b) = some (b.select, b) := by
  obtain ⟨hid, hslug, hnote, hpresenters, hduration, hfloat, hauto, hjunction, htarget⟩ := h
  have hselect : b.select < 256 ^ 1 := (bitsValue_lt _).trans_le (show 2 ^ 8 ≤ 256 by decide)
  have hbit (k : Nat) : b.select.testBit k = [b.slug.isSome, b.note.isSome, b.presenters.isSome, b.duration.isSome,
    b.float.isSome, b.auto.isSome, b.junction.isSome, b.target.isSome].getD k false := bitsValue_testBit _ k
  rw [← List.append_nil (amendBytes b)]
  simp only [readAmend, amendBytes, List.append_assoc, takeNumber_beBytes 4 b.id _ hid,
    takeNumber_beBytes 1 b.select _ hselect, takeIf_text (hbit 0) hslug, takeIf_text (hbit 1) hnote,
    takeIf_number (hbit 2) hpresenters, takeIf_number (hbit 3) hduration, takeIf_number (hbit 4) hfloat,
    takeIf_number (hbit 5) hauto, takeIf_number (hbit 6) hjunction, takeIf_number (hbit 7) htarget, Option.bind_some]
  rfl

/-- The head of an ELEMENT_ADD is read, and the fields after it by the kind. -/
theorem readAdd_head {h : AddHead} {kind : Nat} (hid : h.id < 256 ^ 4) (htag : h.tag < 256) (hbefore : h.before < 256)
    (hkind : kind < 256) (fields : List Byte) :
    readAdd (beBytes 4 h.id ++ (beBytes 1 h.tag ++ (beBytes 1 h.before ++ (beBytes 1 kind ++ fields))))
      = (readAddFields kind fields).map fun f => (h, f) := by
  simp only [readAdd, takeNumber_beBytes 4 h.id _ hid, takeNumber_beBytes 1 h.tag _ htag,
    takeNumber_beBytes 1 h.before _ hbefore, takeNumber_beBytes 1 kind _ hkind, Option.bind_some]

theorem readAddFields_serial (v : Verb) {p a o n : Nat} (hp : p < 256) (ha : a < 256) (ho : o < 65536)
    (hn : n < 65536) : readAddFields v.code (beBytes 1 p ++ (beBytes 1 a ++ (beBytes 2 o ++ beBytes 2 n)))
      = some ⟨some v.code, some p, none, some a, some o, some (.number n), none⟩ := by
  have hkind : Kind.ofCode v.code = some (.serial v) := by cases v <;> rfl
  simp only [readAddFields, hkind, takeNumbers_beBytes 1 p _ _ hp, takeNumbers_beBytes 1 a _ _ ha,
    takeNumbers_beBytes 2 o _ _ ho, takeNumbers_beBytes_last 2 n hn, Option.map_some, Option.bind_some]

theorem readAddFields_pulse {p a o : Nat} (hp : p < 256) (ha : a < 256) (ho : o < 65536) :
    readAddFields 4 (beBytes 1 p ++ (beBytes 1 a ++ beBytes 2 o))
      = some ⟨some 4, some p, none, some a, some o, none, none⟩ := by
  simp only [readAddFields, Kind.ofCode, takeNumbers_beBytes 1 p _ _ hp, takeNumbers_beBytes 1 a _ _ ha,
    takeNumbers_beBytes_last 2 o ho, Option.map_some, Option.bind_some]

theorem readAddFields_cueText {d a o k : Nat} {t : Text} (hd : d < 256) (ha : a < 256) (ho : o < 65536)
    (hk : k < 65536) (ht : t.length < 256) :
    readAddFields 5 (beBytes 1 d ++ (beBytes 1 a ++ (beBytes 2 o ++ (beBytes 2 k ++ (beBytes 1 t.length ++ (t ++ []))))))
      = some ⟨some 5, none, some d, some a, some o, some (.text t), some k⟩ := by
  simp only [readAddFields, Kind.ofCode, takeNumber_beBytes 1 d _ hd, takeNumber_beBytes 1 a _ ha,
    takeNumber_beBytes 2 o _ ho, takeNumber_beBytes 2 k _ hk, takeText_front ht, Option.bind_some]
  rfl

theorem readElementAmend_bytes {id tag : Nat} {f : ElementFields} (hid : id < 256 ^ 4) (htag : tag < 256)
    (h : f.fits) : readElementAmend (elementAmendBytes id tag f) = some (⟨id, tag, f.select⟩, f) := by
  obtain ⟨hkind, hport, hdisplays, hanchor, hoffset, hpayload, hhold⟩ := h
  have hselect : f.select < 256 ^ 1 := (bitsValue_lt _).trans (show 2 ^ 7 < 256 by decide)
  have hbit (k : Nat) : f.select.testBit k = [f.kind.isSome, f.port.isSome, f.displays.isSome, f.anchor.isSome,
    f.offset.isSome, f.payload.isSome, f.hold.isSome].getD k false := bitsValue_testBit _ k
  rw [← List.append_nil (elementAmendBytes id tag f)]
  simp only [readElementAmend, elementAmendBytes, List.append_assoc, takeNumber_beBytes 4 id _ hid,
    takeNumber_beBytes 1 tag _ htag, takeNumber_beBytes 1 f.select _ hselect, takeIf_number (hbit 0) hkind,
    takeIf_number (hbit 1) hport, takeIf_number (hbit 2) hdisplays, takeIf_number (hbit 3) hanchor,
    takeIf_number (hbit 4) hoffset, takeIf_payload (hbit 5) hpayload, takeIf_number (hbit 6) hhold, Option.bind_some]
  rfl

/-! ### SHOW_PLAN, LAYOUT_SET and CUE_PUSH -/

theorem readPlan_planBytes {b : PlanBody} (h : b.fits) : readPlan (planBytes b) = some (b.select, b) := by
  obtain ⟨hstart, hmargin, hguard⟩ := h
  have hselect : b.select < 256 ^ 1 := (bitsValue_lt _).trans (show 2 ^ 3 < 256 by decide)
  have hbit (k : Nat) : b.select.testBit k = [b.planStart.isSome, b.margin.isSome, b.takeGuard.isSome].getD k false :=
    bitsValue_testBit _ k
  rw [← List.append_nil (planBytes b)]
  simp only [readPlan, planBytes, List.append_assoc, takeNumber_beBytes 1 b.select _ hselect,
    takeIf_number (hbit 0) hstart, takeIf_number (hbit 1) hmargin, takeIf_number (hbit 2) hguard, Option.bind_some]
  rfl

/-- A field of a layout takes its own bytes: TEXT alone has a text. -/
theorem takeField_front {f : FieldBody} (h : f.fits) (more : List Byte) :
    takeField (layoutFieldBytes f ++ more) = some (f, more) := by
  obtain ⟨hkind, hcolumn, hwidth, htext, hempty⟩ := h
  simp only [takeField, layoutFieldBytes, List.append_assoc, takeNumber_beBytes 1 f.kind _ hkind,
    takeNumber_beBytes 1 f.column _ hcolumn, takeNumber_beBytes 1 f.width _ hwidth, Option.bind_some]
  by_cases hk : f.kind = 0
  · simp only [if_pos hk, takeText_textBytes htext, Option.map_some]
  · obtain ⟨kind, column, width, text⟩ := f
    obtain rfl : text = [] := hempty hk
    rw [if_neg hk, if_neg hk]
    rfl

theorem takeFields_front {fs : List FieldBody} (h : ∀ f ∈ fs, f.fits) (more : List Byte) :
    takeFields fs.length (fs.flatMap layoutFieldBytes ++ more) = some (fs, more) := by
  induction fs with
  | nil => rfl
  | cons f fs ih =>
    obtain ⟨hf, hfs⟩ := List.forall_mem_cons.mp h
    simp only [List.length_cons, takeFields, List.flatMap_cons, List.append_assoc, takeField_front hf, ih hfs,
      Option.bind_some, Option.map_some]

theorem takeRow_front {fs : List FieldBody} (hlength : fs.length < 256) (h : ∀ f ∈ fs, f.fits) (more : List Byte) :
    takeRow (beBytes 1 fs.length ++ (fs.flatMap layoutFieldBytes ++ more)) = some (fs, more) := by
  simp only [takeRow, takeNumber_beBytes 1 fs.length _ hlength, takeFields_front h, Option.bind_some]

theorem readLayout_layoutBytes {b : LayoutBody} (h : b.fits) : readLayout (layoutBytes b) = some b := by
  obtain ⟨hdisplay, hinterval, hlength0, hlength1, hrow0, hrow1⟩ := h
  rw [← List.append_nil (layoutBytes b)]
  simp only [readLayout, layoutBytes, List.append_assoc, takeNumber_beBytes 1 b.display _ hdisplay,
    takeNumber_beBytes 1 b.interval _ hinterval, takeRow_front hlength0 hrow0, takeRow_front hlength1 hrow1,
    Option.bind_some]
  rfl

theorem readPush_pushBytes {b : PushBody} (hdisplays : b.displays < 256) (htext : b.text.length < 256)
    (htag : b.tag < 256) (hhold : b.hold < 65536) : readPush (pushBytes b) = some b := by
  rw [← List.append_nil (pushBytes b)]
  simp only [readPush, pushBytes, List.append_assoc, takeNumber_beBytes 1 b.displays _ hdisplays, takeText_front htext,
    takeNumber_beBytes 1 b.tag _ htag, takeNumber_beBytes 2 b.hold _ hhold, Option.bind_some]
  rfl

/-- Settles O34. -/
theorem requestBodiesReadBack : Obligations.RequestBodiesReadBack := by
  refine ⟨fun b h => readInsert_insertBytes h, fun b h => readAmend_amendBytes h,
    fun h v p a o n hid htag hbefore hp ha ho hn => ?_, fun h p a o hid htag hbefore hp ha ho => ?_,
    fun h d a o k t hid htag hbefore hd ha ho hk ht => ?_, fun id tag f hid htag h => readElementAmend_bytes hid htag h,
    fun b h => readPlan_planBytes h, fun b h => readLayout_layoutBytes h,
    fun b hdisplays htext htag hhold => readPush_pushBytes hdisplays htext htag hhold⟩
  · have hkind : v.code < 256 := by cases v <;> decide
    simp only [addSerialBytes, List.append_assoc]
    rw [readAdd_head hid htag hbefore hkind, readAddFields_serial v hp ha ho hn, Option.map_some]
  · simp only [addPulseBytes, List.append_assoc]
    rw [readAdd_head hid htag hbefore (by decide), readAddFields_pulse hp ha ho, Option.map_some]
  · rw [← List.append_nil (addCueBytes h d a o k t)]
    simp only [addCueBytes, List.append_assoc]
    rw [readAdd_head hid htag hbefore (by decide), readAddFields_cueText hd ha ho hk ht, Option.map_some]

end Sys2Proof.Machine
end

