-- ==== Sys2Proof/Proofs/SkippedItems.lean ====
section
/-! The items that a junction take drops, by their place in the rundown order (R82). -/

namespace Sys2Proof.Machine

/-- The place in a list of items of the one with an id. -/
def placeOf (l : List Item) (id : StoryId) : Nat := l.findIdx (fun i => i.id == id)

theorem positionOf_eq_placeOf (s : State) (id : StoryId) : positionOf s id = placeOf s.items id := rfl

theorem placeOf_of_ids {l k : List Item} (h : k.map Item.id = l.map Item.id) (id : StoryId) :
    placeOf k id = placeOf l id := by
  have hlook : ∀ l : List Item, placeOf l id = (l.map Item.id).findIdx (fun x => x == id) := fun l => by
    rw [List.findIdx_map]
    rfl
  rw [hlook, hlook, h]

section Places

variable {p q : List Item} {y : Item} (hids : ((p ++ y :: q).map Item.id).Nodup)
include hids

/-- An item's place is the number of those before it. -/
theorem placeOf_split : placeOf (p ++ y :: q) y.id = p.length := by
  induction p with
  | nil => simp [placeOf, List.findIdx_cons]
  | cons x p ih =>
    obtain ⟨hx, hp⟩ := List.nodup_cons.mp hids
    have hne : (x.id == y.id) = false := by
      simpa using fun h : x.id = y.id => hx (h ▸ List.mem_map_of_mem (by simp))
    have hrest : (p ++ y :: q).findIdx (fun i => i.id == y.id) = p.length := ih hp
    rw [placeOf, List.cons_append, List.findIdx_cons, hne, hrest]
    rfl

theorem placeOf_lt_of_mem {x : Item} (hx : x ∈ p) : placeOf (p ++ y :: q) x.id < p.length := by
  obtain ⟨a, b, rfl⟩ := List.append_of_mem hx
  have hsplit : a ++ x :: b ++ y :: q = a ++ x :: (b ++ y :: q) := by simp
  rw [hsplit] at hids ⊢
  rw [placeOf_split hids]
  simp

theorem lt_placeOf_of_mem {x : Item} (hx : x ∈ q) : p.length < placeOf (p ++ y :: q) x.id := by
  obtain ⟨a, b, rfl⟩ := List.append_of_mem hx
  have hsplit : p ++ y :: (a ++ x :: b) = (p ++ y :: a) ++ x :: b := by simp
  rw [hsplit] at hids ⊢
  rw [placeOf_split hids]
  simp

/-- Before an item stand those with a smaller place. -/
theorem placeOf_lt_iff {x : Item} (hx : x ∈ p ++ y :: q) :
    placeOf (p ++ y :: q) x.id < placeOf (p ++ y :: q) y.id ↔ x ∈ p := by
  rw [placeOf_split hids]
  refine ⟨fun hlt => ?_, placeOf_lt_of_mem hids⟩
  obtain hp | hq := List.mem_append.mp hx
  · exact hp
  · obtain rfl | hq := List.mem_cons.mp hq
    · rw [placeOf_split hids] at hlt
      omega
    · have := lt_placeOf_of_mem hids hq
      omega

/-- Behind an item stand those with a greater place. -/
theorem lt_placeOf_iff {x : Item} (hx : x ∈ p ++ y :: q) :
    placeOf (p ++ y :: q) y.id < placeOf (p ++ y :: q) x.id ↔ x ∈ q := by
  rw [placeOf_split hids]
  refine ⟨fun hlt => ?_, lt_placeOf_of_mem hids⟩
  obtain hp | hq := List.mem_append.mp hx
  · have := placeOf_lt_of_mem hids hp
    omega
  · obtain rfl | hq := List.mem_cons.mp hq
    · rw [placeOf_split hids] at hlt
      omega
    · exact hq

theorem itemsAfter_split : itemsAfter y.id (p ++ y :: q) = q := by
  induction p with
  | nil => simp [itemsAfter]
  | cons x p ih =>
    obtain ⟨hx, hp⟩ := List.nodup_cons.mp hids
    have hne : x.id ≠ y.id := fun h => hx (h ▸ List.mem_map_of_mem (by simp))
    rw [List.cons_append, itemsAfter, if_neg (by simpa using hne)]
    exact ih hp

theorem takeWhile_split : (p ++ y :: q).takeWhile (fun i => i.id != y.id) = p := by
  induction p with
  | nil => simp
  | cons x p ih =>
    obtain ⟨hx, hp⟩ := List.nodup_cons.mp hids
    have hne : x.id ≠ y.id := fun h => hx (h ▸ List.mem_map_of_mem (by simp))
    rw [List.cons_append, List.takeWhile_cons_of_pos (by simpa using hne), ih hp]

end Places

theorem mem_of_mem_ids {l k : List Item} (hids : (l.map Item.id).Nodup) (hk : ∀ z ∈ k, z ∈ l) {x : Item} (hx : x ∈ l)
    (hid : x.id ∈ k.map Item.id) : x ∈ k := by
  obtain ⟨z, hz, hzx⟩ := List.mem_map.mp hid
  rwa [← List.inj_on_of_nodup_map hids (hk z hz) hx hzx]

/-- Between two items of an order stand those behind the one and before the other. -/
theorem between_split {a c d : List Item} {o i x : Item} (hids : ((a ++ o :: (c ++ i :: d)).map Item.id).Nodup)
    (hx : x ∈ a ++ o :: (c ++ i :: d)) :
    placeOf (a ++ o :: (c ++ i :: d)) o.id < placeOf (a ++ o :: (c ++ i :: d)) x.id
      ∧ placeOf (a ++ o :: (c ++ i :: d)) x.id < placeOf (a ++ o :: (c ++ i :: d)) i.id ↔ x ∈ c := by
  have hsplit : a ++ o :: (c ++ i :: d) = (a ++ o :: c) ++ i :: d := by simp
  have hbefore : placeOf (a ++ o :: (c ++ i :: d)) x.id < placeOf (a ++ o :: (c ++ i :: d)) i.id
      ↔ x ∈ a ++ o :: c := by
    rw [hsplit] at hids hx ⊢
    exact placeOf_lt_iff hids hx
  rw [hbefore]
  constructor
  · rintro ⟨hbehind, hmem⟩
    rw [placeOf_split hids] at hbehind
    obtain ha | hmem := List.mem_append.mp hmem
    · have := placeOf_lt_of_mem hids ha
      omega
    · obtain rfl | hc := List.mem_cons.mp hmem
      · rw [placeOf_split hids] at hbehind
        omega
      · exact hc
  · intro hc
    exact ⟨(lt_placeOf_iff hids hx).mpr (List.mem_append_left _ hc),
      List.mem_append_right _ (List.mem_cons_of_mem _ hc)⟩

/-- The skipped items are those between the two that are PENDING and not FLOAT. -/
theorem mem_skippedItems {l : List Item} (hids : (l.map Item.id).Nodup) {o i x : Item} (ho : o ∈ l) (hi : i ∈ l)
    (hx : x ∈ l) : x.id ∈ skippedItems o.id i.id l
      ↔ waitsForAir x = true ∧ placeOf l o.id < placeOf l x.id ∧ placeOf l x.id < placeOf l i.id := by
  obtain ⟨a, b, rfl⟩ := List.append_of_mem ho
  unfold skippedItems
  rw [itemsAfter_split hids]
  dsimp only
  by_cases hib : i ∈ b
  · obtain ⟨c, d, rfl⟩ := List.append_of_mem hib
    have hbelow : ((c ++ i :: d).map Item.id).Nodup := by
      have hsub : (c ++ i :: d).Sublist (a ++ o :: (c ++ i :: d)) :=
        (List.sublist_cons_self ..).trans (List.sublist_append_right ..)
      exact (hsub.map _).nodup hids
    have hany : ((c ++ i :: d).any fun z => z.id == i.id) = true :=
      List.any_eq_true.mpr ⟨i, hib, beq_self_eq_true _⟩
    rw [between_split hids hx, if_pos hany, takeWhile_split hbelow]
    constructor
    · intro hid
      have hmem := mem_of_mem_ids hids (fun z hz => by simp [(List.mem_filter.mp hz).1]) hx hid
      exact ⟨(List.mem_filter.mp hmem).2, (List.mem_filter.mp hmem).1⟩
    · rintro ⟨hw, hc⟩
      exact List.mem_map_of_mem (List.mem_filter.mpr ⟨hc, hw⟩)
  · have habove : placeOf (a ++ o :: b) i.id ≤ placeOf (a ++ o :: b) o.id :=
      not_lt.mp fun h => hib ((lt_placeOf_iff hids hi).mp h)
    have hnone : ¬ (b.any fun z => z.id == i.id) = true := by
      rw [List.any_eq_true]
      rintro ⟨z, hz, hzi⟩
      have heq := List.inj_on_of_nodup_map hids (by simp [hz]) hi (beq_iff_eq.mp hzi)
      exact hib (heq ▸ hz)
    rw [if_neg hnone]
    refine ⟨fun h => absurd h List.not_mem_nil, fun ⟨_, hbehind, hbefore⟩ => ?_⟩
    omega

/-- An item that a junction take drops is PENDING, not FLOAT, and stands between the item on air and the junction. -/
theorem mem_skippedBy {s : State} (hids : (s.items.map Item.id).Nodup) {i x : Item} (hi : i ∈ s.items)
    (hx : x ∈ s.items) : x.id ∈ skippedBy .junction i.id s
      ↔ x.state = .pending ∧ x.float = false ∧ ∃ o, onairItem s = some o ∧ Between s o i x := by
  unfold skippedBy onairId
  cases ho : onairItem s with
  | none => simp
  | some o =>
    have hplaces := mem_skippedItems hids (slotItem_mem ho) hi hx
    simpa [waitsForAir, and_assoc, Between, positionOf_eq_placeOf] using hplaces

/-- A drop is of a PENDING item. -/
theorem skippedBy_pending {path : AirPath} {id y : StoryId} {s : State} (h : y ∈ skippedBy path id s) :
    y ≠ id ∧ ∃ x ∈ s.items, x.id = y ∧ x.state = .pending := by
  unfold skippedBy at h
  split at h
  · rename_i o _
    unfold skippedItems at h
    dsimp only at h
    split at h
    · obtain ⟨x, hx, rfl⟩ := List.mem_map.mp h
      obtain ⟨hx, hw⟩ := List.mem_filter.mp hx
      have hbelow := (List.takeWhile_sublist _).subset hx
      have hne := List.mem_takeWhile_imp hx
      refine ⟨by simpa using hne, x, mem_itemsAfter hbelow, rfl, ?_⟩
      simp only [waitsForAir, Bool.and_eq_true, beq_iff_eq] at hw
      exact hw.1
    · exact absurd h List.not_mem_nil
  · exact absurd h List.not_mem_nil

end Sys2Proof.Machine
end

