-- ==== Sys2Proof/Proofs/TickSteps.lean ====
section
/-! The steps of a tick, each taken by its row: the entries to air, the end of the show and the captures (R72, R76 to
R82). -/

namespace Sys2Proof.Machine

/-! ### Passing steps with nothing due -/

/-- Only the tick and the overdue mark have changed. -/
def Passed (s t : State) : Prop := ∃ w o, t = { s with tick := w, seq := { s.seq with overdue := o } }

theorem Passed.refl (s : State) : Passed s s := ⟨s.tick, s.seq.overdue, rfl⟩

theorem Passed.trans {a b c : State} (h : Passed a b) (k : Passed b c) : Passed a c := by
  obtain ⟨w, o, rfl⟩ := h
  obtain ⟨w', o', rfl⟩ := k
  exact ⟨w', o', rfl⟩

theorem Passed.of_tick (w : TickWork) (s : State) : Passed s { s with tick := w } := ⟨w, s.seq.overdue, rfl⟩

theorem Passed.items {s t : State} (h : Passed s t) : t.items = s.items := by
  obtain ⟨w, o, rfl⟩ := h
  rfl

theorem Passed.findItem {s t : State} (h : Passed s t) (id : StoryId) : findItem t id = findItem s id := by
  rw [Machine.findItem, Machine.findItem, h.items]

theorem Passed.mode {s t : State} (h : Passed s t) : t.seq.mode = s.seq.mode := by
  obtain ⟨w, o, rfl⟩ := h
  rfl

theorem Passed.nomination {s t : State} (h : Passed s t) : t.seq.nomination = s.seq.nomination := by
  obtain ⟨w, o, rfl⟩ := h
  rfl

theorem Passed.engine {s t : State} (h : Passed s t) : t.engine = s.engine := by
  obtain ⟨w, o, rfl⟩ := h
  rfl

theorem Passed.rtu {s t : State} (h : Passed s t) : t.rtu = s.rtu := by
  obtain ⟨w, o, rfl⟩ := h
  rfl

theorem Passed.due {s t : State} (h : Passed s t) (f : Frame) : t.due f = s.due f := by
  rw [State.due, State.day, State.cfn, h.rtu]
  rfl

theorem Passed.plannedEnd {s t : State} (h : Passed s t) (i : Item) : plannedEnd t i = plannedEnd s i := by
  rw [Machine.plannedEnd, State.day, h.rtu]
  rfl

theorem Passed.staged {s t : State} (h : Passed s t) (hs : Staged s) : Staged t := by
  rw [Staged, h.items, h.mode]
  exact hs

theorem stepOverdue_passed (s : State) : Passed s (stepOverdue s) := by
  unfold stepOverdue
  split
  · exact .refl s
  · exact ⟨s.tick, _, rfl⟩

/-- An auto-follow stands back for a captured junction in the slot (R78). -/
theorem stepFollow_idle {s : State} (h : followDue s = none ∨ standbyCaptured s = true) : stepFollow s = s := by
  unfold stepFollow
  split
  · rfl
  · rename_i i hi
    obtain h | h := h
    · cases h.symm.trans hi
    · obtain ⟨n, hn, hc⟩ := (Option.any_eq_true ..).mp h
      simp [hn, hc]

theorem takePhase_passed {s : State} (h : phaseDue s = false) : Passed s (takePhase s) := by
  unfold phaseDue at h
  unfold takePhase
  split
  · simp only [*, Option.isSome_eq_false_iff, Option.isNone_iff_eq_none] at h
    rw [stepAirFrame, h]
    exact .of_tick _ s
  · simp only [*, Option.isSome_eq_false_iff, Option.isNone_iff_eq_none] at h
    rw [stepJunction, h]
    exact .of_tick _ s
  · simp only [*, Bool.and_eq_false_iff, Option.isSome_eq_false_iff, Option.isNone_iff_eq_none, Bool.not_eq_false']
      at h
    rw [stepFollow_idle h]
    exact (stepOverdue_passed s).trans (.of_tick _ _)
  · simp only [*, Option.isSome_eq_false_iff, Option.isNone_iff_eq_none] at h
    rw [captureTest, h]
    exact .of_tick _ s
  · exact .refl s

theorem passPhases_passed (k : Nat) (s : State) : Passed s (passPhases k s) := by
  induction k generalizing s with
  | zero => exact .refl s
  | succ k ih =>
    unfold passPhases
    split
    · exact .refl s
    · rename_i h
      exact (takePhase_passed (by simpa using h)).trans (ih _)

theorem settlePhases_passed (s : State) : Passed s (settlePhases s) := passPhases_passed 4 s

/-- A row's step, when it is the next with something to do. -/
theorem takeNamedPhase_due {p : TickPhase} {s : State} (hp : (settlePhases s).tick.phase = p)
    (hd : phaseDue (settlePhases s) = true) : ∃ w, takeNamedPhase p s = { takePhase (settlePhases s) with tick := w } :=
  ⟨_, if_pos ⟨hp, hd⟩⟩

/-! ### An entry to air -/

/-- What an entry to air leaves: the item is on air, the outgoing one is DONE, and the skipped ones are DROPPED. -/
structure WentOnAir (path : AirPath) (id : StoryId) (af : Frame) (s t : State) : Prop where
  entered : ∃ j, findItem t id = some j ∧ j.state = .onair ∧ j.airFrame = some af ∧ j.nominated = false
    ∧ j.captured = false
  cursor : t.seq.cursor = some id
  lastAdvance : t.seq.lastAdvance = some s.rtu.cfn
  inFlight : t.engine.inFlight = true
  mode : t.seq.mode = s.seq.mode
  outgoing : ∀ o : Item, onairItem s = some o →
    ∃ k, findItem t o.id = some k ∧ k.state = .done ∧ k.endFrame = some af ∧ k.airFrame = o.airFrame
  others : ∀ x ∈ s.items, x.id ≠ id →
    ∃ k, findItem t x.id = some k ∧ (k.state = .dropped ↔ x.state = .dropped ∨ x.id ∈ skippedBy path id s)

/-- An item is seen by the id in a slot exactly when it stands in the slot. -/
theorem SlotsFit.slotId_iff {m : ShowState} {s : State} (h : SlotsFit m s.items) {st : ItemState} {p : Place}
    (hp : st.place = some p) {x : Item} (hx : x ∈ s.items) :
    (slotItem st s).map Item.id = some x.id ↔ x.state = st := by
  constructor
  · intro hid
    obtain ⟨o, ho, hox⟩ := Option.map_eq_some_iff.mp hid
    exact List.inj_on_of_nodup_map h.ids (slotItem_mem ho) hx hox ▸ slotItem_state ho
  · intro hs
    subst hs
    rw [h.slotItem_eq hx hp, Option.map_some]

theorem SlotsFit.onairId_iff {m : ShowState} {s : State} (h : SlotsFit m s.items) {x : Item} (hx : x ∈ s.items) :
    onairId s = some x.id ↔ x.state = .onair := h.slotId_iff (p := .air) rfl hx

theorem SlotsFit.standbyId_iff {m : ShowState} {s : State} (h : SlotsFit m s.items) {x : Item} (hx : x ∈ s.items) :
    standbyId s = some x.id ↔ x.state = .standby := h.slotId_iff (p := .next) rfl hx

/-- An item that waits is no dropped one. -/
theorem Item.waits.not_dropped {c : Item} (h : c.waits) : c.state ≠ .dropped := by
  obtain hs | hs := h
  all_goals simp [hs]

/-- A standby choice drops no item, and undoes no drop. -/
theorem Restood.dropped_iff {c d : Item} (h : Restood c d) : d.state = .dropped ↔ c.state = .dropped := by
  obtain rfl | ⟨hc, hd, -⟩ := h
  · exact .rfl
  · exact iff_of_false hd.not_dropped hc.not_dropped

/-- In the entry's record the skipped items are DROPPED, and no other becomes so. -/
theorem airRecord_dropped_iff {path : AirPath} {id : StoryId} {af : Frame} {m : ShowState} {s : State}
    (h : SlotsFit m s.items) {x : Item} (hx : x ∈ s.items) (hne : x.id ≠ id) :
    (airRecord path id af s x.core).state = .dropped ↔ x.state = .dropped ∨ x.id ∈ skippedBy path id s := by
  unfold airRecord
  rw [if_neg (show ¬ x.core.id = id from hne)]
  by_cases hskip : x.id ∈ skippedBy path id s
  · rw [if_pos (show x.core.id ∈ skippedBy path id s from hskip)]
    exact iff_of_true rfl (.inr hskip)
  · rw [if_neg (show ¬ x.core.id ∈ skippedBy path id s from hskip), or_iff_left hskip]
    by_cases ho : onairId s = some x.id
    · rw [if_pos (show onairId s = some x.core.id from ho)]
      have hs := (h.onairId_iff hx).mp ho
      exact iff_of_false nofun (by simp [hs])
    · rw [if_neg (show ¬ onairId s = some x.core.id from ho)]
      exact .rfl

theorem enterAir_wentOnAir {m : ShowState} (hm : m.live) {s : State} (h : SlotsFit m s.items) (path : AirPath)
    {i : Item} (hi : i ∈ s.items) (hair : i.state ≠ .onair) (af : Frame) :
    WentOnAir path i.id af s (enterAir path i.id af s) := by
  have henters := enterAir_entersAir path i.id af s
  have hne : onairId s ≠ some i.id := fun ho => hair ((h.onairId_iff hi).mp ho)
  have hrecord {x : Item} (hx : x ∈ s.items) := enterAir_coreOf hm h path af (coreOf_of_mem h.ids hx) hne
  refine ⟨?_, ?_, ?_, ?_, ?_, fun o ho => ?_, fun x hx hxi => ?_⟩
  · have haired : airRecord path i.id af s i.core = i.core.aired af := by
      have hskip : i.core.id ∉ skippedBy path i.id s := fun hs => (skippedBy_pending hs).1 rfl
      rw [airRecord, if_neg hskip, if_neg (show ¬ onairId s = some i.core.id from hne),
        if_pos (show i.core.id = i.id from rfl)]
    obtain ⟨d, hd, hrestood⟩ := hrecord hi
    rw [haired] at hrestood
    obtain rfl := hrestood.eq_of_not_waits (by simp [Item.waits, Item.aired])
    obtain ⟨j, hj, hstate, hcaptured, hnominated, hframe, -⟩ := findItem_of_coreOf hd
    exact ⟨j, hj, hstate, hframe, hnominated, hcaptured⟩
  · rw [henters.seq]
    rfl
  · rw [henters.seq]
    rfl
  · rw [henters.engine]
  · rw [henters.seq]
    rfl
  · have hmem := slotItem_mem ho
    have hstate : o.state = .onair := slotItem_state ho
    have hended : airRecord path i.id af s o.core = o.core.ended af := by
      have hskip : o.core.id ∉ skippedBy path i.id s := fun hs => by
        obtain ⟨-, x, hx, hxo, hp⟩ := skippedBy_pending hs
        obtain rfl := List.inj_on_of_nodup_map h.ids hx hmem hxo
        simp [hstate] at hp
      rw [airRecord, if_neg hskip, if_pos (show onairId s = some o.core.id from (h.onairId_iff hmem).mpr hstate)]
    obtain ⟨d, hd, hrestood⟩ := hrecord hmem
    rw [hended] at hrestood
    obtain rfl := hrestood.eq_of_not_waits (by simp [Item.waits, Item.ended])
    obtain ⟨k, hk, hkstate, -, -, hkair, hkend⟩ := findItem_of_coreOf hd
    exact ⟨k, hk, hkstate, hkend, hkair⟩
  · obtain ⟨d, hd, hrestood⟩ := hrecord hx
    obtain ⟨k, hk, hkstate, -⟩ := findItem_of_coreOf hd
    exact ⟨k, hk, by rw [hkstate, hrestood.dropped_iff, airRecord_dropped_iff h hx hxi]⟩

/-- Of what follows an entry in a step only the tick and the overdue mark count. -/
theorem WentOnAir.passed {path : AirPath} {id : StoryId} {af : Frame} {s t u : State} (h : WentOnAir path id af s t)
    (hu : Passed t u) : WentOnAir path id af s u := by
  obtain ⟨w, o, rfl⟩ := hu
  exact ⟨h.entered, h.cursor, h.lastAdvance, h.inFlight, h.mode, h.outgoing, h.others⟩

/-- Steps that were passed before an entry change nothing that the entry is told of. -/
theorem WentOnAir.after_passed {path : AirPath} {id : StoryId} {af : Frame} {s t u : State} (hu : Passed s u)
    (h : WentOnAir path id af u t) : WentOnAir path id af s t := by
  obtain ⟨w, o, rfl⟩ := hu
  exact ⟨h.entered, h.cursor, h.lastAdvance, h.inFlight, h.mode, h.outgoing, h.others⟩

end Sys2Proof.Machine
end

