-- ==== Sys2Proof/Proofs/Captures.lean ====
section
/-! The capture of a junction, on time and late (R79 to R81), and with it every step of a tick. -/

namespace Sys2Proof.Machine

theorem Item.id_of_core {a c : Item} (h : a.core = c) : a.id = c.id := by
  rw [← h]
  rfl

theorem Item.state_of_core {a c : Item} (h : a.core = c) : a.state = c.state := by
  rw [← h]
  rfl

theorem Item.airFrame_of_core {a c : Item} (h : a.core = c) : a.airFrame = c.airFrame := by
  rw [← h]
  rfl

theorem Item.float_of_core {a c : Item} (h : a.core = c) : a.float = c.float := by
  rw [← h]
  rfl

/-- What a capture makes of one item: the junction is the captured STANDBY, and another STANDBY leaves the slot. -/
def captureRecord (id : StoryId) (c : Item) : Item :=
  if c.id = id then { c with state := .standby, nominated := false, captured := true }
  else if c.state = .standby then c.leftStandby else c

@[simp] theorem captureRecord_id (id : StoryId) (c : Item) : (captureRecord id c).id = c.id := by
  unfold captureRecord
  split
  · rfl
  · split
    · rfl
    · rfl

theorem captureRecord_junction {id : StoryId} {c : Item} (h : c.id = id) :
    captureRecord id c = { c with state := .standby, nominated := false, captured := true } := if_pos h

theorem captureRecord_standby {id : StoryId} {c : Item} (h : c.id ≠ id) (hs : c.state = .standby) :
    captureRecord id c = c.leftStandby := (if_neg h).trans (if_pos hs)

theorem captureRecord_same {id : StoryId} {c : Item} (h : c.id ≠ id) (hs : c.state ≠ .standby) :
    captureRecord id c = c := (if_neg h).trans (if_neg hs)

/-- The slot is emptied of any STANDBY but the item to come. -/
theorem makeRoom_items {m : ShowState} {s : State} (h : SlotsFit m s.items) (id : StoryId) :
    (makeRoom (some id) s).items
      = s.items.map (fun i => if i.id ≠ id ∧ i.state = .standby then i.leftStandby else i) := by
  have hsame (hnone : ∀ i ∈ s.items, i.state = .standby → i.id = id) :
      s.items = s.items.map (fun i => if i.id ≠ id ∧ i.state = .standby then i.leftStandby else i) := by
    refine (List.map_id _).symm.trans (List.map_congr_left fun i hi => ?_)
    rw [if_neg fun hs => hs.1 (hnone i hi hs.2)]
    rfl
  unfold makeRoom
  cases hold : standbyId s with
  | none => exact hsame fun i hi hs => nomatch hold.symm.trans ((h.standbyId_iff hi).mpr hs)
  | some old =>
    dsimp only
    split
    · rename_i heq
      refine hsame fun i hi hs => ?_
      exact Option.some.inj (((h.standbyId_iff hi).mpr hs).symm.trans (hold.trans heq.symm))
    · rename_i hne
      refine List.map_congr_left fun i hi => ?_
      have hstands : i.id = old ↔ i.state = .standby := by
        rw [← h.standbyId_iff hi, hold, Option.some.injEq, eq_comm]
      by_cases hs : i.state = .standby
      · have hid := hstands.mpr hs
        rw [if_pos (beq_iff_eq.mpr hid), if_pos ⟨fun hi => hne (congrArg some (hi.symm.trans hid)), hs⟩]
      · rw [if_neg (by simpa using fun hid => hs (hstands.mp hid)), if_neg fun hc => hs hc.2]

theorem captureJunction_cores {m : ShowState} {s : State} (h : SlotsFit m s.items) (j : Item) :
    (captureJunction j s).items.map Item.core = s.items.map (fun i => captureRecord j.id i.core) := by
  have hroom := makeRoom_items (s := { s with seq := { s.seq with nomination := none } }) h j.id
  rw [(captureJunction_captured j s).cores, junctionCaptured, enterStandby, modifyItem_items, hroom, List.map_map,
    List.map_map]
  refine List.map_congr_left fun i _ => ?_
  by_cases hid : i.id = j.id
  · rw [captureRecord_junction (c := i.core) hid]
    simp [hid, Item.core]
  · by_cases hs : i.state = .standby
    · rw [captureRecord_standby (c := i.core) hid hs]
      simp [hid, hs, Item.core, Item.leftStandby]
    · rw [captureRecord_same (c := i.core) hid hs]
      simp [hid, hs]

section Late

variable {m : ShowState} {s u : State} {j : Item} (h : SlotsFit m s.items) (hu : SlotsFit m u.items)
  (hcores : u.items.map Item.core = s.items.map (fun i => captureRecord j.id i.core)) (hj : j ∈ s.items)
  (hw : j.waits)
include h hu hcores hj hw

omit h hu hj hw in
theorem captured_of_mem {x : Item} (hx : x ∈ s.items) : ∃ y ∈ u.items, y.core = captureRecord j.id x.core := by
  have hmem : captureRecord j.id x.core ∈ u.items.map Item.core := hcores ▸ List.mem_map_of_mem hx
  simpa using hmem

omit h hu hj hw in
theorem mem_of_captured {y : Item} (hy : y ∈ u.items) : ∃ x ∈ s.items, y.core = captureRecord j.id x.core := by
  have hmem : y.core ∈ s.items.map (fun i => captureRecord j.id i.core) := hcores ▸ List.mem_map_of_mem hy
  obtain ⟨x, hx, hxy⟩ := List.mem_map.mp hmem
  exact ⟨x, hx, hxy.symm⟩

omit h hu hj hw in
theorem captured_placeOf (id : StoryId) : placeOf u.items id = placeOf s.items id := by
  refine placeOf_of_ids ?_ id
  have hids := congrArg (List.map Item.id) hcores
  rw [List.map_map, List.map_map] at hids
  refine hids.trans (List.map_congr_left fun i _ => ?_)
  simp only [Function.comp_apply, captureRecord_id]
  rfl

omit hu hcores in
/-- The item on air is no junction that is captured, and no STANDBY. -/
theorem captureRecord_onair {x : Item} (hx : x ∈ s.items) (hs : x.state = .onair) :
    captureRecord j.id x.core = x.core := by
  refine captureRecord_same (fun hid => ?_) (fun hs' => nomatch hs.symm.trans hs')
  obtain rfl := List.inj_on_of_nodup_map h.ids hx hj hid
  obtain hw | hw := hw
  · cases hs.symm.trans hw
  · cases hs.symm.trans hw

/-- A capture leaves the item on air. -/
theorem captured_onair {o : Item} (ho : onairItem s = some o) : ∃ p, onairItem u = some p ∧ p.core = o.core := by
  obtain ⟨y, hy, hcore⟩ := captured_of_mem hcores (slotItem_mem ho)
  rw [captureRecord_onair h hj hw (slotItem_mem ho) (slotItem_state ho)] at hcore
  have hstate : y.state = .onair := (Item.state_of_core hcore).trans (slotItem_state (i := o) ho)
  exact ⟨y, hu.onairItem_eq hy hstate, hcore⟩

omit hu in
/-- And puts none on air. -/
theorem onair_of_captured {p : Item} (hp : onairItem u = some p) : ∃ o, onairItem s = some o ∧ p.core = o.core := by
  obtain ⟨x, hx, hcore⟩ := mem_of_captured hcores (slotItem_mem hp)
  have hair : (captureRecord j.id x.core).state = .onair :=
    (Item.state_of_core hcore).symm.trans (slotItem_state (i := p) hp)
  have hstate : x.state = .onair := by
    unfold captureRecord at hair
    split at hair
    · cases hair
    · split at hair
      · cases hair
      · exact hair
  exact ⟨x, h.onairItem_eq hx hstate, hcore.trans (captureRecord_onair h hj hw hx hstate)⟩

/-- The items between the one on air and the junction stand there before and after the capture. -/
theorem captured_between {x y : Item} (hxy : y.id = x.id) {k : Item} (hk : k.id = j.id) :
    (∃ o, onairItem u = some o ∧ Between u o k y) ↔ ∃ o, onairItem s = some o ∧ Between s o j x := by
  simp only [Between, positionOf_eq_placeOf, captured_placeOf hcores, hxy, hk]
  constructor
  · rintro ⟨p, hp, hbetween⟩
    obtain ⟨o, ho, hcore⟩ := onair_of_captured h hcores hj hw hp
    have hid : p.id = o.id := Item.id_of_core (c := o.core) hcore
    exact ⟨o, ho, hid ▸ hbetween⟩
  · rintro ⟨o, ho, hbetween⟩
    obtain ⟨p, hp, hcore⟩ := captured_onair h hu hcores hj hw ho
    have hid : p.id = o.id := Item.id_of_core (c := o.core) hcore
    exact ⟨p, hp, hid ▸ hbetween⟩

/-- The late junction's entry ends the item that was on air before the capture. -/
theorem WentOnAir.late_outgoing {t : State} {af : Frame} (hwent : WentOnAir .junction j.id af u t) {o : Item}
    (ho : onairItem s = some o) :
    ∃ k, findItem t o.id = some k ∧ k.state = .done ∧ k.endFrame = some af ∧ k.airFrame = o.airFrame := by
  obtain ⟨p, hp, hcore⟩ := captured_onair h hu hcores hj hw ho
  obtain ⟨k, hk, hstate, hend, hair⟩ := hwent.outgoing p hp
  have hid : p.id = o.id := Item.id_of_core (c := o.core) hcore
  exact ⟨k, hid ▸ hk, hstate, hend, hair.trans (Item.airFrame_of_core (c := o.core) hcore)⟩

/-- It drops the items between that were PENDING or the STANDBY before the capture. -/
theorem WentOnAir.late_others {t : State} {af : Frame} (hwent : WentOnAir .junction j.id af u t) {x : Item}
    (hx : x ∈ s.items) (hne : x.id ≠ j.id) : ∃ k, findItem t x.id = some k ∧ (k.state = .dropped ↔
      x.state = .dropped ∨ ((x.state = .pending ∨ x.state = .standby) ∧ x.float = false
        ∧ ∃ o, onairItem s = some o ∧ Between s o j x)) := by
  obtain ⟨y, hy, hcore⟩ := captured_of_mem hcores hx
  obtain ⟨i, hi, hicore⟩ := captured_of_mem hcores hj
  have hyid : y.id = x.id := (Item.id_of_core hcore).trans (captureRecord_id ..)
  have hiid : i.id = j.id := (Item.id_of_core hicore).trans (captureRecord_id ..)
  obtain ⟨k, hk, hdropped⟩ := hwent.others y hy (hyid ▸ hne)
  refine ⟨k, hyid ▸ hk, hdropped.trans ?_⟩
  rw [← hiid, mem_skippedBy hu.ids hi hy, captured_between h hu hcores hj hw hyid hiid]
  have hfloat : y.float = x.float := by
    refine (Item.float_of_core hcore).trans ?_
    unfold captureRecord
    repeat' split
    all_goals rfl
  have hstate : y.state = if x.state = .standby then .pending else x.state := by
    refine (Item.state_of_core hcore).trans ?_
    by_cases hs : x.state = .standby
    · rw [captureRecord_standby (c := x.core) hne hs, if_pos hs]
      rfl
    · rw [captureRecord_same (c := x.core) hne hs, if_neg hs]
      rfl
  rw [hfloat, hstate]
  by_cases hs : x.state = .standby
  · simp [hs]
  · simp [hs]

end Late

/-- The junction that a capture in good time leaves in the slot. -/
theorem captured_standby {m : ShowState} (hm : m.live) {s u : State} (h : SlotsFit m s.items)
    (ht : takingItem s = none) {i : Item} (hi : i ∈ s.items) (hu : SameShow (captureJunction i s) u) :
    SlotsFit m u.items ∧ ∃ j ∈ u.items, j.id = i.id ∧ j.state = .standby ∧ j.captured = true ∧ j.nominated = false := by
  refine ⟨(captureJunction_fit hm h ht i).of_cores hu.cores, ?_⟩
  obtain ⟨y, hy, hcore⟩ := captured_of_mem (hu.cores.trans (captureJunction_cores h i)) hi
  rw [captureRecord_junction (show i.core.id = i.id from rfl)] at hcore
  have hid := congrArg Item.id hcore
  have hstate := congrArg Item.state hcore
  have hcaptured := congrArg Item.captured hcore
  have hnominated := congrArg Item.nominated hcore
  exact ⟨y, hy, hid, hstate, hcaptured, hnominated⟩

/-- The entry to air of a late junction, as seen after the capture. -/
theorem late_wentOnAir {m : ShowState} (hm : m.live) {s u : State} (h : SlotsFit m s.items) (ht : takingItem s = none)
    {i : Item} (hi : i ∈ s.items) (hu : SameShow (captureJunction i s) u) (af : Frame) :
    SlotsFit m u.items ∧ WentOnAir .junction i.id af u (enterAir .junction i.id af u) := by
  obtain ⟨hfit, y, hy, hid, hstate, -⟩ := captured_standby hm h ht hi hu
  exact ⟨hfit, hid ▸ enterAir_wentOnAir hm hfit .junction hy (by simp [hstate]) af⟩

/-- The item that the end of the show ends. -/
theorem endShow_ended {s : State} (hids : (s.items.map Item.id).Nodup) {i : Item} (hi : i ∈ s.items) (ef : Frame) :
    ∃ k, findItem (endShow i ef s) i.id = some k ∧ k.state = .done ∧ k.endFrame = some ef := by
  have hcore := coreOf_modifyItem (f := Item.ended ef) (fun _ => rfl) (fun _ => rfl) i.id (coreOf_of_mem hids hi)
  obtain ⟨k, hk, hstate, -, -, -, hend⟩ :=
    findItem_of_coreOf ((coreOf_of_cores (endShow_moved i ef s).cores i.id).trans (hcore.trans
      (congrArg some (if_pos (show i.core.id = i.id from rfl)))))
  exact ⟨k, hk, hstate, hend⟩

/-! ### The rows of the steps -/

section Rows

variable {s : State} (hs : Staged s)
include hs

theorem settled_staged : Staged (settlePhases s) := (settlePhases_passed s).staged hs

/-- TAKING_AIR_FRAME (R77). -/
theorem airFrameRow {i : Item} {f : Frame} (hp : (settlePhases s).tick.phase = .airFrame)
    (hi : takingItem (settlePhases s) = some i) (hf : i.airFrame = some f) (hdue : s.due f = true) :
    WentOnAir .take i.id f s (takeNamedPhase .airFrame s) := by
  have hpassed := settlePhases_passed s
  have hstaged := settled_staged hs
  have hstep : airFrameDue (settlePhases s) = some i :=
    Option.filter_eq_some_iff.mpr ⟨hi, by simp [hf, hpassed.due, hdue]⟩
  obtain ⟨w, hw⟩ := takeNamedPhase_due hp (by simp only [phaseDue, hp, hstep, Option.isSome_some])
  have hrow : Passed (enterAir .take i.id f (settlePhases s)) (takeNamedPhase .airFrame s) := by
    rw [hw]
    simp only [takePhase, hp, stepAirFrame, hstep, hf, Option.getD_some]
    exact .of_tick _ _
  exact ((enterAir_wentOnAir (hstaged.live_of_taking hi) hstaged .take (slotItem_mem hi)
    (by simp [slotItem_state (i := i) hi]) f).passed hrow).after_passed hpassed

/-- JUNCTION_TAKE (R81). -/
theorem junctionRow {i : Item} {f : Frame} (hp : (settlePhases s).tick.phase = .junction)
    (hi : standbyItem (settlePhases s) = some i) (hc : i.captured = true) (hf : i.target = some f)
    (hdue : s.due f = true) : WentOnAir .junction i.id f s (takeNamedPhase .junction s) := by
  have hpassed := settlePhases_passed s
  have hstaged := settled_staged hs
  have hstep : junctionDue (settlePhases s) = some i :=
    Option.filter_eq_some_iff.mpr ⟨hi, by simp [hc, hf, hpassed.due, hdue]⟩
  obtain ⟨w, hw⟩ := takeNamedPhase_due hp (by simp only [phaseDue, hp, hstep, Option.isSome_some])
  have hrow : Passed (enterAir .junction i.id f (settlePhases s)) (takeNamedPhase .junction s) := by
    rw [hw]
    simp only [takePhase, hp, stepJunction, hstep, hf, Option.getD_some]
    exact .of_tick _ _
  exact ((enterAir_wentOnAir (hstaged.live_of_captured hi hc) hstaged .junction (slotItem_mem hi)
    (by simp [slotItem_state (i := i) hi]) f).passed hrow).after_passed hpassed

omit hs in
/-- An auto-follow that is due is taken at the planned end, or at CFN when it is overdue (R78). -/
theorem stepFollow_due {i : Item} (h : followDue s = some i) (hc : standbyCaptured s = false) :
    stepFollow s = (standbyItem s).elim (endShow i (if s.seq.overdue = true then s.cfn else plannedEnd s i) s)
      (fun n => enterAir .autoFollow n.id (if s.seq.overdue = true then s.cfn else plannedEnd s i) s) := by
  unfold stepFollow
  rw [h]
  cases hn : standbyItem s with
  | none => simp only [Option.elim_none]
  | some n =>
    have hfree : n.captured = false := by simpa [standbyCaptured, hn] using hc
    simp only [hfree, Option.elim_some, Bool.false_eq_true, if_false]

omit hs in
theorem followRow_passed {i : Item} (hp : (settlePhases s).tick.phase = .follow)
    (hi : onairItem (settlePhases s) = some i) (hbefore : (settlePhases s).tick.onairBefore = some i.id)
    (hauto : i.auto = true) (hm : (settlePhases s).seq.mode = .running) (ht : takingItem (settlePhases s) = none)
    (hdue : s.due (plannedEnd s i) = true) (hc : standbyCaptured (settlePhases s) = false) :
    Passed ((standbyItem (settlePhases s)).elim
        (endShow i (if (settlePhases s).seq.overdue = true then s.rtu.cfn else plannedEnd s i) (settlePhases s))
        (fun n => enterAir .autoFollow n.id
          (if (settlePhases s).seq.overdue = true then s.rtu.cfn else plannedEnd s i) (settlePhases s)))
      (takeNamedPhase .follow s) := by
  have hpassed := settlePhases_passed s
  have hstep : followDue (settlePhases s) = some i := Option.filter_eq_some_iff.mpr
    ⟨hi, by simp [hbefore, hauto, hm, ht, hpassed.plannedEnd, hpassed.due, hdue]⟩
  have hcfn : (settlePhases s).cfn = s.rtu.cfn := congrArg Rtu.cfn hpassed.rtu
  have hfollow := stepFollow_due hstep hc
  rw [hcfn, hpassed.plannedEnd] at hfollow
  obtain ⟨w, hw⟩ := takeNamedPhase_due hp (by simp only [phaseDue, hp, hstep, hc]; rfl)
  have hrow : Passed (stepFollow (settlePhases s)) (takeNamedPhase .follow s) := by
    rw [hw]
    simp only [takePhase, hp]
    exact (stepOverdue_passed (stepFollow (settlePhases s))).trans (.of_tick _ _)
  rw [hfollow] at hrow
  exact hrow

/-- AUTO_FOLLOW with an item in the slot (R78). -/
theorem followRow_standby {i n : Item} (hp : (settlePhases s).tick.phase = .follow)
    (hi : onairItem (settlePhases s) = some i) (hbefore : (settlePhases s).tick.onairBefore = some i.id)
    (hauto : i.auto = true) (hm : (settlePhases s).seq.mode = .running) (ht : takingItem (settlePhases s) = none)
    (hdue : s.due (plannedEnd s i) = true) (hn : standbyItem (settlePhases s) = some n) (hc : n.captured = false) :
    WentOnAir .autoFollow n.id (if (settlePhases s).seq.overdue = true then s.rtu.cfn else plannedEnd s i) s
      (takeNamedPhase .follow s) := by
  have hrow := followRow_passed hp hi hbefore hauto hm ht hdue (by simp [standbyCaptured, hn, hc])
  rw [hn, Option.elim_some] at hrow
  have hstate : n.state = .standby := slotItem_state hn
  have hwent := enterAir_wentOnAir (.inl hm) (settled_staged hs) .autoFollow (slotItem_mem hn) (by simp [hstate])
    (if (settlePhases s).seq.overdue = true then s.rtu.cfn else plannedEnd s i)
  exact (hwent.passed hrow).after_passed (settlePhases_passed s)

/-- AUTO_FOLLOW with an empty slot (R78). -/
theorem followRow_end {i : Item} (hp : (settlePhases s).tick.phase = .follow)
    (hi : onairItem (settlePhases s) = some i) (hbefore : (settlePhases s).tick.onairBefore = some i.id)
    (hauto : i.auto = true) (hm : (settlePhases s).seq.mode = .running) (ht : takingItem (settlePhases s) = none)
    (hdue : s.due (plannedEnd s i) = true) (hn : standbyItem (settlePhases s) = none) :
    ∃ k, findItem (takeNamedPhase .follow s) i.id = some k ∧ k.state = .done
      ∧ k.endFrame = some (if (settlePhases s).seq.overdue = true then s.rtu.cfn else plannedEnd s i)
      ∧ (takeNamedPhase .follow s).seq.mode = .ended ∧ (takeNamedPhase .follow s).engine.inFlight = true := by
  have hrow := followRow_passed hp hi hbefore hauto hm ht hdue (by simp [standbyCaptured, hn])
  rw [hn, Option.elim_none] at hrow
  have hmoved := endShow_moved i (if (settlePhases s).seq.overdue = true then s.rtu.cfn else plannedEnd s i)
    (settlePhases s)
  obtain ⟨k, hk, hstate, hend⟩ := endShow_ended (settled_staged hs).ids (slotItem_mem hi)
    (if (settlePhases s).seq.overdue = true then s.rtu.cfn else plannedEnd s i)
  refine ⟨k, (hrow.findItem i.id).trans hk, hstate, hend, hrow.mode.trans ?_, ?_⟩
  · exact congrArg Sequencer.mode hmoved.seq
  · rw [hrow.engine]
    exact congrArg Engine.inFlight hmoved.engine

omit hs in
/-- The junction that a capture test considers waits in the store (R79). -/
theorem captureCandidate_waits {i : Item} (h : captureCandidate s = some i) : i ∈ s.items ∧ i.waits := by
  have hwaits := List.find?_some h
  obtain ⟨id, -, hid⟩ := List.mem_filterMap.mp (List.mem_of_find?_eq_some h)
  simp only [Bool.and_eq_true, Bool.or_eq_true, beq_iff_eq] at hwaits
  exact ⟨findItem_mem hid, hwaits.2⟩

end Rows

section CaptureRow

variable {s : State} (hs : Staged s) {i : Item} {f : Frame} (hp : (settlePhases s).tick.phase = .capture)
  (hm : (settlePhases s).seq.mode = .running ∨ (settlePhases s).seq.mode = .holding)
  (ht : takingItem (settlePhases s) = none) (hi : captureCandidate (settlePhases s) = some i)
  (hc : i.captured = false) (hf : i.target = some f)
  (hdue : s.due (subFrames s.rtu.rate.day f (max (takeLead (settlePhases s) i) (settlePhases s).seq.margin)) = true)
include hp hm ht hi hc hf hdue

omit hp in
theorem captureDue_candidate : captureDue (settlePhases s) = some i := by
  have hday : (settlePhases s).day = s.rtu.rate.day := congrArg (fun r : Rtu => r.rate.day) (settlePhases_passed s).rtu
  unfold captureDue
  rw [if_pos (by simpa [ht] using hm), hi]
  refine Option.filter_eq_some_iff.mpr ⟨rfl, ?_⟩
  simp [hc, captureFrame, hf, hday, (settlePhases_passed s).due, hdue]

theorem captureRow_passed : Passed (captureTest (settlePhases s)) (takeNamedPhase .capture s) := by
  have hstep := captureDue_candidate hm ht hi hc hf hdue
  obtain ⟨w, hw⟩ := takeNamedPhase_due hp (by simp only [phaseDue, hp, hstep, Option.isSome_some])
  rw [hw]
  simp only [takePhase, hp]
  exact .of_tick _ _

include hs

/-- CAPTURE in good time ends with the junction in the slot (R80). -/
theorem captureRow_early (hearly : s.due f = false) :
    (∃ j, findItem (takeNamedPhase .capture s) i.id = some j ∧ j.state = .standby ∧ j.captured = true
      ∧ j.nominated = false)
    ∧ (takeNamedPhase .capture s).seq.nomination = none ∧ (takeNamedPhase .capture s).engine.inFlight = true := by
  have hrow := captureRow_passed hp hm ht hi hc hf hdue
  have htest : captureTest (settlePhases s) = closeShowEvent (captureJunction i (settlePhases s)) := by
    simp only [captureTest, captureDue_candidate hm ht hi hc hf hdue, hf, Option.getD_some,
      (settlePhases_passed s).due, hearly, Bool.false_eq_true, if_false]
  rw [htest] at hrow
  have hcapture := captureJunction_captured i (settlePhases s)
  have hclose := (closeShowEvent_onlyArmed (captureJunction i (settlePhases s))).toSameShow
  obtain ⟨hfit, j, hj, hid, hstate, hcaptured, hnominated⟩ :=
    captured_standby hm (settled_staged hs) ht (captureCandidate_waits hi).1 hclose
  refine ⟨⟨j, ?_, hstate, hcaptured, hnominated⟩, hrow.nomination.trans ?_, ?_⟩
  · rw [hrow.findItem, ← hid]
    exact findItem_of_mem hfit.ids hj
  · exact congrArg Sequencer.nomination (hclose.seq.trans hcapture.seq)
  · rw [hrow.engine]
    exact congrArg Engine.inFlight (hclose.engine.trans hcapture.engine)

/-- CAPTURE late ends with the junction's entry to air at CFN (R81), by the show `u` that the capture left. -/
theorem captureRow_late (hlate : s.due f = true) :
    ∃ u, SlotsFit (settlePhases s).seq.mode u.items ∧ u.rtu = s.rtu
      ∧ u.items.map Item.core = s.items.map (fun x => captureRecord i.id x.core)
      ∧ WentOnAir .junction i.id s.rtu.cfn u (takeNamedPhase .capture s) := by
  have hpassed := settlePhases_passed s
  have hrow := captureRow_passed hp hm ht hi hc hf hdue
  have hcfn : (settlePhases s).cfn = s.rtu.cfn := congrArg Rtu.cfn hpassed.rtu
  have hnotice := (raiseNotice_onlyArmed .junctionLate i.id 0 255
    (min 65535 (signedDiff (settlePhases s).day s.rtu.cfn f).toNat) (captureJunction i (settlePhases s))).toSameShow
  have hrtu : (raiseNotice .junctionLate i.id 0 255 (min 65535 (signedDiff (settlePhases s).day s.rtu.cfn f).toNat)
      (captureJunction i (settlePhases s))).rtu = s.rtu :=
    (raiseNotice_rtu ..).trans ((captureJunction_quiet i (settlePhases s)).rtu.trans hpassed.rtu)
  have htest : captureTest (settlePhases s) = enterAir .junction i.id s.rtu.cfn (raiseNotice .junctionLate i.id 0 255
      (min 65535 (signedDiff (settlePhases s).day s.rtu.cfn f).toNat) (captureJunction i (settlePhases s))) := by
    simp only [captureTest, captureDue_candidate hm ht hi hc hf hdue, hf, Option.getD_some, hpassed.due, hlate, hcfn, if_true]
  obtain ⟨hfit, hwent⟩ := late_wentOnAir hm (settled_staged hs) ht (captureCandidate_waits hi).1 hnotice s.rtu.cfn
  have hcores := hnotice.cores.trans (captureJunction_cores (settled_staged hs) i)
  rw [hpassed.items] at hcores
  rw [htest] at hrow
  exact ⟨_, hfit, hrtu, hcores, hwent.passed hrow⟩

end CaptureRow

/-- Settles O48. -/
theorem tickStepsAdvanceShow : Obligations.TickStepsAdvanceShow := by
  intro s hids hslots
  dsimp only
  have hs : Staged s := (staged_iff s).mpr ⟨hids.1, hslots⟩
  have hpassed := settlePhases_passed s
  have hitems := hpassed.items
  refine ⟨fun i f hp hi hf hdue => ?_, fun i f hp hi hc hf hdue => ?_, fun i hp hi hbefore hauto hm ht hdue =>
    ⟨fun n hn hc => ?_, fun hn => ?_⟩, fun i f hp hm ht hi hc hf hdue => ⟨fun hearly => ?_, fun hlate => ?_⟩⟩
  · have hwent := airFrameRow hs hp hi hf hdue
    exact ⟨_, rfl, ⟨hwent.entered, hwent.cursor, hwent.lastAdvance, hwent.inFlight, takeNamedPhase_fixed ..,
      hwent.outgoing⟩, hwent.mode⟩
  · have hwent := junctionRow hs hp hi hc hf hdue
    refine ⟨_, rfl, ⟨hwent.entered, hwent.cursor, hwent.lastAdvance, hwent.inFlight, takeNamedPhase_fixed ..,
      hwent.outgoing⟩, hwent.mode, fun x hx hne => ?_⟩
    obtain ⟨k, hk, hdropped⟩ := hwent.others x hx hne
    rw [mem_skippedBy hids.1 (hitems ▸ slotItem_mem hi) hx] at hdropped
    exact ⟨k, hk, by simpa using hdropped⟩
  · have hwent := followRow_standby hs hp hi hbefore hauto hm ht hdue hn hc
    exact ⟨_, rfl, ⟨hwent.entered, hwent.cursor, hwent.lastAdvance, hwent.inFlight, takeNamedPhase_fixed ..,
      hwent.outgoing⟩, hwent.mode⟩
  · obtain ⟨k, hk, hstate, hend, hmode, hwalk⟩ := followRow_end hs hp hi hbefore hauto hm ht hdue hn
    exact ⟨_, k, rfl, hk, hstate, hend, hmode, hwalk, takeNamedPhase_fixed ..⟩
  · obtain ⟨⟨j, hj, hstate, hcaptured, hnominated⟩, hnomination, hwalk⟩ :=
      captureRow_early hs hp hm ht hi hc hf hdue hearly
    exact ⟨_, j, rfl, hj, hstate, hcaptured, hnominated, hnomination, hwalk, takeNamedPhase_fixed ..⟩
  · obtain ⟨u, hfit, hrtu, hcores, hwent⟩ := captureRow_late hs hp hm ht hi hc hf hdue hlate
    obtain ⟨hmem, hwaits⟩ := captureCandidate_waits hi
    rw [hitems] at hmem
    rw [hpassed.mode] at hfit
    refine ⟨_, rfl, ⟨hwent.entered, hwent.cursor, hrtu ▸ hwent.lastAdvance, hwent.inFlight, takeNamedPhase_fixed ..,
      fun o ho => hwent.late_outgoing hs hfit hcores hmem hwaits ho⟩, fun x hx hne => ?_⟩
    obtain ⟨k, hk, hdropped⟩ := hwent.late_others hs hfit hcores hmem hwaits hx hne
    exact ⟨k, hk, by simpa using hdropped⟩

end Sys2Proof.Machine
end

