-- ==== Sys2Proof/Proofs/PanelEdges.lean ====
section
/-! The judging of a take (R73) and the functions of a panel edge (R188 to R192). -/

namespace Sys2Proof.Machine

/-! ### The judging of a take (R73) -/

theorem guardRuns_iff (s : State) : guardRuns s = true ↔ GuardRuns s := by
  unfold guardRuns
  cases hla : s.seq.lastAdvance with
  | none => simp [GuardRuns, hla]
  | some la =>
    simp only [Option.any_some, withinSpan, Bool.and_eq_true, GuardRuns, hla, Option.some.injEq, exists_eq_left']
    exact and_congr decide_eq_true_iff decide_eq_true_iff

section Judge

variable {s : State}

theorem judgeTake_guard (h : GuardRuns s) : judgeTake s = .ignoredGuard := by
  unfold judgeTake
  rw [if_pos ((guardRuns_iff s).mpr h)]

variable (hguard : ¬ GuardRuns s)
include hguard

theorem judgeTake_taking {k : Item} (hk : takingItem s = some k) : judgeTake s = .ignoredTaking k.id := by
  unfold judgeTake
  rw [if_neg fun h => hguard ((guardRuns_iff s).mp h), hk]

variable (ht : takingItem s = none)
include ht

theorem judgeTake_standby {i : Item} (hi : standbyItem s = some i) :
    judgeTake s = if i.captured then .refusedCaptured i.id else .accepted i := by
  unfold judgeTake
  rw [if_neg fun h => hguard ((guardRuns_iff s).mp h), ht, hi]

theorem judgeTake_empty (hi : standbyItem s = none) : judgeTake s = .refusedEmpty := by
  unfold judgeTake
  rw [if_neg fun h => hguard ((guardRuns_iff s).mp h), ht, hi]

end Judge

theorem Taken.mode {i : Item} {s t : State} (h : Taken i s t) : t.seq.mode = .running := by
  rw [h.seq]

theorem Taken.lastAdvance {i : Item} {s t : State} (h : Taken i s t) : t.seq.lastAdvance = some s.rtu.cfn := by
  rw [h.seq]
  rfl

theorem Taken.cursor {i : Item} {s t : State} (h : Taken i s t) : t.seq.cursor = s.seq.cursor := by
  rw [h.seq]
  rfl

/-- The taken item is TAKING with its air frame (R75). -/
theorem acceptTake_item {s : State} {i : Item} (hi : i ∈ s.items) : ∃ j, findItem (acceptTake i s) i.id = some j
    ∧ j.state = .taking ∧ j.captured = false ∧ j.nominated = false
    ∧ j.airFrame = some ((s.rtu.cfn + takeLead s i) % s.rtu.rate.day) := by
  obtain ⟨x, hx⟩ : ∃ x, findItem s i.id = some x := by
    rw [← Option.isSome_iff_exists, findItem, List.find?_isSome]
    exact ⟨i, hi, beq_self_eq_true _⟩
  have htaken := coreOf_modifyItem (f := Item.taken (addFrames s.day s.cfn (takeLead s i))) (fun _ => rfl)
    (fun _ => rfl) i.id (coreOf_eq_some.mpr ⟨x, hx, rfl⟩)
  rw [if_pos (show x.core.id = i.id from findItem_id (i := x) hx)] at htaken
  obtain ⟨j, hj, hstate, hcaptured, hnominated, hframe, -⟩ :=
    findItem_of_coreOf ((coreOf_of_cores (acceptTake_taken i s).cores i.id).trans htaken)
  exact ⟨j, hj, hstate, hcaptured, hnominated, hframe⟩

/-! ### The edge taken (R188) -/

/-- The record of an input whose active edge is taken. -/
def PanelInput.pressed (r : PanelInput) : PanelInput :=
  { r with level := edgeLevel r, candidate := 0, edgeDue := false, edges := (r.edges + 1) % 65536 }

/-- The input's active edge is taken, and its function is still to be performed. -/
def edgePressed (n : Fin 8) (s : State) : State := { s with inputs := s.inputs.set n s.inputs[n].pressed }

theorem edgePressed_get (n : Fin 8) (s : State) : (edgePressed n s).inputs[n] = s.inputs[n].pressed := by
  simp [edgePressed]

theorem edgePressed_takingItem (n : Fin 8) (s : State) : takingItem (edgePressed n s) = takingItem s := rfl

theorem edgePressed_standbyItem (n : Fin 8) (s : State) : standbyItem (edgePressed n s) = standbyItem s := rfl

theorem edgePressed_guardRuns {n : Fin 8} {s : State} : GuardRuns (edgePressed n s) ↔ GuardRuns s := .rfl

theorem edgePressed_takeLead (n : Fin 8) (s : State) (i : Item) : takeLead (edgePressed n s) i = takeLead s i := rfl

theorem activeEdgeDue_iff {f : InputFunction} {r : PanelInput} :
    activeEdgeDue f r = true ↔ r.edgeDue = true ∧ edgeActive r = true ∧ r.function = f := by
  simp [activeEdgeDue, and_assoc]

/-- The row of an active edge that is due performs the input's function. -/
theorem takeActiveEdge_due {f : InputFunction} {n : Fin 8} {s : State}
    (h : activeEdgeDue f (settleSteps s).inputs[n] = true) :
    takeActiveEdge f n s = performFunction n (edgePressed n (settleSteps s)) := by
  obtain ⟨-, hactive, -⟩ := activeEdgeDue_iff.mp h
  have hpressed : takeEdge (settleSteps s).inputs[n] = (settleSteps s).inputs[n].pressed := by
    rw [takeEdge, if_pos hactive]
    rfl
  simp only [takeActiveEdge, h, if_true, performEdge, hactive, modifyInput, hpressed]
  rfl

/-- The function performed is that of the row. -/
theorem edgePressed_function {f : InputFunction} {n : Fin 8} {s : State} (h : activeEdgeDue f s.inputs[n] = true) :
    (edgePressed n s).inputs[n].function = f := by
  rw [edgePressed_get]
  exact (activeEdgeDue_iff.mp h).2.2

section Functions

variable {n : Fin 8} {s : State}

theorem performFunction_nothing (h : s.inputs[n].function = .nothing) : performFunction n s = s := by
  simp only [performFunction, h]

theorem performFunction_take (h : s.inputs[n].function = .take) : performFunction n s = panelTakeShow n s := by
  simp only [performFunction, h]

theorem performFunction_hold (h : s.inputs[n].function = .hold) : performFunction n s = panelToggleHold s := by
  simp only [performFunction, h]

theorem performFunction_ack (h : s.inputs[n].function = .ack) :
    performFunction n s = panelAcknowledge s.inputs[n].ackDisplay s := by
  simp only [performFunction, h]

theorem performFunction_report (h : s.inputs[n].function = .report) :
    performFunction n s = raiseNotice .inputEdge 0 0 n.val s.inputs[n].edges s := by
  simp only [performFunction, h, panelReportEdge]

end Functions

/-- A toggle of the hold moves the show between RUNNING and HOLDING (R190). -/
theorem panelToggleHold_seq (s : State) : (panelToggleHold s).seq = { s.seq with mode := match s.seq.mode with
    | .running => .holding
    | .holding => .running
    | .idle => .idle
    | .ended => .ended } := by
  unfold panelToggleHold
  cases hm : s.seq.mode with
  | running => exact (holdShow_moved s).seq
  | holding => exact (releaseShow_moved s).seq
  | idle =>
    dsimp only
    rw [← hm]
  | ended =>
    dsimp only
    rw [← hm]

/-- An acknowledgement takes the head off the one display's list (R171, R191). -/
theorem panelAcknowledge_displays {d : Fin 4} {s : State} {c : Cue} {cs : List Cue} (h : s.displays[d].cues = c :: cs) :
    (panelAcknowledge d s).displays[d].cues = headTakesExpiry s.rtu.rate.day s.rtu.cfn cs
      ∧ ∀ x : Fin 4, x ≠ d → (panelAcknowledge d s).displays[x] = s.displays[x] := by
  have hack : acknowledge d s = raiseCue .cueAcked d c (modifyDisplay d (dropHead s.day s.cfn) s) := by
    simp only [acknowledge, h]
  have hpanel : panelAcknowledge d s = render d (acknowledge d s) := by
    rw [panelAcknowledge, h]
    rfl
  rw [hpanel, hack]
  refine ⟨?_, fun x hx => ?_⟩
  · rw [(render_onlyRendered d _).cues]
    have hget := congrArg Display.cues (modifyDisplay_get d (dropHead s.day s.cfn) s)
    rw [dropHead, h] at hget
    exact hget
  · rw [render_get_ne hx]
    exact setDisplay_get_ne hx _ s

/-- A panel take that is accepted (R73, R75, R189). -/
theorem panelTakeShow_accepted {n : Fin 8} {s : State} (hguard : ¬ GuardRuns s) (ht : takingItem s = none) {i : Item}
    (hi : standbyItem s = some i) (hc : i.captured = false) : panelTakeShow n s = acceptTake i s := by
  simp only [panelTakeShow, judgeTake_standby hguard ht hi, hc, Bool.false_eq_true, if_false]

theorem panelTakeShow_captured {n : Fin 8} {s : State} (hguard : ¬ GuardRuns s) (ht : takingItem s = none) {i : Item}
    (hi : standbyItem s = some i) (hc : i.captured = true) :
    panelTakeShow n s = raiseNotice .takeRefused i.id 0 n.val 1 s := by
  simp only [panelTakeShow, judgeTake_standby hguard ht hi, hc, if_true]

theorem panelTakeShow_empty {n : Fin 8} {s : State} (hguard : ¬ GuardRuns s) (ht : takingItem s = none)
    (hi : standbyItem s = none) : panelTakeShow n s = raiseNotice .takeRefused 0 0 n.val 2 s := by
  simp only [panelTakeShow, judgeTake_empty hguard ht hi]

/-- A take is ignored while the guard runs or an item is TAKING (R73). -/
theorem panelTakeShow_ignored {n : Fin 8} {s : State} (h : GuardRuns s ∨ takingItem s ≠ none) :
    panelTakeShow n s = s := by
  by_cases hguard : GuardRuns s
  · simp only [panelTakeShow, judgeTake_guard hguard]
  · obtain ⟨k, hk⟩ := Option.ne_none_iff_exists'.mp (h.resolve_left hguard)
    simp only [panelTakeShow, judgeTake_taking hguard hk]

/-- Settles O60. -/
theorem edgesPerformFunctions : Obligations.EdgesPerformFunctions := by
  intro s n
  dsimp only
  have hquiet := performFunction_quiet n (edgePressed n (settleSteps s))
  have hfixed : Fixed (settleSteps s) (performFunction n (edgePressed n (settleSteps s))) :=
    Fixed.trans (.of_inputs _) hquiet.toFixed
  refine ⟨fun h => ?_, fun h => ?_, fun h hi => ?_, fun h hguard ht => ?_, fun h => ?_,
    fun c cs h hcues => ?_, fun h hcues => ?_, fun h => ?_⟩
  · exact congrArg Host.Outcome.next
      ((takeActiveEdge_due h).trans (performFunction_nothing (edgePressed_function h)))
  · obtain ⟨-, hactive⟩ : (settleSteps s).inputs[n].edgeDue = true ∧ edgeActive (settleSteps s).inputs[n] = false := by
      simpa [inactiveEdgeDue] using h
    have htaken : takeEdge (settleSteps s).inputs[n] = { (settleSteps s).inputs[n] with
        level := edgeLevel (settleSteps s).inputs[n], candidate := 0, edgeDue := false } := by
      rw [takeEdge, if_neg (ne_true_of_eq_false hactive)]
    simp only [exec, execInactiveEdge, h, if_true, performEdge, hactive, modifyInput, htaken]
    rfl
  · rw [← edgePressed_guardRuns (n := n), ← edgePressed_takingItem n] at hi
    exact congrArg Host.Outcome.next ((takeActiveEdge_due h).trans
      ((performFunction_take (edgePressed_function h)).trans (panelTakeShow_ignored hi)))
  · have hperform := performFunction_take (edgePressed_function h)
    rw [← edgePressed_guardRuns (n := n)] at hguard
    rw [← edgePressed_takingItem n] at ht
    rw [← edgePressed_standbyItem n]
    refine ⟨fun i hi hc => ?_, fun i hi hc => ?_, fun hi => ?_⟩
    · have htaken := acceptTake_taken i (edgePressed n (settleSteps s))
      obtain ⟨j, hj, hstate, -, -, hframe⟩ := acceptTake_item (slotItem_mem hi)
      rw [edgePressed_takeLead] at hframe
      rw [panelTakeShow_accepted hguard ht hi hc] at hperform
      rw [hperform] at hquiet hfixed
      exact ⟨_, j, congrArg Host.Outcome.next ((takeActiveEdge_due h).trans hperform), hquiet.inputs, hj, hstate, hframe,
        htaken.mode, htaken.lastAdvance, hfixed⟩
    · rw [panelTakeShow_captured hguard ht hi hc] at hperform
      exact congrArg Host.Outcome.next ((takeActiveEdge_due h).trans hperform)
    · rw [panelTakeShow_empty hguard ht hi] at hperform
      exact congrArg Host.Outcome.next ((takeActiveEdge_due h).trans hperform)
  · have hperform := performFunction_hold (edgePressed_function h)
    have hseq := panelToggleHold_seq (edgePressed n (settleSteps s))
    rw [hperform] at hquiet hfixed
    exact ⟨_, congrArg Host.Outcome.next ((takeActiveEdge_due h).trans hperform), hquiet.inputs, hseq, hfixed⟩
  · have hperform := performFunction_ack (edgePressed_function h)
    rw [edgePressed_get] at hperform
    obtain ⟨hhead, hothers⟩ := panelAcknowledge_displays (s := edgePressed n (settleSteps s)) hcues
    rw [hperform] at hquiet hfixed
    exact ⟨_, congrArg Host.Outcome.next ((takeActiveEdge_due h).trans hperform), hquiet.inputs, hhead, hothers, hfixed⟩
  · have hperform := performFunction_ack (edgePressed_function h)
    rw [edgePressed_get] at hperform
    have hnone : panelAcknowledge (settleSteps s).inputs[n].ackDisplay (edgePressed n (settleSteps s))
        = edgePressed n (settleSteps s) := if_pos (List.isEmpty_iff.mpr hcues)
    exact congrArg Host.Outcome.next ((takeActiveEdge_due h).trans (hperform.trans hnone))
  · have hperform := performFunction_report (edgePressed_function h)
    rw [edgePressed_get] at hperform
    exact congrArg Host.Outcome.next ((takeActiveEdge_due h).trans hperform)

end Sys2Proof.Machine
end

