-- ==== Sys2Proof/Proofs/ArmQueue.lean ====
section
/-! The arm queue by its entries: what placing, removing, re-timing and arming do to the entries that stand in it and to
the elements they belong to (R114 to R117, R120, R121). -/

namespace Sys2Proof.Machine

/-! ### Entries and their keys -/

/-- The element that an entry belongs to. -/
def ArmEntry.key (q : ArmEntry) : StoryId × Tag := (q.story, q.tag)

/-- The elements that have an entry. -/
def entryKeys (s : State) : List (StoryId × Tag) := s.sched.queue.map ArmEntry.key

theorem isFor_iff {q : ArmEntry} {id : StoryId} {tag : Tag} : q.isFor id tag = true ↔ q.key = (id, tag) := by
  simp [ArmEntry.isFor, ArmEntry.key]

theorem placeEntry_perm (q : ArmEntry) (s : State) :
    (placeEntry q s).sched.queue.Perm ({ q with seq := s.sched.counter } :: s.sched.queue) := by
  obtain ⟨l, r, hqueue, hplaced, -⟩ := placeEntry_placedInOrder q s
  rw [hplaced, hqueue]
  exact List.perm_middle

theorem mem_placeEntry (q : ArmEntry) {s : State} {x : ArmEntry} (hx : x ∈ s.sched.queue) :
    x ∈ (placeEntry q s).sched.queue :=
  (placeEntry_perm q s).mem_iff.mpr (List.mem_cons_of_mem _ hx)

theorem placeEntry_self (q : ArmEntry) (s : State) :
    { q with seq := s.sched.counter } ∈ (placeEntry q s).sched.queue :=
  (placeEntry_perm q s).mem_iff.mpr List.mem_cons_self

theorem mem_removeEntry {id : StoryId} {tag : Tag} {s : State} {x : ArmEntry} :
    x ∈ (removeEntry id tag s).sched.queue ↔ x ∈ s.sched.queue ∧ x.key ≠ (id, tag) := by
  simp [removeEntry, ArmEntry.isFor, ArmEntry.key, imp_iff_not_or]

theorem entryKeys_removeEntry {s : State} (h : (entryKeys s).Nodup) (q : ArmEntry) :
    entryKeys (removeEntry q.story q.tag s) = (entryKeys s).erase q.key := by
  rw [h.erase_eq_filter, entryKeys, entryKeys, List.filter_map]
  refine congrArg _ (List.filter_congr fun x _ => ?_)
  rw [Bool.eq_iff_iff]
  simp [ArmEntry.isFor, ArmEntry.key, imp_iff_not_or]

/-! ### One entry re-timed (R120, R121) -/

/-- The entry that re-timing makes, but for its sequence number. -/
def retimed (sweep : Bool) (effect : Frame) (q : ArmEntry) (s : State) : ArmEntry :=
  let issue := subFrames s.day effect (subFrames s.day q.effect q.issue)
  { q with
    effect
    issue := if sweep && s.due issue then addFrames s.day s.cfn 1 else notNow s issue
    deferred := false }

theorem retimeEntry_eq (sweep : Bool) (effect : Frame) (q : ArmEntry) (s : State) :
    retimeEntry sweep effect q s = placeEntry (retimed sweep effect q s) (removeEntry q.story q.tag s) := rfl

/-- The frame CFN itself is due (R4). -/
theorem due_cfn (s : State) : s.due s.cfn = true := by
  have hday : 0 < s.day := by
    unfold State.day
    cases s.rtu.rate <;> decide
  simp [State.due, isDue, signedDiff, hday]

/-- In the sweep an issue frame that is due becomes CFN + 1, any other stands (R121). -/
theorem retimed_sweep (effect : Frame) (q : ArmEntry) (s : State) :
    retimed true effect q s = { q with
      effect
      issue :=
        let issue := subFrames s.day effect (subFrames s.day q.effect q.issue)
        if s.due issue then (s.cfn + 1) % s.day else issue
      deferred := false } := by
  have hissue (x : Frame) : (if true && s.due x then addFrames s.day s.cfn 1 else notNow s x)
      = if s.due x then (s.cfn + 1) % s.day else x := by
    rw [Bool.true_and]
    split
    · rfl
    · rename_i hdue
      exact if_neg fun hx : x = s.cfn => hdue (hx ▸ due_cfn s)
  simp only [retimed, hissue]

section Retime

variable (sweep : Bool) (effect : Frame) (q : ArmEntry) {s : State}

theorem retimeEntry_self : ∃ n, { retimed sweep effect q s with seq := n }
    ∈ (retimeEntry sweep effect q s).sched.queue := by
  rw [retimeEntry_eq]
  exact ⟨_, placeEntry_self ..⟩

theorem mem_retimeEntry_of_ne {x : ArmEntry} (hx : x ∈ s.sched.queue) (hne : x.key ≠ q.key) :
    x ∈ (retimeEntry sweep effect q s).sched.queue := by
  rw [retimeEntry_eq]
  exact mem_placeEntry _ (mem_removeEntry.mpr ⟨hx, hne⟩)

/-- An entry that stands in the queue is replaced by one. -/
theorem retimeEntry_keys (h : (entryKeys s).Nodup) (hq : q.key ∈ entryKeys s) :
    (entryKeys (retimeEntry sweep effect q s)).Perm (entryKeys s) := by
  have hplaced : (entryKeys (retimeEntry sweep effect q s)).Perm
      (q.key :: entryKeys (removeEntry q.story q.tag s)) := (placeEntry_perm ..).map ArmEntry.key
  rw [entryKeys_removeEntry h] at hplaced
  exact hplaced.trans (List.perm_cons_erase hq).symm

end Retime

/-! ### What re-timing leaves -/

/-- The elements of every item, the clock, the ports and their profiles stand, and so do the elements that have an
entry, if none has two. -/
structure Retimed (s t : State) : Prop where
  elements : ∀ id, (findItem t id).map Item.elements = (findItem s id).map Item.elements
  rtu : t.rtu = s.rtu
  ports : t.ports = s.ports
  profiles : t.profiles = s.profiles
  keys : (entryKeys s).Nodup → (entryKeys t).Perm (entryKeys s)

theorem retimed_composes : Composes Retimed where
  refl _ := ⟨fun _ => rfl, rfl, rfl, rfl, fun _ => .refl _⟩
  trans h k := ⟨fun id => (k.elements id).trans (h.elements id), k.rtu.trans h.rtu, k.ports.trans h.ports,
    k.profiles.trans h.profiles, fun hn => (k.keys ((h.keys hn).nodup_iff.mpr hn)).trans (h.keys hn)⟩

namespace Retimed

variable {s t : State} (h : Retimed s t)
include h

theorem findElement (id : StoryId) (tag : Tag) : findElement t id tag = findElement s id tag := by
  have hlook (u : State) : Machine.findElement u id tag
      = ((findItem u id).map Item.elements).bind (fun es => es.find? (fun e => e.tag == tag)) := by
    rw [Option.bind_map]
    rfl
  rw [hlook, hlook, h.elements id]

theorem tagsIn (id : StoryId) (p : ElementState → Bool) : tagsIn t id p = tagsIn s id p := by
  unfold Machine.tagsIn
  rw [h.elements id]

theorem day : t.day = s.day := congrArg (fun r : Rtu => r.rate.day) h.rtu

/-- What re-timing makes of an entry is read off the clock. -/
theorem retimed (sweep : Bool) (effect : Frame) (q : ArmEntry) :
    retimed sweep effect q t = retimed sweep effect q s := by
  have hcfn : t.cfn = s.cfn := congrArg Rtu.cfn h.rtu
  have hdue : t.due = s.due := by
    funext x
    rw [State.due, State.due, h.day, hcfn]
  simp only [Machine.retimed, notNow, h.day, hcfn, hdue]

theorem length (hn : (entryKeys s).Nodup) : t.sched.queue.length = s.sched.queue.length := by
  simpa [entryKeys] using (h.keys hn).length_eq

/-- The rule's entry is read off the clock, the ports and the profiles. -/
theorem armedEntry {id : StoryId} {start stop : Frame} {e : Element} {q : ArmEntry}
    (hq : ArmedEntry t id start stop e q) : ArmedEntry s id start stop e q := by
  have hlead (a : Action) : leadByRule t a = leadByRule s a := by
    simp only [leadByRule, h.ports, h.profiles]
  have heffect := hq.effect
  have hissue := hq.issue
  rw [h.rtu] at heffect
  rw [hlead, h.rtu] at hissue
  exact ⟨hq.story, hq.tag, hq.port, hq.verb, heffect, hissue, hq.deferred⟩

end Retimed

theorem retimeEntry_retimed (sweep : Bool) (effect : Frame) {q : ArmEntry} {s : State} (hq : q.key ∈ entryKeys s) :
    Retimed s (retimeEntry sweep effect q s) :=
  ⟨fun _ => rfl, rfl, rfl, rfl, fun hn => retimeEntry_keys _ _ _ hn hq⟩

/-- A change of one item's record that leaves its elements. -/
theorem modifyItem_retimed {f : Item → Item} (hid : ∀ i, (f i).id = i.id) (hf : ∀ i, (f i).elements = i.elements)
    (id : StoryId) (s : State) : Retimed s (modifyItem id f s) := by
  refine ⟨fun x => ?_, rfl, rfl, rfl, fun _ => .refl _⟩
  rw [findItem_modifyItem id x f s hid, Option.map_map]
  refine congrFun (congrArg Option.map (funext fun i => ?_)) _
  simp only [Function.comp_apply]
  split
  · exact hf i
  · rfl

theorem findEntry_mem {s : State} {id : StoryId} {tag : Tag} {q : ArmEntry} (h : findEntry s id tag = some q) :
    q ∈ s.sched.queue ∧ q.key = (id, tag) :=
  ⟨List.mem_of_find?_eq_some h, isFor_iff.mp (by simpa using List.find?_some h)⟩

theorem retimeElement_retimed (id : StoryId) (c : ArmContext) (s : State) (e : Element) :
    Retimed s (retimeElement id c s e) := by
  unfold retimeElement
  split
  · exact retimed_composes.refl s
  · rename_i q hq
    dsimp only
    split
    · exact retimed_composes.refl s
    · exact retimeEntry_retimed _ _ (List.mem_map_of_mem (findEntry_mem hq).1)

theorem retimeItem_retimed (p : Element → Bool) (id : StoryId) (c : ArmContext) (s : State) :
    Retimed s (retimeItem p id c s) :=
  retimed_composes.trans (modifyItem_retimed (by intro; rfl) (by intro; rfl) id s)
    (retimed_composes.foldl (fun s e => retimeElement_retimed id c s e) _ _)

/-! ### Entries of other items -/

theorem mem_retimeElement {id : StoryId} (c : ArmContext) {s : State} (e : Element) {x : ArmEntry}
    (hx : x ∈ s.sched.queue) (hne : x.story ≠ id) : x ∈ (retimeElement id c s e).sched.queue := by
  unfold retimeElement
  split
  · exact hx
  · rename_i q hq
    dsimp only
    split
    · exact hx
    · refine mem_retimeEntry_of_ne _ _ _ hx fun hkey => hne ?_
      exact congrArg Prod.fst (hkey.trans (findEntry_mem hq).2)

theorem mem_retimeItem (p : Element → Bool) {id : StoryId} (c : ArmContext) {s : State} {x : ArmEntry}
    (hx : x ∈ s.sched.queue) (hne : x.story ≠ id) : x ∈ (retimeItem p id c s).sched.queue := by
  unfold retimeItem
  dsimp only
  generalize (((findItem s id).map Item.elements).getD []).filter p = es
  have hfold : ∀ (es : List Element) (u : State), x ∈ u.sched.queue
      → x ∈ (es.foldl (retimeElement id c) u).sched.queue := by
    intro es
    induction es with
    | nil => exact fun _ h => h
    | cons e es ih => exact fun u h => ih _ (mem_retimeElement c e h hne)
  exact hfold es _ hx

/-! ### The arm context -/

/-- The arm context of the named item (R113). -/
def contextOf (s : State) (id : StoryId) : Option ArmContext := (findItem s id).bind Item.context

theorem contextOf_modifyItem {f : Item → Item} (hid : ∀ i, (f i).id = i.id) (hf : ∀ i, (f i).context = i.context)
    (id x : StoryId) (s : State) : contextOf (modifyItem id f s) x = contextOf s x := by
  unfold contextOf
  rw [findItem_modifyItem id x f s hid, Option.bind_map]
  refine congrArg _ (funext fun i => ?_)
  simp only [Function.comp_apply]
  split
  · exact hf i
  · rfl

/-- A re-timed item stands against the new context. -/
theorem contextOf_retimeItem (p : Element → Bool) {id : StoryId} (c : ArmContext) {s : State}
    (h : (findItem s id).isSome = true) : contextOf (retimeItem p id c s) id = some c := by
  obtain ⟨i, hi⟩ := Option.isSome_iff_exists.mp h
  have hset : contextOf (modifyItem id (fun i => { i with context := some c }) s) id = some c := by
    rw [contextOf, findItem_modifyItem id id _ s (by intro; rfl), hi, Option.map_some,
      if_pos (by simpa using findItem_id hi)]
    rfl
  unfold retimeItem
  refine Eq.trans ?_ hset
  generalize modifyItem id (fun i => { i with context := some c }) s = u
  generalize (((findItem s id).map Item.elements).getD []).filter p = es
  induction es generalizing u with
  | nil => rfl
  | cons e es ih =>
    refine (ih _).trans ?_
    unfold retimeElement
    split
    · rfl
    · dsimp only
      split
      · rfl
      · rfl

/-! ### The sweep of a TAKE (R120, R121) -/

/-- One entry of the queue under the sweep. -/
def sweepEntry (id : StoryId) (stop : Frame) (s : State) (q : ArmEntry) : State :=
  if q.story = id then
    match findElement s id q.tag with
    | some e => if e.endAnchored then retimeEntry true (subFrames s.day stop e.offset) q s else s
    | none => s
  else s

theorem sweepToEnd_eq (id : StoryId) (stop : Frame) (s : State) : sweepToEnd id stop s
    = s.sched.queue.foldl (sweepEntry id stop)
      (modifyItem id (fun i => { i with context := i.context.map (fun c => { c with stop }) }) s) := rfl

section Sweep

variable {id : StoryId} {stop : Frame}

theorem sweepEntry_retimed {s : State} {q : ArmEntry} (hq : q.key ∈ entryKeys s) :
    Retimed s (sweepEntry id stop s q) := by
  unfold sweepEntry
  split
  · split
    · exact retimed_composes.when fun _ => retimeEntry_retimed _ _ hq
    · exact retimed_composes.refl s
  · exact retimed_composes.refl s

theorem mem_sweepEntry {s : State} {q x : ArmEntry} (hx : x ∈ s.sched.queue) (hne : x.key ≠ q.key) :
    x ∈ (sweepEntry id stop s q).sched.queue := by
  unfold sweepEntry
  split
  · split
    · split
      · exact mem_retimeEntry_of_ne _ _ _ hx hne
      · exact hx
    · exact hx
  · exact hx

theorem foldl_sweepEntry_retimed (l : List ArmEntry) {s : State} (hn : (entryKeys s).Nodup)
    (hl : ∀ q ∈ l, q.key ∈ entryKeys s) : Retimed s (l.foldl (sweepEntry id stop) s) := by
  induction l generalizing s with
  | nil => exact retimed_composes.refl s
  | cons q l ih =>
    have hstep := sweepEntry_retimed (id := id) (stop := stop) (hl q List.mem_cons_self)
    have hperm := hstep.keys hn
    exact retimed_composes.trans hstep (ih (hperm.nodup_iff.mpr hn) fun x hx =>
      hperm.mem_iff.mpr (hl x (List.mem_cons_of_mem _ hx)))

theorem mem_foldl_sweepEntry (l : List ArmEntry) {s : State} {x : ArmEntry} (hx : x ∈ s.sched.queue)
    (hne : x.key ∉ l.map ArmEntry.key) : x ∈ (l.foldl (sweepEntry id stop) s).sched.queue := by
  induction l generalizing s with
  | nil => exact hx
  | cons q l ih =>
    obtain ⟨hq, hl⟩ := List.ne_and_not_mem_of_not_mem_cons hne
    exact ih (mem_sweepEntry hx hq) hl

/-- Of the entries swept in turn, one that stands comes to what the sweep makes of it alone. -/
theorem foldl_sweepEntry_turn {l : List ArmEntry} (hl : (l.map ArmEntry.key).Nodup) {s : State}
    (hn : (entryKeys s).Nodup) (hkeys : ∀ x ∈ l, x.key ∈ entryKeys s) {q : ArmEntry} (hq : q ∈ l)
    (hstands : q ∈ s.sched.queue) : ∃ u, Retimed s u ∧ q ∈ u.sched.queue
      ∧ ∀ x ∈ (sweepEntry id stop u q).sched.queue, x.key = q.key →
        x ∈ (l.foldl (sweepEntry id stop) s).sched.queue := by
  induction l generalizing s with
  | nil => exact absurd hq List.not_mem_nil
  | cons y l ih =>
    obtain ⟨hy, hl⟩ := List.nodup_cons.mp hl
    obtain rfl | hq := List.mem_cons.mp hq
    · exact ⟨s, retimed_composes.refl s, hstands, fun x hx hkey => mem_foldl_sweepEntry l hx (hkey ▸ hy)⟩
    · have hstep := sweepEntry_retimed (id := id) (stop := stop) (hkeys y List.mem_cons_self)
      have hperm := hstep.keys hn
      have hne : q.key ≠ y.key := fun h => hy (h ▸ List.mem_map_of_mem hq)
      obtain ⟨u, hu, hmem, hturn⟩ := ih hl (hperm.nodup_iff.mpr hn)
        (fun x hx => hperm.mem_iff.mpr (hkeys x (List.mem_cons_of_mem _ hx))) hq (mem_sweepEntry hstands hne)
      exact ⟨u, retimed_composes.trans hstep hu, hmem, hturn⟩

theorem sweepToEnd_retimed {s : State} (hn : (entryKeys s).Nodup) : Retimed s (sweepToEnd id stop s) := by
  rw [sweepToEnd_eq]
  exact retimed_composes.trans (modifyItem_retimed (by intro; rfl) (by intro; rfl) id s)
    (foldl_sweepEntry_retimed _ hn fun q hq => List.mem_map_of_mem hq)

variable {s : State} (hn : (entryKeys s).Nodup) {q : ArmEntry} (hq : q ∈ s.sched.queue)
include hn hq

theorem sweepToEnd_turn : ∃ u, Retimed s u ∧ q ∈ u.sched.queue
    ∧ ∀ x ∈ (sweepEntry id stop u q).sched.queue, x.key = q.key → x ∈ (sweepToEnd id stop s).sched.queue := by
  rw [sweepToEnd_eq]
  have hcontext := modifyItem_retimed (f := fun i => { i with context := i.context.map (fun c => { c with stop }) })
    (by intro; rfl) (by intro; rfl) id s
  obtain ⟨u, hu, hmem, hturn⟩ := foldl_sweepEntry_turn (id := id) (stop := stop) (l := s.sched.queue)
    (s := modifyItem id (fun i => { i with context := i.context.map (fun c => { c with stop }) }) s) hn hn
    (fun x hx => List.mem_map_of_mem hx) hq hq
  exact ⟨u, retimed_composes.trans hcontext hu, hmem, hturn⟩

variable (hid : q.story = id) {e : Element} (he : findElement s id q.tag = some e)
include hid he

/-- A START-anchored entry stands under the sweep. -/
theorem sweepToEnd_start (hstart : e.anchor = .fromStart) : q ∈ (sweepToEnd id stop s).sched.queue := by
  obtain ⟨u, hu, hmem, hturn⟩ := sweepToEnd_turn (id := id) (stop := stop) hn hq
  refine hturn q ?_ rfl
  rw [sweepEntry, if_pos hid, hu.findElement, he]
  dsimp only
  rw [if_neg (by simp [Element.endAnchored, hstart])]
  exact hmem

/-- An END-anchored entry is re-timed to the new end (R120, R121). -/
theorem sweepToEnd_end (hend : e.anchor = .fromEnd) : ∃ n,
    { retimed true (subFrames s.day stop e.offset) q s with seq := n } ∈ (sweepToEnd id stop s).sched.queue := by
  obtain ⟨u, hu, -, hturn⟩ := sweepToEnd_turn (id := id) (stop := stop) hn hq
  obtain ⟨n, hself⟩ := retimeEntry_self true (subFrames s.day stop e.offset) q (s := u)
  rw [hu.retimed] at hself
  refine ⟨n, hturn _ ?_ rfl⟩
  rw [sweepEntry, if_pos hid, hu.findElement, he]
  dsimp only
  rw [if_pos (by simp [Element.endAnchored, hend]), hu.day]
  exact hself

end Sweep

/-! ### Element look-ups after a change -/

/-- A change of elements that keeps tags is not seen by the look-up of another tag. -/
theorem findElement_map_ne (i : Item) {tag other : Tag} (hne : other ≠ tag) {f : Element → Element}
    (hf : ∀ e, (f e).tag = e.tag) :
    Item.findElement { i with elements := i.elements.map (fun e => if e.tag == tag then f e else e) } other
      = i.findElement other := by
  unfold Item.findElement
  dsimp only
  induction i.elements with
  | nil => rfl
  | cons e es ih =>
    by_cases he : e.tag = tag
    · have hother : e.tag ≠ other := fun h => hne (h.symm.trans he)
      rw [List.map_cons, if_pos (by simpa using he), List.find?_cons_of_neg (by simpa [hf] using hother),
        List.find?_cons_of_neg (by simpa using hother), ih]
    · rw [List.map_cons, if_neg (by simpa using he), List.find?_cons, List.find?_cons, ih]

section LookUp

variable {f : Element → Element} (hf : ∀ e, (f e).tag = e.tag) (id : StoryId) (tag : Tag) (s : State)
include hf

theorem findElement_modifyElement_same :
    findElement (modifyElement id tag f s) id tag = (findElement s id tag).map f := by
  unfold findElement modifyElement
  rw [findItem_modifyItem id id _ s (by intro; rfl), Option.bind_map, Option.map_bind]
  cases hi : findItem s id with
  | none => rfl
  | some i =>
    simp only [Option.bind_some, Function.comp_apply, findItem_id hi, beq_self_eq_true, if_true]
    exact findElement_map i tag hf

theorem findElement_modifyElement_ne {x : StoryId} {y : Tag} (hne : (x, y) ≠ (id, tag)) :
    findElement (modifyElement id tag f s) x y = findElement s x y := by
  unfold findElement modifyElement
  rw [findItem_modifyItem id x _ s (by intro; rfl), Option.bind_map]
  refine Option.bind_congr fun i hi => ?_
  simp only [Function.comp_apply]
  split
  · rename_i hid
    have hxid : x = id := (findItem_id hi).symm.trans (beq_iff_eq.mp hid)
    have hy : y ≠ tag := fun h => hne (by rw [hxid, h])
    exact findElement_map_ne i hy hf
  · rfl

end LookUp

end Sys2Proof.Machine
end

