-- ==== Sys2Proof/Proofs/Arming.lean ====
section
/-! Arming one element after the other: with room each becomes ARMED with its entry, and with the queue full each waits
(R116, R117, R120). -/

namespace Sys2Proof.Machine

/-! ### One element armed -/

theorem contextOf_withState (id x : StoryId) (tag : Tag) (st : ElementState) (s : State) :
    contextOf (withState id tag st s) x = contextOf s x :=
  contextOf_modifyItem (by intro; rfl) (by intro; rfl) id x s

/-- What arming an element does: nothing, or the element becomes ARMED and an entry is placed, or with the queue full
it becomes WAITING (R116, R119). -/
theorem armElement_cases (id : StoryId) (tag : Tag) (s : State) : armElement id tag s = s
    ∨ (s.sched.queue.length < Config.armQueue ∧ ∃ q, armElement id tag s = placeEntry q (withState id tag .armed s))
    ∨ (Config.armQueue ≤ s.sched.queue.length ∧ armElement id tag s = withState id tag .waiting s) := by
  cases hi : findItem s id with
  | none => exact .inl (by simp only [armElement, hi])
  | some i =>
    cases hc : i.context with
    | none => exact .inl (armElement_no_context hi hc)
    | some c =>
      cases he : i.findElement tag with
      | none => exact .inl (by simp only [armElement, hi, hc, he])
      | some e =>
        by_cases hroom : s.sched.queue.length < Config.armQueue
        · exact .inr (.inl ⟨hroom, _, armElement_room hi hc he hroom⟩)
        · exact .inr (.inr ⟨Nat.not_lt.mp hroom, armElement_full hi hc he (Nat.not_lt.mp hroom)⟩)

section Arm

variable (id : StoryId) (tag : Tag) {s : State}

theorem mem_armElement {q : ArmEntry} (hq : q ∈ s.sched.queue) : q ∈ (armElement id tag s).sched.queue := by
  obtain h | ⟨-, x, h⟩ | ⟨-, h⟩ := armElement_cases id tag s
  · rwa [h]
  · rw [h]
    exact mem_placeEntry x hq
  · rwa [h]

theorem armElement_length : (armElement id tag s).sched.queue.length ≤ s.sched.queue.length + 1 := by
  obtain h | ⟨-, x, h⟩ | ⟨-, h⟩ := armElement_cases id tag s
  · rw [h]
    exact Nat.le_succ _
  · rw [h]
    exact ((placeEntry_perm x (withState id tag .armed s)).length_eq).le
  · rw [h]
    exact Nat.le_succ _

theorem armElement_keepsFull (hfull : Config.armQueue ≤ s.sched.queue.length) :
    Config.armQueue ≤ (armElement id tag s).sched.queue.length := by
  obtain h | ⟨hroom, -⟩ | ⟨-, h⟩ := armElement_cases id tag s
  · rwa [h]
  · exact absurd hroom (Nat.not_lt.mpr hfull)
  · rwa [h]

theorem contextOf_armElement (x : StoryId) : contextOf (armElement id tag s) x = contextOf s x := by
  obtain h | ⟨-, q, h⟩ | ⟨-, h⟩ := armElement_cases id tag s
  · rw [h]
  · rw [h]
    exact contextOf_withState id x tag .armed s
  · rw [h]
    exact contextOf_withState id x tag .waiting s

theorem findElement_armElement_ne {x : StoryId} {y : Tag} (hne : (x, y) ≠ (id, tag)) :
    findElement (armElement id tag s) x y = findElement s x y := by
  obtain h | ⟨-, q, h⟩ | ⟨-, h⟩ := armElement_cases id tag s
  · rw [h]
  · rw [h]
    exact findElement_modifyElement_ne (by intro; rfl) id tag s hne
  · rw [h]
    exact findElement_modifyElement_ne (by intro; rfl) id tag s hne

variable {id tag} {c : ArmContext} {e : Element} (hc : contextOf s id = some c) (he : findElement s id tag = some e)
include hc he

/-- With a context, an element found and room in the queue, its entry is placed (R116). -/
theorem armElement_placed (hroom : s.sched.queue.length < Config.armQueue) :
    armElement id tag s = placeEntry (newEntry s id c e) (withState id tag .armed s) := by
  obtain ⟨i, hi, hic⟩ := Option.bind_eq_some_iff.mp hc
  obtain ⟨j, hj, hje⟩ := Option.bind_eq_some_iff.mp he
  cases hi.symm.trans hj
  exact armElement_room hi hic hje hroom

theorem armElement_waits (hfull : Config.armQueue ≤ s.sched.queue.length) :
    armElement id tag s = withState id tag .waiting s := by
  obtain ⟨i, hi, hic⟩ := Option.bind_eq_some_iff.mp hc
  obtain ⟨j, hj, hje⟩ := Option.bind_eq_some_iff.mp he
  cases hi.symm.trans hj
  exact armElement_full hi hic hje hfull

end Arm

/-- The rule's entry does not look at the items or the arm queue. -/
theorem ArmedEntry.of_armElement {x : StoryId} {y : Tag} {s : State} {id : StoryId} {start stop : Frame} {e : Element}
    {q : ArmEntry} (h : ArmedEntry (armElement x y s) id start stop e q) : ArmedEntry s id start stop e q := by
  obtain ⟨items, sched, hrecord⟩ := armElement_record x y s
  rw [hrecord] at h
  exact ⟨h.story, h.tag, h.port, h.verb, h.effect, h.issue, h.deferred⟩

/-! ### Elements that stand ARMED or WAITING -/

/-- The element is ARMED, and the entry is in the queue. -/
structure StandsArmed (id : StoryId) (e : Element) (q : ArmEntry) (s : State) : Prop where
  element : findElement s id e.tag = some { e with state := .armed }
  entry : q ∈ s.sched.queue

/-- The element is WAITING, and the queue is full. -/
structure StandsWaiting (id : StoryId) (e : Element) (s : State) : Prop where
  element : findElement s id e.tag = some { e with state := .waiting }
  full : Config.armQueue ≤ s.sched.queue.length

section Stands

variable {id : StoryId} {e : Element} {q : ArmEntry} {s : State}

/-- With room, arming any element leaves an ARMED one ARMED. -/
theorem StandsArmed.armElement (h : StandsArmed id e q s) (hroom : s.sched.queue.length < Config.armQueue)
    (x : StoryId) (y : Tag) : StandsArmed id e q (armElement x y s) := by
  refine ⟨?_, mem_armElement x y h.entry⟩
  by_cases hkey : (id, e.tag) = (x, y)
  · obtain ⟨rfl, rfl⟩ := Prod.mk.inj hkey
    obtain hstep | ⟨-, x, hstep⟩ | ⟨hfull, -⟩ := armElement_cases id e.tag s
    · rw [hstep]
      exact h.element
    · rw [hstep]
      refine (findElement_modifyElement_same (by intro; rfl) id e.tag s).trans ?_
      rw [h.element]
      rfl
    · exact absurd hroom (Nat.not_lt.mpr hfull)
  · rw [findElement_armElement_ne x y hkey]
    exact h.element

/-- With the queue full, arming any element leaves a WAITING one WAITING. -/
theorem StandsWaiting.armElement (h : StandsWaiting id e s) (x : StoryId) (y : Tag) :
    StandsWaiting id e (armElement x y s) := by
  refine ⟨?_, armElement_keepsFull x y h.full⟩
  by_cases hkey : (id, e.tag) = (x, y)
  · obtain ⟨rfl, rfl⟩ := Prod.mk.inj hkey
    obtain hstep | ⟨hroom, -⟩ | ⟨-, hstep⟩ := armElement_cases id e.tag s
    · rw [hstep]
      exact h.element
    · exact absurd hroom (Nat.not_lt.mpr h.full)
    · rw [hstep]
      refine (findElement_modifyElement_same (by intro; rfl) id e.tag s).trans ?_
      rw [h.element]
      rfl
  · rw [findElement_armElement_ne x y hkey]
    exact h.element

/-! ### The elements of an item armed in turn (R120) -/

theorem StandsArmed.foldl (h : StandsArmed id e q s) (x : StoryId) {tags : List Tag}
    (hroom : s.sched.queue.length + tags.length ≤ Config.armQueue) :
    StandsArmed id e q (tags.foldl (fun s t => Machine.armElement x t s) s) := by
  induction tags generalizing s with
  | nil => exact h
  | cons y tags ih =>
    have hlength := armElement_length x y (s := s)
    rw [List.length_cons] at hroom
    have hrest : (Machine.armElement x y s).sched.queue.length + tags.length ≤ Config.armQueue := by omega
    exact ih (h.armElement (by omega) x y) hrest

theorem StandsWaiting.foldl (h : StandsWaiting id e s) (x : StoryId) (tags : List Tag) :
    StandsWaiting id e (tags.foldl (fun s t => Machine.armElement x t s) s) := by
  induction tags generalizing s with
  | nil => exact h
  | cons y tags ih => exact ih (h.armElement x y)

theorem mem_foldl_armElement (x : StoryId) (tags : List Tag) (h : q ∈ s.sched.queue) :
    q ∈ (tags.foldl (fun s t => armElement x t s) s).sched.queue := by
  induction tags generalizing s with
  | nil => exact h
  | cons y tags ih => exact ih (mem_armElement x y h)

variable {c : ArmContext} (hc : contextOf s id = some c) (he : findElement s id e.tag = some e)
include hc he

/-- With room the element becomes ARMED, and its entry is that of the rule. -/
theorem armElement_standsArmed (hroom : s.sched.queue.length < Config.armQueue) :
    ∃ q, ArmedEntry s id c.start c.stop e q ∧ StandsArmed id e q (armElement id e.tag s) := by
  rw [armElement_placed hc he hroom]
  refine ⟨_, newEntry_armedEntry s id c e s.sched.counter, ?_, placeEntry_self _ (withState id e.tag .armed s)⟩
  refine (findElement_modifyElement_same (by intro; rfl) id e.tag s).trans ?_
  rw [he]
  rfl

/-- With the queue full the element becomes WAITING. -/
theorem armElement_standsWaiting (hfull : Config.armQueue ≤ s.sched.queue.length) :
    StandsWaiting id e (armElement id e.tag s) := by
  rw [armElement_waits hc he hfull]
  refine ⟨?_, hfull⟩
  refine (findElement_modifyElement_same (by intro; rfl) id e.tag s).trans ?_
  rw [he]
  rfl

variable {tags : List Tag}

/-- With room for all of them, each element armed in turn becomes ARMED with the entry of the rule. -/
theorem foldl_armElement_armed (hroom : s.sched.queue.length + tags.length ≤ Config.armQueue)
    (hmem : e.tag ∈ tags) : ∃ q, ArmedEntry s id c.start c.stop e q
      ∧ StandsArmed id e q (tags.foldl (fun s t => armElement id t s) s) := by
  induction tags generalizing s with
  | nil => exact absurd hmem List.not_mem_nil
  | cons y tags ih =>
    have hlength := armElement_length id y (s := s)
    rw [List.length_cons] at hroom
    have hrest : (armElement id y s).sched.queue.length + tags.length ≤ Config.armQueue := by omega
    by_cases hy : e.tag = y
    · subst hy
      obtain ⟨q, hq, hstands⟩ := armElement_standsArmed hc he (by omega)
      exact ⟨q, hq, hstands.foldl id hrest⟩
    · obtain ⟨q, hq, hstands⟩ := ih ((contextOf_armElement id y id).trans hc)
        ((findElement_armElement_ne id y (by simpa using hy)).trans he) hrest
        ((List.mem_cons.mp hmem).resolve_left hy)
      exact ⟨q, hq.of_armElement, hstands⟩

/-- With the queue full, each of them becomes WAITING. -/
theorem foldl_armElement_waiting (hfull : Config.armQueue ≤ s.sched.queue.length) (hmem : e.tag ∈ tags) :
    StandsWaiting id e (tags.foldl (fun s t => armElement id t s) s) := by
  induction tags generalizing s with
  | nil => exact absurd hmem List.not_mem_nil
  | cons y tags ih =>
    by_cases hy : e.tag = y
    · subst hy
      exact (armElement_standsWaiting hc he hfull).foldl id tags
    · exact ih ((contextOf_armElement id y id).trans hc)
        ((findElement_armElement_ne id y (by simpa using hy)).trans he) (armElement_keepsFull id y hfull)
        ((List.mem_cons.mp hmem).resolve_left hy)

end Stands

/-! ### The waiting order filled (R117) and the event closed -/

/-- What holds and is kept by each arming into room holds once the waiting order has been armed into it. -/
theorem fillFromWaiting_keeps {s : State} {P : State → Prop}
    (hP : ∀ (s : State) (x : StoryId) (y : Tag), P s → s.sched.queue.length < Config.armQueue → P (armElement x y s))
    (h : P s) : P (fillFromWaiting s) := by
  unfold fillFromWaiting
  generalize waitingOrder s = l
  induction l generalizing s with
  | nil => exact h
  | cons w l ih =>
    refine ih ?_
    dsimp only
    split
    · rename_i hroom
      exact hP s _ _ h (of_decide_eq_true hroom)
    · exact h

theorem closeShowEvent_rest (s : State) :
    (closeShowEvent s).items = (fillFromWaiting s).items ∧ (closeShowEvent s).sched = (fillFromWaiting s).sched :=
  ⟨renderAll_items _, by rw [closeShowEvent, (renderAll_redrawn (fillFromWaiting s)).rest]⟩

section Closing

variable {id : StoryId} {e : Element} {q : ArmEntry} {s : State}

theorem findElement_of_items {s t : State} (h : t.items = s.items) (id : StoryId) (tag : Tag) :
    findElement t id tag = findElement s id tag := by
  rw [findElement, findElement, findItem, findItem, h]

theorem StandsArmed.of_rest {t : State} (h : StandsArmed id e q s) (hitems : t.items = s.items)
    (hsched : t.sched = s.sched) : StandsArmed id e q t :=
  ⟨(findElement_of_items hitems ..).trans h.element, hsched ▸ h.entry⟩

theorem StandsWaiting.of_rest {t : State} (h : StandsWaiting id e s) (hitems : t.items = s.items)
    (hsched : t.sched = s.sched) : StandsWaiting id e t :=
  ⟨(findElement_of_items hitems ..).trans h.element, hsched ▸ h.full⟩

theorem StandsArmed.closeShowEvent (h : StandsArmed id e q s) : StandsArmed id e q (closeShowEvent s) :=
  (fillFromWaiting_keeps (fun _ x y hs hroom => hs.armElement hroom x y) h).of_rest
    (closeShowEvent_rest s).1 (closeShowEvent_rest s).2

theorem StandsWaiting.closeShowEvent (h : StandsWaiting id e s) : StandsWaiting id e (closeShowEvent s) :=
  (fillFromWaiting_keeps (fun _ x y hs _ => hs.armElement x y) h).of_rest
    (closeShowEvent_rest s).1 (closeShowEvent_rest s).2

theorem mem_closeShowEvent (h : q ∈ s.sched.queue) : q ∈ (closeShowEvent s).sched.queue := by
  rw [(closeShowEvent_rest s).2]
  exact fillFromWaiting_keeps (P := fun s => q ∈ s.sched.queue) (fun _ x y hs _ => mem_armElement x y hs) h

end Closing

end Sys2Proof.Machine
end

