-- ==== Sys2Proof/Proofs/Take.lean ====
section
/-! The accepted TAKE (R73, R75) and what it does to the arm queue: the outgoing item's END-anchored entries are swept to
the air frame, and the taken item's elements are armed against it (R120, R121). -/

namespace Sys2Proof.Machine

/-! ### Elements by membership -/

theorem Item.findElement_of_mem {i : Item} (htags : (i.elements.map Element.tag).Nodup) {e : Element}
    (he : e ∈ i.elements) : i.findElement e.tag = some e := by
  obtain ⟨x, hx⟩ : ∃ x, i.findElement e.tag = some x := by
    rw [← Option.isSome_iff_exists, Item.findElement, List.find?_isSome]
    exact ⟨e, he, beq_self_eq_true _⟩
  have htag : x.tag = e.tag := by simpa using List.find?_some hx
  rw [hx, List.inj_on_of_nodup_map htags (List.mem_of_find?_eq_some hx) he htag]

theorem findElement_of_mem {s : State} (hids : IdsUnique s) {i : Item} (hi : i ∈ s.items) {e : Element}
    (he : e ∈ i.elements) : findElement s i.id e.tag = some e := by
  obtain ⟨hitems, -, htags⟩ := hids
  rw [findElement, findItem_of_mem hitems hi]
  exact Item.findElement_of_mem (htags i hi) he

/-- An element is found in an item only. -/
theorem isSome_of_findElement {s : State} {id : StoryId} {tag : Tag} {e : Element}
    (h : findElement s id tag = some e) : (findItem s id).isSome = true := by
  obtain ⟨i, hi, -⟩ := Option.bind_eq_some_iff.mp h
  exact Option.isSome_iff_exists.mpr ⟨i, hi⟩

theorem tagsIn_eq {s : State} {id : StoryId} {i : Item} (hi : findItem s id = some i) (p : ElementState → Bool) :
    tagsIn s id p = (i.elements.filter (fun e => p e.state)).map Element.tag := by
  rw [tagsIn, hi, Option.map_some, Option.getD_some]
  induction i.elements with
  | nil => rfl
  | cons e es ih =>
    rw [List.filterMap_cons, List.filter_cons, ih]
    split
    · rename_i hnone
      rw [if_neg (by simpa using hnone)]
    · rename_i hsome
      obtain ⟨hp, rfl⟩ : p e.state = true ∧ e.tag = _ := by simpa using hsome
      rw [if_pos hp, List.map_cons]

/-! ### The scheduler's part (R120) -/

/-- The queue once the outgoing item's entries are swept to the air frame. -/
def outgoingSwept (af : Frame) (s : State) : State := ((onairId s).map (fun o => sweepToEnd o af s)).getD s

theorem scheduleTake_eq (id : StoryId) (af : Frame) (duration : Nat) (s : State) : scheduleTake id af duration s
    = armIdle id (retimeItem (fun _ => true) id ⟨af, addFrames s.day af duration⟩ (outgoingSwept af s)) := rfl

section Schedule

variable {s : State} (hn : (entryKeys s).Nodup) (id : StoryId) (af : Frame) (duration : Nat)
include hn

theorem outgoingSwept_retimed : Retimed s (outgoingSwept af s) := by
  unfold outgoingSwept
  cases onairId s with
  | none => exact retimed_composes.refl s
  | some o => exact sweepToEnd_retimed hn

/-- Up to the arming the elements stand, and the taken item has its context. -/
theorem takeRetimed (c : ArmContext) :
    Retimed s (retimeItem (fun _ => true) id c (outgoingSwept af s)) :=
  retimed_composes.trans (outgoingSwept_retimed hn af) (retimeItem_retimed ..)

variable {id} {e : Element} (he : findElement s id e.tag = some e) (hidle : e.tag ∈ tagsIn s id (· == .idle))
include he hidle

/-- With room for all IDLE elements of the taken item, each becomes ARMED (R120). -/
theorem scheduleTake_armed
    (hroom : s.sched.queue.length + (tagsIn s id (· == .idle)).length ≤ Config.armQueue) :
    ∃ q, ArmedEntry s id af (addFrames s.day af duration) e q
      ∧ StandsArmed id e q (scheduleTake id af duration s) := by
  have hretimed := takeRetimed hn id af ⟨af, addFrames s.day af duration⟩
  have hcontext := contextOf_retimeItem (fun _ => true) (id := id) ⟨af, addFrames s.day af duration⟩
    (s := outgoingSwept af s) (isSome_of_findElement ((outgoingSwept_retimed hn af).findElement id e.tag |>.trans he))
  rw [scheduleTake_eq, armIdle, hretimed.tagsIn]
  obtain ⟨q, hq, hstands⟩ := foldl_armElement_armed hcontext ((hretimed.findElement id e.tag).trans he)
    (by rwa [hretimed.length hn]) hidle
  exact ⟨q, hretimed.armedEntry hq, hstands⟩

/-- With the queue full, each waits (R116, R117). -/
theorem scheduleTake_waiting (hfull : Config.armQueue ≤ s.sched.queue.length) :
    StandsWaiting id e (scheduleTake id af duration s) := by
  have hretimed := takeRetimed hn id af ⟨af, addFrames s.day af duration⟩
  have hcontext := contextOf_retimeItem (fun _ => true) (id := id) ⟨af, addFrames s.day af duration⟩
    (s := outgoingSwept af s) (isSome_of_findElement ((outgoingSwept_retimed hn af).findElement id e.tag |>.trans he))
  rw [scheduleTake_eq, armIdle, hretimed.tagsIn]
  exact foldl_armElement_waiting hcontext ((hretimed.findElement id e.tag).trans he)
    (by rwa [hretimed.length hn]) hidle

end Schedule

/-- An entry of another item that the sweep leaves stands. -/
theorem mem_scheduleTake {s : State} {id o : StoryId} {af : Frame} (duration : Nat) (ho : onairId s = some o)
    {q : ArmEntry} (hq : q ∈ (sweepToEnd o af s).sched.queue) (hne : q.story ≠ id) :
    q ∈ (scheduleTake id af duration s).sched.queue := by
  have hswept : outgoingSwept af s = sweepToEnd o af s := by rw [outgoingSwept, ho, Option.map_some, Option.getD_some]
  rw [scheduleTake_eq, hswept]
  exact mem_foldl_armElement id _ (mem_retimeItem _ _ hq hne)

/-! ### The accepted take (R75) -/

theorem setShow_sched (m : ShowState) (s : State) : (setShow m s).sched = s.sched := by
  unfold setShow
  split
  · rfl
  · rfl

/-- The notices and the walk of a take leave the items and the arm queue. -/
theorem takeAnnounced_rest (s : State) : (setShow .running (raiseStandby (triggerWalk s))).items = s.items
    ∧ (setShow .running (raiseStandby (triggerWalk s))).sched = s.sched :=
  ⟨setShow_items .running (raiseStandby (triggerWalk s)), setShow_sched .running (raiseStandby (triggerWalk s))⟩

theorem takenUp_retimed (i : Item) (s : State) : Retimed s (takenUp i s) := by
  have h := modifyItem_retimed (f := Item.taken (addFrames s.day s.cfn (takeLead s i))) (fun _ => rfl) (fun _ => rfl)
    i.id s
  exact ⟨h.elements, rfl, rfl, rfl, h.keys⟩

section Accept

variable {s : State} {i : Item}

/-- The item on air stays the one on air when the STANDBY is taken. -/
theorem takenUp_onairItem (hids : (s.items.map Item.id).Nodup) (hi : standbyItem s = some i) :
    onairItem (takenUp i s) = onairItem s := by
  have hsame : ∀ x ∈ s.items, x.id = i.id → x = i := fun x hx hid =>
    List.inj_on_of_nodup_map hids hx (slotItem_mem hi) hid
  have hitems : (takenUp i s).items = changed i.id (Item.taken (addFrames s.day s.cfn (takeLead s i))) s.items := rfl
  have hlook : ∀ l : List Item, (∀ x ∈ l, x.id = i.id → x = i) →
      (changed i.id (Item.taken (addFrames s.day s.cfn (takeLead s i))) l).find? (fun x => x.state == .onair)
        = l.find? (fun x => x.state == .onair) := by
    intro l hl
    induction l with
    | nil => rfl
    | cons x l ih =>
      rw [changed_cons]
      have hrest := ih fun y hy => hl y (List.mem_cons_of_mem _ hy)
      by_cases hx : x.id = i.id
      · have hstate : x.state = .standby := hl x List.mem_cons_self hx ▸ slotItem_state hi
        rw [if_pos (beq_iff_eq.mpr hx), List.find?_cons_of_neg (by simp [Item.taken]),
          List.find?_cons_of_neg (by simp [hstate]), hrest]
      · rw [if_neg (by simpa using hx), List.find?_cons, List.find?_cons, hrest]
  rw [onairItem, onairItem, slotItem, slotItem, hitems]
  exact hlook s.items hsame

variable (hids : IdsUnique s) (hn : (entryKeys s).Nodup)
include hids hn

section Armed

variable (hi : i ∈ s.items) {e : Element} (he : e ∈ i.elements) (hidle : e.state = .idle)
include hi he hidle

omit hn in
theorem mem_idleTags : e.tag ∈ tagsIn (takenUp i s) i.id (· == .idle) := by
  obtain ⟨hitems, -, -⟩ := hids
  rw [(takenUp_retimed i s).tagsIn, tagsIn_eq (findItem_of_mem hitems hi)]
  exact List.mem_map_of_mem (List.mem_filter.mpr ⟨he, by simp [hidle]⟩)

/-- With room for all of them, an IDLE element of the taken item is ARMED against the air frame. -/
theorem acceptTake_armed (hroom : s.sched.queue.length + (i.elements.filter (fun x => x.state == .idle)).length
      ≤ Config.armQueue) :
    let af := addFrames s.day s.cfn (takeLead s i)
    ∃ q, ArmedEntry s i.id af (addFrames s.day af i.duration) e q ∧ StandsArmed i.id e q (acceptTake i s) := by
  have hup := takenUp_retimed i s
  have htags : (tagsIn (takenUp i s) i.id (· == .idle)).length
      = (i.elements.filter (fun x => x.state == .idle)).length := by
    rw [hup.tagsIn, tagsIn_eq (findItem_of_mem hids.1 hi), List.length_map]
  obtain ⟨q, hq, hstands⟩ := scheduleTake_armed (s := takenUp i s) hn (addFrames s.day s.cfn (takeLead s i)) i.duration
    ((hup.findElement i.id e.tag).trans (findElement_of_mem hids hi he)) (mem_idleTags hids hi he hidle)
    (by rwa [htags])
  refine ⟨q, hup.armedEntry hq, ?_⟩
  rw [acceptTake_eq]
  obtain ⟨hitems, hsched⟩ := takeAnnounced_rest
    (scheduleTake i.id (addFrames s.day s.cfn (takeLead s i)) i.duration (takenUp i s))
  exact (hstands.of_rest hitems hsched).closeShowEvent

/-- With the queue full, it waits. -/
theorem acceptTake_waiting (hfull : Config.armQueue ≤ s.sched.queue.length) :
    StandsWaiting i.id e (acceptTake i s) := by
  have hstands := scheduleTake_waiting (s := takenUp i s) hn (addFrames s.day s.cfn (takeLead s i)) i.duration
    (((takenUp_retimed i s).findElement i.id e.tag).trans (findElement_of_mem hids hi he))
    (mem_idleTags hids hi he hidle) hfull
  rw [acceptTake_eq]
  obtain ⟨hitems, hsched⟩ := takeAnnounced_rest
    (scheduleTake i.id (addFrames s.day s.cfn (takeLead s i)) i.duration (takenUp i s))
  exact (hstands.of_rest hitems hsched).closeShowEvent

end Armed

section Outgoing

variable (hi : standbyItem s = some i) {o : Item} (ho : onairItem s = some o)
include hi ho

omit hn in
/-- An entry that the sweep of the outgoing item leaves stands after the take. -/
theorem mem_acceptTake {q : ArmEntry} (hq : q.story = o.id)
    (hswept : q ∈ (sweepToEnd o.id (addFrames s.day s.cfn (takeLead s i)) (takenUp i s)).sched.queue) :
    q ∈ (acceptTake i s).sched.queue := by
  obtain ⟨hitems, -, -⟩ := hids
  have hne : o.id ≠ i.id := fun h => by
    have hsame := List.inj_on_of_nodup_map hitems (slotItem_mem ho) (slotItem_mem hi) h
    have hstate := slotItem_state ho
    rw [hsame, slotItem_state hi] at hstate
    cases hstate
  have hair : onairId (takenUp i s) = some o.id := by
    rw [onairId, takenUp_onairItem hitems hi, ho, Option.map_some]
  have hmem := mem_scheduleTake (id := i.id) i.duration hair hswept (hq ▸ hne)
  rw [acceptTake_eq]
  refine mem_closeShowEvent ?_
  obtain ⟨-, hsched⟩ := takeAnnounced_rest
    (scheduleTake i.id (addFrames s.day s.cfn (takeLead s i)) i.duration (takenUp i s))
  rwa [hsched]

variable {q : ArmEntry} (hq : q ∈ s.sched.queue) (hstory : q.story = o.id) {e : Element}
  (he : o.findElement q.tag = some e)
include hq hstory he

theorem acceptTake_start (hstart : e.anchor = .fromStart) : q ∈ (acceptTake i s).sched.queue := by
  have hlook : findElement (takenUp i s) o.id q.tag = some e := by
    rw [(takenUp_retimed i s).findElement, findElement, findItem_of_mem hids.1 (slotItem_mem ho)]
    exact he
  exact mem_acceptTake hids hi ho hstory (sweepToEnd_start (s := takenUp i s) hn hq hstory hlook hstart)

theorem acceptTake_end (hend : e.anchor = .fromEnd) : ∃ n,
    { retimed true (subFrames s.day (addFrames s.day s.cfn (takeLead s i)) e.offset) q s with seq := n }
      ∈ (acceptTake i s).sched.queue := by
  have hup := takenUp_retimed i s
  have hlook : findElement (takenUp i s) o.id q.tag = some e := by
    rw [hup.findElement, findElement, findItem_of_mem hids.1 (slotItem_mem ho)]
    exact he
  obtain ⟨n, hn'⟩ := sweepToEnd_end (s := takenUp i s) (stop := addFrames s.day s.cfn (takeLead s i)) hn hq hstory
    hlook hend
  rw [hup.retimed] at hn'
  exact ⟨n, mem_acceptTake hids hi ho hstory hn'⟩

end Outgoing

end Accept

/-- What an accepted take does to the arm queue (R116, R120, R121). -/
structure Scheduled (i : Item) (s t : State) : Prop where
  armed : ∀ e ∈ i.elements, e.state = .idle →
    s.sched.queue.length + (i.elements.filter (fun x => x.state == .idle)).length ≤ Config.armQueue →
    let af := addFrames s.day s.cfn (takeLead s i)
    ∃ q, ArmedEntry s i.id af (addFrames s.day af i.duration) e q ∧ StandsArmed i.id e q t
  waiting : ∀ e ∈ i.elements, e.state = .idle → Config.armQueue ≤ s.sched.queue.length → StandsWaiting i.id e t
  fromStart : ∀ (o : Item) (e : Element), onairItem s = some o → ∀ q ∈ s.sched.queue, q.story = o.id →
    o.findElement q.tag = some e → e.anchor = .fromStart → q ∈ t.sched.queue
  fromEnd : ∀ (o : Item) (e : Element), onairItem s = some o → ∀ q ∈ s.sched.queue, q.story = o.id →
    o.findElement q.tag = some e → e.anchor = .fromEnd → ∃ n,
      { retimed true (subFrames s.day (addFrames s.day s.cfn (takeLead s i)) e.offset) q s with seq := n }
        ∈ t.sched.queue

theorem acceptTake_scheduled {s : State} {i : Item} (hids : IdsUnique s) (harmed : ArmedOk s)
    (hi : standbyItem s = some i) : Scheduled i s (acceptTake i s) := by
  obtain ⟨hn, -⟩ := harmed
  exact {
    armed := fun _ he hidle hroom => acceptTake_armed hids hn (slotItem_mem hi) he hidle hroom
    waiting := fun _ he hidle hfull => acceptTake_waiting hids hn (slotItem_mem hi) he hidle hfull
    fromStart := fun _ _ ho _ hq hstory he hstart => acceptTake_start hids hn hi ho hq hstory he hstart
    fromEnd := fun _ _ ho _ hq hstory he hend => acceptTake_end hids hn hi ho hq hstory he hend }

/-! ### The request (R73) -/

section Carry

variable {s : State}

theorem carryTake_guard (h : GuardRuns s) :
    carryTake s = accept (beBytes 1 1 ++ beBytes 1 1 ++ idBytes (takingId s)) s := by
  rw [carryTake, judgeTake_guard h]

variable (hguard : ¬ GuardRuns s)
include hguard

theorem carryTake_taking {k : Item} (hk : takingItem s = some k) :
    carryTake s = accept (beBytes 1 1 ++ beBytes 1 2 ++ beBytes 4 k.id) s := by
  rw [carryTake, judgeTake_taking hguard hk]

variable (ht : takingItem s = none)
include ht

theorem carryTake_captured {i : Item} (hi : standbyItem s = some i) (hc : i.captured = true) :
    carryTake s = refuse .state s := by
  rw [carryTake, judgeTake_standby hguard ht hi, if_pos hc]

theorem carryTake_empty (hi : standbyItem s = none) : carryTake s = refuse .state s := by
  rw [carryTake, judgeTake_empty hguard ht hi]

theorem carryTake_accepted {i : Item} (hi : standbyItem s = some i) (hc : i.captured = false) :
    carryTake s = accept (beBytes 1 0 ++ beBytes 4 i.id ++ beBytes 3 (addFrames s.day s.cfn (takeLead s i))
      ++ beBytes 2 (takeLead s i)) (acceptTake i s) := by
  rw [carryTake, judgeTake_standby hguard ht hi, if_neg (ne_true_of_eq_false hc)]

end Carry

/-- Settles O43. -/
theorem takeMakesStandbyTaking : Obligations.TakeMakesStandbyTaking := by
  intro s rest hw
  dsimp only
  refine ⟨fun hguard => ?_, fun k hguard hk => ?_, fun hguard ht hcap => ?_, fun hguard ht hnone => ?_,
    fun i hguard ht hi hcap => ?_⟩
  · refine congrArg Host.Outcome.next (serve_accept (act := bodyless carryTake) hw ?_)
    exact carryTake_guard hguard
  · refine congrArg Host.Outcome.next (serve_accept (act := bodyless carryTake) hw ?_)
    exact carryTake_taking hguard hk
  · obtain ⟨i, hi, hcaptured⟩ : ∃ i, standbyItem (takeHead rest s) = some i ∧ i.captured = true := by
      simpa [standbyCaptured, Option.any_eq_true] using hcap
    refine congrArg Host.Outcome.next (serve_refuse (r := .state) (act := bodyless carryTake) hw ?_)
    exact carryTake_captured hguard ht hi hcaptured
  · refine congrArg Host.Outcome.next (serve_refuse (r := .state) (act := bodyless carryTake) hw ?_)
    exact carryTake_empty hguard ht hnone
  · have hserve := serve_accept (act := bodyless carryTake) hw (carryTake_accepted hguard ht hi hcap)
    clear hw
    revert hserve hguard ht hi hcap
    generalize takeHead rest s = s0
    intro hguard ht hi hcap hserve
    have htaken := acceptTake_taken i s0
    have hquiet := acceptTake_quiet i s0
    have hsched := fun hids harmed => acceptTake_scheduled (s := s0) hids harmed hi
    obtain ⟨j, hj, hstate, hcaptured, hnominated, hframe⟩ := acceptTake_item (slotItem_mem hi)
    generalize acceptTake i s0 = u at hserve htaken hquiet hsched hj
    refine ⟨_, j, congrArg Host.Outcome.next hserve, pushResponse_answered hquiet.responses .., hj, hstate, hframe,
      hnominated, hcaptured, htaken.mode, htaken.lastAdvance, htaken.cursor, congrArg Engine.inFlight htaken.engine,
      htaken.ports, hquiet.rundown, hquiet.revision, hquiet.requestFrame.trans (pushResponse_requestFrame ..),
      fun hids harmed => ⟨fun e he hidle => ⟨fun hroom => ?_, fun hfull => ?_⟩,
        fun o e ho q hq hstory hlook => ⟨fun hstart => ?_, fun hend => ?_⟩⟩⟩
    · obtain ⟨q, hq, hstands⟩ := (hsched hids harmed).armed e he hidle hroom
      exact ⟨hstands.element, q, hstands.entry, hq⟩
    · exact ((hsched hids harmed).waiting e he hidle hfull).element
    · exact (hsched hids harmed).fromStart o e ho q hq hstory hlook hstart
    · obtain ⟨n, hmem⟩ := (hsched hids harmed).fromEnd o e ho q hq hstory hlook hend
      exact ⟨_, hmem, congrArg (fun x : ArmEntry => { x with seq := q.seq }) (retimed_sweep _ q s0)⟩

end Sys2Proof.Machine
end

