-- ==== Sys2Proof/Proofs/RunPath.lean ====
section
/-! The run path (R91) and the walk over it (R92 to R98): what is recorded for each item, and how the back time of an
item and the over/under of the next junction go together (R95, R97). -/

namespace Sys2Proof.Machine

/-! ### Frames modulo the day -/

theorem State.day_pos (s : State) : 0 < s.day := by
  unfold State.day
  cases s.rtu.rate <;> decide

/-- A duration added to the second frame of a difference may be taken off the first (R2, R3). -/
theorem signedDiff_addFrames {day : Nat} (hday : 0 < day) (b p d : Nat) :
    signedDiff day b (addFrames day p d) = signedDiff day (subFrames day b d) p := by
  have hnonneg : 0 ≤ ((b : Int) - d) % day := Int.emod_nonneg _ (by omega)
  have hmod : ((b : Int) - (addFrames day p d : Nat)) % day = ((subFrames day b d : Nat) - (p : Int)) % day := by
    rw [addFrames, subFrames, Int.toNat_of_nonneg hnonneg, Int.natCast_emod, Nat.cast_add, Int.sub_emod_emod,
      Int.emod_sub_emod]
    congr 1
    omega
  simp only [signedDiff, hmod]

/-! ### The order of the run path (R91) -/

/-- The items of the run path by their places in it. -/
theorem runPath_cases {s : State} {x : Item} (hx : x ∈ runPath s) :
    onairItem s = some x ∨ takingItem s = some x ∨ standbyItem s = some x ∨ (x ∈ pathTail s ∧ x.state = .pending) := by
  simp only [runPath, List.mem_append, Option.mem_toList, List.mem_filter, waitsForAir, Bool.and_eq_true,
    beq_iff_eq] at hx
  obtain (h | h) | ⟨hmem, hstate, -⟩ := hx
  · exact .inl h
  · obtain ht | ⟨-, hb⟩ := Option.or_eq_some_iff.mp h
    · exact .inr (.inl ht)
    · exact .inr (.inr (.inl hb))
  · exact .inr (.inr (.inr ⟨hmem, hstate⟩))

theorem itemsAfter_sublist (id : StoryId) (l : List Item) : (itemsAfter id l).Sublist l := by
  induction l with
  | nil => exact List.Sublist.refl _
  | cons i l ih =>
    unfold itemsAfter
    split
    · exact List.sublist_cons_self ..
    · exact ih.cons i

theorem pathTail_sublist (s : State) : (pathTail s).Sublist s.items := by
  unfold pathTail
  split
  · exact itemsAfter_sublist ..
  · exact itemsAfter_sublist ..
  · unfold afterCursor
    split
    · exact List.Sublist.refl _
    · exact itemsAfter_sublist ..

theorem runPath_subset {s : State} {x : Item} (hx : x ∈ runPath s) : x ∈ s.items := by
  obtain h | h | h | ⟨h, -⟩ := runPath_cases hx
  · exact slotItem_mem h
  · exact slotItem_mem h
  · exact slotItem_mem h
  · exact (pathTail_sublist s).subset h

theorem runPath_eq (s : State) : runPath s = (onairItem s).toList ++ pathAfterOnair s := List.append_assoc ..

/-- The run path's item on air is that of the slot. -/
theorem onairItem_of_path {s : State} {x : Item} (hx : x ∈ runPath s) (hs : x.state = .onair) :
    onairItem s = some x := by
  obtain h | h | h | ⟨-, h⟩ := runPath_cases hx
  · exact h
  · cases hs.symm.trans (slotItem_state h)
  · cases hs.symm.trans (slotItem_state h)
  · cases hs.symm.trans h

/-- The run path's TAKING item is that of the slot. -/
theorem takingItem_of_path {s : State} {x : Item} (hx : x ∈ runPath s) (hs : x.state = .taking) :
    takingItem s = some x := by
  obtain h | h | h | ⟨-, h⟩ := runPath_cases hx
  · cases hs.symm.trans (slotItem_state h)
  · exact h
  · cases hs.symm.trans (slotItem_state h)
  · cases hs.symm.trans h

/-- Of two items of the run path the later one `x` is not on air, is TAKING behind the item on air alone, and is
another item. -/
structure Precedes (y x : Item) : Prop where
  notOnair : x.state ≠ .onair
  taking : x.state = .taking → y.state = .onair
  ne : y ≠ x

theorem Precedes.of_states {y x : Item} (hx : x.state ≠ .onair) (ht : x.state = .taking → y.state = .onair)
    (hne : y.state ≠ x.state) : Precedes y x := ⟨hx, ht, fun h => hne (congrArg Item.state h)⟩

theorem nextItem_state {s : State} {x : Item} (h : nextItem s = some x) : x.state = .taking ∨ x.state = .standby := by
  obtain ht | ⟨-, hb⟩ := Option.or_eq_some_iff.mp h
  · exact .inl (slotItem_state ht)
  · exact .inr (slotItem_state hb)

theorem runPath_ordered {s : State} (hids : (s.items.map Item.id).Nodup) : (runPath s).Pairwise Precedes := by
  have hone : ∀ o : Option Item, o.toList.Pairwise Precedes := by
    intro o
    cases o with
    | none => exact .nil
    | some x => exact List.pairwise_singleton ..
  have hpending : ∀ x ∈ (pathTail s).filter waitsForAir, x.state = .pending := by
    intro x hx
    simp only [List.mem_filter, waitsForAir, Bool.and_eq_true, beq_iff_eq] at hx
    exact hx.2.1
  have htail : ((pathTail s).filter waitsForAir).Pairwise Precedes := by
    have hnodup : ((pathTail s).filter waitsForAir).Nodup :=
      ((List.Nodup.of_map _ hids).sublist (pathTail_sublist s)).filter _
    refine hnodup.imp_of_mem fun {y x} _ hx hne => ⟨?_, ?_, hne⟩
    · rw [hpending x hx]
      decide
    · rw [hpending x hx]
      exact nofun
  unfold runPath
  rw [List.pairwise_append, List.pairwise_append]
  simp only [List.mem_append, Option.mem_toList]
  refine ⟨⟨hone _, hone _, fun y hy x hx => ?_⟩, htail, fun y hy x hx => ?_⟩
  · have hair : y.state = .onair := slotItem_state hy
    obtain hs | hs := nextItem_state hx
    all_goals exact .of_states (by simp [hs]) (fun _ => hair) (by simp [hair, hs])
  · have hs := hpending x hx
    refine .of_states (by simp [hs]) (by simp [hs]) ?_
    obtain hy | hy := hy
    · simp [slotItem_state hy, hs]
    · obtain hy | hy := nextItem_state hy
      all_goals simp [hy, hs]

/-- An item of the run path stands behind all items before it. -/
theorem precedes_of_split {s : State} (hids : (s.items.map Item.id).Nodup) {l r : List Item} {x : Item}
    (h : runPath s = l ++ x :: r) : ∀ y ∈ l, Precedes y x := by
  have hordered := runPath_ordered hids
  rw [h, List.pairwise_append] at hordered
  exact fun y hy => hordered.2.2 y hy x (List.mem_cons_self ..)

theorem precedes_later {s : State} (hids : (s.items.map Item.id).Nodup) {l r : List Item} {x : Item}
    (h : runPath s = l ++ x :: r) : ∀ y ∈ r, Precedes x y := by
  have hordered := runPath_ordered hids
  rw [h, List.pairwise_append, List.pairwise_cons] at hordered
  exact hordered.2.1.1

theorem mem_of_split {s : State} {l r : List Item} {x : Item} (h : runPath s = l ++ x :: r) : x ∈ runPath s := by
  simp [h]

/-- The ids of the items before an item of the run path are not its id. -/
theorem id_notMem_before {s : State} (hids : (s.items.map Item.id).Nodup) {l r : List Item} {x : Item}
    (h : runPath s = l ++ x :: r) : x.id ∉ l.map Item.id := by
  intro hmem
  obtain ⟨y, hy, hid⟩ := List.mem_map.mp hmem
  have hypath : y ∈ runPath s := by simp [h, hy]
  exact (precedes_of_split hids h y hy).ne
    (List.inj_on_of_nodup_map hids (runPath_subset hypath) (runPath_subset (mem_of_split h)) hid)

/-! ### One item of the walk (R93 to R97) -/

/-- The projected start PS of an item reached at the running frame `p`. -/
def startAt (p : Frame) (x : Item) : Frame :=
  match x.state with
  | .onair => x.airFrame.getD 0
  | .taking => x.airFrame.getD 0
  | _ => x.target.getD p

/-- The frame at which the show comes to an item reached at the running frame `p`: AF of a TAKING item, else `p`. -/
def reachedAt (p : Frame) (x : Item) : Frame := if x.state = .taking then x.airFrame.getD 0 else p

/-- The running frame behind an item reached at `p`. -/
def endAt (s : State) (p : Frame) (x : Item) : Frame :=
  if x.state = .onair then projectedEndOf s x else addFrames s.day (startAt p x) x.duration

/-- The item pins the path to its target (R95, R97). -/
def Item.pins (x : Item) : Bool := x.state != .onair && x.junction

theorem startAt_of_air {x : Item} (h : x.state = .onair ∨ x.state = .taking) (p : Frame) :
    startAt p x = x.airFrame.getD 0 := by
  obtain h | h := h
  all_goals simp [startAt, h]

theorem startAt_of_ne_air {x : Item} (ho : x.state ≠ .onair) (ht : x.state ≠ .taking) (p : Frame) :
    startAt p x = x.target.getD p := by
  unfold startAt
  split
  · exact absurd ‹_› ho
  · exact absurd ‹_› ht
  · rfl

theorem visitItem_eq (s : State) (p : Frame) (x : Item) (rest : List Item) : visitItem s p x rest =
    (⟨x.id, startAt p x, if x.state = .onair ∨ x.pins = true then none else latestStart s.day rest,
      if x.state = .onair then none else x.target.map (fun g => signedDiff s.day g (reachedAt p x))⟩,
      endAt s p x) := by
  have hpins : x.state ≠ .onair → x.pins = x.target.isSome := fun ho => by simp [Item.pins, Item.junction, ho]
  unfold visitItem
  split
  case h_1 hs => simp [startAt, endAt, hs]
  case h_2 hs =>
    split
    · rename_i ht
      simp [startAt, reachedAt, endAt, hpins, hs, ht]
    · rename_i ht
      simp [startAt, reachedAt, endAt, hpins, hs, ht]
  case h_3 ho hs =>
    replace ho : x.state ≠ .onair := ho
    replace hs : x.state ≠ .taking := hs
    split
    · rename_i ht
      simp [startAt_of_ne_air ho hs, reachedAt, endAt, hpins, ho, hs, ht]
    · rename_i ht
      simp [startAt_of_ne_air ho hs, endAt, hpins, ho, ht]

theorem Item.target_of_not_pins {x : Item} (ho : x.state ≠ .onair) (h : x.pins = false) : x.target = none := by
  simpa [Item.pins, ho, Item.junction] using h

/-- An item without a pin starts where the show comes to it. -/
theorem startAt_of_not_pins {x : Item} (ho : x.state ≠ .onair) (h : x.pins = false) (p : Frame) :
    startAt p x = reachedAt p x := by
  unfold reachedAt
  split
  · rename_i ht
    exact startAt_of_air (.inr ht) p
  · rename_i ht
    rw [startAt_of_ne_air ho ht, Item.target_of_not_pins ho h, Option.getD_none]

/-- PE of the item on air is where the show comes to the next item, AF of a TAKING one (R93). -/
theorem reachedAt_projectedEnd {s : State} (o : Item) {x : Item} (hx : x ∈ runPath s) :
    reachedAt (projectedEndOf s o) x = projectedEndOf s o := by
  unfold reachedAt
  split
  · rename_i hs
    rw [projectedEndOf, takingItem_of_path hx hs]
  · rfl

/-! ### Pins (R95, R97) -/

theorem Item.pins_eq_true {x : Item} (h : x.pins = true) :
    x.state ≠ .onair ∧ ∃ g, x.target = some g ∧ junctionTarget x = some g := by
  simp only [Item.pins, Item.junction, Bool.and_eq_true, bne_iff_ne, Option.isSome_iff_exists] at h
  obtain ⟨ho, g, hg⟩ := h
  exact ⟨ho, g, hg, by simp [junctionTarget, ho, hg]⟩

theorem Item.pins_eq_false {x : Item} (h : x.pins = false) : junctionTarget x = none := by
  unfold junctionTarget
  split
  · rfl
  · rename_i ho
    exact Item.target_of_not_pins (by simpa using ho) h

theorem latestStart_eq_none {day : Nat} {l : List Item} (h : ∀ y ∈ l, y.pins = false) : latestStart day l = none := by
  induction l with
  | nil => rfl
  | cons y l ih =>
    rw [List.forall_mem_cons] at h
    simp only [latestStart, Item.pins_eq_false h.1, ih h.2, Option.map_none]

theorem latestStart_cons {day : Nat} {x : Item} (h : x.pins = false) (l : List Item) :
    latestStart day (x :: l) = (latestStart day l).map (fun f => subFrames day f x.duration) := by
  simp only [latestStart, Item.pins_eq_false h]

/-- An item of the path that neither pins it nor stands on air or is taken. -/
structure Item.Floats (x : Item) : Prop where
  pins : x.pins = false
  notOnair : x.state ≠ .onair
  notTaking : x.state ≠ .taking

theorem Precedes.floats {y x : Item} (h : Precedes y x) (hy : y.state ≠ .onair) (hx : x.pins = false) : x.Floats :=
  ⟨hx, h.notOnair, fun hs => hy (h.taking hs)⟩

theorem endAt_of_floats {x : Item} (h : x.Floats) (s : State) (p : Frame) :
    endAt s p x = addFrames s.day p x.duration := by
  rw [endAt, if_neg h.notOnair, startAt_of_not_pins h.notOnair h.pins, reachedAt, if_neg h.notTaking]

/-- Over items without a pin, the difference of the next target and the frame reached there is that of the latest
start and the frame the items are reached at. -/
theorem latestStart_floats {s : State} {m r : List Item} {k : Item} {g : Frame} (hm : ∀ y ∈ m, y.Floats)
    (hk : junctionTarget k = some g) (p : Frame) : ∃ b, latestStart s.day (m ++ k :: r) = some b
      ∧ signedDiff s.day g (m.foldl (endAt s) p) = signedDiff s.day b p := by
  induction m generalizing p with
  | nil => exact ⟨g, by simp [latestStart, hk], rfl⟩
  | cons y m ih =>
    rw [List.forall_mem_cons] at hm
    obtain ⟨b, hb, hdiff⟩ := ih hm.2 (endAt s p y)
    refine ⟨subFrames s.day b y.duration, ?_, ?_⟩
    · rw [List.cons_append, latestStart_cons hm.1.pins, hb, Option.map_some]
    · rw [List.foldl_cons, hdiff, endAt_of_floats hm.1, signedDiff_addFrames s.day_pos]

/-- BT - PS of an item without a pin is the over/under of the next junction (R95, R97). -/
theorem backTime_eq_overUnder {s : State} {m r : List Item} {x k : Item} {g : Frame} (ho : x.state ≠ .onair)
    (hx : x.pins = false) (hm : ∀ y ∈ m, y.Floats) (hk : junctionTarget k = some g) (p : Frame) :
    ∃ b, latestStart s.day (x :: m ++ k :: r) = some b
      ∧ signedDiff s.day g ((x :: m).foldl (endAt s) p) = signedDiff s.day b (startAt p x) := by
  obtain ⟨b, hb, hdiff⟩ := latestStart_floats (s := s) (r := r) hm hk (endAt s p x)
  refine ⟨subFrames s.day b x.duration, ?_, ?_⟩
  · rw [List.cons_append, latestStart_cons hx, hb, Option.map_some]
  · rw [List.foldl_cons, hdiff, endAt, if_neg ho, signedDiff_addFrames s.day_pos]

/-! ### The next junction (R98) -/

theorem pathAfterOnair_split {s : State} {l r : List Item} {k : Item} (h : runPath s = l ++ k :: r)
    (hk : k.state ≠ .onair) : ∃ l', pathAfterOnair s = l' ++ k :: r ∧ l' ⊆ l := by
  rw [runPath_eq] at h
  cases ho : onairItem s with
  | none => exact ⟨l, by simpa [ho] using h, List.Subset.refl l⟩
  | some o =>
    rw [ho] at h
    cases l with
    | nil => exact absurd ((List.cons.inj h).1 ▸ slotItem_state ho) hk
    | cons y l => exact ⟨l, (List.cons.inj h).2, List.subset_cons_self y l⟩

theorem nextJunctionOf_split {s : State} {l r : List Item} {k : Item} {g : Frame} (h : pathAfterOnair s = l ++ k :: r)
    (hl : ∀ y ∈ l, y.pins = false) (hk : junctionTarget k = some g) (prs : List Projection) : nextJunctionOf s prs
      = some ⟨k.id, g, ((prs.find? (fun pr => pr.id == k.id)).bind Projection.overUnder).getD 0⟩ := by
  unfold nextJunctionOf
  rw [h]
  clear h
  induction l with
  | nil => simp [hk]
  | cons y l ih =>
    rw [List.forall_mem_cons] at hl
    simpa [Item.pins_eq_false hl.1] using ih hl.2

theorem nextJunctionOf_none {s : State} (h : ∀ y ∈ pathAfterOnair s, y.pins = false) (prs : List Projection) :
    nextJunctionOf s prs = none := by
  unfold nextJunctionOf
  rw [List.findSome?_eq_none_iff]
  intro y hy
  rw [Item.pins_eq_false (h y hy)]

/-! ### The whole walk -/

/-- The running frame behind the first items of the run path. -/
def walkedTo (s : State) (l : List Item) : Frame := l.foldl (endAt s) (walkAnchor s)

theorem walkedTo_append (s : State) (l m : List Item) : walkedTo s (l ++ m) = m.foldl (endAt s) (walkedTo s l) :=
  List.foldl_append

theorem walkedTo_concat (s : State) (l : List Item) (x : Item) :
    walkedTo s (l ++ [x]) = endAt s (walkedTo s l) x := walkedTo_append s l [x]

theorem walkFrom_cons (s : State) (p : Frame) (x : Item) (r : List Item) : walkFrom s p (x :: r) =
    ((visitItem s p x (x :: r)).1 :: (walkFrom s (endAt s p x) r).1, (walkFrom s (endAt s p x) r).2) := by
  rw [walkFrom, visitItem_eq]

theorem walkFrom_last (s : State) (p : Frame) (l : List Item) : (walkFrom s p l).2 = l.foldl (endAt s) p := by
  induction l generalizing p with
  | nil => rfl
  | cons x l ih => rw [walkFrom_cons, List.foldl_cons, ih]

theorem walkFrom_ids (s : State) (p : Frame) (l : List Item) :
    (walkFrom s p l).1.map Projection.id = l.map Item.id := by
  induction l generalizing p with
  | nil => rfl
  | cons x l ih => rw [walkFrom_cons, List.map_cons, List.map_cons, ih, visitItem_eq]

/-- What a walk records for an item that no item before it shares its id with. -/
theorem walkFrom_find {s : State} {x : Item} {l : List Item} (hx : x.id ∉ l.map Item.id) (r : List Item)
    (p : Frame) : (walkFrom s p (l ++ x :: r)).1.find? (fun pr => pr.id == x.id)
      = some (visitItem s (l.foldl (endAt s) p) x (x :: r)).1 := by
  induction l generalizing p with
  | nil => simp [walkFrom_cons, visitItem_eq]
  | cons y l ih =>
    rw [List.map_cons, List.mem_cons, not_or] at hx
    have hskip : ((visitItem s p y (y :: (l ++ x :: r))).1.id == x.id) = false := by
      simpa [visitItem_eq] using Ne.symm hx.1
    rw [List.cons_append, walkFrom_cons, List.find?_cons, hskip]
    exact ih hx.2 _

theorem walkFrom_find_none {s : State} {id : StoryId} {l : List Item} (h : id ∉ l.map Item.id) (p : Frame) :
    (walkFrom s p l).1.find? (fun pr => pr.id == id) = none := by
  rw [List.find?_eq_none]
  intro pr hpr hid
  rw [← walkFrom_ids s p l] at h
  exact h (List.mem_map.mpr ⟨pr, hpr, beq_iff_eq.mp hid⟩)

end Sys2Proof.Machine
end

