-- ==== Sys2Proof/Proofs/WalkResults.lean ====
section
/-! What a walk completion leaves in the items and the Timing Engine (R98, R99, R104): a capture in the same event
moves items between the slots and triggers the next walk, but writes no result. -/

namespace Sys2Proof.Machine

/-! ### Results stand -/

/-- The results of a walk for one item (R99). -/
def Item.results (i : Item) : StoryId × Option Frame × Option Frame × Option Int :=
  (i.id, i.projectedStart, i.backTime, i.overUnder)

/-- The results of the last completed walk are left alone: those of the items, and the engine's but for the flag of a
walk in flight. -/
structure ResultsStand (s t : State) : Prop where
  items : t.items.map Item.results = s.items.map Item.results
  engine : { t.engine with inFlight := false } = { s.engine with inFlight := false }

theorem resultsStand_composes : Composes ResultsStand where
  refl _ := ⟨rfl, rfl⟩
  trans h k := ⟨k.items.trans h.items, k.engine.trans h.engine⟩

/-- An item's results are of its core. -/
theorem results_of_cores {s t : State} (h : t.items.map Item.core = s.items.map Item.core) :
    t.items.map Item.results = s.items.map Item.results := by
  have hcore : ∀ l : List Item, l.map Item.results = (l.map Item.core).map Item.results := fun l => by
    rw [List.map_map]
    rfl
  rw [hcore, h, ← hcore]

theorem SameShow.resultsStand {s t : State} (h : SameShow s t) : ResultsStand s t :=
  ⟨results_of_cores h.cores, by rw [h.engine]⟩

theorem OnlyArmed.resultsStand {s t : State} (h : OnlyArmed s t) : ResultsStand s t := h.toSameShow.resultsStand

theorem modifyItem_results {f : Item → Item} (hf : ∀ i, (f i).results = i.results) (id : StoryId) (s : State) :
    (modifyItem id f s).items.map Item.results = s.items.map Item.results := by
  rw [modifyItem_items, List.map_map]
  refine List.map_congr_left fun i _ => ?_
  simp only [Function.comp_apply]
  split
  · exact hf i
  · rfl

/-! ### The capture test writes no result -/

theorem makeRoom_results (chosen : Option StoryId) (s : State) :
    (makeRoom chosen s).items.map Item.results = s.items.map Item.results := by
  unfold makeRoom
  split
  · split
    · rfl
    · exact modifyItem_results (by intro; rfl) ..
  · rfl

theorem chooseStandby_results (s : State) :
    (chooseStandby s).items.map Item.results = s.items.map Item.results := by
  by_cases hskip : (takingItem s).isSome = true ∨ standbyCaptured s = true
  · rw [chooseStandby_kept hskip]
  obtain ⟨ht, hc⟩ : takingItem s = none ∧ standbyCaptured s = false := by simpa using hskip
  rw [results_of_cores (chooseStandby_cores ht hc)]
  unfold standbySeated
  split
  · exact (modifyItem_results (by intro; rfl) ..).trans (makeRoom_results ..)
  · exact makeRoom_results ..

theorem outgoingEnded_results (af : Frame) (s t : State) :
    (outgoingEnded af s t).items.map Item.results = t.items.map Item.results := by
  unfold outgoingEnded
  cases onairId s with
  | none => rfl
  | some o => exact modifyItem_results (by intro; rfl) ..

theorem foldl_skipped_results (l : List StoryId) (s : State) :
    (l.foldl (fun t x => modifyItem x Item.skipped t) s).items.map Item.results = s.items.map Item.results := by
  induction l generalizing s with
  | nil => rfl
  | cons x l ih => exact (ih _).trans (modifyItem_results (by intro; rfl) ..)

theorem airTaken_results (path : AirPath) (id : StoryId) (af : Frame) (s : State) :
    (airTaken path id af s).items.map Item.results = s.items.map Item.results :=
  calc (airTaken path id af s).items.map Item.results
      = (outgoingEnded af s (airEntered id af s)).items.map Item.results := foldl_skipped_results ..
    _ = (airEntered id af s).items.map Item.results := outgoingEnded_results ..
    _ = (outgoingEnded af s s).items.map Item.results := modifyItem_results (f := Item.aired af) (by intro; rfl) id _
    _ = s.items.map Item.results := outgoingEnded_results ..

theorem enterAir_resultsStand (path : AirPath) (id : StoryId) (af : Frame) (s : State) :
    ResultsStand s (enterAir path id af s) := by
  have henter := enterAir_entersAir path id af s
  obtain ⟨u, hu, hcores⟩ := henter.chosen
  refine ⟨?_, by rw [henter.engine]⟩
  calc (enterAir path id af s).items.map Item.results
      = (chooseStandby u).items.map Item.results := results_of_cores hcores
    _ = u.items.map Item.results := chooseStandby_results u
    _ = (airTaken path id af s).items.map Item.results := results_of_cores hu.cores
    _ = s.items.map Item.results := airTaken_results ..

theorem captureJunction_resultsStand (j : Item) (s : State) : ResultsStand s (captureJunction j s) := by
  have hcapture := captureJunction_captured j s
  refine ⟨?_, by rw [hcapture.engine]⟩
  calc (captureJunction j s).items.map Item.results
      = (junctionCaptured j s).items.map Item.results := results_of_cores hcapture.cores
    _ = (makeRoom (some j.id) { s with seq := { s.seq with nomination := none } }).items.map Item.results :=
      modifyItem_results (by intro; rfl) ..
    _ = s.items.map Item.results := makeRoom_results ..

theorem captureTest_resultsStand (s : State) : ResultsStand s (captureTest s) := by
  unfold captureTest
  split
  · exact resultsStand_composes.refl s
  · exact Composes.ite
      (resultsStand_composes.trans (captureJunction_resultsStand ..) (resultsStand_composes.trans
        (raiseNotice_onlyArmed ..).resultsStand (enterAir_resultsStand ..)))
      (resultsStand_composes.trans (captureJunction_resultsStand ..) (closeShowEvent_onlyArmed _).resultsStand)

/-- Behind the walk's own results a walk completion writes none (R104). -/
theorem completeWalk_resultsStand (s : State) : ResultsStand (writeWalk s) (completeWalk s) :=
  resultsStand_composes.trans (retimeAtCompletion_onlyArmed _).resultsStand
    (resultsStand_composes.trans (captureTest_resultsStand _) (closeShowEvent_onlyArmed _).resultsStand)

/-- Without a capture, the completion of a walk leaves the sequencer and the ports alone, and no walk in flight. -/
theorem completeWalk_uncaptured {s : State} (h : captureDue (retimeAtCompletion (writeWalk s)) = none) :
    OnlyArmed (writeWalk s) (completeWalk s) ∧ Quiet s (completeWalk s) := by
  have hcomplete : completeWalk s = closeShowEvent (retimeAtCompletion (writeWalk s)) := by
    simp only [completeWalk, captureTest, h]
  rw [hcomplete]
  exact ⟨onlyArmed_composes.trans (retimeAtCompletion_onlyArmed _) (closeShowEvent_onlyArmed _),
    (writeWalk_quiet s).trans ((retimeAtCompletion_quiet _).trans (closeShowEvent_quiet _))⟩

/-! ### The results of a completed walk -/

/-- `t` holds the results of the walk over `s`. -/
structure Walked (s t : State) : Prop where
  stands : ResultsStand (writeWalk s) t
  rtu : t.rtu = s.rtu

theorem completeWalk_walked (s : State) : Walked s (completeWalk s) :=
  ⟨completeWalk_resultsStand s, (completeWalk_fixed s).rtu⟩

/-- What the walk records for the items of the run path. -/
def projections (s : State) : List Projection := (walkFrom s (walkAnchor s) (runPath s)).1

/-- The named item's results in `t`. -/
structure Recorded (t : State) (id : StoryId) (start back : Option Frame) (overUnder : Option Int) : Prop where
  start : (findItem t id).bind Item.projectedStart = start
  back : (findItem t id).bind Item.backTime = back
  overUnder : (findItem t id).bind Item.overUnder = overUnder

/-- What the walk records for an item of the run path (R93 to R97). -/
theorem projections_find {s : State} (hids : (s.items.map Item.id).Nodup) {l r : List Item} {x : Item}
    (hpath : runPath s = l ++ x :: r) : (projections s).find? (fun pr => pr.id == x.id)
      = some (visitItem s (walkedTo s l) x (x :: r)).1 := by
  rw [projections, hpath]
  exact walkFrom_find (id_notMem_before hids hpath) r _

section Walked

variable {s t : State} (h : Walked s t)
include h

theorem Walked.generation : t.engine.generation = (s.engine.generation + 1) % 65536 :=
  congrArg Engine.generation h.stands.engine

theorem Walked.path : t.engine.path = (runPath s).map Item.id := congrArg Engine.path h.stands.engine

theorem Walked.pathLength : t.engine.pathLength = (runPath s).length := congrArg Engine.pathLength h.stands.engine

theorem Walked.cleared : t.engine.cleared = false := congrArg Engine.cleared h.stands.engine

theorem Walked.pathEnd_eq : t.engine.pathEnd = if (runPath s).isEmpty then none else some (walkedTo s (runPath s)) := by
  rw [walkedTo, ← walkFrom_last]
  exact congrArg Engine.pathEnd h.stands.engine

theorem Walked.projectedEnd_eq : t.engine.projectedEnd = (onairItem s).map (projectedEndOf s) :=
  congrArg Engine.projectedEnd h.stands.engine

theorem Walked.mustEnd_eq : t.engine.mustEnd = (onairItem s).bind (fun _ => latestStart s.day (pathAfterOnair s)) :=
  congrArg Engine.mustEnd h.stands.engine

theorem Walked.nextJunction_eq : t.engine.nextJunction = nextJunctionOf s (projections s) :=
  congrArg Engine.nextJunction h.stands.engine

theorem Walked.findItem_results (id : StoryId) :
    (findItem t id).map Item.results = (findItem s id).map (fun i => (projectItem (projections s) i).results) := by
  have hlook : ∀ l : List Item, (l.find? (fun i => i.id == id)).map Item.results
      = (l.map Item.results).find? (fun r => r.1 == id) := fun l => by
    rw [List.find?_map]
    rfl
  have hid : ∀ i, ((projectItem (projections s) i).id == id) = (i.id == id) := fun i => by
    unfold projectItem
    split
    · rfl
    · rfl
  rw [findItem, hlook, h.stands.items, ← hlook]
  change ((s.items.map (projectItem (projections s))).find? _).map _ = _
  rw [List.find?_map, Option.map_map, show ((fun i => i.id == id) ∘ projectItem (projections s)) = fun i => i.id == id
    from funext hid]
  rfl

variable (hids : (s.items.map Item.id).Nodup)
include hids

theorem Walked.recorded {x : Item} (hx : x ∈ s.items) : Recorded t x.id
    (projectItem (projections s) x).projectedStart (projectItem (projections s) x).backTime
    (projectItem (projections s) x).overUnder := by
  have hlook := h.findItem_results x.id
  rw [findItem_of_mem hids hx, Option.map_some, Option.map_eq_some_iff] at hlook
  obtain ⟨j, hj, hresults⟩ := hlook
  simp only [Item.results, Prod.mk.injEq] at hresults
  obtain ⟨-, hstart, hback, hover⟩ := hresults
  exact ⟨by rw [hj]; exact hstart, by rw [hj]; exact hback, by rw [hj]; exact hover⟩

/-- Off the run path an item has no results (R99). -/
theorem Walked.recorded_off {x : Item} (hx : x ∈ s.items) (hoff : ∀ y ∈ runPath s, y.id ≠ x.id) :
    Recorded t x.id none none none := by
  have hnone : (projections s).find? (fun pr => pr.id == x.id) = none := by
    refine walkFrom_find_none (fun hmem => ?_) _
    obtain ⟨y, hy, hid⟩ := List.mem_map.mp hmem
    exact hoff y hy hid
  have hrec := h.recorded hids hx
  simpa only [projectItem, hnone] using hrec

variable {l r : List Item} {x : Item} (hpath : runPath s = l ++ x :: r)
include hpath

/-- The results of an item of the run path (R93 to R97, R99). -/
theorem Walked.recorded_on : Recorded t x.id (some (startAt (walkedTo s l) x))
    (if x.state = .onair ∨ x.pins = true then none else latestStart s.day (x :: r))
    (if x.state = .onair then none else x.target.map (fun g => signedDiff s.day g (reachedAt (walkedTo s l) x))) := by
  have hrec := h.recorded hids (runPath_subset (mem_of_split hpath))
  simpa only [projectItem, projections_find hids hpath, visitItem_eq] using hrec

/-- The end of an item of the run path is where the walk goes on. -/
theorem Walked.endOf_eq : endOf t x = some (walkedTo s (l ++ [x])) := by
  rw [walkedTo_concat, endAt, endOf]
  split
  · rename_i hs
    rw [h.projectedEnd_eq, onairItem_of_path (mem_of_split hpath) hs, Option.map_some]
  · rw [(h.recorded_on hids hpath).start, h.rtu]
    rfl

end Walked

/-! ### The statements of R91 to R98 -/

section Statements

variable {s t : State} (h : Walked s t) (hids : (s.items.map Item.id).Nodup)
include h hids

theorem Walked.pathEnd : t.engine.pathEnd = (runPath s).getLast?.bind (endOf t) := by
  rw [h.pathEnd_eq]
  obtain hnil | ⟨l, x, hpath⟩ := (runPath s).eq_nil_or_concat
  · simp [hnil]
  · rw [List.concat_eq_append] at hpath
    simp [hpath, h.endOf_eq hids hpath]

/-- The item on air (R93). -/
theorem Walked.onair {x : Item} (hx : x ∈ runPath s) (hs : x.state = .onair) :
    Recorded t x.id (some (x.airFrame.getD 0)) none none ∧ t.engine.projectedEnd = some (projectedEndOf s x) := by
  obtain ⟨l, r, hpath⟩ := List.append_of_mem hx
  have hrec := h.recorded_on hids hpath
  rw [startAt_of_air (.inl hs), if_pos (.inl hs), if_pos hs] at hrec
  exact ⟨hrec, by rw [h.projectedEnd_eq, onairItem_of_path hx hs, Option.map_some]⟩

/-- The TAKING item (R94, R95). -/
theorem Walked.taking {x : Item} (hx : x ∈ runPath s) (hs : x.state = .taking) :
    (findItem t x.id).bind Item.projectedStart = some (x.airFrame.getD 0)
      ∧ overUnderOf t x = x.target.map (fun g => signedDiff s.day g (x.airFrame.getD 0)) := by
  obtain ⟨l, r, hpath⟩ := List.append_of_mem hx
  have hrec := h.recorded_on hids hpath
  rw [startAt_of_air (.inr hs), reachedAt, if_pos hs, if_neg (by simp [hs] : x.state ≠ .onair)] at hrec
  exact ⟨hrec.start, hrec.overUnder⟩

section OnPath

variable {l r : List Item} {x : Item} (hpath : runPath s = l ++ x :: r)
include hpath

/-- An item neither on air nor taken starts at its target or at the running frame, and its over/under is the
difference of the two (R94, R95). -/
theorem Walked.awaited (ho : x.state ≠ .onair) (ht : x.state ≠ .taking) :
    (findItem t x.id).bind Item.projectedStart = some (x.target.getD (walkedTo s l))
      ∧ overUnderOf t x = x.target.map (fun g => signedDiff s.day g (walkedTo s l)) := by
  have hrec := h.recorded_on hids hpath
  rw [startAt_of_ne_air ho ht, reachedAt, if_neg ht, if_neg ho] at hrec
  exact ⟨hrec.start, hrec.overUnder⟩

/-- An item that pins the path has an over/under. -/
theorem Walked.overUnder_of_pins (hx : x.pins = true) : ∃ g u, x.target = some g ∧ junctionTarget x = some g
    ∧ overUnderOf t x = some u := by
  obtain ⟨ho, g, htarget, hg⟩ := x.pins_eq_true hx
  have hrec := (h.recorded_on hids hpath).overUnder
  rw [if_neg ho, htarget, Option.map_some] at hrec
  exact ⟨g, _, htarget, hg, hrec⟩

/-- An item that pins the path has no back time (R97). -/
theorem Walked.back_of_pins (hx : x.pins = true) : (findItem t x.id).bind Item.backTime = none := by
  rw [(h.recorded_on hids hpath).back, if_pos (.inr hx)]

/-- Without a junction at it or behind it an item has no back time (R97). -/
theorem Walked.back_of_no_pins (hnone : ∀ y ∈ x :: r, y.pins = false) :
    (findItem t x.id).bind Item.backTime = none := by
  rw [(h.recorded_on hids hpath).back, latestStart_eq_none hnone, ite_self]

end OnPath

/-- The first item of a path with nothing on air starts at its target or at PSF (R92, R95). -/
theorem Walked.first {x : Item} {r : List Item} (hpath : runPath s = x :: r) (ho : x.state ≠ .onair)
    (ht : x.state ≠ .taking) : (findItem t x.id).bind Item.projectedStart = some (x.target.getD s.seq.planStart)
      ∧ overUnderOf t x = x.target.map (fun g => signedDiff s.day g s.seq.planStart) := by
  have hanchor : walkedTo s [] = s.seq.planStart := by
    change walkAnchor s = _
    unfold walkAnchor
    split
    · rename_i i hi
      have hhead : i :: pathAfterOnair s = x :: r := by
        rw [← hpath, runPath_eq, hi]
        rfl
      exact absurd ((List.cons.inj hhead).1 ▸ slotItem_state hi) ho
    · rfl
  exact hanchor ▸ h.awaited hids (l := []) hpath ho ht

/-- An item behind another starts at its target or at the other's end (R94, R95). -/
theorem Walked.behind {l r : List Item} {a x : Item} (hpath : runPath s = l ++ a :: x :: r)
    (ht : x.state ≠ .taking) :
    (findItem t x.id).bind Item.projectedStart = (match x.target with
        | some g => some g
        | none => endOf t a)
      ∧ overUnderOf t x = x.target.bind (fun g => (endOf t a).map (fun u => signedDiff s.day g u)) := by
  have hx : runPath s = (l ++ [a]) ++ x :: r := by rw [hpath, List.append_assoc]; rfl
  have ho := (precedes_of_split hids hx a (by simp)).notOnair
  obtain ⟨hstart, hover⟩ := h.awaited hids hx ho ht
  rw [hstart, hover, h.endOf_eq hids hpath]
  cases x.target with
  | none => exact ⟨rfl, rfl⟩
  | some g => exact ⟨rfl, rfl⟩

/-- BT - PS is OU of the next junction (R97). -/
theorem Walked.back_overUnder {l m r : List Item} {x k : Item} (hpath : runPath s = l ++ x :: m ++ k :: r)
    (ho : x.state ≠ .onair) (hm : ∀ y ∈ x :: m, y.pins = false) (hk : k.pins = true) :
    ∃ b p, (findItem t x.id).bind Item.backTime = some b ∧ (findItem t x.id).bind Item.projectedStart = some p
      ∧ overUnderOf t k = some (signedDiff s.day b p) := by
  rw [List.forall_mem_cons] at hm
  have hlater := precedes_later hids (r := m ++ k :: r) (hpath.trans (List.append_assoc ..))
  have hfloats : ∀ y ∈ m, y.Floats := fun y hy => (hlater y (by simp [hy])).floats ho (hm.2 y hy)
  have hkt : k.state ≠ .taking := fun hs => ho ((hlater k (by simp)).taking hs)
  obtain ⟨hko, g, htarget, hg⟩ := k.pins_eq_true hk
  obtain ⟨b, hb, hdiff⟩ := backTime_eq_overUnder (s := s) (r := r) ho hm.1 hfloats hg (walkedTo s l)
  have hrec := h.recorded_on hids (r := m ++ k :: r) (hpath.trans (List.append_assoc ..))
  refine ⟨b, startAt (walkedTo s l) x, ?_, hrec.start, ?_⟩
  · rw [hrec.back, if_neg (by simp [ho, hm.1])]
    exact hb
  · rw [(h.awaited hids hpath hko hkt).2, htarget, Option.map_some, walkedTo_append, hdiff]

/-- ME - PE is OU of the next junction (R97). -/
theorem Walked.mustEnd_overUnder {m r : List Item} {o k : Item} (hpath : runPath s = o :: m ++ k :: r)
    (ho : o.state = .onair) (hm : ∀ y ∈ m, y.pins = false) (hk : k.pins = true) :
    ∃ me pe, t.engine.mustEnd = some me ∧ t.engine.projectedEnd = some pe
      ∧ overUnderOf t k = some (signedDiff s.day me pe) := by
  have hopath : o ∈ runPath s := by simp [hpath]
  have hslot := onairItem_of_path hopath ho
  have hafter : pathAfterOnair s = m ++ k :: r := by
    rw [runPath_eq, hslot] at hpath
    exact (List.cons.inj hpath).2
  have hpe : t.engine.projectedEnd = some (projectedEndOf s o) := (h.onair hids hopath ho).2
  have hreached : walkedTo s [o] = projectedEndOf s o := if_pos ho
  obtain ⟨hko, g, htarget, hg⟩ := k.pins_eq_true hk
  rw [h.mustEnd_eq, hslot, Option.bind_some, hafter]
  cases m with
  | nil =>
    have hover := (h.recorded_on hids (l := [o]) hpath).overUnder
    rw [if_neg hko, hreached, reachedAt_projectedEnd o (mem_of_split (l := [o]) hpath), htarget] at hover
    exact ⟨g, _, by simp [latestStart, hg], hpe, hover⟩
  | cons y m =>
    rw [List.forall_mem_cons] at hm
    have hypath : runPath s = [o] ++ y :: (m ++ k :: r) := hpath
    have hyo := (precedes_of_split hids hypath o (by simp)).notOnair
    have hlater := precedes_later hids hypath
    have hfloats : ∀ z ∈ m, z.Floats := fun z hz => (hlater z (by simp [hz])).floats hyo (hm.2 z hz)
    have hkt : k.state ≠ .taking := fun hs => hyo ((hlater k (by simp)).taking hs)
    obtain ⟨b, hb, hdiff⟩ := backTime_eq_overUnder (s := s) (r := r) hyo hm.1 hfloats hg (projectedEndOf s o)
    rw [startAt_of_not_pins hyo hm.1, reachedAt_projectedEnd o (mem_of_split hypath)] at hdiff
    refine ⟨b, _, hb, hpe, ?_⟩
    rw [(h.awaited hids hpath hko hkt).2, htarget, Option.map_some, ← hdiff]
    exact congrArg (fun p => some (signedDiff s.day g ((y :: m).foldl (endAt s) p))) hreached

/-- The first pin of the path is the next junction (R95, R98). -/
theorem Walked.nextJunction {l r : List Item} {k : Item} (hpath : runPath s = l ++ k :: r)
    (hl : ∀ y ∈ l, y.pins = false) (hk : k.pins = true) :
    ∃ g u, k.target = some g ∧ overUnderOf t k = some u ∧ t.engine.nextJunction = some ⟨k.id, g, u⟩ := by
  obtain ⟨g, u, htarget, hg, hover⟩ := h.overUnder_of_pins hids hpath hk
  refine ⟨g, u, htarget, hover, ?_⟩
  have hvisit : (visitItem s (walkedTo s l) k (k :: r)).1.overUnder = some u := by
    rw [visitItem_eq, ← hover]
    exact (h.recorded_on hids hpath).overUnder.symm
  obtain ⟨l', hafter, hsub⟩ := pathAfterOnair_split hpath (k.pins_eq_true hk).1
  rw [h.nextJunction_eq, nextJunctionOf_split hafter (fun y hy => hl y (hsub hy)) hg,
    projections_find hids hpath, Option.bind_some, hvisit]
  rfl

omit hids in
/-- Without a pin on the path there is neither a next junction nor a must-end (R97, R98). -/
theorem Walked.no_junction (hnone : ∀ y ∈ runPath s, y.pins = false) :
    t.engine.nextJunction = none ∧ t.engine.mustEnd = none := by
  have hafter : ∀ y ∈ pathAfterOnair s, y.pins = false := fun y hy => hnone y (by simp [runPath_eq, hy])
  rw [h.nextJunction_eq, h.mustEnd_eq, latestStart_eq_none hafter]
  exact ⟨nextJunctionOf_none hafter _, Option.bind_fun_none ..⟩

end Statements

/-! ### The completion -/

theorem exec_walkCompletion (s : State) : exec .walkCompletion s
    = if (settleTick s).engine.inFlight then .next (completeWalk (settleTick s)) else .next s := rfl

/-- Settles O49: a walk completion writes the results of the walk over the run path, and what follows it in the event
writes none. -/
theorem walkCompletionWritesResults : Obligations.WalkCompletionWritesResults := by
  unfold Obligations.WalkCompletionWritesResults
  intro s s1
  refine ⟨fun hidle => ?_, fun hflight => ?_⟩
  · rw [exec_walkCompletion, if_neg (by simpa using hidle)]
  have hw := completeWalk_walked s1
  refine ⟨completeWalk s1, by rw [exec_walkCompletion, if_pos hflight], hw.generation, completeWalk_fixed s1,
    fun hcapture => ?_, fun ⟨hids, _⟩ _ => ?_⟩
  · obtain ⟨harmed, hquiet⟩ := completeWalk_uncaptured hcapture
    exact ⟨congrArg Engine.inFlight harmed.engine, harmed.seq, harmed.ports, hquiet.groups⟩
  · intro day path start back pinned
    refine ⟨hw.path, hw.pathLength, hw.pathEnd hids, hw.cleared, fun x hx hoff => ?_, fun x hx hs => ?_,
      fun x hx hs => hw.taking hids hx hs, fun x r hpath ho ht => hw.first hids hpath ho ht,
      fun l r a x hpath ht => hw.behind hids hpath ht, fun x hx hpin => ?_,
      fun l m r x k hpath ho hm hk => hw.back_overUnder hids hpath ho hm hk,
      fun l r x hpath hnone => hw.back_of_no_pins hids hpath hnone,
      fun m r o k hpath ho hm hk => hw.mustEnd_overUnder hids hpath ho hm hk,
      fun l r k hpath hl hk => hw.nextJunction hids hpath hl hk, fun hnone => hw.no_junction hnone⟩
    · have hrec := hw.recorded_off hids hx hoff
      exact ⟨hrec.start, hrec.back, hrec.overUnder⟩
    · obtain ⟨hrec, hend⟩ := hw.onair hids hx hs
      exact ⟨hrec.start, hrec.back, hrec.overUnder, hend⟩
    · obtain ⟨l, r, hpath⟩ := List.append_of_mem hx
      exact hw.back_of_pins hids hpath hpin

end Sys2Proof.Machine
end

