-- ==== Sys2Proof/Proofs/Agreement.lean ====
section
/-! The arm queue and the elements in agreement, while an operation is under way. `Agrees X` is ids unique and
`ArmedOk`, but for the near-air and context demands on the items of `X`, which an operation has still to meet (R113,
R114, R116, R119, R134). -/

namespace Sys2Proof.Machine

/-! ### What the agreement is read off -/

/-- An element by its story id and tag. -/
abbrev Key := StoryId × Tag

/-- What of an entry the agreement is read off: its element, port and verb. -/
def ArmEntry.face (q : ArmEntry) : Key × Option (Fin 16) × Kind := (q.key, q.port, q.verb)

/-- The entries of the arm queue by their faces. -/
def faces (s : State) : List (Key × Option (Fin 16) × Kind) := s.sched.queue.map ArmEntry.face

/-- The state of the element that a key names. -/
def stateAt (s : State) (k : Key) : Option ElementState := (findElement s k.1 k.2).map Element.state

/-- The action of the element that a key names. -/
def actionAt (s : State) (k : Key) : Option Action := (findElement s k.1 k.2).map Element.action

/-- The element that the outstanding command of a port names (R134). -/
def attached (s : State) (p : Fin 16) : Option Key := s.ports[p].command.bind Outstanding.element

/-- An entry without a port is for an action without one, and a PULSE entry for a PULSE (R114). -/
def Action.Suits (a : Action) (f : Key × Option (Fin 16) × Kind) : Prop :=
  (f.2.1 = none → a.port = none) ∧ (f.2.2 = .pulse → a.kind = .pulse)

/-- An item near air as its elements and its state demand: a context for ARMED and WAITING elements and on air
(R113, R119). -/
structure Item.Fit (i : Item) : Prop where
  scheduled : ∀ e ∈ i.elements, e.state.scheduled = true → i.state.near = true ∧ i.context.isSome = true
  context : i.state = .onair ∨ i.state = .taking → i.context.isSome = true

/-- Ids are unique, each ARMED element has one entry, which suits it, the items outside `X` fit, and commands name
ISSUED elements, no two the same. -/
structure Agrees (X : Set StoryId) (s : State) : Prop where
  ids : IdsUnique s
  keys : (entryKeys s).Nodup
  standing : ∀ k, k ∈ entryKeys s ↔ stateAt s k = some .armed
  suits : ∀ f ∈ faces s, ∀ a, actionAt s f.1 = some a → a.Suits f
  fit : ∀ i ∈ s.items, i.id ∉ X → i.Fit
  issued : ∀ p k, attached s p = some k → stateAt s k = some .issued
  apart : ∀ p x k, attached s p = some k → attached s x = some k → p = x

theorem entryKeys_eq_faces (s : State) : entryKeys s = (faces s).map Prod.fst := by
  rw [faces, List.map_map]
  rfl

theorem mem_entryKeys {s : State} {k : Key} : k ∈ entryKeys s ↔ ∃ f ∈ faces s, f.1 = k := by
  rw [entryKeys_eq_faces, List.mem_map]

theorem mem_entryKeys_of_mem {s : State} {q : ArmEntry} (h : q ∈ s.sched.queue) : q.key ∈ entryKeys s :=
  List.mem_map_of_mem h

theorem face_mem_faces {s : State} {q : ArmEntry} (h : q ∈ s.sched.queue) : q.face ∈ faces s :=
  List.mem_map_of_mem h

theorem stateAt_of_mem {s : State} (hids : IdsUnique s) {i : Item} (hi : i ∈ s.items) {e : Element}
    (he : e ∈ i.elements) : stateAt s (i.id, e.tag) = some e.state := by
  rw [stateAt, findElement_of_mem hids hi he]
  rfl

/-- An element found stands in an item. -/
theorem mem_of_stateAt {s : State} {k : Key} {st : ElementState} (h : stateAt s k = some st) :
    ∃ i ∈ s.items, i.id = k.1 ∧ ∃ e ∈ i.elements, e.tag = k.2 ∧ e.state = st := by
  obtain ⟨e, he, hst⟩ := Option.map_eq_some_iff.mp h
  obtain ⟨i, hi, hie⟩ := Option.bind_eq_some_iff.mp he
  exact ⟨i, findItem_mem hi, findItem_id hi, e, List.mem_of_find?_eq_some hie,
    by simpa using List.find?_some hie, hst⟩

theorem stateAt_of_items {s t : State} (h : t.items = s.items) (k : Key) : stateAt t k = stateAt s k := by
  rw [stateAt, stateAt, findElement_of_items h]

theorem actionAt_of_items {s t : State} (h : t.items = s.items) (k : Key) : actionAt t k = actionAt s k := by
  rw [actionAt, actionAt, findElement_of_items h]

/-- With all items fit the agreement is that of the invariant. -/
theorem agrees_iff (s : State) : Agrees ∅ s ↔ IdsUnique s ∧ ArmedOk s := by
  constructor
  · intro h
    refine ⟨h.ids, h.keys, fun q hq => ?_, fun i hi e he harmed => ?_, fun i hi e he hwaits => ?_, fun i hi hs => ?_,
      fun p => ?_, fun p x hne heq => ?_⟩
    · obtain ⟨e, he, hst⟩ := Option.map_eq_some_iff.mp ((h.standing q.key).mp (mem_entryKeys_of_mem hq))
      have he' : findElement s q.story q.tag = some e := he
      obtain ⟨hport, hverb⟩ := h.suits q.face (face_mem_faces hq) e.action (by
        rw [actionAt]
        exact Option.map_eq_some_iff.mpr ⟨e, he, rfl⟩)
      have hp : q.port.isSome = true ∨ e.action.port = none := by
        cases hqp : q.port with
        | none => exact .inr (hport hqp)
        | some p => exact .inl rfl
      have hv : q.verb ≠ .pulse ∨ e.action.kind = .pulse := by
        by_cases hqv : q.verb = .pulse
        · exact .inr (hverb hqv)
        · exact .inl hqv
      simp [he', hst, hp, hv]
    · have hst := stateAt_of_mem h.ids hi he
      rw [harmed] at hst
      obtain ⟨q, hq, hkey⟩ := List.mem_map.mp ((h.standing _).mpr hst)
      obtain ⟨hnear, hcontext⟩ := (h.fit i hi (by simp)).scheduled e he (by rw [harmed]; rfl)
      exact ⟨hnear, hcontext, q, hq, congrArg Prod.fst hkey, congrArg Prod.snd hkey⟩
    · exact (h.fit i hi (by simp)).scheduled e he (by rw [hwaits]; rfl)
    · exact (h.fit i hi (by simp)).context hs
    · cases hp : s.ports[p].command.bind Outstanding.element with
      | none => rfl
      | some k =>
        obtain ⟨e, he, hst⟩ := Option.map_eq_some_iff.mp (h.issued p k hp)
        simp [he, hst]
    · cases hp : s.ports[p].command.bind Outstanding.element with
      | none => rfl
      | some k => exact absurd (h.apart p x k hp (heq.symm.trans hp)) hne
  · rintro ⟨hids, hkeys, hentries, harmed, hwaits, hcontext, hissued, hapart⟩
    refine ⟨hids, hkeys, fun k => ⟨fun hk => ?_, fun hk => ?_⟩, fun f hf a ha => ?_, fun i hi _ => ⟨fun e he hst => ?_,
      hcontext i hi⟩, fun p k hp => ?_, fun p x k hp hx => ?_⟩
    · obtain ⟨q, hq, rfl⟩ := List.mem_map.mp hk
      obtain ⟨e, he, hst⟩ := Option.any_eq_true _ _ |>.mp (hentries q hq)
      have hst : e.state = .armed := by simp at hst; exact hst.1.1
      exact Option.map_eq_some_iff.mpr ⟨e, he, hst⟩
    · obtain ⟨i, hi, hid, e, he, htag, hst⟩ := mem_of_stateAt hk
      obtain ⟨-, -, q, hq, hstory, htag'⟩ := harmed i hi e he hst
      have hkey : q.key = k := Prod.ext (hstory.trans hid) (htag'.trans htag)
      exact hkey ▸ mem_entryKeys_of_mem hq
    · obtain ⟨q, hq, rfl⟩ := List.mem_map.mp hf
      obtain ⟨e, he, hst⟩ := Option.any_eq_true _ _ |>.mp (hentries q hq)
      obtain ⟨e', he', rfl⟩ := Option.map_eq_some_iff.mp ha
      cases (show some e = some e' from he.symm.trans he')
      simp only [Bool.and_eq_true, Bool.or_eq_true, beq_iff_eq, bne_iff_ne, Option.isNone_iff_eq_none] at hst
      obtain ⟨⟨-, hport⟩, hverb⟩ := hst
      refine ⟨fun hnone => ?_, fun hpulse => hverb.resolve_left fun hne => hne hpulse⟩
      exact hport.resolve_left fun hsome => by
        rw [show q.port = none from hnone] at hsome
        cases hsome
    · cases hs : e.state with
      | armed => exact ⟨(harmed i hi e he hs).1, (harmed i hi e he hs).2.1⟩
      | waiting => exact hwaits i hi e he hs
      | idle => simp [hs, ElementState.scheduled] at hst
      | issued => simp [hs, ElementState.scheduled] at hst
      | done => simp [hs, ElementState.scheduled] at hst
      | missed => simp [hs, ElementState.scheduled] at hst
      | failed => simp [hs, ElementState.scheduled] at hst
    · have hall := hissued p
      rw [show s.ports[p].command.bind Outstanding.element = some k from hp] at hall
      obtain ⟨e, he, hst⟩ := Option.any_eq_true _ _ |>.mp hall
      exact Option.map_eq_some_iff.mpr ⟨e, he, by simpa using hst⟩
    · by_contra hne
      exact absurd (hp.symm.trans (hapart p x hne (hp.trans hx.symm))) (by simp)

/-! ### The agreement carried over -/

section Recast

variable {X Y : Set StoryId} {s t : State}

/-- What is outside the keys `K` stands, and what is within them agrees anew. -/
theorem Agrees.recast (h : Agrees X s) {K : Set Key} (hids : IdsUnique t)
    (hstate : ∀ k ∉ K, stateAt t k = stateAt s k) (haction : ∀ k ∉ K, k ∈ entryKeys s → actionAt t k = actionAt s k)
    (hkeys : (entryKeys t).Nodup) (hold : ∀ f ∈ faces t, f.1 ∉ K → f ∈ faces s)
    (hstay : ∀ f ∈ faces s, f.1 ∉ K → f ∈ faces t) (hanew : ∀ k ∈ K, k ∈ entryKeys t ↔ stateAt t k = some .armed)
    (hsuits : ∀ f ∈ faces t, f.1 ∈ K → ∀ a, actionAt t f.1 = some a → a.Suits f)
    (hfit : ∀ i ∈ t.items, i.id ∉ Y → i.Fit)
    (hrefs : ∀ p k, attached t p = some k → attached s p = some k ∧ k ∉ K) : Agrees Y t where
  ids := hids
  keys := hkeys
  standing k := by
    by_cases hk : k ∈ K
    · exact hanew k hk
    · rw [hstate k hk, ← h.standing k, mem_entryKeys, mem_entryKeys]
      constructor
      · rintro ⟨f, hf, rfl⟩
        exact ⟨f, hold f hf hk, rfl⟩
      · rintro ⟨f, hf, rfl⟩
        exact ⟨f, hstay f hf hk, rfl⟩
  suits f hf a ha := by
    by_cases hk : f.1 ∈ K
    · exact hsuits f hf hk a ha
    · have hold := hold f hf hk
      exact h.suits f hold a (haction _ hk (mem_entryKeys.mpr ⟨f, hold, rfl⟩) ▸ ha)
  fit := hfit
  issued p k hp := by
    obtain ⟨hp, hk⟩ := hrefs p k hp
    rw [hstate k hk]
    exact h.issued p k hp
  apart p x k hp hx := h.apart p x k (hrefs p k hp).1 (hrefs x k hx).1

/-- The agreement is read off the items, the faces and the commands' elements, of which some may be gone. -/
theorem Agrees.of_same (h : Agrees X s) (hitems : t.items = s.items) (hfaces : (faces t).Perm (faces s))
    (hrefs : ∀ p k, attached t p = some k → attached s p = some k) : Agrees X t := by
  have hids : IdsUnique t := by
    have hids := h.ids
    rwa [IdsUnique, ← hitems] at hids
  have hkeys : (entryKeys t).Nodup := by
    rw [entryKeys_eq_faces, (hfaces.map _).nodup_iff, ← entryKeys_eq_faces]
    exact h.keys
  exact h.recast (K := ∅) hids (fun k _ => stateAt_of_items hitems k) (fun k _ _ => actionAt_of_items hitems k) hkeys
    (fun f hf _ => hfaces.mem_iff.mp hf) (fun f hf _ => hfaces.mem_iff.mpr hf) (fun k hk => absurd hk (by simp))
    (fun f _ hk => absurd hk (by simp)) (fun i hi => h.fit i (hitems ▸ hi)) (fun p k hp => ⟨hrefs p k hp, by simp⟩)

/-- More items may be exempt, and one that fits need not be. -/
theorem Agrees.exempt (h : Agrees X s) (hfit : ∀ i ∈ s.items, i.id ∉ Y → i.id ∈ X → i.Fit) : Agrees Y s := by
  refine ⟨h.ids, h.keys, h.standing, h.suits, fun i hi hY => ?_, h.issued, h.apart⟩
  by_cases hX : i.id ∈ X
  · exact hfit i hi hY hX
  · exact h.fit i hi hX

theorem Agrees.mono (h : Agrees X s) (hXY : X ⊆ Y) : Agrees Y s :=
  h.exempt fun _ _ hY hX => absurd (hXY hX) hY

/-- No command names an element that is not ISSUED. -/
theorem Agrees.unattached (h : Agrees X s) {k : Key} (hk : stateAt s k ≠ some .issued) (p : Fin 16) :
    attached s p ≠ some k := fun hp => hk (h.issued p k hp)

end Recast

/-! ### Changes of items that leave the elements -/

theorem findElement_map_items {s t : State} {f : Item → Item} (hid : ∀ i, (f i).id = i.id)
    (helements : ∀ i, (f i).elements = i.elements) (hitems : t.items = s.items.map f) (id : StoryId) (tag : Tag) :
    findElement t id tag = findElement s id tag := by
  have hfind : findItem t id = (findItem s id).map f := by
    rw [findItem, findItem, hitems, List.find?_map]
    simp [hid]
  rw [findElement, findElement, hfind, Option.bind_map]
  refine Option.bind_congr fun i _ => ?_
  simp only [Function.comp_apply, Item.findElement, helements]

/-- What identifies the items and their elements. -/
def Item.roster (i : Item) : StoryId × List Tag := (i.id, i.elements.map Element.tag)

theorem IdsUnique.of_roster {s t : State} (h : IdsUnique s) (ht : t.items.map Item.roster = s.items.map Item.roster) :
    IdsUnique t := by
  obtain ⟨hids, hzero, htags⟩ := h
  have hmap (l : List Item) : l.map Item.id = (l.map Item.roster).map Prod.fst := by
    rw [List.map_map]
    rfl
  have hmem : ∀ i ∈ t.items, ∃ x ∈ s.items, x.roster = i.roster := fun i hi =>
    List.mem_map.mp (ht ▸ List.mem_map_of_mem hi)
  refine ⟨?_, fun i hi => ?_, fun i hi => ?_⟩
  · rw [hmap, ht, ← hmap]
    exact hids
  · obtain ⟨x, hx, heq⟩ := hmem i hi
    exact (show x.id = i.id from congrArg Prod.fst heq) ▸ hzero x hx
  · obtain ⟨x, hx, heq⟩ := hmem i hi
    exact (show x.elements.map Element.tag = i.elements.map Element.tag from congrArg Prod.snd heq) ▸ htags x hx

section MapItems

variable {X Y : Set StoryId} {s t : State} {f : Item → Item} (hid : ∀ i, (f i).id = i.id)
  (helements : ∀ i, (f i).elements = i.elements)
include hid helements

/-- Items changed but for ids and elements, as far as they fit. -/
theorem Agrees.mapItems (h : Agrees X s) (hitems : t.items = s.items.map f)
    (hqueue : t.sched.queue = s.sched.queue) (hports : t.ports = s.ports)
    (hfit : ∀ i ∈ s.items, i.id ∉ Y → (f i).Fit) : Agrees Y t := by
  have hfind := findElement_map_items hid helements hitems
  have hroster : t.items.map Item.roster = s.items.map Item.roster := by
    rw [hitems, List.map_map]
    exact List.map_congr_left fun i _ => by simp only [Function.comp_apply, Item.roster, hid, helements]
  have hfaces : faces t = faces s := by rw [faces, faces, hqueue]
  have hkeys : entryKeys t = entryKeys s := by rw [entryKeys, entryKeys, hqueue]
  refine h.recast (K := ∅) (h.ids.of_roster hroster) (fun k _ => by rw [stateAt, stateAt, hfind])
    (fun k _ _ => by rw [actionAt, actionAt, hfind]) (hkeys ▸ h.keys) (fun x hx _ => hfaces ▸ hx)
        (fun x hx _ => hfaces ▸ hx)
    (fun k hk => absurd hk (by simp)) (fun x _ hk => absurd hk (by simp)) (fun i hi hY => ?_)
    (fun p k hp => ⟨by rwa [attached, hports] at hp, by simp⟩)
  rw [hitems] at hi
  obtain ⟨x, hx, rfl⟩ := List.mem_map.mp hi
  exact hfit x hx (hid x ▸ hY)

/-- One item changed but for its id and elements. -/
theorem Agrees.modifyItem (h : Agrees X s) {id : StoryId} (hothers : ∀ x ∈ X, x ≠ id → x ∈ Y)
    (hself : id ∉ Y → ∀ i ∈ s.items, i.id = id → (f i).Fit) : Agrees Y (modifyItem id f s) := by
  refine h.mapItems (f := fun i => if i.id == id then f i else i) (fun i => ?_) (fun i => ?_) rfl rfl rfl
    (fun i hi hY => ?_)
  · split
    · exact hid i
    · rfl
  · split
    · exact helements i
    · rfl
  · split
    · rename_i hi'
      have hi' := beq_iff_eq.mp hi'
      exact hself (hi' ▸ hY) i hi hi'
    · rename_i hi'
      exact h.fit i hi fun hX => hY (hothers _ hX (by simpa using hi'))

end MapItems

/-! ### Changes of one element -/

section ModifyElement

variable {X : Set StoryId} {s t : State} {f : Element → Element} {id : StoryId} {tag : Tag}

/-- A change of an element that leaves its tag. -/
def KeepsTag (f : Element → Element) : Prop := ∀ e, (f e).tag = e.tag

theorem stateAt_modifyElement_ne (hf : KeepsTag f) {k : Key} (hk : k ≠ (id, tag)) :
    stateAt (modifyElement id tag f s) k = stateAt s k := by
  rw [stateAt, stateAt, findElement_modifyElement_ne hf id tag s hk]

theorem stateAt_modifyElement_same (hf : KeepsTag f) :
    stateAt (modifyElement id tag f s) (id, tag) = (findElement s id tag).map (fun e => (f e).state) := by
  rw [stateAt, findElement_modifyElement_same hf, Option.map_map]
  rfl

theorem actionAt_modifyElement_ne (hf : KeepsTag f) {k : Key} (hk : k ≠ (id, tag)) :
    actionAt (modifyElement id tag f s) k = actionAt s k := by
  rw [actionAt, actionAt, findElement_modifyElement_ne hf id tag s hk]

theorem modifyElement_modifyElement {g : Element → Element} (hf : KeepsTag f) :
    modifyElement id tag g (modifyElement id tag f s) = modifyElement id tag (fun e => g (f e)) s := by
  simp only [modifyElement, modifyItem, List.map_map]
  congr 1
  refine List.map_congr_left fun i _ => ?_
  by_cases hi : (i.id == id) = true
  · have helements : (i.elements.map (fun e => if e.tag == tag then f e else e)).map
        (fun e => if e.tag == tag then g e else e) = i.elements.map (fun e => if e.tag == tag then g (f e) else e) := by
      rw [List.map_map]
      refine List.map_congr_left fun e _ => ?_
      by_cases he : (e.tag == tag) = true
      · simp only [Function.comp_apply, he, hf e, if_true]
      · simp only [Function.comp_apply, he, if_false, Bool.false_eq_true]
    simp only [Function.comp_apply, hi, if_true, helements]
  · simp only [Function.comp_apply, hi, if_false, Bool.false_eq_true]

theorem IdsUnique.modifyElement (h : IdsUnique s) (hf : KeepsTag f) : IdsUnique (modifyElement id tag f s) := by
  refine h.of_roster ?_
  rw [Machine.modifyElement, modifyItem_items, List.map_map]
  refine List.map_congr_left fun i _ => ?_
  simp only [Function.comp_apply]
  split
  · simp only [Item.roster, List.map_map, Prod.mk.injEq, true_and]
    refine List.map_congr_left fun e _ => ?_
    simp only [Function.comp_apply]
    split
    · exact hf e
    · rfl
  · rfl

/-- An item fits after a change of one of its elements, if that is not scheduled or the item is near air with a
context. -/
theorem fit_modifyElement {Y : Set StoryId} (h : ∀ i ∈ s.items, i.id ∉ Y → i.Fit)
    (hnew : ∀ i ∈ s.items, i.id = id → ∀ e, (f e).state.scheduled = true →
      i.state.near = true ∧ i.context.isSome = true) :
    ∀ i ∈ (modifyElement id tag f s).items, i.id ∉ Y → i.Fit := by
  intro i hi hY
  obtain ⟨x, hx, rfl⟩ := List.mem_map.mp hi
  by_cases hxid : x.id = id
  · rw [if_pos (beq_iff_eq.mpr hxid)] at hY ⊢
    have hfit := h x hx hY
    refine ⟨fun e he hst => ?_, hfit.context⟩
    obtain ⟨y, hy, rfl⟩ := List.mem_map.mp he
    by_cases hytag : y.tag = tag
    · rw [if_pos (beq_iff_eq.mpr hytag)] at hst
      exact hnew x hx hxid y hst
    · rw [if_neg (by simpa using hytag)] at hst
      exact hfit.scheduled y hy hst
  · rw [if_neg (by simpa using hxid)] at hY ⊢
    exact h x hx hY

theorem faces_removeEntry (id : StoryId) (tag : Tag) (s : State) :
    faces (removeEntry id tag s) = (faces s).filter (fun f => f.1 != (id, tag)) := by
  rw [faces, faces, List.filter_map]
  refine congrArg _ (List.filter_congr fun q _ => ?_)
  rw [Bool.eq_iff_iff]
  simp [ArmEntry.isFor, ArmEntry.face, ArmEntry.key, imp_iff_not_or]

theorem faces_placeEntry (q : ArmEntry) (s : State) : (faces (placeEntry q s)).Perm (q.face :: faces s) :=
  (placeEntry_perm q s).map ArmEntry.face

theorem faces_filter_of_not_mem {k : Key} (h : k ∉ entryKeys s) :
    (faces s).filter (fun f => f.1 != k) = faces s := by
  refine List.filter_eq_self.mpr fun x hx => ?_
  have hk : x.1 ≠ k := fun hk => h (mem_entryKeys.mpr ⟨x, hx, hk⟩)
  simpa using hk

/-- An element that no command names changes, is not ARMED, and has no entry any more. -/
theorem Agrees.unplaced (h : Agrees X s) (hf : KeepsTag f) (hitems : t.items = (modifyElement id tag f s).items)
    (hfaces : faces t = (faces s).filter (fun f => f.1 != (id, tag))) (hports : t.ports = s.ports)
    (hfree : ∀ p, attached s p ≠ some (id, tag)) (hnot : ∀ e, (f e).state ≠ .armed)
    (hfit : ∀ i ∈ s.items, i.id = id → ∀ e, (f e).state.scheduled = true →
      i.state.near = true ∧ i.context.isSome = true) : Agrees X t := by
  have hmem : ∀ x, x ∈ faces t ↔ x ∈ faces s ∧ x.1 ≠ (id, tag) := fun x => by
    rw [hfaces, List.mem_filter, bne_iff_ne]
  refine h.recast (K := {(id, tag)}) ?_ (fun k hk => (stateAt_of_items hitems k).trans (stateAt_modifyElement_ne hf hk))
    (fun k hk _ => (actionAt_of_items hitems k).trans (actionAt_modifyElement_ne hf hk)) ?_
    (fun x hx _ => ((hmem x).mp hx).1) (fun x hx hk => (hmem x).mpr ⟨hx, hk⟩) ?_
    (fun x hx hk => absurd hk ((hmem x).mp hx).2) ?_ (fun p k hp => ?_)
  · rw [IdsUnique, hitems]
    exact h.ids.modifyElement hf
  · rw [entryKeys_eq_faces, hfaces]
    exact ((List.filter_sublist).map _).nodup (entryKeys_eq_faces s ▸ h.keys)
  · rintro k rfl
    refine ⟨fun hk => ?_, fun hk => ?_⟩
    · obtain ⟨x, hx, hxk⟩ := mem_entryKeys.mp hk
      exact absurd hxk ((hmem x).mp hx).2
    · rw [stateAt_of_items hitems, stateAt_modifyElement_same hf] at hk
      obtain ⟨e, -, he⟩ := Option.map_eq_some_iff.mp hk
      exact absurd he (hnot e)
  · rw [hitems]
    exact fit_modifyElement h.fit hfit
  · rw [attached, hports] at hp
    exact ⟨hp, fun hk => hfree p (hk ▸ hp)⟩

/-- An element found that no command names changes, is ARMED, and has one entry, which suits it. -/
theorem Agrees.placed (h : Agrees X s) (hf : KeepsTag f) (hitems : t.items = (modifyElement id tag f s).items)
    {q : ArmEntry} (hfaces : (faces t).Perm (q.face :: (faces s).filter (fun f => f.1 != (id, tag))))
    (hports : t.ports = s.ports) {e : Element} (he : findElement s id tag = some e)
    (hfree : ∀ p, attached s p ≠ some (id, tag)) (harmed : (f e).state = .armed)
    (hfit : ∀ i ∈ s.items, i.id = id → i.state.near = true ∧ i.context.isSome = true) (hkey : q.key = (id, tag))
    (hsuits : (f e).action.Suits q.face) : Agrees X t := by
  have hface : q.face.1 = (id, tag) := hkey
  have hmem : ∀ x, x ∈ faces t ↔ x = q.face ∨ (x ∈ faces s ∧ x.1 ≠ (id, tag)) := fun x => by
    rw [hfaces.mem_iff, List.mem_cons, List.mem_filter, bne_iff_ne]
  refine h.recast (K := {(id, tag)}) ?_ (fun k hk => (stateAt_of_items hitems k).trans (stateAt_modifyElement_ne hf hk))
    (fun k hk _ => (actionAt_of_items hitems k).trans (actionAt_modifyElement_ne hf hk)) ?_ (fun x hx hk => ?_)
    (fun x hx hk => (hmem x).mpr (.inr ⟨hx, hk⟩)) ?_ (fun x hx hk a ha => ?_) ?_ (fun p k hp => ?_)
  · rw [IdsUnique, hitems]
    exact h.ids.modifyElement hf
  · rw [entryKeys_eq_faces, (hfaces.map _).nodup_iff, List.map_cons, hface, List.nodup_cons]
    refine ⟨fun hin => ?_, ((List.filter_sublist).map _).nodup (entryKeys_eq_faces s ▸ h.keys)⟩
    obtain ⟨x, hx, hxk⟩ := List.mem_map.mp hin
    exact absurd hxk (bne_iff_ne.mp (List.mem_filter.mp hx).2)
  · obtain rfl | ⟨hx, -⟩ := (hmem x).mp hx
    · exact absurd hface hk
    · exact hx
  · rintro k rfl
    refine ⟨fun _ => ?_, fun _ => mem_entryKeys.mpr ⟨q.face, (hmem _).mpr (.inl rfl), hface⟩⟩
    rw [stateAt_of_items hitems, stateAt_modifyElement_same hf, he, Option.map_some, harmed]
  · obtain rfl | ⟨-, hne⟩ := (hmem x).mp hx
    · rw [hface, actionAt_of_items hitems, actionAt, findElement_modifyElement_same hf, he] at ha
      exact Option.some.inj ha ▸ hsuits
    · exact absurd hk hne
  · rw [hitems]
    exact fit_modifyElement h.fit fun i hi hid _ _ => hfit i hi hid
  · rw [attached, hports] at hp
    exact ⟨hp, fun hk => hfree p (hk ▸ hp)⟩

/-- An element that no command names leaves the queue for a state that is neither ARMED nor WAITING. -/
theorem Agrees.settle (h : Agrees X s) (hf : KeepsTag f) (hout : ∀ e, (f e).state.scheduled = false)
    (hfree : ∀ p, attached s p ≠ some (id, tag)) :
    Agrees X (removeEntry id tag (modifyElement id tag f s)) := by
  refine h.unplaced hf rfl (faces_removeEntry id tag (Machine.modifyElement id tag f s)) rfl hfree (fun e ha => ?_)
    fun _ _ _ e hst => absurd ((hout e).symm.trans hst) (by simp)
  have := hout e
  rw [ha] at this
  cases this

/-- An element that has no entry and that no command names takes such a state. -/
theorem Agrees.settle_unqueued (h : Agrees X s) (hf : KeepsTag f) (hout : ∀ e, (f e).state.scheduled = false)
    (hfree : ∀ p, attached s p ≠ some (id, tag)) (hnot : stateAt s (id, tag) ≠ some .armed) :
    Agrees X (Machine.modifyElement id tag f s) := by
  refine (h.settle (id := id) (tag := tag) hf hout hfree).of_same rfl ?_ (fun _ _ hp => hp)
  rw [faces_removeEntry]
  exact .of_eq (faces_filter_of_not_mem (s := s) fun hk => hnot ((h.standing _).mp hk)).symm

/-- An element found that has no entry and that no command names is armed: it becomes ARMED, and an entry is placed. -/
theorem Agrees.armed (h : Agrees X s) {st : ElementState} (hst : stateAt s (id, tag) = some st) (hnot : st ≠ .armed)
    (hfree : ∀ p, attached s p ≠ some (id, tag)) (hfit : ∀ i ∈ s.items, i.id = id → i.state.near = true
      ∧ i.context.isSome = true) {q : ArmEntry} (hkey : q.key = (id, tag))
    (hsuits : ∀ e, findElement s id tag = some e → e.action.Suits q.face) :
    Agrees X (placeEntry q (withState id tag .armed s)) := by
  obtain ⟨e, he, -⟩ := Option.map_eq_some_iff.mp hst
  have hnew : (id, tag) ∉ entryKeys s := by
    rw [h.standing, hst]
    exact fun heq => hnot (Option.some.inj heq)
  refine h.placed (f := fun e => { e with state := .armed }) (fun _ => rfl) rfl ?_ rfl he hfree rfl hfit hkey
      (hsuits e he)
  rw [faces_filter_of_not_mem hnew]
  exact faces_placeEntry q (withState id tag .armed s)

/-- An element that has no entry and that no command names becomes WAITING. -/
theorem Agrees.waits (h : Agrees X s) (hnot : stateAt s (id, tag) ≠ some .armed)
    (hfree : ∀ p, attached s p ≠ some (id, tag)) (hfit : ∀ i ∈ s.items, i.id = id → i.state.near = true
      ∧ i.context.isSome = true) : Agrees X (withState id tag .waiting s) :=
  h.unplaced (f := fun e => { e with state := .waiting }) (fun _ => rfl) rfl
    (faces_filter_of_not_mem fun hk => hnot ((h.standing _).mp hk)).symm rfl hfree (fun _ => by simp)
    fun i hi hid _ _ => hfit i hi hid

end ModifyElement

end Sys2Proof.Machine
end

