-- ==== Sys2Proof/Proofs/QueueKept.lean ====
section
/-! The Cue Scheduler's operations keep the bound of the arm queue and its agreement with the elements: arming,
withdrawing and re-timing (R114 to R123). -/

namespace Sys2Proof.Machine

/-! ### Operations that keep bound and agreement -/

/-- The queue stays within its bound, and agrees with the elements whichever items are exempt. -/
structure Keeps (s t : State) : Prop where
  bounded : QueueBounded s → QueueBounded t
  agrees : ∀ X, Agrees X s → Agrees X t

theorem keeps_composes : Composes Keeps where
  refl _ := ⟨id, fun _ => id⟩
  trans h k := ⟨fun b => k.bounded (h.bounded b), fun X a => k.agrees X (h.agrees X a)⟩

/-- The bound alone. -/
abbrev KeepsBound (s t : State) : Prop := QueueBounded s → QueueBounded t

theorem keepsBound_composes : Composes KeepsBound where
  refl _ := id
  trans h k b := k (h b)

theorem KeepsBound.of_length {s t : State} (h : t.sched.queue.length ≤ s.sched.queue.length) : KeepsBound s t :=
  fun b => h.trans b

/-- What leaves the items, the arm queue and the commands' elements, or takes some of the last away. -/
theorem Keeps.of_refs {s t : State} (hitems : t.items = s.items) (hqueue : t.sched.queue = s.sched.queue)
    (hrefs : ∀ p k, attached t p = some k → attached s p = some k) : Keeps s t where
  bounded := KeepsBound.of_length (hqueue ▸ le_rfl)
  agrees _ h := h.of_same hitems (by rw [faces, faces, hqueue]) hrefs

theorem Keeps.of_parts {s t : State} (hitems : t.items = s.items) (hqueue : t.sched.queue = s.sched.queue)
    (hports : t.ports = s.ports) : Keeps s t :=
  .of_refs hitems hqueue fun p k hp => by rwa [attached, hports] at hp

theorem Agrees.of_parts {X : Set StoryId} {s t : State} (h : Agrees X s) (hitems : t.items = s.items)
    (hqueue : t.sched.queue = s.sched.queue) (hports : t.ports = s.ports) : Agrees X t :=
  (Keeps.of_parts hitems hqueue hports).agrees X h

theorem raiseNotice_keeps (k : NoticeKind) (a b c d : Nat) (s : State) : Keeps s (raiseNotice k a b c d s) :=
  .of_parts rfl rfl rfl

theorem raiseMissed_keeps (id : StoryId) (tag : Tag) (s : State) : Keeps s (raiseMissed id tag s) := by
  unfold raiseMissed
  split
  · exact keeps_composes.refl s
  · exact .of_parts rfl rfl rfl

theorem renderAll_keeps (s : State) : Keeps s (renderAll s) := by
  obtain ⟨displays, hrest⟩ : ∃ v, renderAll s = { s with displays := v } := ⟨_, (renderAll_redrawn s).rest⟩
  rw [hrest]
  exact .of_parts rfl rfl rfl

/-- A change of one item but for its id and elements, after which it fits if it did before. -/
theorem modifyItem_keeps {f : Item → Item} (hid : ∀ i, (f i).id = i.id) (helements : ∀ i, (f i).elements = i.elements)
    {id : StoryId} {s : State} (hfit : ∀ i ∈ s.items, i.id = id → i.Fit → (f i).Fit) : Keeps s (modifyItem id f s) where
  bounded b := b
  agrees _ h := h.modifyItem hid helements (fun _ hx _ => hx) fun hX i hi hiid =>
    hfit i hi hiid (h.fit i hi (hiid ▸ hX))

/-! ### What holds of the state of the item with an id -/

/-- The item with the id, if there is one, is in such a state. -/
def StateOf (s : State) (id : StoryId) (P : ItemState → Prop) : Prop := ∀ i ∈ s.items, i.id = id → P i.state

theorem StateOf.of_cores {s t : State} {id : StoryId} {P : ItemState → Prop} (h : StateOf s id P)
    (hcores : t.items.map Item.core = s.items.map Item.core) : StateOf t id P := by
  intro i hi hid
  obtain ⟨x, hx, hcore⟩ := List.mem_map.mp (hcores ▸ List.mem_map_of_mem hi : i.core ∈ s.items.map Item.core)
  have hxid : x.id = i.id := show x.core.id = i.core.id from congrArg Item.id hcore
  have hxst : x.state = i.state := show x.core.state = i.core.state from congrArg Item.state hcore
  exact hxst ▸ h x hx (hxid.trans hid)

theorem StateOf.of_sameShow {s t : State} {id : StoryId} {P : ItemState → Prop} (h : StateOf s id P)
    (hst : SameShow s t) : StateOf t id P := h.of_cores hst.cores

theorem StateOf.imp {s : State} {id : StoryId} {P Q : ItemState → Prop} (h : StateOf s id P) (hPQ : ∀ st, P st → Q st) :
    StateOf s id Q := fun i hi hid => hPQ _ (h i hi hid)

theorem StateOf.modifyItem_self {s : State} {id : StoryId} {P : ItemState → Prop} {f : Item → Item}
    (hP : ∀ i, P (f i).state) : StateOf (modifyItem id f s) id P := by
  intro i hi hiid
  obtain ⟨x, -, rfl⟩ := List.mem_map.mp hi
  by_cases hx : x.id = id
  · rw [if_pos (beq_iff_eq.mpr hx)]
    exact hP x
  · rw [if_neg (by simpa using hx)] at hiid
    exact absurd hiid hx

theorem StateOf.modifyItem_ne {s : State} {id y : StoryId} {P : ItemState → Prop} (h : StateOf s y P) {f : Item → Item}
    (hid : ∀ i, (f i).id = i.id) (hne : y ≠ id) : StateOf (modifyItem id f s) y P := by
  intro i hi hiid
  obtain ⟨x, hx, rfl⟩ := List.mem_map.mp hi
  by_cases hxid : x.id = id
  · rw [if_pos (beq_iff_eq.mpr hxid), hid] at hiid
    exact absurd (hiid.symm.trans hxid) hne
  · rw [if_neg (by simpa using hxid)] at hiid ⊢
    exact h x hx hiid

/-- A change of any item to a state of which `P` holds. -/
theorem StateOf.modifyItem {s : State} {id y : StoryId} {P : ItemState → Prop} (h : StateOf s y P) {f : Item → Item}
    (hid : ∀ i, (f i).id = i.id) (hP : ∀ i, P (f i).state) : StateOf (Machine.modifyItem id f s) y P := by
  by_cases hy : y = id
  · exact hy ▸ StateOf.modifyItem_self hP
  · exact h.modifyItem_ne hid hy

/-- With ids unique the item found speaks for its id. -/
theorem StateOf.of_mem {s : State} (hids : IdsUnique s) {i : Item} (hi : i ∈ s.items) {P : ItemState → Prop}
    (h : P i.state) : StateOf s i.id P := fun _ hx hid =>
  (List.inj_on_of_nodup_map hids.1 hx hi hid) ▸ h

/-- Near air. -/
abbrev Near (s : State) (id : StoryId) : Prop := StateOf s id (fun st => st.near = true)

theorem near_modifyItem {s : State} {id : StoryId} {f : Item → Item} (hf : ∀ i, (f i).state.near = true) :
    Near (modifyItem id f s) id := StateOf.modifyItem_self (P := fun st => st.near = true) hf

/-! ### Arming (R116) -/

theorem armElement_keepsBound (id : StoryId) (tag : Tag) (s : State) : KeepsBound s (armElement id tag s) := by
  intro hs
  obtain h | ⟨hroom, -⟩ | ⟨-, h⟩ := armElement_cases id tag s
  · rwa [h]
  · exact (armElement_length id tag).trans hroom
  · rwa [h]

/-- An IDLE or WAITING element of an item near air. -/
structure Ready (s : State) (k : Key) : Prop where
  near : Near s k.1
  state : stateAt s k = some .idle ∨ stateAt s k = some .waiting

theorem newEntry_suits (s : State) (id : StoryId) (c : ArmContext) (e : Element) :
    e.action.Suits (newEntry s id c e).face := ⟨fun h => h, fun h => h⟩

/-- A ready element is armed or waits. -/
theorem Agrees.armElement {X : Set StoryId} {s : State} {id : StoryId} {tag : Tag} (h : Agrees X s)
    (hready : Ready s (id, tag)) : Agrees X (armElement id tag s) := by
  obtain ⟨st, hst, hnot, hissued⟩ : ∃ st, stateAt s (id, tag) = some st ∧ st ≠ .armed ∧ st ≠ .issued := by
    obtain hst | hst := hready.state
    · exact ⟨_, hst, by decide, by decide⟩
    · exact ⟨_, hst, by decide, by decide⟩
  have hfree := h.unattached (k := (id, tag)) (by rw [hst]; simpa using hissued)
  obtain ⟨e, he, -⟩ := Option.map_eq_some_iff.mp hst
  obtain ⟨i, hi, hie⟩ := Option.bind_eq_some_iff.mp (show findElement s id tag = some e from he)
  cases hc : i.context with
  | none =>
    rw [armElement_no_context hi hc]
    exact h
  | some c =>
    have hfit : ∀ x ∈ s.items, x.id = id → x.state.near = true ∧ x.context.isSome = true := fun x hx hxid => by
      refine ⟨hready.near x hx hxid, ?_⟩
      obtain rfl := List.inj_on_of_nodup_map h.ids.1 hx (findItem_mem hi) (hxid.trans (findItem_id hi).symm)
      rw [hc]
      rfl
    have htag : e.tag = tag := by simpa using List.find?_some hie
    by_cases hroom : s.sched.queue.length < Config.armQueue
    · rw [armElement_room hi hc hie hroom]
      refine h.armed hst hnot hfree hfit (by rw [← htag]; rfl) fun e' he' => ?_
      cases he.symm.trans he'
      exact newEntry_suits s id c e
    · rw [armElement_full hi hc hie (Nat.not_lt.mp hroom)]
      exact h.waits (by rw [hst]; simpa using hnot) hfree hfit

theorem Ready.armElement {s : State} {k : Key} (h : Ready s k) {id : StoryId} {tag : Tag} (hne : k ≠ (id, tag)) :
    Ready (armElement id tag s) k := by
  have hst : stateAt (Machine.armElement id tag s) k = stateAt s k := by
    rw [stateAt, stateAt, findElement_armElement_ne id tag hne]
  exact ⟨h.near.of_sameShow (armElement_onlyArmed id tag s).toSameShow, hst ▸ h.state⟩

section ArmEach

variable {α : Type} {step : State → α → State} {key : α → Key}
  (hstep : ∀ s a, step s a = s ∨ step s a = Machine.armElement (key a).1 (key a).2 s)
include hstep

theorem foldl_arming_keepsBound (l : List α) (s : State) : KeepsBound s (l.foldl step s) := by
  refine keepsBound_composes.foldl (fun s a => ?_) l s
  obtain h | h := hstep s a
  · exact h.symm ▸ keepsBound_composes.refl s
  · exact h.symm ▸ armElement_keepsBound (key a).1 (key a).2 s

/-- Ready elements armed in turn, each once. -/
theorem Agrees.foldl_arming {X : Set StoryId} {l : List α} (hl : (l.map key).Nodup) {s : State} (h : Agrees X s)
    (hready : ∀ a ∈ l, Ready s (key a)) : Agrees X (l.foldl step s) := by
  induction l generalizing s with
  | nil => exact h
  | cons a l ih =>
    obtain ⟨ha, hl⟩ := List.nodup_cons.mp hl
    have hne : ∀ b ∈ l, key b ≠ key a := fun b hb heq => ha (heq ▸ List.mem_map_of_mem hb)
    obtain heq | heq := hstep s a
    · exact ih hl (heq.symm ▸ h) fun b hb => heq.symm ▸ hready b (List.mem_cons_of_mem _ hb)
    · refine ih hl (heq.symm ▸ h.armElement (hready a List.mem_cons_self)) fun b hb => ?_
      exact heq.symm ▸ (hready b (List.mem_cons_of_mem _ hb)).armElement (hne b hb)

end ArmEach

/-! ### The elements of one item by state -/

theorem mem_tagsIn {s : State} (hids : IdsUnique s) {id : StoryId} {p : ElementState → Bool} {tag : Tag} :
    tag ∈ tagsIn s id p ↔ ∃ st, stateAt s (id, tag) = some st ∧ p st = true := by
  cases hi : findItem s id with
  | none =>
    simp [tagsIn, stateAt, findElement, hi]
  | some i =>
    have hmem := findItem_mem hi
    have hid := findItem_id hi
    rw [tagsIn_eq hi, List.mem_map]
    constructor
    · rintro ⟨e, he, rfl⟩
      obtain ⟨he, hp⟩ := List.mem_filter.mp he
      exact ⟨e.state, hid ▸ stateAt_of_mem hids hmem he, hp⟩
    · rintro ⟨st, hst, hp⟩
      obtain ⟨e, he, rfl⟩ := Option.map_eq_some_iff.mp hst
      have hie : i.findElement tag = some e := by simpa [findElement, hi] using he
      exact ⟨e, List.mem_filter.mpr ⟨List.mem_of_find?_eq_some hie, hp⟩, by simpa using List.find?_some hie⟩

theorem tagsIn_nodup {s : State} (hids : IdsUnique s) (id : StoryId) (p : ElementState → Bool) :
    (tagsIn s id p).Nodup := by
  cases hi : findItem s id with
  | none => simp [tagsIn, hi]
  | some i =>
    rw [tagsIn_eq hi]
    exact ((List.filter_sublist).map _).nodup (hids.2.2 i (findItem_mem hi))

/-- An item near air has its IDLE elements armed (R120, R122, R123). -/
theorem armIdle_keeps {id : StoryId} {s : State} (hnear : Near s id) : Keeps s (armIdle id s) where
  bounded := foldl_arming_keepsBound (key := fun t => (id, t)) (fun _ _ => .inr rfl) _ s
  agrees X h := by
    refine h.foldl_arming (key := fun t => (id, t)) (fun _ _ => .inr rfl)
      ((tagsIn_nodup h.ids id _).map fun _ _ heq => (Prod.mk.inj heq).2) fun tag htag => ⟨hnear, .inl ?_⟩
    obtain ⟨st, hst, hidle⟩ := (mem_tagsIn h.ids).mp htag
    rw [hst, beq_iff_eq.mp hidle]

/-! ### The waiting order (R117) -/

/-- The key of an element in the waiting order. -/
def waitingKey (w : StoryId × Element) : Key := (w.1, w.2.tag)

/-- What stands in the waiting order are WAITING elements of items near air. -/
theorem mem_waitingOrder {s : State} {w : StoryId × Element} (hw : w ∈ waitingOrder s) :
    ∃ i ∈ s.items, i.id = w.1 ∧ i.state.near = true ∧ w.2 ∈ i.elements ∧ w.2.state = .waiting := by
  obtain ⟨i, hi, hw⟩ := List.mem_flatMap.mp hw
  obtain ⟨e, he, rfl⟩ := List.mem_map.mp hw
  obtain ⟨he, hst⟩ := List.mem_filter.mp he
  refine ⟨i, ?_⟩
  suffices i ∈ s.items ∧ i.state.near = true from ⟨this.1, rfl, this.2, he, beq_iff_eq.mp hst⟩
  obtain hi | hi := List.mem_append.mp hi
  · have hi := Option.mem_toList.mp hi
    exact ⟨slotItem_mem hi, by rw [slotItem_state hi]; rfl⟩
  · obtain hi | ⟨-, hi⟩ := Option.or_eq_some_iff.mp (Option.mem_toList.mp hi)
    · exact ⟨slotItem_mem hi, by rw [slotItem_state hi]; rfl⟩
    · exact ⟨slotItem_mem hi, by rw [slotItem_state hi]; rfl⟩

theorem waitingOf_keys (i : Item) : (waitingOf i).map waitingKey
    = ((i.elements.filter (fun e => e.state == .waiting)).map Element.tag).map (fun t => (i.id, t)) := by
  rw [waitingOf, List.map_map, List.map_map]
  rfl

theorem waitingOf_nodup {s : State} (hids : IdsUnique s) {i : Item} (hi : i ∈ s.items) :
    ((waitingOf i).map waitingKey).Nodup := by
  rw [waitingOf_keys]
  exact (((List.filter_sublist).map _).nodup (hids.2.2 i hi)).map fun _ _ heq => (Prod.mk.inj heq).2

theorem waitingOrder_nodup {s : State} (hids : IdsUnique s) : ((waitingOrder s).map waitingKey).Nodup := by
  have hnext : ∀ i, nextItem s = some i → i ∈ s.items ∧ i.state ≠ .onair := fun i hi => by
    obtain hi | ⟨-, hi⟩ := Option.or_eq_some_iff.mp hi
    · exact ⟨slotItem_mem hi, by simp [slotItem_state hi]⟩
    · exact ⟨slotItem_mem hi, by simp [slotItem_state hi]⟩
  have hone (o : Option Item) (ho : ∀ i, o = some i → i ∈ s.items) :
      ((o.toList.flatMap waitingOf).map waitingKey).Nodup := by
    cases o with
    | none => exact List.nodup_nil
    | some i => simpa using waitingOf_nodup hids (ho i rfl)
  have hkey : ∀ (o : Option Item) (k : Key), k ∈ (o.toList.flatMap waitingOf).map waitingKey →
      ∃ i, o = some i ∧ i.id = k.1 := by
    intro o k hk
    obtain ⟨w, hw, rfl⟩ := List.mem_map.mp hk
    obtain ⟨i, hi, hw⟩ := List.mem_flatMap.mp hw
    obtain ⟨e, -, rfl⟩ := List.mem_map.mp hw
    exact ⟨i, Option.mem_toList.mp hi, rfl⟩
  rw [waitingOrder, List.flatMap_append, List.map_append, List.nodup_append]
  refine ⟨hone _ fun i hi => slotItem_mem hi, hone _ fun i hi => (hnext i hi).1, fun a ha b hb heq => ?_⟩
  subst heq
  obtain ⟨i, hi, hia⟩ := hkey _ a ha
  obtain ⟨x, hx, hxa⟩ := hkey _ a hb
  have hsame := List.inj_on_of_nodup_map hids.1 (slotItem_mem hi) (hnext x hx).1 (hia.trans hxa.symm)
  exact (hnext x hx).2 (hsame ▸ slotItem_state hi)

theorem fillFromWaiting_step (s : State) (w : StoryId × Element) :
    (if queueHasRoom s then armElement w.1 w.2.tag s else s) = s
      ∨ (if queueHasRoom s then armElement w.1 w.2.tag s else s)
        = armElement (waitingKey w).1 (waitingKey w).2 s := by
  split
  · exact .inr rfl
  · exact .inl rfl

theorem waiting_ready {s : State} (hids : IdsUnique s) {w : StoryId × Element} (hw : w ∈ waitingOrder s) :
    Ready s (waitingKey w) := by
  obtain ⟨i, hi, hid, hnear, he, hst⟩ := mem_waitingOrder hw
  exact ⟨hid ▸ StateOf.of_mem hids hi hnear, .inr (by rw [waitingKey, ← hid, stateAt_of_mem hids hi he, hst])⟩

theorem fillFromWaiting_keeps_queue (s : State) : Keeps s (fillFromWaiting s) where
  bounded := foldl_arming_keepsBound fillFromWaiting_step _ s
  agrees _ h := h.foldl_arming fillFromWaiting_step (waitingOrder_nodup h.ids) fun _ hw => waiting_ready h.ids hw

theorem closeShowEvent_keeps (s : State) : Keeps s (closeShowEvent s) :=
  keeps_composes.trans (fillFromWaiting_keeps_queue s) (renderAll_keeps _)

/-! ### Withdrawal (R118) -/

/-- No element of the item with the id is ARMED or WAITING. -/
def Unscheduled (s : State) (id : StoryId) : Prop :=
  ∀ i ∈ s.items, i.id = id → ∀ e ∈ i.elements, e.state.scheduled = false

theorem unscheduled_iff {s : State} (hids : IdsUnique s) {id : StoryId} :
    Unscheduled s id ↔ ∀ tag st, stateAt s (id, tag) = some st → st.scheduled = false := by
  constructor
  · intro h tag st hst
    obtain ⟨i, hi, hid, e, he, -, rfl⟩ := mem_of_stateAt hst
    exact h i hi hid e he
  · rintro h i hi rfl e he
    exact h e.tag e.state (stateAt_of_mem hids hi he)

/-- An item's ARMED and WAITING elements leave the queue in turn for a state that is neither. -/
theorem Agrees.foldl_settle {X : Set StoryId} {id : StoryId} {f : Element → Element} (hf : KeepsTag f)
    (hout : ∀ e, (f e).state.scheduled = false) {l : List Tag} {s : State} (h : Agrees X s)
    (hl : ∀ tag st, stateAt s (id, tag) = some st → st.scheduled = true → tag ∈ l)
    (hfree : ∀ tag ∈ l, ∀ p, attached s p ≠ some (id, tag)) :
    Agrees X (l.foldl (fun s t => removeEntry id t (modifyElement id t f s)) s)
      ∧ Unscheduled (l.foldl (fun s t => removeEntry id t (modifyElement id t f s)) s) id := by
  induction l generalizing s with
  | nil =>
    refine ⟨h, (unscheduled_iff h.ids).mpr fun tag st hst => ?_⟩
    cases hs : st.scheduled with
    | false => rfl
    | true => exact absurd (hl tag st hst hs) List.not_mem_nil
  | cons t l ih =>
    refine ih (h.settle hf hout (hfree t List.mem_cons_self)) (fun tag st hst hs => ?_)
      (fun tag htag => hfree tag (List.mem_cons_of_mem _ htag))
    by_cases htag : tag = t
    · subst htag
      have hst' : (findElement s id tag).map (fun e => (f e).state) = some st :=
        (stateAt_modifyElement_same hf).symm.trans hst
      obtain ⟨e, -, rfl⟩ := Option.map_eq_some_iff.mp hst'
      rw [hout e] at hs
      cases hs
    · have hst' : stateAt s (id, tag) = some st :=
        (stateAt_modifyElement_ne hf (by simpa using htag)).symm.trans hst
      exact (List.mem_cons.mp (hl tag st hst' hs)).resolve_left htag

theorem foldl_settle_keepsBound (id : StoryId) (f : Element → Element) (l : List Tag) (s : State) :
    KeepsBound s (l.foldl (fun s t => removeEntry id t (modifyElement id t f s)) s) :=
  keepsBound_composes.foldl (fun _ _ => .of_length (List.length_filter_le ..)) l s

/-- All ARMED and WAITING elements of an item leave the queue. -/
theorem Agrees.settle_scheduled {X : Set StoryId} {id : StoryId} {f : Element → Element} (hf : KeepsTag f)
    (hout : ∀ e, (f e).state.scheduled = false) {s : State} (h : Agrees X s) :
    Agrees X ((tagsIn s id ElementState.scheduled).foldl (fun s t => removeEntry id t (modifyElement id t f s)) s)
      ∧ Unscheduled ((tagsIn s id ElementState.scheduled).foldl
        (fun s t => removeEntry id t (modifyElement id t f s)) s) id := by
  refine h.foldl_settle hf hout (fun tag st hst hs => (mem_tagsIn h.ids).mpr ⟨st, hst, hs⟩) fun tag htag => ?_
  obtain ⟨st, hst, hs⟩ := (mem_tagsIn h.ids).mp htag
  refine h.unattached fun heq => ?_
  cases hst.symm.trans heq
  cases hs

/-- Neither on air nor taken. -/
abbrev OffAir (s : State) (id : StoryId) : Prop := StateOf s id (fun st => st ≠ .onair ∧ st ≠ .taking)

theorem offAir_modifyItem {s : State} {id : StoryId} {f : Item → Item}
    (hf : ∀ i, (f i).state ≠ .onair ∧ (f i).state ≠ .taking) : OffAir (modifyItem id f s) id :=
  StateOf.modifyItem_self (P := fun st => st ≠ .onair ∧ st ≠ .taking) hf

/-- An item off air with no element scheduled needs no context. -/
theorem Agrees.clearContext {X : Set StoryId} {s : State} {id : StoryId} (h : Agrees (insert id X) s)
    (hun : Unscheduled s id) (hoff : OffAir s id) :
    Agrees X (Machine.modifyItem id (fun i => { i with context := none }) s) := by
  refine h.modifyItem (by intro; rfl) (by intro; rfl) (fun x hx hne => (Set.mem_insert_iff.mp hx).resolve_left hne)
    fun _ i hi hid => ⟨fun e he hst => ?_, fun hs => ?_⟩
  · exact absurd ((hun i hi hid e he).symm.trans hst) (by simp)
  · obtain ⟨hair, htaking⟩ := hoff i hi hid
    exact absurd hs (not_or.mpr ⟨hair, htaking⟩)

theorem toIdle_keepsTag : KeepsTag Element.toIdle := fun _ => rfl

/-- A withdrawn item off air need be exempt no longer (R118). -/
theorem Agrees.withdrawItem {X : Set StoryId} {s : State} {id : StoryId} (h : Agrees (insert id X) s)
    (hoff : OffAir s id) : Agrees X (Machine.withdrawItem id s) ∧ Unscheduled (Machine.withdrawItem id s) id := by
  obtain ⟨hagrees, hun⟩ := h.settle_scheduled (id := id) toIdle_keepsTag (fun _ => rfl)
  refine ⟨hagrees.clearContext hun (hoff.of_sameShow (onlyArmed_composes.foldl
    (fun s t => withdrawElement_onlyArmed id t s) _ _).toSameShow), fun i hi hid => ?_⟩
  obtain ⟨x, hx, rfl⟩ := List.mem_map.mp hi
  by_cases hxid : x.id = id
  · rw [if_pos (beq_iff_eq.mpr hxid)]
    exact hun x hx hxid
  · rw [if_neg (by simpa using hxid)] at hid
    exact absurd hid hxid

theorem withdrawItem_keepsBound (id : StoryId) (s : State) : KeepsBound s (withdrawItem id s) :=
  foldl_settle_keepsBound id Element.toIdle _ s

/-! ### Orphaning (R58) -/

theorem attached_detach {id : StoryId} {tag : Tag} {s : State} {p : Fin 16} {k : Key}
    (h : attached (detach id tag s) p = some k) : attached s p = some k ∧ k ≠ (id, tag) := by
  obtain ⟨c, hc, hk⟩ := Option.bind_eq_some_iff.mp h
  have hport : (detach id tag s).ports[p] = Port.detachFrom id tag s.ports[p] := by
    simp [detach]
  rw [hport] at hc
  obtain ⟨d, hd, rfl⟩ := Option.map_eq_some_iff.mp hc
  split at hk
  · cases hk
  · rename_i hne
    exact ⟨Option.bind_eq_some_iff.mpr ⟨d, hd, hk⟩, fun heq => hne (heq ▸ hk)⟩

theorem orphanElement_keeps {id : StoryId} {tag : Tag} {s : State}
    (hout : ∀ st, stateAt s (id, tag) = some st → st.sentOut = true) : Keeps s (orphanElement id tag s) := by
  cases he : findElement s id tag with
  | none =>
    simp only [orphanElement, he]
    exact keeps_composes.refl s
  | some e =>
    have hst : stateAt s (id, tag) = some e.state := Option.map_eq_some_iff.mpr ⟨e, he, rfl⟩
    have hsent := hout _ hst
    have heq : orphanElement id tag s = raiseNotice .elementOrphaned id tag (portField e.action.port) e.state.code
        (modifyElement id tag Element.toIdle (if e.state = .issued then detach id tag s else s)) := by
      simp only [orphanElement, he]
    rw [heq]
    refine keeps_composes.trans ⟨fun b => ?_, fun X h => ?_⟩ (raiseNotice_keeps ..)
    · split
      · exact b
      · exact b
    · have hnot : e.state ≠ .armed := fun ha => by simp [ha, ElementState.sentOut] at hsent
      split
      · exact (h.of_same (t := detach id tag s) rfl (.refl _) fun p k hp => (attached_detach hp).1).settle_unqueued
          toIdle_keepsTag (fun _ => rfl) (fun p hp => (attached_detach hp).2 rfl)
          (fun ha => hnot (Option.some.inj (hst.symm.trans ha)))
      · rename_i hissued
        exact h.settle_unqueued toIdle_keepsTag (fun _ => rfl)
          (h.unattached fun hi => hissued (Option.some.inj (hst.symm.trans hi)))
          (fun ha => hnot (Option.some.inj (hst.symm.trans ha)))

theorem stateAt_orphanElement_ne {id : StoryId} {tag : Tag} {s : State} {k : Key} (hk : k ≠ (id, tag)) :
    stateAt (orphanElement id tag s) k = stateAt s k := by
  unfold orphanElement
  split
  · rfl
  · refine (stateAt_modifyElement_ne toIdle_keepsTag hk).trans ?_
    split
    · rfl
    · rfl

theorem foldl_orphan_keeps {id : StoryId} {l : List Tag} (hl : l.Nodup) {s : State}
    (hout : ∀ tag ∈ l, ∀ st, stateAt s (id, tag) = some st → st.sentOut = true) :
    Keeps s (l.foldl (fun s t => orphanElement id t s) s) := by
  induction l generalizing s with
  | nil => exact keeps_composes.refl s
  | cons t l ih =>
    obtain ⟨ht, hl⟩ := List.nodup_cons.mp hl
    refine keeps_composes.trans (orphanElement_keeps (hout t List.mem_cons_self)) (ih hl fun tag htag st hst => ?_)
    have hne : tag ≠ t := fun heq => ht (heq ▸ htag)
    exact hout tag (List.mem_cons_of_mem _ htag) st ((stateAt_orphanElement_ne (by simpa using hne)).symm.trans hst)

theorem orphanElement_keepsBound (id : StoryId) (tag : Tag) (s : State) : KeepsBound s (orphanElement id tag s) := by
  unfold orphanElement
  split
  · exact keepsBound_composes.refl s
  · split
    · exact fun b => b
    · exact fun b => b

theorem orphanItem_keeps (id : StoryId) (s : State) : Keeps s (orphanItem id s) where
  bounded := keepsBound_composes.foldl (fun s t => orphanElement_keepsBound id t s) _ s
  agrees X h := by
    refine (foldl_orphan_keeps (tagsIn_nodup h.ids id _) fun tag htag st hst => ?_).agrees X h
    obtain ⟨st', hst', hs⟩ := (mem_tagsIn h.ids).mp htag
    cases hst.symm.trans hst'
    exact hs

/-! ### Re-timing (R120 to R123) -/

theorem retimeEntry_faces {sweep : Bool} {effect : Frame} {q : ArmEntry} {s : State} (hkeys : (entryKeys s).Nodup)
    (hq : q.face ∈ faces s) : (faces (retimeEntry sweep effect q s)).Perm (faces s) := by
  have hplaced : (faces (retimeEntry sweep effect q s)).Perm (q.face :: faces (removeEntry q.story q.tag s)) :=
    faces_placeEntry ..
  rw [faces_removeEntry] at hplaced
  have hnodup : ((faces s).map Prod.fst).Nodup := entryKeys_eq_faces s ▸ hkeys
  have hfilter : (faces s).filter (fun f => f.1 != (q.story, q.tag)) = (faces s).erase q.face := by
    rw [(List.Nodup.of_map _ hnodup).erase_eq_filter]
    refine List.filter_congr fun f hf => ?_
    rw [Bool.eq_iff_iff, bne_iff_ne, bne_iff_ne]
    exact not_congr ⟨fun hk => List.inj_on_of_nodup_map hnodup hf hq hk, fun heq => heq ▸ rfl⟩
  rw [hfilter] at hplaced
  exact hplaced.trans (List.perm_cons_erase hq).symm

theorem retimeEntry_length {sweep : Bool} {effect : Frame} {q : ArmEntry} {s : State} (hq : q.key ∈ entryKeys s) :
    (retimeEntry sweep effect q s).sched.queue.length ≤ s.sched.queue.length := by
  rw [retimeEntry_eq, (placeEntry_perm ..).length_eq, List.length_cons]
  obtain ⟨x, hx, hkey⟩ := List.mem_map.mp hq
  refine Nat.succ_le_of_lt (List.length_filter_lt_length_iff_exists.mpr ⟨x, hx, ?_⟩)
  simp [isFor_iff.mpr hkey]

theorem retimeEntry_keeps {sweep : Bool} {effect : Frame} {q : ArmEntry} {s : State} (hq : q.face ∈ faces s) :
    Keeps s (retimeEntry sweep effect q s) where
  bounded := KeepsBound.of_length (retimeEntry_length (mem_entryKeys.mpr ⟨_, hq, rfl⟩))
  agrees _ h := h.of_same rfl (retimeEntry_faces h.keys hq) fun _ _ hp => hp

theorem retimeElement_keeps (id : StoryId) (c : ArmContext) (s : State) (e : Element) :
    Keeps s (retimeElement id c s e) := by
  unfold retimeElement
  split
  · exact keeps_composes.refl s
  · rename_i q hq
    exact Composes.ite (keeps_composes.refl s) (retimeEntry_keeps (face_mem_faces (findEntry_mem hq).1))

theorem foldl_retimeElement_keeps (id : StoryId) (c : ArmContext) (l : List Element) (s : State) :
    Keeps s (l.foldl (retimeElement id c) s) :=
  keeps_composes.foldl (fun s e => retimeElement_keeps id c s e) l s

/-- An item near air that is re-timed to a context need not be exempt. -/
theorem Agrees.retimeItem {X : Set StoryId} {s : State} {id : StoryId} (h : Agrees (insert id X) s) (hnear : Near s id)
    (p : Element → Bool) (c : ArmContext) : Agrees X (Machine.retimeItem p id c s) := by
  refine (foldl_retimeElement_keeps id c _ _).agrees X ?_
  exact h.modifyItem (by intro; rfl) (by intro; rfl) (fun x hx hne => (Set.mem_insert_iff.mp hx).resolve_left hne)
    fun _ i hi hid => ⟨fun _ _ _ => ⟨hnear i hi hid, rfl⟩, fun _ => rfl⟩

theorem retimeItem_keeps (p : Element → Bool) (id : StoryId) (c : ArmContext) (s : State) :
    Keeps s (retimeItem p id c s) :=
  keeps_composes.trans (modifyItem_keeps (f := fun i => { i with context := some c }) (by intro; rfl) (by intro; rfl)
    fun _ _ _ hfit => ⟨fun e he hst => ⟨(hfit.scheduled e he hst).1, rfl⟩, fun _ => rfl⟩)
    (foldl_retimeElement_keeps id c _ _)

theorem entryKeys_sweepEntry {id : StoryId} {stop : Frame} {s : State} {q : ArmEntry} {k : Key} (hk : k ∈ entryKeys s) :
    k ∈ entryKeys (sweepEntry id stop s q) := by
  have hretime (effect : Frame) : k ∈ entryKeys (retimeEntry true effect q s) := by
    obtain ⟨x, hx, rfl⟩ := List.mem_map.mp hk
    by_cases hkey : x.key = q.key
    · obtain ⟨n, hself⟩ := retimeEntry_self true effect q (s := s)
      rw [hkey]
      exact (mem_entryKeys_of_mem hself :)
    · exact mem_entryKeys_of_mem (mem_retimeEntry_of_ne true effect q hx hkey)
  unfold sweepEntry
  split
  · split
    · split
      · exact hretime _
      · exact hk
    · exact hk
  · exact hk

theorem foldl_sweepEntry_keepsBound {id : StoryId} {stop : Frame} {l : List ArmEntry} {s : State}
    (hl : ∀ q ∈ l, q.key ∈ entryKeys s) : KeepsBound s (l.foldl (sweepEntry id stop) s) := by
  induction l generalizing s with
  | nil => exact keepsBound_composes.refl s
  | cons q l ih =>
    refine keepsBound_composes.trans ?_ (ih fun x hx => entryKeys_sweepEntry (hl x (List.mem_cons_of_mem _ hx)))
    unfold sweepEntry
    split
    · split
      · exact keepsBound_composes.when fun _ => .of_length (retimeEntry_length (hl q List.mem_cons_self))
      · exact keepsBound_composes.refl s
    · exact keepsBound_composes.refl s

theorem foldl_sweepEntry_agrees {X : Set StoryId} {id : StoryId} {stop : Frame} {l : List ArmEntry} {s : State}
    (hl : ∀ q ∈ l, q.face ∈ faces s) (h : Agrees X s) : Agrees X (l.foldl (sweepEntry id stop) s)
      ∧ (faces (l.foldl (sweepEntry id stop) s)).Perm (faces s) := by
  induction l generalizing s with
  | nil => exact ⟨h, .refl _⟩
  | cons q l ih =>
    have hq := hl q List.mem_cons_self
    have hstep : Agrees X (sweepEntry id stop s q) ∧ (faces (sweepEntry id stop s q)).Perm (faces s) := by
      unfold sweepEntry
      split
      · split
        · split
          · exact ⟨(retimeEntry_keeps hq).agrees X h, retimeEntry_faces h.keys hq⟩
          · exact ⟨h, .refl _⟩
        · exact ⟨h, .refl _⟩
      · exact ⟨h, .refl _⟩
    obtain ⟨hagrees, hperm⟩ := ih (fun x hx => hstep.2.mem_iff.mpr (hl x (List.mem_cons_of_mem _ hx))) hstep.1
    exact ⟨hagrees, hperm.trans hstep.2⟩

/-- The sweep of a TAKE replaces entries by entries (R120, R121). -/
theorem sweepToEnd_keeps (id : StoryId) (stop : Frame) (s : State) : Keeps s (sweepToEnd id stop s) := by
  rw [sweepToEnd_eq]
  refine keeps_composes.trans (modifyItem_keeps (by intro; rfl) (by intro; rfl) fun i _ _ hfit => ?_)
    ⟨foldl_sweepEntry_keepsBound fun q hq => mem_entryKeys_of_mem hq,
      fun X h => (foldl_sweepEntry_agrees (fun q hq => face_mem_faces hq) h).1⟩
  exact ⟨fun e he hst => (hfit.scheduled e he hst).imp_right fun hc => by simpa using hc,
    fun hs => by simpa using hfit.context hs⟩

end Sys2Proof.Machine
end

