-- ==== Sys2Proof/Proofs/FiringsKept.lean ====
section
/-! The due scan, the ending of an item and the settling of a command keep the agreement of the arm queue and the
elements (R124 to R129, R147, R151 to R154). -/

namespace Sys2Proof.Machine

/-! ### A port takes a command (R147) -/

/-- The record of a port that takes an element's command at `f` (R147, R149). -/
def firedPort (s : State) (p : Fin 16) (f : Frame) (ref : Key) (a : Action) (r : Port) : Port :=
  match a with
  | .serial verb _ number =>
    { r with
      lastIssue := some f
      lastLoad := if verb = .load then some f else r.lastLoad
      command := some {
        verb, number, issue := f, element := some ref
        deadline := addFrames s.day f (((boundProfile s p).map (·.replyTimeout.effective)).getD 0) }
      state := .await
      transmit := commandFrame verb number (((boundProfile s p).map (·.channel)).getD 0) }
  | _ =>
    { r with
      lastIssue := some f
      pulseEnd := some (addFrames s.day f (((boundProfile s p).map (·.pulseWidth.effective)).getD 0))
      state := .pulsing }

/-- The groups once a command of the port has joined its group's history (R139). -/
def issueRecorded (s : State) (p : Fin 16) (f : Frame) : Vector Group 4 :=
  match s.ports[p].group with
  | none => s.groups
  | some g => s.groups.set g (recordIssue f p s.groups[g])

theorem takeCommand_eq (p : Fin 16) (f : Frame) (ref : Key) (a : Action) (s : State) :
    takeCommand p f ref a s = { s with
      groups := issueRecorded s p f, ports := s.ports.set p (firedPort s p f ref a s.ports[p]) } := by
  unfold takeCommand issueRecorded modifyPort setPort
  cases hg : s.ports[p].group with
  | none => cases a <;> rfl
  | some g => cases a <;> rfl

/-! ### The elements of commands -/

theorem getElem_set_port (v : Vector Port 16) (p x : Fin 16) (r : Port) :
    (v.set p r)[x] = if p = x then r else v[x] := by
  simp [Vector.getElem_set, Fin.ext_iff]

theorem attached_of_ports {s t : State} {p : Fin 16} {r : Port} (h : t.ports = s.ports.set p r) (x : Fin 16) :
    attached t x = if p = x then r.command.bind Outstanding.element else attached s x := by
  rw [attached, h, getElem_set_port, apply_ite (fun r : Port => r.command.bind Outstanding.element)]
  rfl

section Commands

variable {X : Set StoryId} {s t : State}

/-- A port without a command, where it had one, or with the command it had. -/
theorem Keeps.of_port {p : Fin 16} {r : Port} (hitems : t.items = s.items) (hqueue : t.sched.queue = s.sched.queue)
    (hports : t.ports = s.ports.set p r)
    (hr : ∀ k, r.command.bind Outstanding.element = some k → attached s p = some k) : Keeps s t :=
  .of_refs hitems hqueue fun x k hx => by
    rw [attached_of_ports hports] at hx
    split at hx
    · rename_i hpx
      exact hpx ▸ hr k hx
    · exact hx

theorem Agrees.of_port (h : Agrees X s) {p : Fin 16} {r : Port} (hitems : t.items = s.items)
    (hqueue : t.sched.queue = s.sched.queue) (hports : t.ports = s.ports.set p r)
    (hr : ∀ k, r.command.bind Outstanding.element = some k → attached s p = some k) : Agrees X t :=
  (Keeps.of_port hitems hqueue hports hr).agrees X h

/-- A port takes up a command for an ISSUED element that no command names. -/
theorem Agrees.attach (h : Agrees X s) {p : Fin 16} {r : Port} {k : Key} (hk : stateAt s k = some .issued)
    (hfree : ∀ x, attached s x ≠ some k) (hitems : t.items = s.items) (hqueue : t.sched.queue = s.sched.queue)
    (hports : t.ports = s.ports.set p r) (hr : r.command.bind Outstanding.element = some k) : Agrees X t := by
  have hatt := attached_of_ports hports
  have hfaces : faces t = faces s := by rw [faces, faces, hqueue]
  have hkeys : entryKeys t = entryKeys s := by rw [entryKeys, entryKeys, hqueue]
  refine ⟨?_, hkeys ▸ h.keys, fun x => ?_, fun f hf a ha => ?_, fun i hi => h.fit i (hitems ▸ hi), fun x j hx => ?_,
    fun x y j hx hy => ?_⟩
  · rw [IdsUnique, hitems]
    exact h.ids
  · rw [hkeys, stateAt_of_items hitems]
    exact h.standing x
  · exact h.suits f (hfaces ▸ hf) a (actionAt_of_items hitems _ ▸ ha)
  · rw [stateAt_of_items hitems]
    rw [hatt x, hr] at hx
    split at hx
    · exact Option.some.inj hx ▸ hk
    · exact h.issued x j hx
  · rw [hatt, hr] at hx hy
    split at hx
    · split at hy
      · exact ‹p = x›.symm.trans ‹p = y›
      · cases hx
        exact absurd hy (hfree y)
    · split at hy
      · cases hy
        exact absurd hx (hfree x)
      · exact h.apart x y j hx hy

end Commands

/-! ### Entries treated (R124 to R126) -/

theorem faces_deferEntry (id : StoryId) (tag : Tag) (s : State) : faces (deferEntry id tag s) = faces s := by
  simp only [faces, deferEntry, List.map_map]
  refine List.map_congr_left fun q _ => ?_
  simp only [Function.comp_apply]
  split
  · rfl
  · rfl

theorem deferEntry_keeps (id : StoryId) (tag : Tag) (s : State) : Keeps s (deferEntry id tag s) where
  bounded := KeepsBound.of_length (by simp [deferEntry])
  agrees _ h := h.of_same rfl (.of_eq (faces_deferEntry id tag s)) fun _ _ hp => hp

theorem deliverCue_record (c : Cue) (s : State) (n : Fin 4) :
    ∃ displays link, deliverCue c s n = { s with displays, link } := by
  unfold deliverCue
  split
  · exact ⟨_, _, rfl⟩
  · split
    · exact ⟨_, _, rfl⟩
    · exact ⟨_, _, rfl⟩

theorem foldl_deliverCue_record (c : Cue) (l : List (Fin 4)) (s : State) :
    ∃ displays link, l.foldl (deliverCue c) s = { s with displays, link } := by
  induction l generalizing s with
  | nil => exact ⟨_, _, rfl⟩
  | cons n l ih =>
    obtain ⟨v, k, h⟩ := deliverCue_record c s n
    obtain ⟨v', k', h'⟩ := ih (deliverCue c s n)
    exact ⟨v', k', by rw [List.foldl_cons, h', h]⟩

/-- What treating an entry comes to: it is deferred, or its element leaves the queue for a state that is neither ARMED
nor WAITING, or it does so with a port taking its command. -/
inductive Treated (q : ArmEntry) (s : State) : State → Prop
  | deferred : Treated q s (deferEntry q.story q.tag s)
  | settled (f : Element → Element) (displays : Vector Display 4) (link : Link) (hf : KeepsTag f)
      (hout : ∀ e, (f e).state.scheduled = false) :
      Treated q s { removeEntry q.story q.tag (modifyElement q.story q.tag f s) with displays, link }
  | taken (p : Fin 16) (e : Element) (he : findElement s q.story q.tag = some e)
      (hverb : q.verb = .pulse → e.action.kind = .pulse) :
      Treated q s (settleIssue q.story q.tag (if q.verb = .pulse then .done else .issued) q.issue
        (takeCommand p s.cfn q.key e.action (removeEntry q.story q.tag s)))

theorem Treated.settled_plain {q : ArmEntry} {s : State} {f : Element → Element} (hf : KeepsTag f)
    (hout : ∀ e, (f e).state.scheduled = false) :
    Treated q s (removeEntry q.story q.tag (modifyElement q.story q.tag f s)) :=
  .settled f s.displays s.link hf hout

/-- The element of an entry that stands, with what the entry says of it. -/
theorem Agrees.element_of_entry {X : Set StoryId} {s : State} {q : ArmEntry} (h : Agrees X s) (hq : q.face ∈ faces s) :
    ∃ e, findElement s q.story q.tag = some e ∧ e.state = .armed ∧ e.action.Suits q.face := by
  obtain ⟨e, he, hst⟩ := Option.map_eq_some_iff.mp ((h.standing q.key).mp (mem_entryKeys.mpr ⟨_, hq, rfl⟩))
  exact ⟨e, he, hst, h.suits _ hq _ (Option.map_eq_some_iff.mpr ⟨e, he, rfl⟩)⟩

theorem missElement_keepsTag (cause : Cause) :
    KeepsTag (fun e => { e with state := .missed, cause := some cause }) := fun _ => rfl

theorem deliverEntry_treated {X : Set StoryId} {s : State} {q : ArmEntry} (h : Agrees X s) (hq : q.face ∈ faces s)
    (hport : q.port = none) : Treated q s (deliverEntry q s) := by
  obtain ⟨e, he, -, hsuits⟩ := h.element_of_entry hq
  cases ha : e.action with
  | serial v p n => exact absurd (hsuits.1 hport) (by simp [ha, Action.port])
  | pulse p => exact absurd (hsuits.1 hport) (by simp [ha, Action.port])
  | cueText set text hold =>
    obtain ⟨displays, link, hrecord⟩ :=
      foldl_deliverCue_record ⟨text, .element, e.tag, hold, none⟩ (displaysOf set) s
    simp only [deliverEntry, he, ha, hrecord]
    exact .settled (fun e => { e with state := .done, lateness := some (recordedLateness s q.issue) })
      displays link (fun _ => rfl) (fun _ => rfl)

theorem treatEntry_treated {X : Set StoryId} {c : ScanState} {q : ArmEntry} (h : Agrees X c.state)
    (hq : q.face ∈ faces c.state) : Treated q c.state (treatEntry c q).state := by
  have hmissed (cause : Cause) : Treated q c.state (missEntry q cause c).state :=
    .settled_plain (missElement_keepsTag cause) fun _ => rfl
  unfold treatEntry
  split
  · exact deliverEntry_treated h hq ‹_›
  · split
    · exact hmissed _
    · split
      · exact hmissed _
      · split
        · exact .deferred
        · obtain ⟨e, he, -, hsuits⟩ := h.element_of_entry hq
          simp only [offerEntry, he]
          split
          · exact .taken _ e he hsuits.2
          · exact .deferred

namespace Treated

variable {X : Set StoryId} {q : ArmEntry} {s t : State}

theorem agrees (ht : Treated q s t) (h : Agrees X s) (hq : q.face ∈ faces s) : Agrees X t := by
  have hfree : ∀ p, attached s p ≠ some q.key := h.unattached (by
    rw [(h.standing q.key).mp (mem_entryKeys.mpr ⟨_, hq, rfl⟩)]
    decide)
  cases ht with
  | deferred => exact (deferEntry_keeps q.story q.tag s).agrees X h
  | settled f displays link hf hout =>
    exact (h.settle hf hout hfree).of_parts rfl rfl rfl
  | taken p e he hverb =>
    let f : Element → Element := fun e => { e with
      state := if q.verb = .pulse then .done else .issued, lateness := some (recordedLateness s q.issue) }
    have hf : KeepsTag f := fun _ => rfl
    have hsettled : Agrees X (removeEntry q.story q.tag (modifyElement q.story q.tag f s)) :=
      h.settle hf (fun _ => by dsimp only [f]; split <;> rfl) hfree
    rw [takeCommand_eq]
    cases ha : e.action with
    | serial v x n =>
      have hissued : q.verb ≠ .pulse := fun hv => by simpa [ha, Action.kind] using hverb hv
      refine hsettled.attach (k := q.key) ?_ hfree rfl rfl rfl rfl
      refine (stateAt_modifyElement_same hf).trans ?_
      simp [he, f, hissued]
    | pulse x => exact hsettled.of_port (p := p) rfl rfl rfl fun _ hk => hk
    | cueText set text hold => exact hsettled.of_port (p := p) rfl rfl rfl fun _ hk => hk

/-- The entries of other elements stand. -/
theorem face_mem (ht : Treated q s t) {f : Key × Option (Fin 16) × Kind} (hf : f ∈ faces s) (hne : f.1 ≠ q.key) :
    f ∈ faces t := by
  have hremoved : f ∈ faces (removeEntry q.story q.tag s) := by
    rw [faces_removeEntry]
    exact List.mem_filter.mpr ⟨hf, bne_iff_ne.mpr hne⟩
  cases ht with
  | deferred => rwa [faces_deferEntry]
  | settled => exact hremoved
  | taken =>
    rw [takeCommand_eq]
    exact hremoved

end Treated

/-- Entries of distinct elements treated in turn. -/
theorem foldl_treating {X : Set StoryId} {step : ScanState → ArmEntry → ScanState}
    (hstep : ∀ c q, Agrees X c.state → q.face ∈ faces c.state →
      Agrees X (step c q).state ∧ ∀ f ∈ faces c.state, f.1 ≠ q.key → f ∈ faces (step c q).state)
    {l : List ArmEntry} (hl : (l.map ArmEntry.key).Nodup) {c : ScanState} (h : Agrees X c.state)
    (hmem : ∀ q ∈ l, q.face ∈ faces c.state) : Agrees X (l.foldl step c).state := by
  induction l generalizing c with
  | nil => exact h
  | cons q l ih =>
    obtain ⟨hq, hl⟩ := List.nodup_cons.mp hl
    obtain ⟨hagrees, hothers⟩ := hstep c q h (hmem q List.mem_cons_self)
    exact ih hl hagrees fun x hx => hothers _ (hmem x (List.mem_cons_of_mem _ hx))
      fun heq => hq ((show x.key = q.key from heq) ▸ List.mem_map_of_mem hx)

theorem deliverEntry_keepsBound (q : ArmEntry) (s : State) : KeepsBound s (deliverEntry q s) := by
  have hshorter : KeepsBound s (removeEntry q.story q.tag s) := .of_length (List.length_filter_le ..)
  cases he : findElement s q.story q.tag with
  | none => simpa only [deliverEntry, he]
  | some e =>
    cases ha : e.action with
    | serial v p n => simpa only [deliverEntry, he, ha]
    | pulse p => simpa only [deliverEntry, he, ha]
    | cueText set text hold =>
      obtain ⟨displays, link, hrecord⟩ :=
        foldl_deliverCue_record ⟨text, .element, e.tag, hold, none⟩ (displaysOf set) s
      simp only [deliverEntry, he, ha, hrecord]
      exact hshorter

theorem treatEntry_keepsBound (c : ScanState) (q : ArmEntry) : KeepsBound c.state (treatEntry c q).state := by
  have hshorter : KeepsBound c.state (removeEntry q.story q.tag c.state) := .of_length (List.length_filter_le ..)
  unfold treatEntry
  split
  · exact deliverEntry_keepsBound q c.state
  · split
    · exact hshorter
    · split
      · exact hshorter
      · split
        · exact (deferEntry_keeps ..).bounded
        · unfold offerEntry
          split
          · exact hshorter
          · split
            · rw [takeCommand_eq]
              exact hshorter
            · exact (deferEntry_keeps ..).bounded

/-! ### The due scan (R124) -/

theorem foldl_raiseMissed_faces (l : List Key) (s : State) :
    faces (l.foldl (fun s m => raiseMissed m.1 m.2 s) s) = faces s := by
  induction l generalizing s with
  | nil => rfl
  | cons m l ih =>
    refine (ih _).trans ?_
    change faces (raiseMissed m.1 m.2 s) = faces s
    unfold raiseMissed
    split
    · rfl
    · rfl

theorem foldl_raiseMissed_keeps (l : List Key) (s : State) : Keeps s (l.foldl (fun s m => raiseMissed m.1 m.2 s) s) :=
  keeps_composes.foldl (fun s (m : Key) => raiseMissed_keeps m.1 m.2 s) l s

theorem scanEntry_agrees {X : Set StoryId} {c : ScanState} {q : ArmEntry} (h : Agrees X c.state)
    (hq : q.face ∈ faces c.state) : Agrees X (scanEntry c q).state
      ∧ ∀ f ∈ faces c.state, f.1 ≠ q.key → f ∈ faces (scanEntry c q).state := by
  unfold scanEntry
  split
  · have ht : Treated q c.state (treatEntry { c with missed := [] } q).state :=
      treatEntry_treated (c := { c with missed := [] }) h hq
    refine ⟨(foldl_raiseMissed_keeps _ _).agrees X (ht.agrees h hq), fun f hf hne => ?_⟩
    rw [foldl_raiseMissed_faces]
    exact ht.face_mem hf hne
  · exact ⟨h, fun _ hf _ => hf⟩

theorem scanEntry_keepsBound (c : ScanState) (q : ArmEntry) : KeepsBound c.state (scanEntry c q).state := by
  unfold scanEntry
  split
  · exact keepsBound_composes.trans (treatEntry_keepsBound { c with missed := [] } q)
      (foldl_raiseMissed_keeps _ _).bounded
  · exact keepsBound_composes.refl _

theorem renderThose_keeps (p : Fin 4 → Bool) (s : State) : Keeps s (renderThose p s) := by
  refine keeps_composes.foldl (fun s n => ?_) _ s
  exact .of_parts rfl rfl rfl

theorem scanQueue_keeps (s : State) : Keeps s (scanQueue s) := by
  refine keeps_composes.trans ⟨keepsBound_composes.foldScan scanEntry_keepsBound s.sched.queue ⟨s, [], [], []⟩,
    fun X h => foldl_treating (fun c q hc hq => scanEntry_agrees hc hq) h.keys (c := ⟨s, [], [], []⟩) h
      fun q hq => face_mem_faces hq⟩
    (keeps_composes.trans (fillFromWaiting_keeps_queue _) (renderThose_keeps ..))

/-! ### Ending an item (R128, R84) -/

theorem foldl_raiseMissed_item_keeps (id : StoryId) (l : List Tag) (s : State) :
    Keeps s (l.foldl (fun s t => raiseMissed id t s) s) :=
  keeps_composes.foldl (fun s t => raiseMissed_keeps id t s) l s

theorem reportMissed_keeps (id : StoryId) (before : List Tag) (s : State) : Keeps s (reportMissed id before s) :=
  foldl_raiseMissed_item_keeps id _ s

/-- An item off air whose remaining elements are missed need be exempt no longer (R128). -/
theorem Agrees.missRemaining {X : Set StoryId} {s : State} {id : StoryId} (h : Agrees (insert id X) s)
    (hoff : OffAir s id) : Agrees X (missRemaining id s) := by
  obtain ⟨hagrees, hun⟩ := h.settle_scheduled (id := id) (missElement_keepsTag .ended) (fun _ => rfl)
  exact hagrees.clearContext hun (hoff.of_sameShow (onlyArmed_composes.foldl
    (fun s t => onlyArmed_composes.trans (modifyElement_onlyArmed ..) (removeEntry_onlyArmed id t _)) _ _).toSameShow)

theorem missRemaining_keepsBound (id : StoryId) (s : State) : KeepsBound s (missRemaining id s) :=
  foldl_settle_keepsBound id (fun e => { e with state := .missed, cause := some .ended }) _ s

theorem Agrees.stopItem {X : Set StoryId} {s : State} {id : StoryId} (h : Agrees (insert id X) s)
    (hoff : OffAir s id) : Agrees X (stopItem id s) :=
  (reportMissed_keeps ..).agrees X (h.missRemaining hoff)

theorem stopItem_keepsBound (id : StoryId) (s : State) : KeepsBound s (stopItem id s) :=
  keepsBound_composes.trans (missRemaining_keepsBound id s) (reportMissed_keeps ..).bounded

/-- The due entries of an item, treated in turn. -/
theorem foldl_treatEntry_agrees {X : Set StoryId} {l : List ArmEntry} {s : State} (h : Agrees X s)
    (hl : l.Sublist s.sched.queue) : Agrees X (l.foldl treatEntry ⟨s, [], [], []⟩).state :=
  foldl_treating (fun _ _ hc hq => ⟨(treatEntry_treated hc hq).agrees hc hq,
      fun _ hf hne => (treatEntry_treated hc hq).face_mem hf hne⟩)
    ((hl.map _).nodup h.keys) (c := ⟨s, [], [], []⟩) h fun _ hq => face_mem_faces (hl.subset hq)

/-- An item off air that ends by an advance need be exempt no longer (R128). -/
theorem Agrees.endItem {X : Set StoryId} {s : State} {id : StoryId} (h : Agrees (insert id X) s)
    (hoff : OffAir s id) : Agrees X (endItem id s) := by
  refine (reportMissed_keeps ..).agrees X (Agrees.missRemaining (foldl_treatEntry_agrees h List.filter_sublist) ?_)
  exact hoff.of_sameShow (sameShow_composes.foldScan treatEntry_sameShow _ ⟨s, [], [], []⟩)

theorem endItem_keepsBound (id : StoryId) (s : State) : KeepsBound s (endItem id s) :=
  keepsBound_composes.trans (keepsBound_composes.foldScan treatEntry_keepsBound _ ⟨s, [], [], []⟩)
    (keepsBound_composes.trans (missRemaining_keepsBound id _) (reportMissed_keeps ..).bounded)

/-! ### A command settled (R129, R151 to R154) -/

/-- The port without its command, as the settling leaves it. -/
abbrev released (p : Fin 16) (failure : Bool) (s : State) : State := modifyPort p (Port.settle failure) s

theorem released_keeps (p : Fin 16) (failure : Bool) (s : State) : Keeps s (released p failure s) :=
  .of_port rfl rfl rfl fun _ hk => absurd hk (by simp [Port.settle])

/-- Once a port is without its command, no command names that one's element. -/
theorem Agrees.released_free {X : Set StoryId} {s : State} (h : Agrees X s) {p : Fin 16} {failure : Bool} {k : Key}
    (hp : attached s p = some k) (x : Fin 16) : attached (released p failure s) x ≠ some k := by
  rw [attached_of_ports (p := p) (r := Port.settle failure s.ports[p]) rfl]
  split
  · simp [Port.settle]
  · rename_i hne
    exact fun hx => hne (h.apart p x k hp hx)

theorem settlePort_keeps_released {p : Fin 16} {failure : Bool} {s : State} :
    Keeps (released p failure s) (settlePort p failure s) :=
  Composes.ite (raiseNotice_keeps ..) (keeps_composes.refl _)

/-- The settling of a port comes to the same before the change of an element. -/
theorem released_modifyElement (p : Fin 16) (failure : Bool) (id : StoryId) (tag : Tag) (f : Element → Element)
    (s : State) : released p failure (modifyElement id tag f s) = modifyElement id tag f (released p failure s) := rfl

/-- A command's element takes a state that is neither ARMED nor WAITING, and the port is settled. -/
theorem settle_element_keeps {s : State} {p : Fin 16} {failure : Bool} {k : Key} (hp : attached s p = some k)
    {f : Element → Element} (hf : KeepsTag f) (hout : ∀ e, (f e).state.scheduled = false) :
    Keeps s (released p failure (modifyElement k.1 k.2 f s)) where
  bounded b := b
  agrees X h := by
    rw [released_modifyElement]
    refine ((released_keeps p failure s).agrees X h).settle_unqueued hf hout (h.released_free hp) fun ha => ?_
    have hst : stateAt s k = some .armed := ha
    cases (h.issued p k hp).symm.trans hst

theorem settlePort_keeps_of {p : Fin 16} {failure : Bool} {s u : State} (h : Keeps s (released p failure u)) :
    Keeps s (settlePort p failure u) := keeps_composes.trans h settlePort_keeps_released

theorem settle_failed_keeps (s : State) (p : Fin 16) (failure : Bool) (cause : Cause) :
    Keeps s (settlePort p failure (failElement p cause (attached s p) s)) := by
  refine settlePort_keeps_of ?_
  cases hp : attached s p with
  | none => exact released_keeps p failure s
  | some k =>
    exact keeps_composes.trans (settle_element_keeps hp (failure := failure)
      (f := fun e => { e with state := .failed, cause := some cause }) (fun _ => rfl) (fun _ => rfl))
      (.of_parts rfl rfl rfl)

theorem attached_of_command {s : State} {p : Fin 16} {c : Outstanding} (h : s.ports[p].command = some c) :
    attached s p = c.element := by
  rw [attached, h]
  rfl

theorem takeDeadline_keeps (p : Fin 16) (s : State) : Keeps s (takeDeadline p s) := by
  cases hc : s.ports[p].command with
  | none =>
    simp only [takeDeadline, hc]
    exact keeps_composes.refl s
  | some c =>
    simp only [takeDeadline, hc, ← attached_of_command hc]
    exact keeps_composes.when fun _ => settle_failed_keeps s p true .timeout

theorem rearmBusy_keepsBound (p : Fin 16) (c : Outstanding) (id : StoryId) (tag : Tag) (s : State) :
    KeepsBound s (rearmBusy p c id tag s) := by
  intro hs
  unfold rearmBusy
  split
  · split
    · rename_i hroom
      have hroom : s.sched.queue.length < Config.armQueue := of_decide_eq_true (Bool.and_eq_true_iff.mp hroom).2
      rw [QueueBounded, (placeEntry_perm ..).length_eq]
      exact hroom
    · exact hs
  · exact hs

/-- The bound is kept, and the agreement once no item is exempt. -/
structure KeepsQueue (s t : State) : Prop where
  bounded : QueueBounded s → QueueBounded t
  agrees : Agrees ∅ s → Agrees ∅ t

theorem Keeps.toKeepsQueue {s t : State} (h : Keeps s t) : KeepsQueue s t := ⟨h.bounded, h.agrees ∅⟩

theorem keepsQueue_composes : Composes KeepsQueue where
  refl _ := ⟨id, id⟩
  trans h k := ⟨fun b => k.bounded (h.bounded b), fun a => k.agrees (h.agrees a)⟩

theorem Item.isArmed_near {i : Item} (h : i.isArmed = true) : i.state.near = true := by
  cases hs : i.state <;> simp [Item.isArmed, hs, ItemState.near] at h ⊢

theorem Item.isArmed_context {i : Item} (h : i.isArmed = true) (hfit : i.Fit) : i.context.isSome = true := by
  simp only [Item.isArmed, Bool.or_eq_true, Bool.and_eq_true, beq_iff_eq] at h
  obtain h | ⟨-, h⟩ := h
  · exact hfit.context h
  · exact h

/-- An element answered BUSY is armed again or fails (R129), and the port is settled. -/
theorem settle_busy_keeps {s : State} {p : Fin 16} {c : Outstanding} {k : Key} (hp : attached s p = some k) :
    KeepsQueue s (released p false (rearmBusy p c k.1 k.2 s)) where
  bounded := rearmBusy_keepsBound p c k.1 k.2 s
  agrees h := by
    have hst := h.issued p k hp
    obtain ⟨e, he, -⟩ := Option.map_eq_some_iff.mp hst
    obtain ⟨i, hi, -⟩ := Option.bind_eq_some_iff.mp he
    simp only [rearmBusy, hi, he]
    split
    · rename_i hroom
      have harmed : i.isArmed = true := (Bool.and_eq_true_iff.mp hroom).1
      refine ((released_keeps p false s).agrees ∅ h).armed (id := k.1) (tag := k.2) hst (by decide) (h.released_free hp)
        (fun x hx hid => ?_) rfl fun a _ => ⟨fun hport => absurd hport (by simp [ArmEntry.face]),
          fun hverb => absurd hverb (by simp [ArmEntry.face])⟩
      obtain rfl := List.inj_on_of_nodup_map h.ids.1 hx (findItem_mem hi) (hid.trans (findItem_id hi).symm)
      exact ⟨Item.isArmed_near harmed, Item.isArmed_context harmed (h.fit x hx (by simp))⟩
    · exact ((settle_element_keeps hp (failure := false)
          (f := fun e => { e with state := .failed, cause := some .busy })
        (fun _ => rfl) (fun _ => rfl)).agrees ∅ h).of_parts rfl rfl rfl

theorem settleReply_keeps {s : State} {p : Fin 16} {c : Outstanding} (hc : s.ports[p].command = some c)
    (k : ReplyClass) : KeepsQueue s (settleReply p c k s) := by
  have hatt := attached_of_command hc
  cases k with
  | accept =>
    refine (settlePort_keeps_of ?_).toKeepsQueue
    cases hp : c.element with
    | none => exact released_keeps p false s
    | some k =>
      exact settle_element_keeps (hatt.trans hp) (f := fun e => { e with state := .done }) (fun _ => rfl)
        fun _ => rfl
  | refuse => exact (hatt ▸ settle_failed_keeps s p false .refused).toKeepsQueue
  | busy =>
    refine keepsQueue_composes.trans ?_ settlePort_keeps_released.toKeepsQueue
    cases hp : c.element with
    | none => exact (released_keeps p false s).toKeepsQueue
    | some k => exact settle_busy_keeps (hatt.trans hp)
  | garbled => exact (hatt ▸ settle_failed_keeps s p true .garbled).toKeepsQueue

end Sys2Proof.Machine
end

