-- ==== Sys2Proof/Proofs/SequencerKept.lean ====
section
/-! The Show Sequencer's operations keep the bound of the arm queue and its agreement with the elements: the standby
choice, the take, the entry to air, the capture and the walk completion (R69, R75, R76, R78, R80, R104). -/

namespace Sys2Proof.Machine

/-! ### Bound and agreement put together -/

/-- The bound stands by itself, and ids are unique where the agreement is claimed. -/
theorem Keeps.of_ids {s t : State} (hbound : KeepsBound s t) (h : IdsUnique s → Keeps s t) : Keeps s t :=
  ⟨hbound, fun X hX => (h hX.ids).agrees X hX⟩

theorem armIdle_keepsBound (id : StoryId) (s : State) : KeepsBound s (armIdle id s) :=
  foldl_arming_keepsBound (key := fun t => (id, t)) (fun _ _ => .inr rfl) _ s

theorem withdrawItem_keeps {id : StoryId} {s : State} (hoff : OffAir s id) : Keeps s (withdrawItem id s) :=
  ⟨withdrawItem_keepsBound id s, fun _ h => ((h.mono (Set.subset_insert ..)).withdrawItem hoff).1⟩

theorem triggerWalk_keeps (s : State) : Keeps s (triggerWalk s) := .of_parts rfl rfl rfl

theorem raiseStandbyIfMoved_keeps (b : Option StoryId) (s : State) : Keeps s (raiseStandbyIfMoved b s) :=
  Composes.ite (keeps_composes.refl s) (raiseNotice_keeps ..)

theorem setShow_keeps (m : ShowState) (s : State) : Keeps s (setShow m s) :=
  Composes.ite (keeps_composes.refl s) (.of_parts rfl rfl rfl)

theorem endNomination_keeps (id : StoryId) (s : State) : Keeps s (endNomination id s) := by
  rw [endNomination_eq]
  exact .of_parts rfl rfl rfl

/-- An item becomes one that has still to be made fit. -/
theorem Agrees.open_item {X : Set StoryId} {s : State} (h : Agrees X s) {f : Item → Item} (hid : ∀ i, (f i).id = i.id)
    (helements : ∀ i, (f i).elements = i.elements) (id : StoryId) : Agrees (insert id X) (Machine.modifyItem id f s) :=
  h.modifyItem hid helements (fun _ hx _ => Set.mem_insert_of_mem _ hx) fun hn => absurd (Set.mem_insert ..) hn

/-! ### The standby choice (R68, R69) -/

theorem leaveStandby_keeps (id : StoryId) (s : State) : Keeps s (leaveStandby id s) := by
  have hwithdrawn : Keeps s (withdrawItem id (modifyItem id Item.leftStandby s)) := by
    refine ⟨fun b => withdrawItem_keepsBound id _ b, fun X h => ?_⟩
    exact ((h.open_item (f := Item.leftStandby) (by intro; rfl) (by intro; rfl) id).withdrawItem
      (offAir_modifyItem fun _ => ⟨by simp [Item.leftStandby], by simp [Item.leftStandby]⟩)).1
  exact keeps_composes.trans hwithdrawn (orphanItem_keeps id _)

theorem enterStandby_keeps (nominated captured : Bool) (id : StoryId) (s : State) :
    Keeps s (enterStandby nominated captured id s) :=
  modifyItem_keeps (by intro; rfl) (by intro; rfl) fun _ _ _ hfit =>
    ⟨fun e he hst => ⟨rfl, (hfit.scheduled e he hst).2⟩, fun hs => absurd hs (by simp)⟩

theorem chooseStandby_keeps (s : State) : Keeps s (chooseStandby s) := by
  unfold chooseStandby
  refine Composes.ite (keeps_composes.refl s) ?_
  dsimp only
  have hroom : Keeps s (match standbyId s with
      | some old => if (liveNomination s).or (automaticChoice s) = some old then s else leaveStandby old s
      | none => s) := by
    split
    · exact Composes.ite (keeps_composes.refl s) (leaveStandby_keeps ..)
    · exact keeps_composes.refl s
  split
  · exact keeps_composes.trans hroom (enterStandby_keeps ..)
  · exact hroom

theorem announceStandby_keeps (b : Option StoryId) (s : State) : Keeps s (announceStandby b s) :=
  Composes.ite (keeps_composes.refl s) (keeps_composes.trans (raiseNotice_keeps ..)
    (keeps_composes.trans (triggerWalk_keeps _) (closeShowEvent_keeps _)))

theorem reselect_keeps (b : Option StoryId) (s : State) : Keeps s (reselect b s) :=
  Composes.ite (announceStandby_keeps b s) (keeps_composes.trans (chooseStandby_keeps s) (announceStandby_keeps b _))

/-! ### The take (R75) -/

theorem outgoingSwept_keeps (af : Frame) (s : State) : Keeps s (outgoingSwept af s) := by
  unfold outgoingSwept
  cases onairId s with
  | none => exact keeps_composes.refl s
  | some o => exact sweepToEnd_keeps o af s

theorem outgoingSwept_sameShow (af : Frame) (s : State) : SameShow s (outgoingSwept af s) := by
  unfold outgoingSwept
  cases onairId s with
  | none => exact sameShow_composes.refl s
  | some o => exact (sweepToEnd_onlyArmed o af s).toSameShow

/-- An item near air that is re-timed to a context and armed need be exempt no longer. -/
theorem Agrees.rearm {X : Set StoryId} {s : State} {id : StoryId} (h : Agrees (insert id X) s) (hnear : Near s id)
    (c : ArmContext) : Agrees X (armIdle id (Machine.retimeItem (fun _ => true) id c s)) :=
  (armIdle_keeps (hnear.of_sameShow (retimeItem_onlyArmed ..).toSameShow)).agrees X (h.retimeItem hnear _ c)

theorem rearm_keepsBound (id : StoryId) (c : ArmContext) (s : State) :
    KeepsBound s (armIdle id (retimeItem (fun _ => true) id c s)) :=
  keepsBound_composes.trans (retimeItem_keeps ..).bounded (armIdle_keepsBound id _)

theorem scheduleTake_keepsBound (id : StoryId) (af : Frame) (duration : Nat) (s : State) :
    KeepsBound s (scheduleTake id af duration s) :=
  keepsBound_composes.trans (outgoingSwept_keeps af s).bounded (rearm_keepsBound id _ _)

theorem Agrees.scheduleTake {X : Set StoryId} {s : State} {id : StoryId} (h : Agrees (insert id X) s)
    (hnear : Near s id)
    (af : Frame) (duration : Nat) : Agrees X (Machine.scheduleTake id af duration s) :=
  ((outgoingSwept_keeps af s).agrees _ h).rearm (hnear.of_sameShow (outgoingSwept_sameShow af s)) _

theorem acceptTake_keeps (i : Item) (s : State) : Keeps s (acceptTake i s) := by
  have hscheduled : Keeps s (scheduleTake i.id (addFrames s.day s.cfn (takeLead s i)) i.duration (takenUp i s)) := by
    refine ⟨fun b => scheduleTake_keepsBound i.id _ _ (takenUp i s) b, fun X h => ?_⟩
    have hopen : Agrees (insert i.id X) (takenUp i s) :=
      (h.open_item (f := Item.taken (addFrames s.day s.cfn (takeLead s i)))
        (by intro; rfl) (by intro; rfl) i.id).of_parts
        rfl rfl rfl
    exact hopen.scheduleTake ((near_modifyItem (s := s) (f := Item.taken (addFrames s.day s.cfn (takeLead s i)))
      fun _ => rfl).of_cores rfl) _ _
  rw [acceptTake_eq]
  refine keeps_composes.trans hscheduled (keeps_composes.trans (triggerWalk_keeps _) (keeps_composes.trans
    (raiseNotice_keeps ..) (keeps_composes.trans (setShow_keeps .running _) (closeShowEvent_keeps _))))

/-! ### The entry to air (R76) -/

theorem finishOutgoing_keepsBound (value : Nat) (ef : Frame) (id : StoryId) (s : State) :
    KeepsBound s (finishOutgoing value ef id s) := fun b => endItem_keepsBound id _ b

theorem Agrees.finishOutgoing {X : Set StoryId} {s : State} {id : StoryId} (h : Agrees (insert id X) s) (value : Nat)
    (ef : Frame) : Agrees X (finishOutgoing value ef id s) := by
  have hopen := h.open_item (f := Item.ended ef) (by intro; rfl) (by intro; rfl) id
  rw [Set.insert_idem] at hopen
  exact Agrees.endItem (hopen.of_parts rfl rfl rfl)
    ((offAir_modifyItem (s := s) (f := Item.ended ef) fun _ => ⟨by simp [Item.ended], by simp [Item.ended]⟩).of_cores
        rfl)

theorem finishOutgoing_keeps (value : Nat) (ef : Frame) (id : StoryId) (s : State) :
    Keeps s (finishOutgoing value ef id s) :=
  ⟨finishOutgoing_keepsBound value ef id s, fun _ h => (h.mono (Set.subset_insert ..)).finishOutgoing value ef⟩

theorem scheduleEntry_keepsBound (id : StoryId) (s : State) : KeepsBound s (scheduleEntry id s) := by
  unfold scheduleEntry
  split
  · exact keepsBound_composes.refl s
  · exact rearm_keepsBound id _ s

theorem Agrees.scheduleEntry {X : Set StoryId} {s : State} {id : StoryId} (h : Agrees (insert id X) s)
    (hnear : Near s id) : Agrees X (scheduleEntry id s) := by
  unfold Machine.scheduleEntry
  split
  · rename_i hnone
    refine h.exempt fun i hi hX hin => absurd (List.mem_map_of_mem (f := Item.id) hi) ?_
    rw [(Set.mem_insert_iff.mp hin).resolve_right hX]
    exact (findItem_eq_none_iff s id).mp hnone
  · exact h.rearm hnear _

/-- An item not near air may be dropped. -/
theorem dropItem_keeps {s : State} {y : StoryId} (hfar : StateOf s y (fun st => st.near = false)) (junction : StoryId) :
    Keeps s (dropItem junction s y) := by
  refine keeps_composes.trans (modifyItem_keeps (f := Item.skipped) (by intro; rfl) (by intro; rfl)
    fun i hi hid hfit => ⟨fun e he hst => ?_, fun hs => ?_⟩) (raiseNotice_keeps ..)
  · exact absurd ((hfit.scheduled e he hst).1.symm.trans (hfar i hi hid)) (by simp)
  · exact absurd hs (by simp [Item.skipped])

theorem foldl_dropItem_keeps {l : List StoryId} {s : State}
    (hfar : ∀ y ∈ l, StateOf s y (fun st => st.near = false)) (junction : StoryId) :
    Keeps s (l.foldl (dropItem junction) s) := by
  induction l generalizing s with
  | nil => exact keeps_composes.refl s
  | cons y l ih =>
    refine keeps_composes.trans (dropItem_keeps (hfar y List.mem_cons_self) junction) (ih fun z hz => ?_)
    exact (hfar z (List.mem_cons_of_mem _ hz)).modifyItem (f := Item.skipped) (by intro; rfl) fun _ => rfl

theorem dropItem_keepsBound (junction : StoryId) (s : State) (y : StoryId) : KeepsBound s (dropItem junction s y) :=
  fun b => b

/-- The item has entered air and is reported. -/
def airReported (path : AirPath) (id : StoryId) (af : Frame) (s : State) : State :=
  raiseNotice .itemOnair id 0 255 path.code (airEntered id af s)

/-- The outgoing item of `s`, if there is one, ends. -/
def outgoingFinished (af : Frame) (s t : State) : State := (onairId s).elim t (fun o => finishOutgoing 0 af o t)

/-- The entry to air by its parts, up to the standby choice. -/
theorem enterAir_parts (path : AirPath) (id : StoryId) (af : Frame) (s : State) : enterAir path id af s
    = closeShowEvent (triggerWalk (raiseStandbyIfMoved (standbyId s) (chooseStandby
      ((skippedBy path id s).foldl (dropItem id)
        (scheduleEntry id (outgoingFinished af s (airReported path id af s))))))) := by
  have hentered : ({ endNomination id (modifyItem id (Item.aired af) (outgoingEnded af s s)) with
      seq := { (endNomination id (modifyItem id (Item.aired af) (outgoingEnded af s s))).seq with
        cursor := some id, lastAdvance := some (endNomination id (modifyItem id (Item.aired af)
          (outgoingEnded af s s))).cfn, overdue := false } } : State) = airEntered id af s := by
    obtain ⟨items, hitems⟩ := outgoingEnded_rest af s s
    rw [endNomination_eq, airEntered, hitems]
    rfl
  unfold airReported
  rw [← hentered]
  rfl

section EnterAir

variable {path : AirPath} {id : StoryId} {af : Frame} {s : State}

/-- The item that enters air and the one that leaves it are still to be made fit. -/
theorem Agrees.airReported (h : Agrees ∅ s) :
    Agrees (insert id {x | onairId s = some x}) (airReported path id af s) := by
  have hended : Agrees {x | onairId s = some x} (outgoingEnded af s s) := by
    unfold outgoingEnded
    cases ho : onairId s with
    | none => exact h.mono (Set.empty_subset _)
    | some o =>
      refine (h.open_item (f := Item.ended af) (by intro; rfl) (by intro; rfl) o).mono fun x hx => ?_
      obtain rfl | hx := Set.mem_insert_iff.mp hx
      · rfl
      · exact absurd hx (by simp)
  exact (hended.open_item (f := Item.aired af) (by intro; rfl) (by intro; rfl) id).of_parts
    (t := Machine.airReported path id af s) rfl rfl rfl

theorem Agrees.outgoingFinished {t : State} (h : Agrees (insert id {x | onairId s = some x}) t) :
    Agrees {id} (outgoingFinished af s t) := by
  unfold Machine.outgoingFinished
  cases ho : onairId s with
  | none => exact h.mono fun x hx => (Set.mem_insert_iff.mp hx).resolve_right (by simp [ho])
  | some o =>
    refine Agrees.finishOutgoing (h.mono fun x hx => ?_) 0 af
    obtain rfl | hx := Set.mem_insert_iff.mp hx
    · exact .inr rfl
    · exact .inl (Option.some.inj (ho.symm.trans hx)).symm

theorem outgoingFinished_keepsBound (t : State) : KeepsBound t (Machine.outgoingFinished af s t) := by
  unfold Machine.outgoingFinished
  cases onairId s with
  | none => exact keepsBound_composes.refl t
  | some o => exact finishOutgoing_keepsBound 0 af o t

/-- What holds of the item's state holds on, if it holds of DONE and the outgoing item is another or not looked at. -/
theorem StateOf.outgoingFinished {t : State} {y : StoryId} {P : ItemState → Prop} (h : StateOf t y P)
    (hy : onairId s ≠ some y ∨ P .done) : StateOf (Machine.outgoingFinished af s t) y P := by
  unfold Machine.outgoingFinished
  cases ho : onairId s with
  | none => exact h
  | some o =>
    refine StateOf.of_sameShow ?_ (finishOutgoing_sameShow 0 af o t)
    obtain hy | hy := hy
    · exact h.modifyItem_ne (by intro; rfl) fun heq => hy (heq ▸ ho)
    · exact h.modifyItem (by intro; rfl) fun _ => hy

theorem airReported_keepsBound : KeepsBound s (Machine.airReported path id af s) := by
  intro b
  obtain ⟨items, hitems⟩ := outgoingEnded_rest af s s
  simp only [Machine.airReported, airEntered, hitems]
  exact b

theorem outgoingEnded_stateOf {y : StoryId} {P : ItemState → Prop} (h : StateOf s y P) (hdone : P .done) :
    StateOf (outgoingEnded af s s) y P := by
  unfold outgoingEnded
  cases onairId s with
  | none => exact h
  | some o => exact h.modifyItem (by intro; rfl) fun _ => hdone

/-- A skipped item is not near air when it is dropped. -/
theorem skipped_far (hids : IdsUnique s) {y : StoryId} (hy : y ∈ skippedBy path id s) :
    StateOf (scheduleEntry id (Machine.outgoingFinished af s (Machine.airReported path id af s))) y
      (fun st => st.near = false) := by
  obtain ⟨hne, x, hx, rfl, hst⟩ := skippedBy_pending hy
  refine StateOf.of_sameShow ?_ (scheduleEntry_onlyArmed ..).toSameShow
  refine StateOf.outgoingFinished ?_ (.inr rfl)
  exact ((outgoingEnded_stateOf (StateOf.of_mem (P := fun st => st.near = false) hids hx (by rw [hst]; rfl))
      rfl).modifyItem_ne (f := Item.aired af)
    (by intro; rfl) hne).of_cores rfl

/-- An entry to air of an item that is not on air (R76). -/
theorem enterAir_keeps (hne : IdsUnique s → onairId s ≠ some id) : KeepsQueue s (enterAir path id af s) := by
  have hscheduled : KeepsQueue s ((skippedBy path id s).foldl (dropItem id)
      (scheduleEntry id (Machine.outgoingFinished af s (Machine.airReported path id af s)))) := by
    refine ⟨keepsBound_composes.trans airReported_keepsBound (keepsBound_composes.trans (outgoingFinished_keepsBound _)
      (keepsBound_composes.trans (scheduleEntry_keepsBound id _)
        (keepsBound_composes.foldl (dropItem_keepsBound id) _ _))), fun h => ?_⟩
    refine (foldl_dropItem_keeps (fun y hy => skipped_far h.ids hy) id).agrees ∅ ?_
    have hfinished : Agrees {id} (Machine.outgoingFinished af s (Machine.airReported path id af s)) :=
      h.airReported.outgoingFinished
    refine Agrees.scheduleEntry (by simpa using hfinished) ?_
    exact StateOf.outgoingFinished ((near_modifyItem (f := Item.aired af) (s := outgoingEnded af s s)
      fun _ => rfl).of_cores rfl) (.inl (hne h.ids))
  rw [enterAir_parts]
  exact keepsQueue_composes.trans hscheduled (keeps_composes.trans (chooseStandby_keeps _) (keeps_composes.trans
    (raiseStandbyIfMoved_keeps ..) (keeps_composes.trans (triggerWalk_keeps _) (closeShowEvent_keeps _)))).toKeepsQueue

end EnterAir

/-- An item found in another slot is not on air. -/
theorem onairId_ne_of_state {s : State} {id : StoryId} (h : StateOf s id (fun st => st ≠ .onair)) :
    onairId s ≠ some id := by
  intro heq
  obtain ⟨i, hi, hid⟩ := Option.map_eq_some_iff.mp heq
  exact h i (slotItem_mem hi) hid (slotItem_state hi)

theorem onairId_ne_of_slot {s : State} (hids : IdsUnique s) {st : ItemState} (hst : st ≠ .onair) {i : Item}
    (hi : slotItem st s = some i) : onairId s ≠ some i.id :=
  onairId_ne_of_state (StateOf.of_mem hids (slotItem_mem hi) (by rwa [slotItem_state hi]))

/-! ### The steps of a tick (R72, R77 to R81) -/

theorem stepAirFrame_keeps (s : State) : KeepsQueue s (stepAirFrame s) := by
  unfold stepAirFrame
  split
  · exact keepsQueue_composes.refl s
  · rename_i i hi
    exact enterAir_keeps fun hids => onairId_ne_of_slot hids (by decide) (Option.filter_eq_some_iff.mp hi).1

theorem stepJunction_keeps (s : State) : KeepsQueue s (stepJunction s) := by
  unfold stepJunction
  split
  · exact keepsQueue_composes.refl s
  · rename_i i hi
    exact enterAir_keeps fun hids => onairId_ne_of_slot hids (by decide) (Option.filter_eq_some_iff.mp hi).1

theorem endShow_keeps (i : Item) (ef : Frame) (s : State) : Keeps s (endShow i ef s) :=
  keeps_composes.trans (finishOutgoing_keeps 1 ef i.id s) (keeps_composes.trans (triggerWalk_keeps _)
    (keeps_composes.trans (setShow_keeps .ended _) (closeShowEvent_keeps _)))

theorem stepFollow_keeps (s : State) : KeepsQueue s (stepFollow s) := by
  unfold stepFollow
  split
  · exact keepsQueue_composes.refl s
  · dsimp only
    split
    · exact (endShow_keeps ..).toKeepsQueue
    · rename_i n hn
      exact Composes.ite (keepsQueue_composes.refl s)
        (enterAir_keeps fun hids => onairId_ne_of_slot hids (by decide) hn)

theorem stepOverdue_keeps (s : State) : Keeps s (stepOverdue s) := by
  unfold stepOverdue
  split
  · exact keeps_composes.refl s
  · exact .of_parts rfl rfl rfl

/-! ### Junction capture (R79 to R81) -/

/-- A capture ends the nomination (R80). -/
def unnominated (s : State) : State := { s with seq := { s.seq with nomination := none } }

/-- The slot without its former item, as a capture leaves it. -/
def slotEmptied (j : Item) (s : State) : State :=
  match standbyId s with
  | some old => if old = j.id then unnominated s else leaveStandby old (unnominated s)
  | none => unnominated s

/-- The captured junction in its slot, reported. -/
def captureSeated (j : Item) (s : State) : State :=
  raiseNotice .junctionCaptured j.id 0 255 (takeLead s j)
    (raiseStandbyIfMoved (standbyId s) (enterStandby false true j.id (slotEmptied j s)))

theorem captureJunction_parts (j : Item) (s : State) : captureJunction j s
    = triggerWalk (armIdle j.id (retimeItem (fun _ => true) j.id
      ⟨j.target.getD 0, addFrames s.day (j.target.getD 0) j.duration⟩ (captureSeated j s))) := rfl

theorem captureSeated_keeps (j : Item) (s : State) : Keeps s (captureSeated j s) := by
  have hemptied : Keeps s (slotEmptied j s) := by
    unfold slotEmptied
    have hended : Keeps s (unnominated s) := .of_parts rfl rfl rfl
    split
    · exact Composes.ite hended (keeps_composes.trans hended (leaveStandby_keeps ..))
    · exact hended
  exact keeps_composes.trans hemptied (keeps_composes.trans (enterStandby_keeps ..)
    (keeps_composes.trans (raiseStandbyIfMoved_keeps ..) (raiseNotice_keeps ..)))

/-- The captured item is the STANDBY. -/
theorem captureSeated_stateOf (j : Item) (s : State) : StateOf (captureSeated j s) j.id (fun st => st = .standby) := by
  refine StateOf.of_cores (s := enterStandby false true j.id (slotEmptied j s)) ?_
    (raiseStandbyIfMoved_onlyArmed (standbyId s) _).cores
  exact StateOf.modifyItem_self fun _ => rfl

theorem captureJunction_stateOf (j : Item) (s : State) :
    StateOf (captureJunction j s) j.id (fun st => st = .standby) := by
  rw [captureJunction_parts]
  exact (captureSeated_stateOf j s).of_cores
    (onlyArmed_composes.trans (retimeItem_onlyArmed ..) (armIdle_onlyArmed ..)).cores

theorem captureJunction_keeps (j : Item) (s : State) : Keeps s (captureJunction j s) := by
  rw [captureJunction_parts]
  refine keeps_composes.trans (captureSeated_keeps j s) (keeps_composes.trans (retimeItem_keeps ..)
    (keeps_composes.trans (armIdle_keeps ?_) (triggerWalk_keeps _)))
  exact ((captureSeated_stateOf j s).imp fun st hst => by rw [hst]; rfl).of_sameShow
    (retimeItem_onlyArmed ..).toSameShow

theorem captureTest_keeps (s : State) : KeepsQueue s (captureTest s) := by
  unfold captureTest
  split
  · exact keepsQueue_composes.refl s
  · rename_i j _
    have hcaptured := (captureJunction_keeps j s).toKeepsQueue
    have hclosed := keepsQueue_composes.trans hcaptured (closeShowEvent_keeps (captureJunction j s)).toKeepsQueue
    refine Composes.ite (keepsQueue_composes.trans hcaptured (keepsQueue_composes.trans
      (raiseNotice_keeps ..).toKeepsQueue (enterAir_keeps fun _ => onairId_ne_of_state ?_))) hclosed
    exact ((captureJunction_stateOf j s).imp fun st hst => by rw [hst]; decide).of_cores rfl

/-! ### The sequencer's part of a tick (R72) -/

theorem Keeps.of_tick {s : State} (w : TickWork) : Keeps s { s with tick := w } := .of_parts rfl rfl rfl

theorem takePhase_keeps (s : State) : KeepsQueue s (takePhase s) := by
  have hat {a b : State} (h : KeepsQueue a b) (w : TickWork) : KeepsQueue a { b with tick := w } :=
    keepsQueue_composes.trans h (Keeps.of_tick w).toKeepsQueue
  unfold takePhase
  cases s.tick.phase with
  | airFrame => exact hat (stepAirFrame_keeps s) _
  | junction => exact hat (stepJunction_keeps s) _
  | follow => exact hat (keepsQueue_composes.trans (stepFollow_keeps s) (stepOverdue_keeps _).toKeepsQueue) _
  | capture => exact hat (captureTest_keeps s) _
  | finished => exact keepsQueue_composes.refl s

theorem passPhases_keeps (k : Nat) (s : State) : KeepsQueue s (passPhases k s) := by
  induction k generalizing s with
  | zero => exact keepsQueue_composes.refl s
  | succ k ih => exact Composes.ite (keepsQueue_composes.refl s) (keepsQueue_composes.trans (takePhase_keeps s) (ih _))

theorem finishPhases_keeps (s : State) : KeepsQueue s (finishPhases s) :=
  keepsQueue_composes.trans (takePhase_keeps s) (keepsQueue_composes.trans (takePhase_keeps _)
    (keepsQueue_composes.trans (takePhase_keeps _) (takePhase_keeps _)))

theorem takeNamedPhase_keeps (p : TickPhase) (s : State) : KeepsQueue s (takeNamedPhase p s) :=
  Composes.ite (keepsQueue_composes.trans (passPhases_keeps 4 s) (keepsQueue_composes.trans (takePhase_keeps _)
    (Keeps.of_tick _).toKeepsQueue)) (keepsQueue_composes.refl s)

theorem settleSteps_keeps (s : State) : KeepsQueue s (settleSteps s) :=
  keepsQueue_composes.when fun _ => finishPhases_keeps s

/-! ### The walk completion (R104, R123) -/

theorem projectItem_rest (prs : List Projection) (i : Item) : (projectItem prs i).id = i.id
    ∧ (projectItem prs i).elements = i.elements ∧ (projectItem prs i).state = i.state
    ∧ (projectItem prs i).context = i.context := by
  unfold projectItem
  split
  · exact ⟨rfl, rfl, rfl, rfl⟩
  · exact ⟨rfl, rfl, rfl, rfl⟩

theorem Item.Fit.of_eq {i j : Item} (h : i.Fit) (helements : j.elements = i.elements) (hstate : j.state = i.state)
    (hcontext : j.context = i.context) : j.Fit where
  scheduled := by
    rw [helements, hstate, hcontext]
    exact h.scheduled
  context := by
    rw [hstate, hcontext]
    exact h.context

theorem writeWalk_keeps (s : State) : Keeps s (writeWalk s) where
  bounded b := b
  agrees X h := by
    refine h.mapItems (fun i => (projectItem_rest (walkFrom s (walkAnchor s) (runPath s)).1 i).1)
      (fun i => (projectItem_rest _ i).2.1) rfl rfl rfl fun i hi hX => ?_
    obtain ⟨-, helements, hstate, hcontext⟩ := projectItem_rest (walkFrom s (walkAnchor s) (runPath s)).1 i
    exact (h.fit i hi hX).of_eq helements hstate hcontext

theorem updateEnd_keeps (i : Item) (stop : Frame) (s : State) : Keeps s (updateEnd i stop s) :=
  Composes.ite (keeps_composes.refl s) (retimeItem_keeps ..)

theorem updateStandby_keepsBound (s : State) : KeepsBound s (updateStandby s) := by
  unfold updateStandby
  split
  · exact keepsBound_composes.refl s
  · split
    · exact Composes.ite (retimeItem_keeps ..).bounded (rearm_keepsBound _ _ s)
    · exact keepsBound_composes.when fun _ => withdrawItem_keepsBound _ s

theorem updateStandby_keeps (s : State) : Keeps s (updateStandby s) := by
  refine .of_ids (updateStandby_keepsBound s) fun hids => ?_
  unfold updateStandby
  split
  · exact keeps_composes.refl s
  · rename_i i hi
    have hstandby : StateOf s i.id (fun st => st = .standby) :=
      StateOf.of_mem hids (slotItem_mem hi) (slotItem_state hi)
    split
    · refine Composes.ite (retimeItem_keeps ..) (keeps_composes.trans (retimeItem_keeps ..) (armIdle_keeps ?_))
      exact (hstandby.imp fun st hst => by rw [hst]; rfl).of_sameShow (retimeItem_onlyArmed ..).toSameShow
    · exact keeps_composes.when fun _ => withdrawItem_keeps (hstandby.imp fun st hst => by rw [hst]; decide)

theorem retimeAtCompletion_keeps (s : State) : Keeps s (retimeAtCompletion s) :=
  keeps_composes.trans (keeps_composes.elim (fun _ => updateEnd_keeps ..) _)
    (keeps_composes.trans (keeps_composes.elim (fun _ => updateEnd_keeps ..) _) (updateStandby_keeps _))

theorem completeWalk_keeps (s : State) : KeepsQueue s (completeWalk s) :=
  keepsQueue_composes.trans (keeps_composes.trans (writeWalk_keeps s) (retimeAtCompletion_keeps _)).toKeepsQueue
    (keepsQueue_composes.trans (captureTest_keeps _) (closeShowEvent_keeps _).toKeepsQueue)

/-! ### Hold, release and the panel (R83, R189 to R191) -/

theorem holdShow_keeps (s : State) : Keeps s (holdShow s) := by
  have hrest (t : State) : Keeps t (closeShowEvent (triggerWalk (setShow .holding t))) :=
    keeps_composes.trans (setShow_keeps .holding t) (keeps_composes.trans (triggerWalk_keeps _)
        (closeShowEvent_keeps _))
  cases hstandby : standbyItem s with
  | none =>
    simp only [holdShow, hstandby]
    exact hrest s
  | some i =>
    simp only [holdShow, hstandby]
    refine keeps_composes.trans (Composes.ite (keeps_composes.refl s)
      (.of_ids (withdrawItem_keepsBound i.id s) fun hids => ?_)) (hrest _)
    refine withdrawItem_keeps (StateOf.of_mem hids (slotItem_mem hstandby) ?_)
    rw [slotItem_state hstandby]
    decide

theorem releaseShow_keeps (s : State) : Keeps s (releaseShow s) :=
  keeps_composes.trans (setShow_keeps .running s) (keeps_composes.trans (triggerWalk_keeps _) (closeShowEvent_keeps _))

theorem renderDisplay_keeps (n : Fin 4) (s : State) : Keeps s (render n s) := .of_parts rfl rfl rfl

theorem acknowledge_keeps (n : Fin 4) (s : State) : Keeps s (acknowledge n s) := by
  unfold acknowledge
  split
  · exact keeps_composes.refl s
  · exact .of_parts rfl rfl rfl

theorem performFunction_keeps (n : Fin 8) (s : State) : Keeps s (performFunction n s) := by
  unfold performFunction
  cases s.inputs[n].function with
  | nothing => exact keeps_composes.refl s
  | take =>
    change Keeps s (panelTakeShow n s)
    unfold panelTakeShow
    split
    · exact acceptTake_keeps ..
    · exact raiseNotice_keeps ..
    · exact raiseNotice_keeps ..
    · exact keeps_composes.refl s
    · exact keeps_composes.refl s
  | hold =>
    change Keeps s (panelToggleHold s)
    unfold panelToggleHold
    split
    · exact holdShow_keeps s
    · exact releaseShow_keeps s
    · exact keeps_composes.refl s
    · exact keeps_composes.refl s
  | ack =>
    exact Composes.ite (keeps_composes.refl s) (keeps_composes.trans (acknowledge_keeps ..) (renderDisplay_keeps ..))
  | report => exact raiseNotice_keeps ..

theorem performEdge_keeps (n : Fin 8) (s : State) : Keeps s (performEdge n s) := by
  have hedge : Keeps s (modifyInput n takeEdge s) := .of_parts rfl rfl rfl
  exact Composes.ite (keeps_composes.trans hedge (performFunction_keeps n _)) hedge

/-! ### The tick's work completed (R72, R201) -/

theorem takeScan_keeps (s : State) : Keeps s (takeScan s) :=
  keeps_composes.when fun _ => keeps_composes.trans (.of_tick _) (scanQueue_keeps _)

theorem takePulseEnd_keeps (p : Fin 16) (s : State) : Keeps s (takePulseEnd p s) :=
  keeps_composes.when fun _ => .of_port (p := p) rfl rfl rfl fun _ hk => hk

theorem expireHead_keeps (n : Fin 4) (s : State) : Keeps s (expireHead n s) := by
  unfold expireHead
  split
  · exact keeps_composes.refl s
  · exact keeps_composes.when fun _ => .of_parts rfl rfl rfl

theorem advanceCrawl_keeps (n : Fin 4) (s : State) : Keeps s (advanceCrawl n s) :=
  keeps_composes.when fun _ => .of_parts rfl rfl rfl

theorem busyTest_keeps (n : Fin 4) (s : State) : Keeps s (busyTest n s) :=
  keeps_composes.when fun _ => .of_parts rfl rfl rfl

theorem displayTick_keeps (n : Fin 4) (s : State) : Keeps s (displayTick n s) :=
  keeps_composes.when fun _ => keeps_composes.trans (expireHead_keeps n s) (keeps_composes.trans
    (advanceCrawl_keeps n _) (keeps_composes.trans (busyTest_keeps n _) (.of_parts rfl rfl rfl)))

theorem inputTick_keeps (n : Fin 8) (s : State) : Keeps s (inputTick n s) :=
  keeps_composes.when fun _ => performEdge_keeps n s

theorem finishWork_keeps (s : State) : KeepsQueue s (finishWork s) := by
  refine keepsQueue_composes.trans (finishPhases_keeps s) (Keeps.toKeepsQueue ?_)
  refine keeps_composes.trans (takeScan_keeps _) (keeps_composes.trans (keeps_composes.foldl (fun s p =>
    keeps_composes.trans (takeDeadline_keeps p s) (takePulseEnd_keeps p _)) allPorts _) ?_)
  refine keeps_composes.trans (keeps_composes.foldl (fun s n => displayTick_keeps n s) allDisplays _) ?_
  exact keeps_composes.trans (keeps_composes.foldl (fun s n => inputTick_keeps n s) allInputs _) (.of_tick _)

theorem settleTick_keeps (s : State) : KeepsQueue s (settleTick s) :=
  keepsQueue_composes.when fun _ => finishWork_keeps s

end Sys2Proof.Machine
end

