-- ==== Sys2Proof/Proofs/EditsKept.lean ====
section
/-! The host's edits keep the bound of the arm queue and its agreement with the elements (R45 to R55, R63). -/

namespace Sys2Proof.Machine

/-! ### Look-ups under an edit -/

/-- With ids unique an element is found exactly where it stands. -/
theorem findElement_iff {s : State} (hids : IdsUnique s) {k : Key} {e : Element} :
    findElement s k.1 k.2 = some e ↔ ∃ i ∈ s.items, i.id = k.1 ∧ e ∈ i.elements ∧ e.tag = k.2 := by
  constructor
  · intro h
    obtain ⟨i, hi, hie⟩ := Option.bind_eq_some_iff.mp h
    exact ⟨i, findItem_mem hi, findItem_id hi, List.mem_of_find?_eq_some hie, by simpa using List.find?_some hie⟩
  · rintro ⟨i, hi, hid, he, htag⟩
    rw [← hid, ← htag]
    exact findElement_of_mem hids hi he

theorem findElement_congr {s t : State} (hs : IdsUnique s) (ht : IdsUnique t) {k : Key}
    (h : ∀ e, (∃ i ∈ t.items, i.id = k.1 ∧ e ∈ i.elements ∧ e.tag = k.2)
      ↔ ∃ i ∈ s.items, i.id = k.1 ∧ e ∈ i.elements ∧ e.tag = k.2) :
    findElement t k.1 k.2 = findElement s k.1 k.2 :=
  Option.ext fun e => by rw [findElement_iff ht, findElement_iff hs, h e]

theorem findElement_modifyItem_ne {f : Item → Item} (hid : ∀ i, (f i).id = i.id) {id x : StoryId} (hne : x ≠ id)
    (tag : Tag)
    (s : State) : findElement (modifyItem id f s) x tag = findElement s x tag := by
  rw [findElement, findElement, findItem_modifyItem id x f s hid, Option.bind_map]
  refine Option.bind_congr fun i hi => ?_
  simp only [Function.comp_apply]
  rw [if_neg (by simpa [findItem_id hi] using hne)]

theorem findElement_modifyItem_self {f : Item → Item} (hid : ∀ i, (f i).id = i.id) (id : StoryId) (tag : Tag)
    (s : State) :
    findElement (modifyItem id f s) id tag = (findItem s id).bind (fun i => (f i).findElement tag) := by
  rw [findElement, findItem_modifyItem id id f s hid, Option.bind_map]
  refine Option.bind_congr fun i hi => ?_
  simp only [Function.comp_apply]
  rw [if_pos (by simpa using findItem_id hi)]

theorem IdsUnique.modifyItem {s : State} (h : IdsUnique s) {id : StoryId} {f : Item → Item} (hid : ∀ i, (f i).id = i.id)
    (htags : ∀ i ∈ s.items, i.id = id → ((f i).elements.map Element.tag).Nodup) : IdsUnique (modifyItem id f s) := by
  obtain ⟨hids, hzero, hunique⟩ := h
  refine ⟨?_, fun i hi => ?_, fun i hi => ?_⟩
  · rw [modifyItem_items, List.map_map]
    refine (List.map_congr_left fun i _ => ?_) ▸ hids
    simp only [Function.comp_apply]
    split
    · exact (hid i).symm
    · rfl
  · obtain ⟨x, hx, rfl⟩ := List.mem_map.mp hi
    split
    · rw [hid]
      exact hzero x hx
    · exact hzero x hx
  · obtain ⟨x, hx, rfl⟩ := List.mem_map.mp hi
    split
    · exact htags x hx (by simpa using ‹(x.id == id) = true›)
    · exact hunique x hx

theorem IdsUnique.perm {s t : State} (h : IdsUnique s) (ht : t.items.Perm s.items) : IdsUnique t :=
  ⟨(ht.map _).nodup_iff.mpr h.1, fun i hi => h.2.1 i (ht.subset hi), fun i hi => h.2.2 i (ht.subset hi)⟩

/-- An edit changes elements only that are not ARMED before it or after it, and that no command names. -/
theorem Agrees.edit {s t : State} (h : Agrees ∅ s) {K : Set Key} (hids : IdsUnique t)
    (hqueue : t.sched.queue = s.sched.queue) (hports : t.ports = s.ports)
    (hstate : ∀ k ∉ K, stateAt t k = stateAt s k)
    (haction : ∀ k ∉ K, k ∈ entryKeys s → actionAt t k = actionAt s k)
    (hK : ∀ k ∈ K, stateAt s k ≠ some .armed ∧ stateAt t k ≠ some .armed ∧ ∀ p, attached s p ≠ some k)
    (hfit : ∀ i ∈ t.items, i.Fit) : Agrees ∅ t := by
  have hfaces : faces t = faces s := by rw [faces, faces, hqueue]
  have hkeys : entryKeys t = entryKeys s := by rw [entryKeys, entryKeys, hqueue]
  refine h.recast hids hstate haction (hkeys ▸ h.keys) (fun x hx _ => hfaces ▸ hx) (fun x hx _ => hfaces ▸ hx)
    (fun k hk => ?_) (fun x hx hk => ?_) (fun i hi _ => hfit i hi) fun p k hp => ?_
  · obtain ⟨hbefore, hafter, -⟩ := hK k hk
    rw [hkeys, h.standing]
    exact iff_of_false hbefore hafter
  · obtain ⟨hbefore, -, -⟩ := hK x.1 hk
    exact absurd ((h.standing _).mp (mem_entryKeys.mpr ⟨x, hfaces ▸ hx, rfl⟩)) hbefore
  · have hp' : attached s p = some k := by rwa [attached, hports] at hp
    exact ⟨hp', fun hk => (hK k hk).2.2 p hp'⟩

theorem Agrees.fits {s : State} (h : Agrees ∅ s) : ∀ i ∈ s.items, i.Fit := fun i hi => h.fit i hi (by simp)

theorem stateAt_congr {s t : State} {k : Key} (h : findElement t k.1 k.2 = findElement s k.1 k.2) :
    stateAt t k = stateAt s k ∧ actionAt t k = actionAt s k := by
  rw [stateAt, stateAt, actionAt, actionAt, h]
  exact ⟨rfl, rfl⟩

/-! ### ITEM_INSERT and ITEM_MOVE (R45, R49) -/

theorem closeItemEdit_keeps (before : Option StoryId) (s : State) : Keeps s (closeItemEdit before s) :=
  keeps_composes.trans (triggerWalk_keeps s) (reselect_keeps ..)

theorem newItem_fit (b : InsertBody) : (newItem b).Fit :=
  ⟨fun _ he => absurd he List.not_mem_nil, fun hs => absurd hs (by simp [newItem])⟩

/-- A new item without elements joins the items. -/
theorem Agrees.item_added {s t : State} (h : Agrees ∅ s) {i : Item} (hitems : t.items.Perm (i :: s.items))
    (hfresh : i.id ∉ s.items.map Item.id) (hzero : i.id ≠ 0) (helements : i.elements = []) (hfit : i.Fit)
    (hqueue : t.sched.queue = s.sched.queue) (hports : t.ports = s.ports) : Agrees ∅ t := by
  have hmem : ∀ x, x ∈ t.items ↔ x = i ∨ x ∈ s.items := fun x => by rw [hitems.mem_iff, List.mem_cons]
  have hids : IdsUnique t := by
    refine ⟨(hitems.map _).nodup_iff.mpr (List.nodup_cons.mpr ⟨hfresh, h.ids.1⟩), fun x hx => ?_, fun x hx => ?_⟩
    · obtain rfl | hx := (hmem x).mp hx
      · exact hzero
      · exact h.ids.2.1 x hx
    · obtain rfl | hx := (hmem x).mp hx
      · simp [helements]
      · exact h.ids.2.2 x hx
  have hfind : ∀ k : Key, findElement t k.1 k.2 = findElement s k.1 k.2 := fun k => by
    refine findElement_congr h.ids hids fun e => ⟨?_, ?_⟩
    · rintro ⟨x, hx, hrest⟩
      obtain rfl | hx := (hmem x).mp hx
      · simp [helements] at hrest
      · exact ⟨x, hx, hrest⟩
    · rintro ⟨x, hx, hrest⟩
      exact ⟨x, (hmem x).mpr (.inr hx), hrest⟩
  refine h.edit (K := ∅) hids hqueue hports (fun k _ => (stateAt_congr (hfind k)).1)
    (fun k _ _ => (stateAt_congr (hfind k)).2) (fun k hk => absurd hk (by simp)) fun x hx => ?_
  obtain rfl | hx := (hmem x).mp hx
  · exact hfit
  · exact h.fits x hx

theorem insertItem_keeps {b : InsertBody} {s : State} (hid : b.id ≠ 0) (hplace : placeExists s b.place = true)
    (hfresh : findItem s b.id = none) : KeepsQueue s (insertItem b s) := by
  have hplaced : KeepsQueue s (bumpRevision { s with items := placeItem b.place (newItem b) s.items }) := by
    refine ⟨fun b => b, fun h => ?_⟩
    exact h.item_added (placeItem_perm h.ids.1 (((placeExists_iff ..).mp hplace).imp_right mem_ids_of_findItem) _)
      ((findItem_eq_none_iff s b.id).mp hfresh) hid rfl (newItem_fit b) rfl rfl
  exact keepsQueue_composes.trans hplaced (closeItemEdit_keeps ..).toKeepsQueue

/-- The items in another order. -/
theorem Agrees.reordered {s t : State} (h : Agrees ∅ s) (hitems : t.items.Perm s.items)
    (hqueue : t.sched.queue = s.sched.queue) (hports : t.ports = s.ports) : Agrees ∅ t := by
  have hids := h.ids.perm hitems
  have hfind : ∀ k : Key, findElement t k.1 k.2 = findElement s k.1 k.2 := fun k =>
    findElement_congr h.ids hids fun e => by simp only [hitems.mem_iff]
  exact h.edit (K := ∅) hids hqueue hports (fun k _ => (stateAt_congr (hfind k)).1)
    (fun k _ _ => (stateAt_congr (hfind k)).2) (fun k hk => absurd hk (by simp)) fun i hi => h.fits i (hitems.subset hi)

theorem moveItem_keeps {i : Item} {place : StoryId} {s : State} (hi : i ∈ s.items)
    (hplace : placeExists s place = true) (hother : place ≠ i.id) : KeepsQueue s (moveItem i place s) := by
  have hplace : place = 0 ∨ place ∈ (s.items.filter (fun x => x.id != i.id)).map Item.id := by
    refine ((placeExists_iff ..).mp hplace).imp_right fun h => ?_
    obtain ⟨x, hx⟩ := Option.isSome_iff_exists.mp h
    have hxid := findItem_id hx
    exact List.mem_map.mpr ⟨x, List.mem_filter.mpr ⟨findItem_mem hx, by simpa [hxid] using hother⟩, hxid⟩
  have hmoved : KeepsQueue s
      (bumpRevision { s with items := placeItem place i (s.items.filter (fun x => x.id != i.id)) }) := by
    refine ⟨fun b => b, fun h => h.reordered ?_ rfl rfl⟩
    have hids := (List.filter_sublist (p := fun x => x.id != i.id) (l := s.items)).map Item.id |>.nodup h.ids.1
    exact (placeItem_perm hids hplace i).trans (cons_filter_perm h.ids.1 hi)
  exact keepsQueue_composes.trans hmoved (closeItemEdit_keeps ..).toKeepsQueue

/-! ### ITEM_AMEND (R46) -/

theorem amendItem_keeps (b : AmendBody) (i : Item) (s : State) : Keeps s (amendItem b i s) := by
  have hk := keeps_composes
  have hrecord : Keeps s (modifyItem b.id (amendRecord b) s) :=
    modifyItem_keeps (f := amendRecord b) (fun _ => rfl) (fun _ => rfl) fun _ _ _ hfit => hfit.of_eq rfl rfl rfl
  unfold amendItem
  exact hk.trans hrecord (hk.trans (hk.when fun _ => triggerWalk_keeps _)
    (hk.trans (hk.when fun _ => reselect_keeps ..) (hk.when fun _ => renderAll_keeps _)))

/-! ### ITEM_RETIRE and ITEM_RESET (R50 to R52) -/

/-- No command names an element of the item. -/
def Unnamed (s : State) (id : StoryId) : Prop := ∀ p k, attached s p = some k → k.1 ≠ id

theorem foldl_detach_attached {id : StoryId} {l : List Tag} {s : State} {p : Fin 16} {k : Key}
    (h : attached (l.foldl (fun s t => detach id t s) s) p = some k) :
    attached s p = some k ∧ ∀ t ∈ l, k ≠ (id, t) := by
  induction l generalizing s with
  | nil => exact ⟨h, fun _ ht => absurd ht List.not_mem_nil⟩
  | cons t l ih =>
    obtain ⟨hk, hl⟩ := ih h
    obtain ⟨hk, ht⟩ := attached_detach hk
    exact ⟨hk, fun x hx => (List.mem_cons.mp hx).elim (fun heq => heq ▸ ht) (hl x)⟩

theorem foldl_detach_rest (id : StoryId) (l : List Tag) (s : State) :
    ∃ ports, l.foldl (fun s t => detach id t s) s = { s with ports } := by
  induction l generalizing s with
  | nil => exact ⟨s.ports, rfl⟩
  | cons t l ih =>
    obtain ⟨ports, h⟩ := ih (detach id t s)
    exact ⟨ports, h⟩

theorem foldl_detach_keepsBound (id : StoryId) (l : List Tag) (s : State) :
    KeepsBound s (l.foldl (fun s t => detach id t s) s) := by
  obtain ⟨ports, hrest⟩ := foldl_detach_rest id l s
  rw [hrest]
  exact fun b => b

/-- All commands of an item's elements are detached. -/
theorem Agrees.detach_issued {X : Set StoryId} {s : State} (h : Agrees X s) (id : StoryId) :
    Agrees X ((tagsIn s id (· == .issued)).foldl (fun s t => detach id t s) s)
      ∧ Unnamed ((tagsIn s id (· == .issued)).foldl (fun s t => detach id t s) s) id := by
  refine ⟨?_, fun p k hp hid => ?_⟩
  · obtain ⟨ports, hrest⟩ := foldl_detach_rest id (tagsIn s id (· == .issued)) s
    refine h.of_same ?_ ?_ fun p k hp => (foldl_detach_attached hp).1
    · rw [hrest]
    · rw [hrest]
      exact .refl _
  · obtain ⟨hbefore, hne⟩ := foldl_detach_attached hp
    obtain ⟨x, tag⟩ := k
    obtain rfl : x = id := hid
    exact hne tag ((mem_tagsIn h.ids).mpr ⟨.issued, h.issued p _ hbefore, rfl⟩) rfl

theorem stateAt_orphanElement {id : StoryId} {y tag : Tag} {s : State} {st : ElementState}
    (h : stateAt (orphanElement id y s) (id, tag) = some st) :
    st = .idle ∨ (stateAt s (id, tag) = some st ∧ tag ≠ y) := by
  by_cases hy : tag = y
  · subst hy
    cases he : findElement s id tag with
    | none =>
      simp only [orphanElement, he] at h
      rw [stateAt, he] at h
      cases h
    | some e =>
      have heq : orphanElement id tag s = raiseNotice .elementOrphaned id tag (portField e.action.port) e.state.code
          (modifyElement id tag Element.toIdle (if e.state = .issued then detach id tag s else s)) := by
        simp only [orphanElement, he]
      rw [heq] at h
      have hidle := (stateAt_modifyElement_same toIdle_keepsTag).symm.trans h
      obtain ⟨x, -, rfl⟩ := Option.map_eq_some_iff.mp hidle
      exact .inl rfl
  · exact .inr ⟨(stateAt_orphanElement_ne (by simpa using hy)).symm.trans h, hy⟩

theorem stateAt_foldl_orphan {id : StoryId} {l : List Tag} {tag : Tag} {s : State} {st : ElementState}
    (h : stateAt (l.foldl (fun s t => orphanElement id t s) s) (id, tag) = some st) :
    st = .idle ∨ (stateAt s (id, tag) = some st ∧ tag ∉ l) := by
  induction l generalizing s with
  | nil => exact .inr ⟨h, List.not_mem_nil⟩
  | cons y l ih =>
    obtain hidle | ⟨h, hl⟩ := ih h
    · exact .inl hidle
    · exact (stateAt_orphanElement h).imp_right fun ⟨h, hy⟩ => ⟨h, by simp [hy, hl]⟩

/-- After an orphaning no element of the item is ISSUED, and none is scheduled that was not. -/
theorem orphanItem_states {s : State} (hids : IdsUnique s) {id : StoryId} {tag : Tag} {st : ElementState}
    (h : stateAt (orphanItem id s) (id, tag) = some st) :
    st = .idle ∨ (stateAt s (id, tag) = some st ∧ st ≠ .issued) := by
  refine (stateAt_foldl_orphan h).imp_right fun ⟨hst, hl⟩ => ⟨hst, fun hissued => hl ?_⟩
  exact (mem_tagsIn hids).mpr ⟨st, hst, by rw [hissued]; rfl⟩

/-- An item that may be retired, with its elements withdrawn, orphaned or detached. -/
theorem Agrees.retireElements {s : State} (h : Agrees ∅ s) {i : Item} (hoff : OffAir s i.id) :
    Agrees ∅ (retireElements i s) ∧ Unscheduled (retireElements i s) i.id ∧ Unnamed (retireElements i s) i.id := by
  obtain ⟨hagrees, hun⟩ := (h.mono (Set.empty_subset (insert i.id ∅))).withdrawItem hoff
  have hun' := (unscheduled_iff hagrees.ids).mp hun
  unfold Machine.retireElements
  dsimp only
  split
  · have horphaned := (orphanItem_keeps i.id _).agrees ∅ hagrees
    refine ⟨horphaned, (unscheduled_iff horphaned.ids).mpr fun tag st hst => ?_, fun p k hp hid => ?_⟩
    · obtain rfl | ⟨hst, -⟩ := orphanItem_states hagrees.ids hst
      · rfl
      · exact hun' tag st hst
    · obtain ⟨x, tag⟩ := k
      obtain rfl : x = i.id := hid
      obtain hidle | ⟨-, hissued⟩ := orphanItem_states hagrees.ids (horphaned.issued p _ hp)
      · cases hidle
      · exact hissued rfl
  · obtain ⟨hdetached, hunnamed⟩ := hagrees.detach_issued i.id
    refine ⟨hdetached, ?_, hunnamed⟩
    obtain ⟨ports, hrest⟩ := foldl_detach_rest i.id (tagsIn (Machine.withdrawItem i.id s) i.id (· == .issued))
      (Machine.withdrawItem i.id s)
    rw [hrest]
    exact hun

theorem retireElements_keepsBound (i : Item) (s : State) : KeepsBound s (retireElements i s) :=
  keepsBound_composes.trans (withdrawItem_keepsBound i.id s) (Composes.ite (orphanItem_keeps ..).bounded
    (foldl_detach_keepsBound i.id _ _))

/-- An item leaves of which no element is scheduled or named. -/
theorem Agrees.removeItem {s : State} (h : Agrees ∅ s) {id : StoryId} (hun : Unscheduled s id)
    (hunnamed : Unnamed s id) :
    Agrees ∅ (removeItem id s) := by
  have hmem : ∀ i, i ∈ (Machine.removeItem id s).items ↔ i ∈ s.items ∧ i.id ≠ id := fun i => by
    rw [show (Machine.removeItem id s).items = s.items.filter (fun i => i.id != id) from rfl, List.mem_filter,
        bne_iff_ne]
  have hids : IdsUnique (Machine.removeItem id s) :=
    ⟨((List.filter_sublist).map _).nodup h.ids.1, fun i hi => h.ids.2.1 i ((hmem i).mp hi).1,
      fun i hi => h.ids.2.2 i ((hmem i).mp hi).1⟩
  have hfind : ∀ k : Key, k.1 ≠ id → findElement (Machine.removeItem id s) k.1 k.2 = findElement s k.1 k.2 := by
    refine fun k hk => findElement_congr h.ids hids fun e => ⟨?_, ?_⟩
    · rintro ⟨i, hi, hrest⟩
      exact ⟨i, ((hmem i).mp hi).1, hrest⟩
    · rintro ⟨i, hi, hid, hrest⟩
      exact ⟨i, (hmem i).mpr ⟨hi, fun heq => hk (hid.symm.trans heq)⟩, hid, hrest⟩
  refine h.edit (K := {k | k.1 = id}) hids rfl rfl (fun k hk => (stateAt_congr (hfind k hk)).1)
    (fun k hk _ => (stateAt_congr (hfind k hk)).2) ?_ fun i hi => h.fits i ((hmem i).mp hi).1
  rintro ⟨x, tag⟩ rfl
  refine ⟨fun hst => ?_, fun hst => ?_, fun p hp => hunnamed p _ hp rfl⟩
  · exact absurd ((unscheduled_iff h.ids).mp hun tag _ hst) (by decide)
  · obtain ⟨i, hi, hid, -⟩ := mem_of_stateAt hst
    exact absurd hid ((hmem i).mp hi).2

theorem releaseReferences_keeps (id : StoryId) (s : State) : Keeps s (releaseReferences id s) :=
  keeps_composes.trans (endNomination_keeps id s) (keeps_composes.when fun _ => .of_parts rfl rfl rfl)

theorem releaseReferences_parts (id : StoryId) (s : State) : (releaseReferences id s).items = s.items
    ∧ (releaseReferences id s).ports = s.ports := by
  unfold releaseReferences
  rw [endNomination_eq]
  dsimp only
  split
  · exact ⟨rfl, rfl⟩
  · exact ⟨rfl, rfl⟩

theorem Item.movable_offAir {i : Item} (h : i.movable = true) : i.state ≠ .onair ∧ i.state ≠ .taking := by
  cases hs : i.state <;> simp [Item.movable, hs] at h ⊢

theorem retireItem_keeps {i : Item} {s : State} (hi : findItem s i.id = some i) (hmovable : i.movable = true) :
    KeepsQueue s (retireItem i s) := by
  have hremoved : KeepsQueue s (removeItem i.id (releaseReferences i.id (retireElements i s))) := by
    refine ⟨keepsBound_composes.trans (retireElements_keepsBound i s) (releaseReferences_keeps i.id _).bounded,
      fun h => ?_⟩
    obtain ⟨hagrees, hun, hunnamed⟩ := h.retireElements (i := i)
      (StateOf.of_mem h.ids (findItem_mem hi) (Item.movable_offAir hmovable))
    obtain ⟨hitems, hports⟩ := releaseReferences_parts i.id (retireElements i s)
    refine ((releaseReferences_keeps i.id _).agrees ∅ hagrees).removeItem ?_ ?_
    · rw [Unscheduled, hitems]
      exact hun
    · intro p k hp
      rw [attached, hports] at hp
      exact hunnamed p k hp
  have hbumped (u : State) : Keeps u (bumpRevision u) := .of_parts rfl rfl rfl
  exact keepsQueue_composes.trans hremoved
    (keeps_composes.trans (hbumped _) (closeItemEdit_keeps (standbyId s) _)).toKeepsQueue

theorem Item.resettable_far {i : Item} (h : i.resettable = true) : i.state.near = false := by
  cases hs : i.state <;> simp [Item.resettable, hs, ItemState.near] at h ⊢

/-- An item that is not near air and of which no element is named is reset. -/
theorem Agrees.resetRecord {s : State} (h : Agrees ∅ s) {id : StoryId} (hfar : StateOf s id (fun st => st.near = false))
    (hunnamed : Unnamed s id) : Agrees ∅ (Machine.modifyItem id Machine.resetRecord s) := by
  have hids : IdsUnique (Machine.modifyItem id Machine.resetRecord s) :=
    h.ids.modifyItem (fun _ => rfl) fun i hi _ => by
      simpa [Machine.resetRecord, Function.comp_def, Element.toIdle] using h.ids.2.2 i hi
  have hfind (k : Key) (hk : k.1 ≠ id) :
      findElement (Machine.modifyItem id Machine.resetRecord s) k.1 k.2 = findElement s k.1 k.2 :=
    findElement_modifyItem_ne (f := Machine.resetRecord) (fun _ => rfl) hk k.2 s
  refine h.edit (K := {k | k.1 = id}) hids rfl rfl (fun k hk => (stateAt_congr (hfind k hk)).1)
    (fun k hk _ => (stateAt_congr (hfind k hk)).2) ?_ fun i hi => ?_
  · rintro ⟨x, tag⟩ rfl
    refine ⟨fun hst => ?_, fun hst => ?_, fun p hp => hunnamed p _ hp rfl⟩
    · obtain ⟨i, hi, hid, e, he, -, harmed⟩ := mem_of_stateAt hst
      have hnear := ((h.fits i hi).scheduled e he (by rw [harmed]; rfl)).1
      exact absurd (hnear.symm.trans (hfar i hi hid)) (by simp)
    · obtain ⟨e, he, harmed⟩ := Option.map_eq_some_iff.mp hst
      rw [findElement_modifyItem_self (f := Machine.resetRecord) (fun _ => rfl)] at he
      obtain ⟨i, -, hie⟩ := Option.bind_eq_some_iff.mp he
      obtain ⟨y, -, rfl⟩ := List.mem_map.mp (List.mem_of_find?_eq_some hie)
      cases harmed
  · obtain ⟨x, hx, rfl⟩ := List.mem_map.mp hi
    split
    · refine ⟨fun e he hst => ?_, fun hs => absurd hs (by simp [Machine.resetRecord])⟩
      obtain ⟨y, -, rfl⟩ := List.mem_map.mp he
      cases hst
    · exact h.fits x hx

theorem resetItem_keeps {id : StoryId} {s : State} {i : Item} (hi : findItem s id = some i)
    (hreset : i.resettable = true) : KeepsQueue s (resetItem id s) := by
  have hdone : KeepsQueue s (modifyItem id resetRecord
      ((tagsIn s id (· == .issued)).foldl (fun s t => detach id t s) s)) := by
    refine ⟨foldl_detach_keepsBound id _ s, fun h => ?_⟩
    obtain ⟨hagrees, hunnamed⟩ := h.detach_issued id
    obtain ⟨ports, hrest⟩ := foldl_detach_rest id (tagsIn s id (· == .issued)) s
    refine hagrees.resetRecord ?_ hunnamed
    rw [hrest]
    have hid := findItem_id hi
    exact (hid ▸ StateOf.of_mem (P := fun st => st.near = false) h.ids (findItem_mem hi) (Item.resettable_far hreset) :)
  exact keepsQueue_composes.trans hdone (closeItemEdit_keeps ..).toKeepsQueue

end Sys2Proof.Machine
end

