-- ==== Sys2Proof/Proofs/ElementEditsKept.lean ====
section
/-! The element edits keep the bound of the arm queue and its agreement with the elements (R53 to R55, R63). -/

namespace Sys2Proof.Machine

/-! ### ELEMENT_ADD (R53) -/

/-- An element list as it changes in one item. -/
def withElements (g : List Element → List Element) (i : Item) : Item := { i with elements := g i.elements }

theorem Item.findElement_congr {i : Item} {g : List Element → List Element} (htags : (i.elements.map Element.tag).Nodup)
    (htags' : ((g i.elements).map Element.tag).Nodup) {tag : Tag}
    (hmem : ∀ e : Element, e.tag = tag → (e ∈ g i.elements ↔ e ∈ i.elements)) :
    (withElements g i).findElement tag = i.findElement tag := by
  refine Option.ext fun e => ⟨fun h => ?_, fun h => ?_⟩
  · have htag : e.tag = tag := by simpa using List.find?_some h
    rw [← htag]
    exact Item.findElement_of_mem htags ((hmem e htag).mp (List.mem_of_find?_eq_some h))
  · have htag : e.tag = tag := by simpa using List.find?_some h
    rw [← htag]
    exact Item.findElement_of_mem (i := withElements g i) htags' ((hmem e htag).mpr (List.mem_of_find?_eq_some h))

/-- One item's list changes but for the elements of other tags, of which none is ARMED or named. -/
theorem Agrees.relist {s : State} (h : Agrees ∅ s) {id : StoryId} {tag : Tag} {g : List Element → List Element}
    (htags : ∀ i ∈ s.items, i.id = id → ((g i.elements).map Element.tag).Nodup)
    (hmem : ∀ i ∈ s.items, i.id = id → ∀ e : Element, e.tag ≠ tag → (e ∈ g i.elements ↔ e ∈ i.elements))
    (hnew : ∀ i ∈ s.items, i.id = id → ∀ e ∈ g i.elements, e.tag = tag → e.state.scheduled = false)
    (hbefore : stateAt s (id, tag) ≠ some .armed) (hfree : ∀ p, attached s p ≠ some (id, tag)) :
    Agrees ∅ (Machine.modifyItem id (withElements g) s) := by
  have hids : IdsUnique (Machine.modifyItem id (withElements g) s) := h.ids.modifyItem (fun _ => rfl) htags
  have hfind (k : Key) (hk : k ≠ (id, tag)) :
      findElement (Machine.modifyItem id (withElements g) s) k.1 k.2 = findElement s k.1 k.2 := by
    obtain ⟨x, y⟩ := k
    by_cases hx : x = id
    · subst hx
      have hy : y ≠ tag := fun heq => hk (heq ▸ rfl)
      rw [findElement_modifyItem_self (f := withElements g) (fun _ => rfl)]
      refine Option.bind_congr fun i hi => ?_
      have hi' := findItem_mem hi
      have hiid := findItem_id hi
      exact Item.findElement_congr (h.ids.2.2 i hi') (htags i hi' hiid) fun e he =>
        hmem i hi' hiid e (he.trans_ne hy)
    · exact findElement_modifyItem_ne (f := withElements g) (fun _ => rfl) hx y s
  refine h.edit (K := {(id, tag)}) hids rfl rfl (fun k hk => (stateAt_congr (hfind k hk)).1)
    (fun k hk _ => (stateAt_congr (hfind k hk)).2) ?_ fun i hi => ?_
  · rintro k rfl
    refine ⟨hbefore, fun hst => ?_, hfree⟩
    obtain ⟨e, he, harmed⟩ := Option.map_eq_some_iff.mp hst
    rw [findElement_modifyItem_self (f := withElements g) (fun _ => rfl)] at he
    obtain ⟨i, hi, hie⟩ := Option.bind_eq_some_iff.mp he
    have hout := hnew i (findItem_mem hi) (findItem_id hi) e (List.mem_of_find?_eq_some hie)
      (by simpa using List.find?_some hie)
    rw [harmed] at hout
    cases hout
  · obtain ⟨x, hx, rfl⟩ := List.mem_map.mp hi
    split
    · rename_i hxid
      have hxid : x.id = id := beq_iff_eq.mp hxid
      refine ⟨fun e he hst => ?_, (h.fits x hx).context⟩
      by_cases htag : e.tag = tag
      · exact absurd ((hnew x hx hxid e he htag).symm.trans hst) (by simp)
      · exact (h.fits x hx).scheduled e ((hmem x hx hxid e htag).mp he) hst
    · exact h.fits x hx

theorem addElement_keeps {h : AddHead} {i : Item} {e : Element} {s : State} (hi : findItem s h.id = some i)
    (hbefore : h.before = 0 ∨ (i.findElement h.before).isSome = true) (hfresh : i.findElement h.tag = none)
    (htag : e.tag = h.tag) (hidle : e.state = .idle) : KeepsQueue s (addElement h i e s) := by
  have hbound : KeepsBound s (addElement h i e s) := keepsBound_composes.trans
    (b := modifyItem h.id (withElements (enterElement h.before e)) s) (fun b => b)
    (keepsBound_composes.when fun _ => armElement_keepsBound h.id h.tag _)
  refine ⟨hbound, fun hs => ?_⟩
  have honly : ∀ x ∈ s.items, x.id = h.id → x = i := fun x hx hxid =>
    List.inj_on_of_nodup_map hs.ids.1 hx (findItem_mem hi) (hxid.trans (findItem_id hi).symm)
  have hperm : (enterElement h.before e i.elements).Perm (e :: i.elements) := by
    refine enterElement_perm (hs.ids.2.2 i (findItem_mem hi)) (hbefore.imp_right fun hb => ?_) e
    obtain ⟨y, hy⟩ := Option.isSome_iff_exists.mp hb
    exact List.mem_map.mpr ⟨y, List.mem_of_find?_eq_some hy, by simpa using List.find?_some hy⟩
  have hnone : findElement s h.id h.tag = none := by rw [findElement, hi, Option.bind_some, hfresh]
  have hnotag : h.tag ∉ i.elements.map Element.tag := fun hin => by
    obtain ⟨y, hy, hytag⟩ := List.mem_map.mp hin
    have hfound := Item.findElement_of_mem (hs.ids.2.2 i (findItem_mem hi)) hy
    rw [hytag, hfresh] at hfound
    cases hfound
  have hentered : Agrees ∅ (modifyItem h.id (withElements (enterElement h.before e)) s) := by
    have hstate : stateAt s (h.id, h.tag) = none := by rw [stateAt, hnone, Option.map_none]
    refine hs.relist (tag := h.tag) (fun x hx hxid => ?_) (fun x hx hxid y hy => ?_) (fun x hx hxid y hy hytag => ?_)
      (by simp [hstate]) (hs.unattached (by simp [hstate]))
    · rw [honly x hx hxid, (hperm.map _).nodup_iff, List.map_cons, List.nodup_cons, htag]
      exact ⟨hnotag, hs.ids.2.2 i (findItem_mem hi)⟩
    · rw [honly x hx hxid, hperm.mem_iff, List.mem_cons]
      exact or_iff_right fun heq => hy (heq ▸ htag)
    · rw [honly x hx hxid] at hy
      obtain rfl | hy := List.mem_cons.mp (hperm.mem_iff.mp hy)
      · rw [hidle]
        rfl
      · exact absurd (List.mem_map.mpr ⟨y, hy, hytag⟩) hnotag
  change Agrees ∅ (if i.state.near then armElement h.id h.tag
    (modifyItem h.id (withElements (enterElement h.before e)) s) else modifyItem h.id
        (withElements (enterElement h.before e)) s)
  split
  · rename_i hnear
    refine hentered.armElement ⟨?_, .inl ?_⟩
    · have hstate := StateOf.of_mem (P := fun st => st.near = true) hs.ids (findItem_mem hi) hnear
      rw [findItem_id hi] at hstate
      exact hstate.of_cores (modifyItem_onlyArmed (by intro; rfl) ..).cores
    · rw [stateAt, findElement_modifyItem_self (f := withElements (enterElement h.before e)) (fun _ => rfl), hi,
        Option.bind_some]
      have hfound := Item.findElement_of_mem (i := withElements (enterElement h.before e) i) (e := e)
        (by
          rw [show (withElements (enterElement h.before e) i).elements = enterElement h.before e i.elements from rfl,
            (hperm.map _).nodup_iff, List.map_cons, List.nodup_cons, htag]
          exact ⟨hnotag, hs.ids.2.2 i (findItem_mem hi)⟩)
        (hperm.mem_iff.mpr List.mem_cons_self)
      rw [htag] at hfound
      rw [hfound, Option.map_some, hidle]
  · exact hentered

/-! ### ELEMENT_AMEND (R54) -/

theorem amendElementRecord_keepsTag (f : ElementFields) (a : Action) : KeepsTag (amendElementRecord f a) := fun _ => rfl

theorem stateAt_amendElementRecord (f : ElementFields) (a : Action) (id : StoryId) (tag : Tag) (s : State) (k : Key) :
    stateAt (modifyElement id tag (amendElementRecord f a) s) k = stateAt s k := by
  by_cases hk : k = (id, tag)
  · subst hk
    rw [stateAt_modifyElement_same (amendElementRecord_keepsTag f a)]
    rfl
  · exact stateAt_modifyElement_ne (amendElementRecord_keepsTag f a) hk

/-- An element that is not ARMED takes other fields. -/
theorem Agrees.amended {s : State} (h : Agrees ∅ s) {id : StoryId} {tag : Tag} (f : ElementFields) (a : Action)
    (hnot : stateAt s (id, tag) ≠ some .armed) : Agrees ∅ (modifyElement id tag (amendElementRecord f a) s) := by
  have hstate := stateAt_amendElementRecord f a id tag s
  have hids := h.ids.modifyElement (id := id) (tag := tag) (amendElementRecord_keepsTag f a)
  refine h.edit (K := ∅) hids rfl rfl (fun k _ => hstate k) (fun k _ hk => ?_) (fun k hk => absurd hk (by simp))
    fun i hi => ?_
  · refine actionAt_modifyElement_ne (amendElementRecord_keepsTag f a) fun heq => hnot ?_
    exact heq ▸ (h.standing k).mp hk
  · obtain ⟨x, hx, rfl⟩ := List.mem_map.mp hi
    split
    · refine ⟨fun e he hst => ?_, (h.fits x hx).context⟩
      obtain ⟨y, hy, rfl⟩ := List.mem_map.mp he
      refine (h.fits x hx).scheduled y hy (Eq.trans (congrArg _ ?_) hst)
      split
      · rfl
      · rfl
    · exact h.fits x hx

/-- An ARMED element takes other fields and is armed anew (R63). -/
theorem Agrees.rearmed {s : State} (h : Agrees ∅ s) {id : StoryId} {tag : Tag} (f : ElementFields) (a : Action)
    {e : Element} (he : findElement s id tag = some e) (harmed : e.state = .armed) :
    Agrees ∅ (Machine.armElement id tag (removeEntry id tag (modifyElement id tag (amendElementRecord f a) s))) := by
  have hkeep := amendElementRecord_keepsTag f a
  obtain ⟨i, hi, hie⟩ := Option.bind_eq_some_iff.mp he
  have hmem := findItem_mem hi
  have htag : e.tag = tag := by simpa using List.find?_some hie
  obtain ⟨hnear, hcontext⟩ := (h.fits i hmem).scheduled e (List.mem_of_find?_eq_some hie) (by rw [harmed]; rfl)
  have hfit : ∀ x ∈ s.items, x.id = id → x.state.near = true ∧ x.context.isSome = true := fun x hx hxid => by
    rw [List.inj_on_of_nodup_map h.ids.1 hx hmem (hxid.trans (findItem_id hi).symm)]
    exact ⟨hnear, hcontext⟩
  have hfree : ∀ p, attached s p ≠ some (id, tag) := h.unattached fun hst => by
    rw [stateAt, he, Option.map_some, harmed] at hst
    cases hst
  obtain ⟨c, hc⟩ := Option.isSome_iff_exists.mp hcontext
  have hcontext' : contextOf (removeEntry id tag (modifyElement id tag (amendElementRecord f a) s)) id = some c := by
    refine (contextOf_modifyItem (by intro; rfl) (by intro; rfl) id id s).trans ?_
    rw [contextOf, hi, Option.bind_some, hc]
  have hfound : findElement (removeEntry id tag (modifyElement id tag (amendElementRecord f a) s)) id tag
      = some (amendElementRecord f a e) :=
    (findElement_modifyElement_same hkeep id tag s).trans (by rw [he, Option.map_some])
  have hitems (st : ElementState) :
      (withState id tag st (removeEntry id tag (modifyElement id tag (amendElementRecord f a) s))).items
        = (modifyElement id tag (fun e => { amendElementRecord f a e with state := st }) s).items := by
    have htwice := congrArg State.items (modifyElement_modifyElement (id := id) (tag := tag) (s := s)
      (g := fun e => { e with state := st }) hkeep)
    exact htwice
  have hfaces := faces_removeEntry id tag (modifyElement id tag (amendElementRecord f a) s)
  by_cases hroom : (removeEntry id tag (modifyElement id tag (amendElementRecord f a) s)).sched.queue.length
      < Config.armQueue
  · rw [armElement_placed hcontext' hfound hroom]
    refine h.placed (f := fun e => { amendElementRecord f a e with state := .armed })
      (q := newEntry (removeEntry id tag (modifyElement id tag (amendElementRecord f a) s)) id c
          (amendElementRecord f a e))
      (fun _ => rfl) (hitems .armed) ?_ rfl he hfree rfl hfit (by rw [← htag]; rfl) (newEntry_suits _ id c _)
    exact (faces_placeEntry _ _).trans (.cons _ (.of_eq hfaces))
  · rw [armElement_waits hcontext' hfound (Nat.not_lt.mp hroom)]
    exact h.unplaced (f := fun e => { amendElementRecord f a e with state := .waiting }) (fun _ => rfl)
        (hitems .waiting)
      hfaces rfl hfree (fun _ => by simp) fun x hx hxid _ _ => hfit x hx hxid

theorem amendElement_keepsBound (id : StoryId) (tag : Tag) (i : Item) (e : Element) (f : ElementFields) (a : Action)
    (s : State) : KeepsBound s (amendElement id tag i e f a s) := by
  have hk := keepsBound_composes
  have hamended : KeepsBound s (modifyElement id tag (amendElementRecord f a) s) := fun b => b
  unfold amendElement
  exact hk.trans hamended (hk.when fun _ => Composes.ite (armElement_keepsBound id tag _) (hk.when fun _ =>
    hk.trans (.of_length (List.length_filter_le ..)) (armElement_keepsBound id tag _)))

theorem amendElement_keeps {id : StoryId} {tag : Tag} {i : Item} {e : Element} {f : ElementFields} {a : Action}
    {s : State} (hi : findItem s id = some i) (he : findElement s id tag = some e) :
    KeepsQueue s (amendElement id tag i e f a s) := by
  refine ⟨amendElement_keepsBound id tag i e f a s, fun h => ?_⟩
  have hst : stateAt s (id, tag) = some e.state := by rw [stateAt, he, Option.map_some]
  by_cases harmed : e.state = .armed
  · obtain ⟨j, hj, hje⟩ := Option.bind_eq_some_iff.mp he
    cases hi.symm.trans hj
    have hnear := ((h.fits i (findItem_mem hi)).scheduled e (List.mem_of_find?_eq_some hje) (by rw [harmed]; rfl)).1
    have hrearm := h.rearmed f a he harmed
    simpa [amendElement, hnear, harmed] using hrearm
  · have hamended := h.amended (id := id) (tag := tag) f a (by simpa [hst] using harmed)
    unfold amendElement
    dsimp only
    rw [if_neg harmed]
    split
    · rename_i hnear
      split
      · rename_i hidle
        refine hamended.armElement ⟨?_, .inl ?_⟩
        · have hstate := StateOf.of_mem (P := fun st => st.near = true) h.ids (findItem_mem hi) hnear
          rw [findItem_id hi] at hstate
          exact hstate.of_cores (modifyElement_onlyArmed id tag (amendElementRecord f a) s).cores
        · rw [stateAt_amendElementRecord, hst, hidle]
      · exact hamended
    · exact hamended

/-! ### ELEMENT_REMOVE (R55) -/

/-- An element that is not ARMED and that no command names leaves its item's list. -/
theorem Agrees.dropElement {s : State} (h : Agrees ∅ s) {id : StoryId} {tag : Tag}
    (hnot : stateAt s (id, tag) ≠ some .armed) (hfree : ∀ p, attached s p ≠ some (id, tag)) :
    Agrees ∅ (dropElement id tag s) := by
  refine h.relist (g := fun es => es.filter (fun e => e.tag != tag)) (tag := tag)
    (fun i hi _ => ((List.filter_sublist).map _).nodup (h.ids.2.2 i hi)) (fun i _ _ e he => ?_)
    (fun i _ _ e he htag => ?_) hnot hfree
  · rw [List.mem_filter, bne_iff_ne]
    exact and_iff_left he
  · exact absurd htag (bne_iff_ne.mp (List.mem_filter.mp he).2)

theorem removeElement_keeps {id : StoryId} {tag : Tag} {e : Element} {s : State}
    (he : findElement s id tag = some e) : KeepsQueue s (removeElement id tag e s) := by
  have hst : stateAt s (id, tag) = some e.state := by rw [stateAt, he, Option.map_some]
  have hother (hissued : e.state ≠ .issued) (harmed : e.state ≠ .armed) : KeepsQueue s (dropElement id tag s) :=
    ⟨fun b => b, fun h => h.dropElement (by simpa [hst] using harmed) (h.unattached (by simpa [hst] using hissued))⟩
  cases hs : e.state with
  | issued =>
    simp only [removeElement, hs]
    refine ⟨fun b => b, fun h => ?_⟩
    exact (h.of_same (t := detach id tag s) rfl (.refl _) fun p k hp => (attached_detach hp).1).dropElement
      (by rw [show stateAt (detach id tag s) (id, tag) = stateAt s (id, tag) from rfl, hst, hs]; decide)
      fun p hp => (attached_detach hp).2 rfl
  | armed =>
    simp only [removeElement, hs]
    have hdropped : KeepsQueue s (dropElement id tag (withdrawElement id tag s)) := by
      refine ⟨KeepsBound.of_length (List.length_filter_le ..), fun h => ?_⟩
      have hfree := h.unattached (k := (id, tag)) (by simp [hst, hs])
      refine (h.settle (f := Element.toIdle) (fun _ => rfl) (fun _ => rfl) hfree).dropElement ?_ hfree
      rw [show stateAt (removeEntry id tag (modifyElement id tag Element.toIdle s)) (id, tag)
        = (findElement s id tag).map (fun e => e.toIdle.state) from stateAt_modifyElement_same (fun _ => rfl), he]
      simp [Element.toIdle]
    exact keepsQueue_composes.trans hdropped (fillFromWaiting_keeps_queue _).toKeepsQueue
  | idle => simpa only [removeElement, hs] using hother (by simp [hs]) (by simp [hs])
  | waiting => simpa only [removeElement, hs] using hother (by simp [hs]) (by simp [hs])
  | done => simpa only [removeElement, hs] using hother (by simp [hs]) (by simp [hs])
  | missed => simpa only [removeElement, hs] using hother (by simp [hs]) (by simp [hs])
  | failed => simpa only [removeElement, hs] using hother (by simp [hs]) (by simp [hs])

/-! ### An empty store -/

/-- Without items, entries and attached commands everything agrees. -/
theorem agrees_of_empty {t : State} (hitems : t.items = []) (hqueue : t.sched.queue = [])
    (hrefs : ∀ p, attached t p = none) : Agrees ∅ t := by
  have hkeys : entryKeys t = [] := by rw [entryKeys, hqueue, List.map_nil]
  have hstate : ∀ k, stateAt t k = none := fun k => by simp [stateAt, findElement, findItem, hitems]
  refine ⟨by simp [IdsUnique, hitems], by simp [hkeys], fun k => by simp [hkeys, hstate], fun f hf => ?_,
    fun i hi => ?_,
    fun p k hp => by simp [hrefs] at hp, fun p x k hp => by simp [hrefs] at hp⟩
  · simp [faces, hqueue] at hf
  · simp [hitems] at hi

theorem keepsQueue_of_empty {s t : State} (hitems : t.items = []) (hqueue : t.sched.queue = [])
    (hrefs : ∀ p, attached t p = none) : KeepsQueue s t :=
  ⟨fun _ => by rw [QueueBounded, hqueue]; exact Nat.zero_le _, fun _ => agrees_of_empty hitems hqueue hrefs⟩

end Sys2Proof.Machine
end

