-- ==== Sys2Proof/Proofs/QueueOfCommands.lean ====
section
/-! Every command keeps the bound of the arm queue and its agreement with the elements: the requests, the ticks and the
line events (R113, R114, R116 to R119, R128, R134). -/

namespace Sys2Proof.Machine

/-! ### The ways of a request -/

/-- A request that keeps bound and agreement, however it is answered. -/
abbrev RequestKeepsQueue (act : List Byte → State → Reply) : Prop := ∀ body s, KeepsQueue s (act body s).1

theorem KeepsQueue.of_parts {s t : State} (hitems : t.items = s.items) (hqueue : t.sched.queue = s.sched.queue)
    (hports : t.ports = s.ports) : KeepsQueue s t := (Keeps.of_parts hitems hqueue hports).toKeepsQueue

theorem KeepsQueue.of_port {s t : State} (p : Fin 16) (f : Port → Port) (hitems : t.items = s.items)
    (hqueue : t.sched.queue = s.sched.queue) (hports : t.ports = s.ports.set p (f s.ports[p]))
    (hf : ∀ r, (f r).command = r.command) : KeepsQueue s t :=
  (Keeps.of_port hitems hqueue hports fun _ hk => by rwa [hf] at hk).toKeepsQueue

/-- A change of every port that leaves the commands' elements. -/
theorem KeepsQueue.of_ports {s t : State} {f : Port → Port} (hitems : t.items = s.items)
    (hqueue : t.sched.queue = s.sched.queue) (hports : t.ports = s.ports.map f)
    (hf : ∀ r, (f r).command.bind Outstanding.element = r.command.bind Outstanding.element) : KeepsQueue s t := by
  refine (Keeps.of_refs hitems hqueue fun p k hp => ?_).toKeepsQueue
  have hport : t.ports[p] = f s.ports[p] := by rw [hports]; exact Vector.getElem_map ..
  rwa [attached, hport, hf] at hp

theorem KeepsQueue.of_link (l : Link) (s : State) : KeepsQueue s { s with link := l } := .of_parts rfl rfl rfl

theorem takeHead_keepsQueue (rest : List RequestEntry) (s : State) : KeepsQueue s (takeHead rest s) :=
  keepsQueue_composes.trans (.of_link { s.link with requests := rest } s) (settleTick_keeps _)

theorem dispatch_keepsQueue {p : RequestEntry → Bool} {act : RequestEntry → State → Reply}
    (h : ∀ e s, KeepsQueue s (act e s).1) (s : State) : KeepsQueue s (dispatch p act s) := by
  obtain hd | ⟨e, rest, -, -, -, hd⟩ := dispatch_cases p act s
  · rw [hd]
    exact keepsQueue_composes.refl s
  · rw [hd]
    exact keepsQueue_composes.trans (takeHead_keepsQueue rest s)
      (keepsQueue_composes.trans (h e _) (.of_link ..))

theorem serve_keepsQueue {code : Byte} {act : List Byte → State → Reply} (h : RequestKeepsQueue act) (s : State) :
    KeepsQueue s (serve code act s) := dispatch_keepsQueue (fun e => h e.body) s

theorem OnlyReads.keepsQueue {act : List Byte → State → Reply} (h : OnlyReads act) : RequestKeepsQueue act :=
  fun body s => .of_parts (by rw [h body s]) (by rw [h body s]) (by rw [h body s])

theorem bodyless_keepsQueue {act : State → Reply} (h : ∀ s, KeepsQueue s (act s).1) :
    RequestKeepsQueue (bodyless act) := by
  intro body s
  unfold bodyless
  split
  · exact h s
  · exact keepsQueue_composes.refl s

theorem portRequest_keepsQueue {act : Fin 16 → State → Reply} (h : ∀ p s, KeepsQueue s (act p s).1) :
    RequestKeepsQueue (portRequest act) := by
  intro body s
  unfold portRequest
  split
  · split
    · exact keepsQueue_composes.refl s
    · exact h ..
  · exact keepsQueue_composes.refl s

theorem displayRequest_keepsQueue {act : Fin 4 → State → Reply} (h : ∀ d s, KeepsQueue s (act d s).1) :
    RequestKeepsQueue (displayRequest act) := by
  intro body s
  unfold displayRequest
  split
  · split
    · exact keepsQueue_composes.refl s
    · exact h ..
  · exact keepsQueue_composes.refl s

/-- What an edit keeps, it keeps when carried out with every check met (R42, R43). -/
theorem judgeEdit_keepsQueue {ids : List Byte} {checks : List (Bool × Result)} {act : State → Reply} {s : State}
    (h : (∀ c ∈ checks, c.1 = true) → KeepsQueue s (act s).1) : KeepsQueue s (judgeEdit ids checks act s).1 := by
  obtain ⟨hchecks, hj⟩ | hj := judgeEdit_carried_or_same ids checks act s
  · rw [hj]
    exact h hchecks
  · rw [hj]
    exact keepsQueue_composes.refl s

/-! ### The edits (chapter 3) -/

theorem carryItemInsert_keepsQueue : RequestKeepsQueue carryItemInsert := by
  intro body s
  unfold carryItemInsert
  split
  · exact keepsQueue_composes.refl s
  · refine judgeEdit_keepsQueue fun hchecks => ?_
    simp only [List.forall_mem_cons, Option.isNone_iff_eq_none] at hchecks
    obtain ⟨hrange, hplace, hfresh, -⟩ := hchecks
    exact insertItem_keeps (insertInRange_id hrange) hplace hfresh

theorem carryItemAmend_keepsQueue : RequestKeepsQueue carryItemAmend := by
  intro body s
  unfold carryItemAmend
  split
  · exact keepsQueue_composes.refl s
  · exact judgeEdit_keepsQueue fun _ => (keeps_composes.elim (fun i => amendItem_keeps _ i s) _).toKeepsQueue

theorem carryItemMove_keepsQueue : RequestKeepsQueue carryItemMove := by
  intro body s
  unfold carryItemMove
  split
  · rename_i id place _
    refine judgeEdit_keepsQueue fun hchecks => ?_
    simp only [List.forall_mem_cons, decide_eq_true_eq] at hchecks
    obtain ⟨-, -, hplace, hother, -⟩ := hchecks
    cases hi : findItem s id with
    | none => exact keepsQueue_composes.refl s
    | some i =>
      obtain rfl := findItem_id hi
      exact moveItem_keeps (findItem_mem hi) hplace hother
  · exact keepsQueue_composes.refl s

theorem carryItemRetire_keepsQueue : RequestKeepsQueue carryItemRetire := by
  intro body s
  unfold carryItemRetire
  split
  · rename_i id _
    refine judgeEdit_keepsQueue fun hchecks => ?_
    cases hi : findItem s id with
    | none => exact keepsQueue_composes.refl s
    | some i =>
      simp only [List.forall_mem_cons, hi, Option.all_some] at hchecks
      obtain ⟨-, -, hmovable, -⟩ := hchecks
      obtain rfl := findItem_id hi
      exact retireItem_keeps hi hmovable
  · exact keepsQueue_composes.refl s

theorem carryItemReset_keepsQueue : RequestKeepsQueue carryItemReset := by
  intro body s
  unfold carryItemReset
  split
  · rename_i id _
    refine judgeEdit_keepsQueue fun hchecks => ?_
    simp only [List.forall_mem_cons] at hchecks
    obtain ⟨-, hfound, hreset, -⟩ := hchecks
    obtain ⟨i, hi⟩ := Option.isSome_iff_exists.mp hfound
    exact resetItem_keeps hi (by simpa [hi] using hreset)
  · exact keepsQueue_composes.refl s

theorem carryElementAdd_keepsQueue : RequestKeepsQueue carryElementAdd := by
  intro body s
  unfold carryElementAdd
  split
  · exact keepsQueue_composes.refl s
  · rename_i h f _
    refine judgeEdit_keepsQueue fun hchecks => ?_
    split
    · rename_i i a hi _
      simp only [List.forall_mem_append, List.forall_mem_cons, hi, Option.all_some, Bool.or_eq_true,
        decide_eq_true_eq, Option.isNone_iff_eq_none] at hchecks
      obtain ⟨⟨⟨-, -, hbefore, hfresh, -⟩, -⟩, -⟩ := hchecks
      exact addElement_keeps hi hbefore hfresh rfl rfl
    · exact keepsQueue_composes.refl s

theorem carryElementAmend_keepsQueue : RequestKeepsQueue carryElementAmend := by
  intro body s
  unfold carryElementAmend
  split
  · exact keepsQueue_composes.refl s
  · refine judgeEdit_keepsQueue fun _ => ?_
    split
    · rename_i hi he _
      exact amendElement_keeps hi he
    · exact keepsQueue_composes.refl s

theorem carryElementRemove_keepsQueue : RequestKeepsQueue carryElementRemove := by
  intro body s
  unfold carryElementRemove
  split
  · rename_i id tag _
    refine judgeEdit_keepsQueue fun _ => ?_
    cases he : findElement s id tag with
    | none => exact keepsQueue_composes.refl s
    | some e => exact removeElement_keeps he
  · exact keepsQueue_composes.refl s

theorem clearShow_unnamed (s : State) (p : Fin 16) : attached (clearShow s) p = none := by
  obtain ⟨displays, h⟩ := clearShow_rest s
  rw [h]
  simp [attached, emptiedShow, detachAll]

theorem carryShowClear_keepsQueue (s : State) : KeepsQueue s (carryShowClear s).1 := by
  unfold carryShowClear
  split
  · obtain ⟨displays, h⟩ := clearShow_rest s
    exact keepsQueue_of_empty (t := clearShow s) (by rw [h]; rfl) (by rw [h]; rfl) (clearShow_unnamed s)
  · exact keepsQueue_composes.refl s

/-! ### The show requests (chapter 4) -/

theorem carryTake_keepsQueue (s : State) : KeepsQueue s (carryTake s).1 := by
  unfold carryTake
  split
  · exact keepsQueue_composes.refl s
  · exact keepsQueue_composes.refl s
  · exact keepsQueue_composes.refl s
  · exact keepsQueue_composes.refl s
  · exact (acceptTake_keeps ..).toKeepsQueue

theorem Keeps.of_nomination (n : Option StoryId) (s : State) :
    Keeps s { s with seq := { s.seq with nomination := n } } := .of_parts rfl rfl rfl

theorem nominate_keeps (id : StoryId) (s : State) : Keeps s (nominate id s) :=
  keeps_composes.trans (.of_nomination (some id) s)
    (keeps_composes.trans (chooseStandby_keeps _) (announceStandby_keeps ..))

theorem carryNextSet_keepsQueue : RequestKeepsQueue carryNextSet := by
  intro body s
  unfold carryNextSet
  split
  · split
    · exact keepsQueue_composes.refl s
    · split
      · exact keepsQueue_composes.refl s
      · split
        · exact keepsQueue_composes.refl s
        · exact Composes.ite (keepsQueue_composes.refl s) (nominate_keeps ..).toKeepsQueue
  · exact keepsQueue_composes.refl s

theorem unnominate_keeps (id : StoryId) (s : State) : Keeps s (unnominate id s) := by
  have hmark : Keeps s (modifyItem id (fun i => { i with nominated := false }) s) :=
    modifyItem_keeps (f := fun i => { i with nominated := false }) (fun _ => rfl) (fun _ => rfl)
      fun _ _ _ hfit => hfit.of_eq rfl rfl rfl
  exact keeps_composes.trans hmark (keeps_composes.trans (.of_nomination none _)
    (keeps_composes.trans (chooseStandby_keeps _) (announceStandby_keeps ..)))

theorem carryNextAuto_keepsQueue (s : State) : KeepsQueue s (carryNextAuto s).1 :=
  (keeps_composes.elim (fun id => unnominate_keeps id s) _).toKeepsQueue

theorem carryHold_keepsQueue (s : State) : KeepsQueue s (carryHold s).1 := by
  unfold carryHold
  split
  · exact (holdShow_keeps s).toKeepsQueue
  · exact keepsQueue_composes.refl s
  · exact keepsQueue_composes.refl s
  · exact keepsQueue_composes.refl s

theorem carryRelease_keepsQueue (s : State) : KeepsQueue s (carryRelease s).1 := by
  unfold carryRelease
  split
  · exact keepsQueue_composes.refl s
  · exact (releaseShow_keeps s).toKeepsQueue
  · exact keepsQueue_composes.refl s
  · exact keepsQueue_composes.refl s

/-- The stopped ONAIR item is DONE, and what it had scheduled is missed (R84). -/
theorem stopOnair_keeps (i : Item) (s : State) : Keeps s (stopOnair i s) := by
  refine ⟨fun b => stopItem_keepsBound i.id _ b, fun X h => ?_⟩
  have hopen := h.open_item (f := Item.ended s.cfn) (by intro; rfl) (by intro; rfl) i.id
  exact Agrees.stopItem (hopen.of_parts rfl rfl rfl)
    ((offAir_modifyItem (s := s) (f := Item.ended s.cfn)
      fun _ => ⟨by simp [Item.ended], by simp [Item.ended]⟩).of_cores rfl)

/-- The stopped TAKING item is PENDING, withdrawn and orphaned (R84). -/
theorem stopTaking_keeps (i : Item) (s : State) : Keeps s (stopTaking i s) := by
  have hwithdrawn : Keeps s (withdrawItem i.id (modifyItem i.id Item.untaken s)) := by
    refine ⟨fun b => withdrawItem_keepsBound i.id _ b, fun X h => ?_⟩
    exact ((h.open_item (f := Item.untaken) (by intro; rfl) (by intro; rfl) i.id).withdrawItem
      (offAir_modifyItem fun _ => ⟨by simp [Item.untaken], by simp [Item.untaken]⟩)).1
  exact keeps_composes.trans hwithdrawn (orphanItem_keeps i.id _)

theorem stopStandby_keeps {i : Item} {s : State} (hi : standbyItem s = some i) : Keeps s (stopStandby i s) := by
  have hmark : Keeps s (modifyItem i.id Item.uncaptured s) :=
    modifyItem_keeps (f := Item.uncaptured) (fun _ => rfl) (fun _ => rfl) fun _ _ _ hfit => hfit.of_eq rfl rfl rfl
  refine .of_ids (fun b => withdrawItem_keepsBound i.id _ b) fun hids => ?_
  refine keeps_composes.trans hmark (withdrawItem_keeps ?_)
  have hoff : OffAir s i.id := StateOf.of_mem hids (slotItem_mem hi) (by rw [slotItem_state hi]; decide)
  intro x hx hxid
  obtain ⟨y, hy, rfl⟩ := List.mem_map.mp hx
  by_cases hyid : (y.id == i.id) = true
  · rw [if_pos hyid]
    exact hoff y hy (beq_iff_eq.mp hyid)
  · rw [if_neg hyid] at hxid
    exact absurd (beq_iff_eq.mpr hxid) hyid

theorem stopShow_keeps (s : State) : Keeps s (stopShow s) := by
  have hk := keeps_composes
  have hstandby (u : State) : Keeps u ((standbyItem u).elim u (fun i => stopStandby i u)) := by
    cases hi : standbyItem u with
    | none => exact hk.refl u
    | some i => exact stopStandby_keeps hi
  exact hk.trans (hk.elim (fun i => stopOnair_keeps i s) _) (hk.trans (hk.elim (fun i => stopTaking_keeps i _) _)
    (hk.trans (hstandby _) (hk.trans (triggerWalk_keeps _) (hk.trans (chooseStandby_keeps _)
      (hk.trans (raiseStandbyIfMoved_keeps ..) (hk.trans (setShow_keeps .idle _) (closeShowEvent_keeps _)))))))

theorem carryShowStop_keepsQueue (s : State) : KeepsQueue s (carryShowStop s).1 := by
  have hk := keeps_composes
  unfold carryShowStop
  split
  · exact keepsQueue_composes.refl s
  · exact (hk.trans (triggerWalk_keeps s) (hk.trans (setShow_keeps .idle _) (closeShowEvent_keeps _))).toKeepsQueue
  · exact (stopShow_keeps s).toKeepsQueue
  · exact (stopShow_keeps s).toKeepsQueue

theorem carryShowPlan_keepsQueue : RequestKeepsQueue carryShowPlan := by
  intro body s
  obtain h | ⟨select, b, -, h⟩ := carryShowPlan_cases body s
  · rw [h]
    exact keepsQueue_composes.refl s
  · obtain ⟨w, hw⟩ := setPlan_record b s
    rw [h, hw]
    exact .of_parts rfl rfl rfl

end Sys2Proof.Machine
end

