-- ==== Sys2Proof/Proofs/QueueOfEvents.lean ====
section
/-! Every command keeps the bound of the arm queue and its agreement with the elements: the remaining requests, the
ticks and the line events, and so every step (R113, R114, R116 to R119, R128, R134). -/

namespace Sys2Proof.Machine

/-! ### The requests of the reference, the link, the ports, the displays and the inputs

None of them writes an item or the arm queue. -/

theorem carryRateSet_keepsQueue : RequestKeepsQueue carryRateSet := by
  intro body s
  obtain h | ⟨r, h⟩ := carryRateSet_cases body s
  · rw [h]
    exact keepsQueue_composes.refl s
  · obtain ⟨l, hl, -⟩ := setRate_record r s
    rw [h, hl]
    refine .of_ports (f := restatePort (s.profiles.map (Profile.derive r))) rfl rfl rfl fun q => ?_
    cases hc : q.command with
    | none => simp [restatePort, hc]
    | some c => simp [restatePort, hc]

theorem carryStatusClear_keepsQueue : RequestKeepsQueue carryStatusClear := by
  intro body s
  obtain ⟨l, hl⟩ := carryStatusClear_record body s
  rw [hl]
  exact .of_parts rfl rfl rfl

theorem carryMaskSet_keepsQueue : RequestKeepsQueue carryMaskSet := by
  intro body s
  unfold carryMaskSet
  repeat' split
  all_goals exact .of_parts rfl rfl rfl

theorem carryProfileSet_keepsQueue : RequestKeepsQueue carryProfileSet := by
  intro body s
  unfold carryProfileSet
  repeat' split
  all_goals exact .of_parts rfl rfl rfl

theorem carryGroupSet_keepsQueue : RequestKeepsQueue carryGroupSet := by
  intro body s
  unfold carryGroupSet
  dsimp only
  repeat' split
  all_goals exact .of_parts rfl rfl rfl

theorem bindPort_keepsQueue (p : Fin 16) (k : Fin 8) (g : Option (Fin 4)) (s : State) :
    KeepsQueue s (bindPort p k g s) :=
  Composes.ite (.of_port p (bindRecord k g) rfl rfl rfl fun _ => rfl)
    (.of_port p (bindRecord k g) rfl rfl rfl fun _ => rfl)

theorem judgeBind_keepsQueue (p : Fin 16) (k : Fin 8) (g : Option (Fin 4)) (s : State) :
    KeepsQueue s (judgeBind p k g s).1 := by
  unfold judgeBind
  split
  · exact keepsQueue_composes.refl s
  · split
    · exact keepsQueue_composes.refl s
    · split
      · exact keepsQueue_composes.refl s
      · exact bindPort_keepsQueue ..

theorem carryPortBind_keepsQueue : RequestKeepsQueue carryPortBind := by
  intro body s
  unfold carryPortBind
  split
  · split
    · split
      · exact judgeBind_keepsQueue ..
      · split
        · exact keepsQueue_composes.refl s
        · exact judgeBind_keepsQueue ..
    · exact keepsQueue_composes.refl s
  · exact keepsQueue_composes.refl s

theorem judgeUnbind_keepsQueue (p : Fin 16) (s : State) : KeepsQueue s (judgeUnbind p s).1 := by
  unfold judgeUnbind
  split
  · exact .of_port p unbindRecord rfl rfl rfl fun _ => rfl
  · exact keepsQueue_composes.refl s

theorem enterHeld_keepsQueue (fromFault : Bool) (p : Fin 16) (s : State) : KeepsQueue s (enterHeld fromFault p s) :=
  .of_port p (fun r => { r with state := .held, heldFromFault := fromFault || r.heldFromFault }) rfl rfl rfl
    fun _ => rfl

theorem setPortState_keepsQueue (p : Fin 16) (x : PortState) (s : State) :
    KeepsQueue s (modifyPort p (fun r => { r with state := x }) s) :=
  .of_port p (fun r => { r with state := x }) rfl rfl rfl fun _ => rfl

theorem judgeHold_keepsQueue (p : Fin 16) (s : State) : KeepsQueue s (judgeHold p s).1 := by
  unfold judgeHold
  cases s.ports[p].state with
  | unbound => exact keepsQueue_composes.refl s
  | ready => exact enterHeld_keepsQueue ..
  | pulsing => exact enterHeld_keepsQueue ..
  | await => exact setPortState_keepsQueue ..
  | fault => exact enterHeld_keepsQueue ..
  | holding => exact keepsQueue_composes.refl s
  | held => exact keepsQueue_composes.refl s

theorem releaseHeld_keepsQueue (p : Fin 16) (s : State) : KeepsQueue s (releaseHeld p s) := by
  have hback : KeepsQueue s
      (modifyPort p (fun r => { r with state := inService r, failures := 0, heldFromFault := false }) s) :=
    .of_port p (fun r => { r with state := inService r, failures := 0, heldFromFault := false }) rfl rfl rfl
      fun _ => rfl
  exact Composes.ite (keepsQueue_composes.trans hback (raiseNotice_keeps ..).toKeepsQueue) hback

theorem judgeRelease_keepsQueue (p : Fin 16) (s : State) : KeepsQueue s (judgeRelease p s).1 := by
  unfold judgeRelease
  cases s.ports[p].state with
  | unbound => exact keepsQueue_composes.refl s
  | fault => exact keepsQueue_composes.refl s
  | held => exact releaseHeld_keepsQueue ..
  | holding => exact setPortState_keepsQueue ..
  | ready => exact keepsQueue_composes.refl s
  | await => exact keepsQueue_composes.refl s
  | pulsing => exact keepsQueue_composes.refl s

theorem carryLayoutSet_keepsQueue : RequestKeepsQueue carryLayoutSet := by
  intro body s
  unfold carryLayoutSet
  repeat' split
  all_goals exact .of_parts rfl rfl rfl

theorem carryGlyphSet_keepsQueue : RequestKeepsQueue carryGlyphSet := by
  intro body s
  unfold carryGlyphSet
  repeat' split
  all_goals exact .of_parts rfl rfl rfl

theorem carryIconSet_keepsQueue : RequestKeepsQueue carryIconSet := by
  intro body s
  unfold carryIconSet
  repeat' split
  all_goals exact .of_parts rfl rfl rfl

theorem modifyDisplay_keeps (d : Fin 4) (f : Display → Display) (s : State) : Keeps s (modifyDisplay d f s) :=
  .of_parts rfl rfl rfl

theorem pushCue_keeps (b : PushBody) (s : State) : Keeps s (pushCue b s) :=
  keeps_composes.foldl (fun s d => keeps_composes.trans (modifyDisplay_keeps d _ s) (renderDisplay_keeps d _)) _ _

theorem carryCuePush_keepsQueue : RequestKeepsQueue carryCuePush := by
  intro body s
  unfold carryCuePush
  split
  · exact keepsQueue_composes.refl s
  · split
    · exact keepsQueue_composes.refl s
    · split
      · exact keepsQueue_composes.refl s
      · exact (pushCue_keeps ..).toKeepsQueue

theorem judgeCueClear_keepsQueue (d : Fin 4) (s : State) : KeepsQueue s (judgeCueClear d s).1 := by
  unfold judgeCueClear
  split
  · exact keepsQueue_composes.refl s
  · exact (keeps_composes.trans (acknowledge_keeps d s) (renderDisplay_keeps ..)).toKeepsQueue

theorem judgeBlank_keepsQueue (d : Fin 4) (s : State) : KeepsQueue s (judgeBlank d s).1 := by
  unfold judgeBlank
  split
  all_goals exact .of_parts rfl rfl rfl

theorem judgeUnblank_keepsQueue (d : Fin 4) (s : State) : KeepsQueue s (judgeUnblank d s).1 := by
  unfold judgeUnblank
  split
  all_goals exact .of_parts rfl rfl rfl

theorem carryInputSet_keepsQueue : RequestKeepsQueue carryInputSet := by
  intro body s
  unfold carryInputSet
  dsimp only
  repeat' split
  all_goals exact .of_parts rfl rfl rfl

/-! ### Frames, ticks and line events -/

/-- A part of a frame keeps them if what its end does keeps them. -/
theorem takePart_keepsQueue {α : Type} {h : α → TypedFrame → State → State}
    (hk : ∀ x t s, KeepsQueue s (h x t s)) (part : FramePart α) (type : Byte) (size : α → Nat) (s : State) :
    KeepsQueue s (takePart part type size h s) := by
  obtain hp | ⟨f, hp⟩ | ⟨x, -, hp⟩ := takePart_cases part type size h s
  · rw [hp]
    exact keepsQueue_composes.refl s
  · rw [hp]
    exact .of_parts rfl rfl rfl
  · rw [hp]
    exact keepsQueue_composes.trans (b := endFrame _ s) (.of_parts rfl rfl rfl) (hk ..)

/-- The command goes on to a state in which bound and agreement are kept. -/
def GoesOnWithQueue (s : State) (o : Host.Outcome State Fault Refusal) : Prop := ∃ t, o = .next t ∧ KeepsQueue s t

theorem KeepsQueue.goesOn {s t : State} (h : KeepsQueue s t) : GoesOnWithQueue s (.next t) := ⟨t, rfl, h⟩

theorem goesOn_still (s : State) : GoesOnWithQueue s (.next s) := (keepsQueue_composes.refl s).goesOn

/-- An event that occurs only when it is due. -/
theorem KeepsQueue.goesOn_if {s t : State} (h : KeepsQueue s t) (p : Prop) [Decidable p] :
    GoesOnWithQueue s (if p then .next t else .next s) := by
  split
  · exact h.goesOn
  · exact goesOn_still s

/-- The part of an event of another block, before which the sequencer's steps are completed. -/
theorem keepsQueue_afterSteps {s t : State} (h : Keeps (settleSteps s) t) : KeepsQueue s t :=
  keepsQueue_composes.trans (settleSteps_keeps s) h.toKeepsQueue

theorem referenceTick_keepsQueue (s : State) : KeepsQueue s (referenceTick s) := by
  obtain ⟨r, jump, hcheck⟩ : ∃ r jump, checkLabel s.rtu = (r, jump) := ⟨_, _, rfl⟩
  cases jump with
  | none =>
    rw [referenceTick_steady hcheck]
    exact .of_parts rfl rfl rfl
  | some d =>
    rw [referenceTick_jump hcheck]
    refine .of_ports (f := shiftPort r.rate.day d) rfl rfl rfl fun q => ?_
    cases hc : q.command with
    | none => simp [shiftPort, hc]
    | some c => simp [shiftPort, hc]

theorem makeTick_keepsQueue (n : Nat) (m : PulseMode) (lines : BitVec 8) (s : State) :
    KeepsQueue s (makeTick n m lines s) := by
  have hk := keepsQueue_composes
  have hbefore : KeepsQueue (settleTick s) (beforeReference n m s) := .of_parts rfl rfl rfl
  have hbehind := makeTick_behind n m lines s
  exact hk.trans (settleTick_keeps s) (hk.trans hbefore (hk.trans (referenceTick_keepsQueue _)
    (.of_parts hbehind.items (congrArg Scheduler.queue hbehind.sched) hbehind.ports)))

theorem takeActiveEdge_keepsQueue (f : InputFunction) (n : Fin 8) (s : State) :
    KeepsQueue s (takeActiveEdge f n s) :=
  keepsQueue_composes.when fun _ => keepsQueue_afterSteps (performEdge_keeps n _)

theorem execRefFramePulse_keepsQueue (n : Nat) (lines : BitVec 8) (s : State) :
    GoesOnWithQueue s (execRefFramePulse n lines s) := by
  unfold execRefFramePulse
  dsimp only
  split
  · split
    · exact KeepsQueue.goesOn (.of_parts rfl rfl rfl)
    · split
      · exact (makeTick_keepsQueue ..).goesOn
      · exact goesOn_still s
  · split
    · exact KeepsQueue.goesOn (.of_parts rfl rfl rfl)
    · split
      · exact (makeTick_keepsQueue ..).goesOn
      · exact goesOn_still s

theorem execSubstituteTick_keepsQueue (lines : BitVec 8) (s : State) :
    GoesOnWithQueue s (execSubstituteTick lines s) := by
  unfold execSubstituteTick
  split
  · exact (makeTick_keepsQueue ..).goesOn
  · exact goesOn_still s

theorem execOscillatorTick_keepsQueue (lines : BitVec 8) (s : State) :
    GoesOnWithQueue s (execOscillatorTick lines s) := by
  unfold execOscillatorTick
  split
  · exact goesOn_still s
  · exact (makeTick_keepsQueue ..).goesOn

theorem execFetchResponse_keepsQueue (part : FramePart Nat) (s : State) :
    GoesOnWithQueue s (execFetchResponse part s) := by
  refine (takePart_keepsQueue (fun clocked t s => ?_) ..).goesOn
  split
  · exact .of_link ..
  · exact keepsQueue_composes.refl s

theorem execFetchNotice_keepsQueue (part : FramePart Nat) (s : State) :
    GoesOnWithQueue s (execFetchNotice part s) := by
  refine (takePart_keepsQueue (fun clocked t s => ?_) ..).goesOn
  split
  · exact .of_link ..
  · exact keepsQueue_composes.refl s

theorem setFrameFault_keepsQueue (s : State) : KeepsQueue s (setFrameFault s) := .of_parts rfl rfl rfl

theorem endShortFrame_keepsQueue (s : State) : KeepsQueue s (endShortFrame s) := by
  unfold endShortFrame
  split
  · exact .of_parts rfl rfl rfl
  · exact .of_parts rfl rfl rfl

theorem execDiscardedFrame_keepsQueue (type : Byte) (part : FramePart Nat) (s : State) :
    GoesOnWithQueue s (execDiscardedFrame type part s) := by
  unfold execDiscardedFrame
  split
  · split
    · exact (endShortFrame_keepsQueue s).goesOn
    · exact (takePart_keepsQueue (fun _ _ s => setFrameFault_keepsQueue s) ..).goesOn
  · exact goesOn_still s

theorem execReplyByte_keepsQueue (p : Fin 16) (value : Byte) (parityOk stopHigh : Bool) (s : State) :
    GoesOnWithQueue s (execReplyByte p value parityOk stopHigh s) := by
  unfold execReplyByte
  cases hc : (settleSteps s).ports[p].command with
  | none =>
    simp only [hc]
    exact goesOn_still s
  | some c =>
    simp only [hc]
    exact (keepsQueue_composes.trans (settleSteps_keeps s) (settleReply_keeps hc _)).goesOn

theorem drive_keeps (d : Fin 4) (s : State) : Keeps s (drive d s) := .of_parts rfl rfl rfl

theorem execBusyFall_keepsQueue (d : Fin 4) (s : State) : GoesOnWithQueue s (execBusyFall d s) := by
  have hk := keeps_composes
  have hlow : Keeps (settleSteps s) (setBusy d .low (displayTick d (settleSteps s))) :=
    hk.trans (b := displayTick d (settleSteps s)) (displayTick_keeps ..) (.of_parts rfl rfl rfl)
  unfold execBusyFall
  dsimp only
  split
  · exact (keepsQueue_afterSteps (hk.trans hlow (hk.trans (modifyDisplay_keeps ..)
      (hk.trans (raiseNotice_keeps ..) (drive_keeps ..))))).goesOn
  · exact (keepsQueue_afterSteps (hk.trans hlow (modifyDisplay_keeps ..))).goesOn

theorem execUnitCompletion_keepsQueue (d : Fin 4) (n : Nat) (busy : Level) (s : State) :
    GoesOnWithQueue s (execUnitCompletion d n busy s) := by
  unfold execUnitCompletion
  repeat' split
  all_goals exact KeepsQueue.goesOn (.of_parts rfl rfl rfl)

theorem execDisplayByte_keepsQueue (d : Fin 4) (n : Nat) (busy : Level) (s : State) :
    GoesOnWithQueue s (execDisplayByte d n busy s) := by
  unfold execDisplayByte
  repeat' split
  all_goals exact KeepsQueue.goesOn (.of_parts rfl rfl rfl)

/-- A reset leaves no port a command (R160, R211). -/
theorem resetPart_keepsQueue {s t : State} (hitems : t.items = []) (hqueue : t.sched.queue = [])
    (hports : t.ports = (resetPart s).ports) : KeepsQueue s t :=
  keepsQueue_of_empty hitems hqueue fun p => by
    simp [attached, hports, resetPart, State.reset, resetPort]

/-- DEVICE_RESET empties the store, or passes through the FIFOs as a refused request (R211). -/
theorem execDeviceReset_keepsQueue (s : State) : GoesOnWithQueue s (execDeviceReset s) := by
  unfold execDeviceReset
  split
  · exact goesOn_still s
  · split
    · exact KeepsQueue.goesOn (resetPart_keepsQueue rfl rfl rfl)
    · exact (serve_keepsQueue (fun _ s => keepsQueue_composes.refl s) s).goesOn

/-! ### Every command -/

theorem exec_keepsQueue (c : Instr) (s : State) : GoesOnWithQueue s (exec c s) := by
  have hk := keepsQueue_composes
  have read {act : List Byte → State → Reply} (h : OnlyReads act) (code : Byte) :
      GoesOnWithQueue s (.next (serve code act s)) := (serve_keepsQueue h.keepsQueue s).goesOn
  have request {act : List Byte → State → Reply} (h : RequestKeepsQueue act) (code : Byte) :
      GoesOnWithQueue s (.next (serve code act s)) := (serve_keepsQueue h s).goesOn
  cases c with
  | resetN level =>
    cases level with
    | low => exact KeepsQueue.goesOn (.of_parts rfl rfl rfl)
    | high => exact KeepsQueue.goesOn (resetPart_keepsQueue rfl rfl rfl)
  | deviceReset => exact execDeviceReset_keepsQueue s
  | refFramePulse n lines => exact execRefFramePulse_keepsQueue n lines s
  | substituteTick lines => exact execSubstituteTick_keepsQueue lines s
  | oscillatorTick lines => exact execOscillatorTick_keepsQueue lines s
  | refDataMessage bytes => exact KeepsQueue.goesOn (.of_parts rfl rfl rfl)
  | refDataTimeout => exact KeepsQueue.goesOn (.of_parts rfl rfl rfl)
  | lowStopBit => exact KeepsQueue.goesOn (.of_parts rfl rfl rfl)
  | requestFrame part => exact (takePart_keepsQueue (fun _ _ s => .of_link _ s) ..).goesOn
  | fetchResponse part => exact execFetchResponse_keepsQueue part s
  | fetchNotice part => exact execFetchNotice_keepsQueue part s
  | discardedFrame type part => exact execDiscardedFrame_keepsQueue type part s
  | spiCsNHigh => exact KeepsQueue.goesOn (.of_parts rfl rfl rfl)
  | unknownRequest => exact (dispatch_keepsQueue (fun _ s => hk.refl s) s).goesOn
  | faultedEntry => exact (dispatch_keepsQueue (fun _ s => hk.refl s) s).goesOn
  | tcConvert => exact read carryTcConvert_onlyReads _
  | itemRead => exact read carryItemRead_onlyReads _
  | elementRead => exact read carryElementRead_onlyReads _
  | rundownRead => exact read carryRundownRead_onlyReads _
  | armRead => exact read carryArmRead_onlyReads _
  | profileRead => exact read carryProfileRead_onlyReads _
  | displayRead => exact read carryDisplayRead_onlyReads _
  | inputRead => exact read carryInputRead_onlyReads _
  | refRead => exact read (bodyless_onlyReads fun _ => rfl) _
  | showRead => exact read (bodyless_onlyReads fun _ => rfl) _
  | timingRead => exact read (bodyless_onlyReads fun _ => rfl) _
  | statusRead => exact read (bodyless_onlyReads fun _ => rfl) _
  | ident => exact read (bodyless_onlyReads fun _ => rfl) _
  | portRead => exact request (portRequest_keepsQueue fun _ s => hk.refl s) _
  | itemInsert => exact request carryItemInsert_keepsQueue _
  | itemAmend => exact request carryItemAmend_keepsQueue _
  | itemMove => exact request carryItemMove_keepsQueue _
  | itemRetire => exact request carryItemRetire_keepsQueue _
  | itemReset => exact request carryItemReset_keepsQueue _
  | elementAdd => exact request carryElementAdd_keepsQueue _
  | elementAmend => exact request carryElementAmend_keepsQueue _
  | elementRemove => exact request carryElementRemove_keepsQueue _
  | showClear => exact request (bodyless_keepsQueue carryShowClear_keepsQueue) _
  | takeRequest => exact request (bodyless_keepsQueue carryTake_keepsQueue) _
  | nextSet => exact request carryNextSet_keepsQueue _
  | nextAuto => exact request (bodyless_keepsQueue carryNextAuto_keepsQueue) _
  | holdRequest => exact request (bodyless_keepsQueue carryHold_keepsQueue) _
  | releaseRequest => exact request (bodyless_keepsQueue carryRelease_keepsQueue) _
  | showStop => exact request (bodyless_keepsQueue carryShowStop_keepsQueue) _
  | showPlan => exact request carryShowPlan_keepsQueue _
  | rateSet => exact request carryRateSet_keepsQueue _
  | statusClear => exact request carryStatusClear_keepsQueue _
  | maskSet => exact request carryMaskSet_keepsQueue _
  | profileSet => exact request carryProfileSet_keepsQueue _
  | groupSet => exact request carryGroupSet_keepsQueue _
  | portBind => exact request carryPortBind_keepsQueue _
  | portUnbind => exact request (portRequest_keepsQueue judgeUnbind_keepsQueue) _
  | portHold => exact request (portRequest_keepsQueue judgeHold_keepsQueue) _
  | portRelease => exact request (portRequest_keepsQueue judgeRelease_keepsQueue) _
  | layoutSet => exact request carryLayoutSet_keepsQueue _
  | glyphSet => exact request carryGlyphSet_keepsQueue _
  | iconSet => exact request carryIconSet_keepsQueue _
  | cuePush => exact request carryCuePush_keepsQueue _
  | cueClear => exact request (displayRequest_keepsQueue judgeCueClear_keepsQueue) _
  | displayBlank => exact request (displayRequest_keepsQueue judgeBlank_keepsQueue) _
  | displayUnblank => exact request (displayRequest_keepsQueue judgeUnblank_keepsQueue) _
  | inputSet => exact request carryInputSet_keepsQueue _
  | takingAirFrame => exact (takeNamedPhase_keeps _ s).goesOn
  | junctionTake => exact (takeNamedPhase_keeps _ s).goesOn
  | autoFollow => exact (takeNamedPhase_keeps _ s).goesOn
  | capture => exact (takeNamedPhase_keeps _ s).goesOn
  | walkCompletion => exact (hk.trans (settleTick_keeps s) (completeWalk_keeps _)).goesOn_if _
  | dueScan => exact (keepsQueue_afterSteps (takeScan_keeps _)).goesOn_if _
  | replyByte p value parityOk stopHigh => exact execReplyByte_keepsQueue p value parityOk stopHigh s
  | replyTimeout p => exact (keepsQueue_afterSteps (takeDeadline_keeps p _)).goesOn_if _
  | pulseEnd p => exact (keepsQueue_afterSteps (takePulseEnd_keeps p _)).goesOn_if _
  | cueExpiry d =>
    exact (keepsQueue_afterSteps
      (keeps_composes.trans (expireHead_keeps d _) (renderDisplay_keeps ..))).goesOn_if _
  | crawl d =>
    exact (keepsQueue_afterSteps
      (keeps_composes.trans (advanceCrawl_keeps d _) (renderDisplay_keeps ..))).goesOn_if _
  | displayFault d =>
    exact (keepsQueue_afterSteps
      (keeps_composes.trans (busyTest_keeps d _) (renderDisplay_keeps ..))).goesOn_if _
  | busyFall d => exact execBusyFall_keepsQueue d s
  | unitCompletion d n busy => exact execUnitCompletion_keepsQueue d n busy s
  | displayByte d n busy => exact execDisplayByte_keepsQueue d n busy s
  | activeEdge n => exact (takeActiveEdge_keepsQueue .nothing n s).goesOn
  | panelTake n => exact (takeActiveEdge_keepsQueue .take n s).goesOn
  | panelHold n => exact (takeActiveEdge_keepsQueue .hold n s).goesOn
  | panelAck n => exact (takeActiveEdge_keepsQueue .ack n s).goesOn
  | panelReport n => exact (takeActiveEdge_keepsQueue .report n s).goesOn
  | inactiveEdge n => exact (keepsQueue_afterSteps (performEdge_keeps n _)).goesOn_if _

/-- Settles O5: the command at the front of the queue keeps the bound, and the agreement that stands for `ArmedOk`. -/
theorem stepKeepsQueueBound : Obligations.StepKeepsQueueBound := by
  have hstep {s t : State} (h : step s = .next t) : KeepsQueue s t := by
    unfold step at h
    split at h
    · cases h
      exact keepsQueue_composes.refl s
    · rename_i c rest _
      obtain ⟨u, hu, hkeeps⟩ := exec_keepsQueue c { s with pending := rest }
      cases hu.symm.trans h
      have hfront : KeepsQueue s { s with pending := rest } := .of_parts rfl rfl rfl
      exact keepsQueue_composes.trans hfront hkeeps
  refine ⟨fun s t hbound h => (hstep h).bounded hbound, fun s t hids harmed h => ?_⟩
  exact ((agrees_iff t).mp ((hstep h).agrees ((agrees_iff s).mpr ⟨hids, harmed⟩))).2

end Sys2Proof.Machine
end

