-- ==== Sys2Proof/Proofs/OfferTest.lean ====
section
/-! The offer test is the rule's five conditions (R146). -/

namespace Sys2Proof.Machine

/-! ### The offer test (R146) -/

theorem withinSpan_eq_false (s : State) (recorded : Frame) (span : Nat) :
    withinSpan s s.cfn recorded span = false ↔ Apart s recorded span := by
  have hrule : Apart s recorded span
      ↔ signedDiff s.day s.cfn recorded < 0 ∨ (span : Int) ≤ signedDiff s.day s.cfn recorded := Iff.rfl
  rw [hrule]
  simp only [withinSpan, Bool.and_eq_false_iff, decide_eq_false_iff_not, not_le, not_lt]

theorem withinSpan_eq_not_apart (s : State) (recorded : Frame) (span : Nat) :
    withinSpan s s.cfn recorded span = !decide (Apart s recorded span) := by
  rw [Bool.eq_not_iff, Ne, Bool.eq_iff_iff, decide_eq_true_iff]
  have h := withinSpan_eq_false s recorded span
  cases hw : withinSpan s s.cfn recorded span with
  | false => simp [h.mp hw]
  | true =>
    have hnot : ¬ Apart s recorded span := fun ha => by simp [h.mpr ha] at hw
    simp [hnot]

/-- The last entry of another port is the one behind which only the port's own entries stand. -/
theorem findLast_other_iff {history : List (Frame × Fin 16)} {p : Fin 16} {e : Frame × Fin 16} :
    history.reverse.find? (fun e => e.2 != p) = some e
      ↔ ∃ l r, history = l ++ e :: r ∧ e.2 ≠ p ∧ ∀ x ∈ r, x.2 = p := by
  rw [List.find?_eq_some_iff_append]
  constructor
  · rintro ⟨hne, l, r, hsplit, hl⟩
    refine ⟨r.reverse, l.reverse, ?_, by simpa using hne, fun x hx => by simpa using hl x (List.mem_reverse.mp hx)⟩
    rw [← List.reverse_reverse history, hsplit]
    simp
  · rintro ⟨l, r, rfl, hne, hr⟩
    exact ⟨by simpa using hne, r.reverse, l.reverse, by simp, fun x hx => by simpa using hr x (List.mem_reverse.mp hx)⟩

/-- Conditions 4 and 5 (R146). -/
theorem groupAllows_iff (s : State) (p : Fin 16) (g : Fin 4) : groupAllows s p g s.cfn = true
    ↔ (∀ (l r : List (Frame × Fin 16)) (e : Frame × Fin 16), s.groups[g].history = l ++ e :: r → e.2 ≠ p →
        (∀ x ∈ r, x.2 = p) → Apart s e.1 s.groups[g].gap.effective)
      ∧ (0 < s.groups[g].window.effective →
        (s.groups[g].history.filter (fun e => !decide (Apart s e.1 s.groups[g].window.effective))).length
          < s.groups[g].limit) := by
  have hgap : (s.groups[g].history.reverse.find? (fun e => e.2 != p)).any
        (fun e => withinSpan s s.cfn e.1 s.groups[g].gap.effective) = false
      ↔ ∀ (l r : List (Frame × Fin 16)) (e : Frame × Fin 16), s.groups[g].history = l ++ e :: r → e.2 ≠ p →
        (∀ x ∈ r, x.2 = p) → Apart s e.1 s.groups[g].gap.effective := by
    rw [Option.any_eq_false]
    constructor
    · intro h l r e hsplit hne hr
      exact (withinSpan_eq_false ..).mp (by simpa using h e (findLast_other_iff.mpr ⟨l, r, hsplit, hne, hr⟩))
    · intro h e he
      obtain ⟨l, r, hsplit, hne, hr⟩ := findLast_other_iff.mp he
      simpa using (withinSpan_eq_false ..).mpr (h l r e hsplit hne hr)
  simp only [groupAllows, Bool.and_eq_true, Bool.not_eq_true']
  rw [hgap]
  refine and_congr_right fun _ => ?_
  simp only [withinSpan_eq_not_apart, Bool.or_eq_true, decide_eq_true_eq, Nat.pos_iff_ne_zero, ne_eq, imp_iff_not_or,
    not_not]

/-- A port that takes a command is READY (R146). -/
theorem offerTakes_ready {s : State} {p : Fin 16} {v : Kind} {f : Frame} (h : offerTakes s p v f = true) :
    s.ports[p].state = .ready := by
  simp only [offerTakes, Bool.and_eq_true, beq_iff_eq] at h
  obtain ⟨⟨⟨hready, -⟩, -⟩, -⟩ := h
  exact hready

/-- A bound port takes a command just on the five conditions (R146). -/
theorem offerTakes_iff {s : State} {p : Fin 16} {k : Fin 8} (hk : s.ports[p].profile = some k) (v : Kind) :
    offerTakes s p v s.cfn = true ↔ TakesByRule s p s.profiles[k] v := by
  have hspan (o : Option Frame) (n : Nat) : (o.any (fun f => withinSpan s s.cfn f n)) = false
      ↔ ∀ f, o = some f → Apart s f n := by
    rw [Option.any_eq_false]
    exact forall₂_congr fun f _ => withinSpan_eq_false ..
  have hprofile : boundProfile s p = some s.profiles[k] := by rw [boundProfile, hk]; rfl
  simp only [offerTakes, hprofile, Option.map_some, Option.getD_some, Bool.and_eq_true, beq_iff_eq, Bool.not_eq_true',
    hspan, Bool.or_eq_true, bne_iff_ne, ← imp_iff_not_or]
  cases hg : s.ports[p].group with
  | none =>
    exact ⟨fun ⟨⟨⟨hready, hgap⟩, hrun⟩, _⟩ => ⟨hready, hgap, hrun, fun g _ _ _ h => (nomatch hg.symm.trans h),
      fun g h => (nomatch hg.symm.trans h)⟩, fun h => ⟨⟨⟨h.ready, h.portGap⟩, h.loadToRun⟩, rfl⟩⟩
  | some g =>
    rw [groupAllows_iff]
    constructor
    · rintro ⟨⟨⟨hready, hgap⟩, hrun⟩, hgroup, hburst⟩
      refine ⟨hready, hgap, hrun, fun x l r e hx => ?_, fun x hx => ?_⟩
      · cases hg.symm.trans hx
        exact hgroup l r e
      · cases hg.symm.trans hx
        exact hburst
    · intro h
      exact ⟨⟨⟨h.ready, h.portGap⟩, h.loadToRun⟩, fun l r e => h.groupGap g l r e hg, h.burst g hg⟩

theorem TakesByRule.transport {s t : State} {p : Fin 16} {k : Profile} {v : Kind} (h : TakesByRule s p k v)
    (hrtu : t.rtu = s.rtu) (hport : t.ports[p] = s.ports[p])
    (hgroup : ∀ g, s.ports[p].group = some g → t.groups[g] = s.groups[g]) : TakesByRule t p k v := by
  obtain ⟨hready, hgap, hrun, hspaced, hburst⟩ := h
  simp only [Apart, ← hrtu] at hgap hrun hspaced hburst
  refine ⟨hport ▸ hready, fun f hf => hgap f (hport ▸ hf), fun hv f hf => hrun hv f (hport ▸ hf),
    fun g l r e hg => ?_, fun g hg => ?_⟩
  · rw [hport] at hg
    rw [hgroup g hg]
    exact hspaced g l r e hg
  · rw [hport] at hg
    rw [hgroup g hg]
    exact hburst g hg

/-- The five conditions are read off the clock, the port and its group. -/
theorem takesByRule_congr {s t : State} {p : Fin 16} {k : Profile} {v : Kind} (hrtu : t.rtu = s.rtu)
    (hport : t.ports[p] = s.ports[p]) (hgroup : ∀ g, s.ports[p].group = some g → t.groups[g] = s.groups[g]) :
    TakesByRule t p k v ↔ TakesByRule s p k v :=
  ⟨fun h => h.transport hrtu.symm hport.symm fun g hg => (hgroup g (hport ▸ hg)).symm,
    fun h => h.transport hrtu hport hgroup⟩

end Sys2Proof.Machine
end

