-- ==== Sys2Proof/Proofs/ScanEntry.lean ====
section
/-! The due scan entry by entry: what each case of R124 makes of an entry, its element and its port, and what it leaves
(R124 to R126, R130, R147). -/

namespace Sys2Proof.Machine

/-! ### What the outcomes of an entry come to -/

/-- The state in which the element of a taken entry stands (R125). -/
def takenState (q : ArmEntry) : ElementState := if q.verb = .pulse then .done else .issued

/-- A port takes an entry's command (R125, R147). -/
def issueEntry (p : Fin 16) (q : ArmEntry) (a : Action) (s : State) : State :=
  settleIssue q.story q.tag (takenState q) q.issue
    (takeCommand p s.cfn (q.story, q.tag) a (removeEntry q.story q.tag s))

/-- An entry is missed, reported (R124, R130). -/
def reportMiss (q : ArmEntry) (cause : Cause) (s : State) : State :=
  raiseMissed q.story q.tag (missElement q.story q.tag cause (removeEntry q.story q.tag s))

/-- A CUE_TEXT entry is delivered (R126). -/
def deliverText (q : ArmEntry) (tag : Tag) (set : BitVec 4) (text : Text) (hold : Nat) (s : State) : State :=
  settleIssue q.story q.tag .done q.issue (removeEntry q.story q.tag
    ((displaysOf set).foldl (deliverCue ⟨text, .element, tag, hold, none⟩) s))

theorem findElement_removeEntry (id : StoryId) (tag : Tag) (s : State) (x : StoryId) (y : Tag) :
    findElement (removeEntry id tag s) x y = findElement s x y := rfl

section Outcomes

variable (p : Fin 16) (q : ArmEntry) (a : Action) (s : State) {e : Element}

theorem issueEntry_ports :
    (issueEntry p q a s).ports = s.ports.set p (firedPort s p s.cfn q.key a s.ports[p]) := by
  rw [issueEntry, takeCommand_eq]
  rfl

theorem issueEntry_groups : (issueEntry p q a s).groups = issueRecorded s p s.cfn := by
  rw [issueEntry, takeCommand_eq]
  rfl

theorem issueEntry_sched : (issueEntry p q a s).sched = (removeEntry q.story q.tag s).sched := by
  rw [issueEntry, takeCommand_eq]
  rfl

/-- Of the rest, the items alone are changed. -/
theorem issueEntry_rest : (issueEntry p q a s).link = s.link ∧ (issueEntry p q a s).seq = s.seq
    ∧ (issueEntry p q a s).engine = s.engine := by
  rw [issueEntry, takeCommand_eq]
  exact ⟨rfl, rfl, rfl⟩

theorem issueEntry_items : (issueEntry p q a s).items
    = (settleIssue q.story q.tag (takenState q) q.issue s).items := by
  rw [issueEntry, takeCommand_eq]
  rfl

theorem findElement_settleIssue {s : State} (he : findElement s q.story q.tag = some e) (st : ElementState) :
    findElement (settleIssue q.story q.tag st q.issue s) q.story q.tag
      = some { e with state := st, lateness := some (recordedLateness s q.issue) } := by
  refine (findElement_modifyElement_same (by intro; rfl) q.story q.tag s).trans ?_
  rw [he]
  rfl

theorem findElement_issueEntry {s : State} (he : findElement s q.story q.tag = some e) :
    findElement (issueEntry p q a s) q.story q.tag
      = some { e with state := takenState q, lateness := some (recordedLateness s q.issue) } :=
  (findElement_of_items (issueEntry_items p q a s) ..).trans (findElement_settleIssue q he _)

/-- A missed element with its notice (R130). -/
theorem reportMiss_eq {s : State} (he : findElement s q.story q.tag = some e) (cause : Cause) :
    reportMiss q cause s = { missElement q.story q.tag cause (removeEntry q.story q.tag s) with
      link := { pushNotice ⟨.elementMissed, s.cfn, q.story, q.tag, portField e.action.port, cause.code⟩ s.link with
        missed := true } } := by
  have hmissed : findElement (missElement q.story q.tag cause (removeEntry q.story q.tag s)) q.story q.tag
      = some { e with state := .missed, cause := some cause } := by
    refine (findElement_modifyElement_same (by intro; rfl) q.story q.tag _).trans ?_
    rw [findElement_removeEntry, he]
    rfl
  simp only [reportMiss, raiseMissed, hmissed]
  rfl

theorem findElement_reportMiss {s : State} (he : findElement s q.story q.tag = some e) (cause : Cause) :
    findElement (reportMiss q cause s) q.story q.tag = some { e with state := .missed, cause := some cause } := by
  rw [reportMiss_eq q he]
  refine (findElement_modifyElement_same (by intro; rfl) q.story q.tag (removeEntry q.story q.tag s)).trans ?_
  rw [findElement_removeEntry, he]
  rfl

end Outcomes

/-- The record of a port that takes a serial command with its profile known (R147, R149). -/
theorem firedPort_serial {s : State} {p : Fin 16} {k : Fin 8} (hk : s.ports[p].profile = some k) (f : Frame) (ref : Key)
    (v : Verb) (x : Fin 16) (number : Nat) (r : Port) : firedPort s p f ref (.serial v x number) r = { r with
      state := .await
      lastIssue := some f
      lastLoad := if v = .load then some f else r.lastLoad
      command := some ⟨v, number, f, (f + s.profiles[k].replyTimeout.effective) % s.day, some ref⟩
      transmit := commandFrame v number s.profiles[k].channel } := by
  simp only [firedPort, boundProfile, hk]
  rfl

theorem firedPort_pulse {s : State} {p : Fin 16} {k : Fin 8} (hk : s.ports[p].profile = some k) (f : Frame) (ref : Key)
    (x : Fin 16) (r : Port) : firedPort s p f ref (.pulse x) r = { r with
      state := .pulsing
      lastIssue := some f
      pulseEnd := some ((f + s.profiles[k].pulseWidth.effective) % s.day) } := by
  simp only [firedPort, boundProfile, hk]
  rfl

/-! ### The cases of R124 -/

/-- The cause with which a due entry for a port is missed, if it is (R124). -/
def missCause (s : State) (p : Fin 16) (q : ArmEntry) : Option Cause :=
  if s.ports[p].state = .unbound then some .unbound
  else if ((((boundProfile s p).map (·.lateTolerance)).getD 0 : Nat) : Int) < signedDiff s.day s.cfn q.issue then
    some .late
  else none

section Cause

variable {s : State} {p : Fin 16} {q : ArmEntry}

theorem missCause_unbound (h : s.ports[p].state = .unbound) : missCause s p q = some .unbound := if_pos h

variable {k : Fin 8} (hbound : s.ports[p].state ≠ .unbound) (hk : s.ports[p].profile = some k)
include hbound hk

theorem missCause_bound : missCause s p q
    = if (s.profiles[k].lateTolerance : Int) < signedDiff s.day s.cfn q.issue then some .late else none := by
  rw [missCause, if_neg hbound, boundProfile, hk]
  rfl

theorem missCause_late (h : (s.profiles[k].lateTolerance : Int) < signedDiff s.day s.cfn q.issue) :
    missCause s p q = some .late := by
  rw [missCause_bound hbound hk, if_pos h]

theorem missCause_onTime (h : signedDiff s.day s.cfn q.issue ≤ s.profiles[k].lateTolerance) :
    missCause s p q = none := by
  rw [missCause_bound hbound hk, if_neg (not_lt.mpr h)]

end Cause

theorem treatEntry_port {c : ScanState} {q : ArmEntry} {p : Fin 16} (hp : q.port = some p) : treatEntry c q
    = match missCause c.state p q with
      | some cause => missEntry q cause c
      | none => if p ∈ c.heldPorts then { c with state := deferEntry q.story q.tag c.state } else offerEntry q p c := by
  simp only [treatEntry, hp, missCause]
  split
  · rfl
  · split
    · rfl
    · rfl

section Cases

variable {c : ScanState} {q : ArmEntry} {p : Fin 16} {e : Element}

theorem scanEntry_notDue (h : c.state.due q.issue = false) : scanEntry c q = c := by
  rw [scanEntry, if_neg (by simp [h])]

variable (hdue : c.state.due q.issue = true)
include hdue

theorem scanEntry_due : scanEntry c q = { treatEntry { c with missed := [] } q with
    state := (treatEntry { c with missed := [] } q).missed.foldl (fun s m => raiseMissed m.1 m.2 s)
      (treatEntry { c with missed := [] } q).state } := by
  rw [scanEntry, if_pos hdue]

/-- The scan where an entry has been missed (R124, R130). -/
theorem scanEntry_missed (hp : q.port = some p) {cause : Cause} (hm : missCause c.state p q = some cause) :
    scanEntry c q = { c with missed := [(q.story, q.tag)], state := reportMiss q cause c.state } := by
  have ht : treatEntry { c with missed := [] } q = missEntry q cause { c with missed := [] } := by
    rw [treatEntry_port hp]
    simp only [hm]
  rw [scanEntry_due hdue, ht]
  rfl

variable (he : findElement c.state q.story q.tag = some e)

theorem scanEntry_held (hp : q.port = some p) (hm : missCause c.state p q = none) (hheld : p ∈ c.heldPorts) :
    scanEntry c q = { c with missed := [], state := deferEntry q.story q.tag c.state } := by
  have ht : treatEntry { c with missed := [] } q
      = { c with missed := [], state := deferEntry q.story q.tag c.state } := by
    rw [treatEntry_port hp]
    simp only [hm, hheld, if_true]
  rw [scanEntry_due hdue, ht]
  rfl

theorem scanEntry_offered (hp : q.port = some p) (hm : missCause c.state p q = none) (hfree : p ∉ c.heldPorts) :
    scanEntry c q = { offerEntry q p { c with missed := [] } with
      state := (offerEntry q p { c with missed := [] }).missed.foldl (fun s m => raiseMissed m.1 m.2 s)
        (offerEntry q p { c with missed := [] }).state } := by
  have ht : treatEntry { c with missed := [] } q = offerEntry q p { c with missed := [] } := by
    rw [treatEntry_port hp]
    simp only [hm, hfree, if_false]
  rw [scanEntry_due hdue, ht]

include he

/-- The scan where a port has answered "not yet" (R125). -/
theorem scanEntry_deferred (hp : q.port = some p) (hm : missCause c.state p q = none) (hfree : p ∉ c.heldPorts)
    (hno : offerTakes c.state p q.verb c.state.cfn = false) : scanEntry c q
      = { c with missed := [], state := deferEntry q.story q.tag c.state, heldPorts := p :: c.heldPorts } := by
  rw [scanEntry_offered hdue hp hm hfree]
  simp only [offerEntry, he, hno]
  rfl

/-- The scan where a port has taken its command (R125, R147). -/
theorem scanEntry_taken (hp : q.port = some p) (hm : missCause c.state p q = none) (hfree : p ∉ c.heldPorts)
    (hyes : offerTakes c.state p q.verb c.state.cfn = true) : scanEntry c q
      = { c with missed := [], state := issueEntry p q e.action c.state } := by
  rw [scanEntry_offered hdue hp hm hfree]
  simp only [offerEntry, he, hyes]
  rfl

/-- The scan where a CUE_TEXT has been delivered (R126). -/
theorem scanEntry_delivered (hp : q.port = none) {set : BitVec 4} {text : Text} {hold : Nat}
    (ha : e.action = .cueText set text hold) : scanEntry c q = { c with
      missed := []
      delivered := c.delivered ++ displaysOf set
      state := deliverText q e.tag set text hold c.state } := by
  rw [scanEntry_due hdue]
  simp only [treatEntry, hp, deliverEntry, entryDisplays, he, ha, Option.map_some]
  rfl

end Cases

/-- The ports that answered "not yet" stand, and the entry's own may join them. -/
theorem scanEntry_heldPorts (c : ScanState) (q : ArmEntry) : (scanEntry c q).heldPorts = c.heldPorts
    ∨ ∃ p, q.port = some p ∧ (scanEntry c q).heldPorts = p :: c.heldPorts := by
  by_cases hdue : c.state.due q.issue = true
  · rw [scanEntry_due hdue]
    cases hp : q.port with
    | none =>
      refine .inl ?_
      simp only [treatEntry, hp]
    | some p =>
      rw [treatEntry_port hp]
      split
      · exact .inl rfl
      · split
        · exact .inl rfl
        · unfold offerEntry
          split
          · exact .inl rfl
          · split
            · exact .inl rfl
            · exact .inr ⟨p, rfl, rfl⟩
  · exact .inl (by rw [scanEntry_notDue (by simpa using hdue)])

/-! ### The waiting order under the scan (R117) -/

section WaitingOrder

variable {f : Element → Element} (hout : ∀ e, (f e).state ≠ .waiting) (id : StoryId) (tag : Tag)

/-- A change of the element with a tag. -/
def onTag (tag : Tag) (f : Element → Element) (e : Element) : Element := if e.tag == tag then f e else e

/-- The item as a change of one of its elements leaves it. -/
def Item.withElement (id : StoryId) (tag : Tag) (f : Element → Element) (i : Item) : Item :=
  if i.id == id then { i with elements := i.elements.map (onTag tag f) } else i

theorem slotItem_modifyElement (st : ItemState) (s : State) :
    slotItem st (modifyElement id tag f s) = (slotItem st s).map (Item.withElement id tag f) := by
  have hstate (i : Item) : (i.withElement id tag f).state = i.state := by
    unfold Item.withElement
    split
    · rfl
    · rfl
  change ((s.items.map (Item.withElement id tag f)).find? _) = _
  rw [List.find?_map]
  simp only [Function.comp_def, hstate]
  rfl

theorem onTag_ne {tag : Tag} {e : Element} (h : e.tag ≠ tag) : onTag tag f e = e := if_neg (by simpa using h)

include hout

theorem onTag_waits (tag : Tag) (e : Element) :
    ((onTag tag f e).state == .waiting) = ((e.state == .waiting) && e.tag != tag) := by
  by_cases he : e.tag = tag
  · simp [onTag, he, hout]
  · simp [onTag, he]

theorem waitingOf_withElement (i : Item) : waitingOf (i.withElement id tag f)
    = (waitingOf i).filter (fun w => waitingKey w != (id, tag)) := by
  unfold Item.withElement
  split
  · rename_i hi
    have hi := beq_iff_eq.mp hi
    change ((i.elements.map (onTag tag f)).filter (fun e => e.state == .waiting)).map (fun e => (i.id, e)) = _
    rw [waitingOf, List.filter_map, List.filter_map, List.filter_filter, List.map_map]
    have hfilter : i.elements.filter ((fun e => e.state == .waiting) ∘ onTag tag f) = i.elements.filter (fun e =>
        ((fun w => waitingKey w != (id, tag)) ∘ fun e => (i.id, e)) e && (e.state == .waiting)) := by
      refine List.filter_congr fun e _ => (onTag_waits hout tag e).trans ?_
      rw [Bool.eq_iff_iff]
      simp [waitingKey, hi, and_comm]
    rw [hfilter]
    refine List.map_congr_left fun e he => ?_
    have htag : e.tag ≠ tag := by
      have := (List.mem_filter.mp he).2
      simp [waitingKey, hi] at this
      exact this.1
    simp only [Function.comp_apply, onTag_ne htag]
  · rename_i hi
    have hi : i.id ≠ id := by simpa using hi
    refine (List.filter_eq_self.mpr fun w hw => ?_).symm
    obtain ⟨e, -, rfl⟩ := List.mem_map.mp hw
    simp [waitingKey, hi]

/-- An element that leaves for a state other than WAITING is in the waiting order no more. -/
theorem waitingOrder_modifyElement (s : State) : waitingOrder (modifyElement id tag f s)
    = (waitingOrder s).filter (fun w => waitingKey w != (id, tag)) := by
  have hor (a b : Option Item) (g : Item → Item) : (a.map g).or (b.map g) = (a.or b).map g := by
    cases a with
    | none => rfl
    | some i => rfl
  have hone (o : Option Item) : ((o.map (Item.withElement id tag f)).toList).flatMap waitingOf
      = (o.toList.flatMap waitingOf).filter (fun w => waitingKey w != (id, tag)) := by
    cases o with
    | none => rfl
    | some i => simpa using waitingOf_withElement hout id tag i
  have hnext : nextItem (modifyElement id tag f s) = (nextItem s).map (Item.withElement id tag f) := by
    simp only [nextItem, takingItem, standbyItem, slotItem_modifyElement, hor]
  rw [waitingOrder, waitingOrder, List.flatMap_append, List.flatMap_append, List.filter_append, hnext, ← hone, ← hone,
    onairItem, onairItem, slotItem_modifyElement]

end WaitingOrder

end Sys2Proof.Machine
end

