-- ==== Sys2Proof/Proofs/ScanFrame.lean ====
section
/-! What the scan of an entry leaves: the other elements and their entries, the bindings of the ports, every port and
group but those the entry fires, and the waiting order (R117, R124). -/

namespace Sys2Proof.Machine

/-! ### What every entry leaves -/

/-- From `s` to `t` clock, profiles, bindings, arm contexts and a MISSED flag once set stand. -/
structure ScanKept (s t : State) : Prop where
  tick : t.tick = s.tick
  rtu : t.rtu = s.rtu
  profiles : t.profiles = s.profiles
  context : ∀ id, contextOf t id = contextOf s id
  missed : s.link.missed = true → t.link.missed = true
  profile : ∀ x : Fin 16, t.ports[x].profile = s.ports[x].profile
  group : ∀ x : Fin 16, t.ports[x].group = s.ports[x].group
  unbound : ∀ x : Fin 16, t.ports[x].state = .unbound ↔ s.ports[x].state = .unbound

theorem scanKept_composes : Composes ScanKept where
  refl _ := ⟨rfl, rfl, rfl, fun _ => rfl, id, fun _ => rfl, fun _ => rfl, fun _ => .rfl⟩
  trans h k := ⟨k.tick.trans h.tick, k.rtu.trans h.rtu, k.profiles.trans h.profiles,
    fun id => (k.context id).trans (h.context id), fun hm => k.missed (h.missed hm),
    fun x => (k.profile x).trans (h.profile x), fun x => (k.group x).trans (h.group x),
    fun x => (k.unbound x).trans (h.unbound x)⟩

/-- What is read off ports, profiles and clock stands. -/
theorem ScanKept.due {s t : State} (h : ScanKept s t) : t.due = s.due := by
  funext x
  simp only [State.due, State.day, State.cfn, h.rtu]

/-- The entry `q` leaves beside that the elements and entries of other keys, ports that are not its own or not READY,
and groups that are not its port's. -/
structure Scanned (q : ArmEntry) (s t : State) : Prop extends ScanKept s t where
  ports : ∀ x : Fin 16, q.port ≠ some x ∨ s.ports[x].state ≠ .ready → t.ports[x] = s.ports[x]
  groups : ∀ g : Fin 4, (∀ x : Fin 16, q.port = some x → s.ports[x].group ≠ some g) → t.groups[g] = s.groups[g]
  elements : ∀ k : Key, k ≠ q.key → findElement t k.1 k.2 = findElement s k.1 k.2
  entries : ∀ y : ArmEntry, y.key ≠ q.key → (y ∈ t.sched.queue ↔ y ∈ s.sched.queue)
  keys : (entryKeys t).Sublist (entryKeys s)
  waiting : (∀ w ∈ waitingOrder s, waitingKey w ≠ q.key) → waitingOrder t = waitingOrder s

theorem scanned_composes (q : ArmEntry) : Composes (Scanned q) where
  refl s := ⟨scanKept_composes.refl s, fun _ _ => rfl, fun _ _ => rfl, fun _ _ => rfl, fun _ _ => .rfl, .refl _,
    fun _ => rfl⟩
  trans {a b c} h k := by
    refine ⟨scanKept_composes.trans h.toScanKept k.toScanKept, fun x hx => ?_, fun g hg => ?_,
      fun key hkey => (k.elements key hkey).trans (h.elements key hkey),
      fun y hy => (k.entries y hy).trans (h.entries y hy), k.keys.trans h.keys, fun hw => ?_⟩
    · have hab := h.ports x hx
      exact (k.ports x (hab ▸ hx)).trans hab
    · exact (k.groups g fun x hx => (h.group x) ▸ hg x hx).trans (h.groups g hg)
    · have hab := h.waiting hw
      exact (k.waiting (hab ▸ hw)).trans hab

/-! ### The operations of a scan -/

section Operations

variable (q : ArmEntry) (s : State)

theorem waitingOrder_of_items {s t : State} (h : t.items = s.items) : waitingOrder t = waitingOrder s := by
  simp only [waitingOrder, onairItem, nextItem, takingItem, standbyItem, slotItem, h]

/-- A change of the arm queue, the displays or the link. -/
theorem Scanned.of_records (sched : Scheduler) (displays : Vector Display 4) (link : Link)
    (hmissed : s.link.missed = true → link.missed = true)
    (hentries : ∀ y : ArmEntry, y.key ≠ q.key → (y ∈ sched.queue ↔ y ∈ s.sched.queue))
    (hkeys : (sched.queue.map ArmEntry.key).Sublist (entryKeys s)) :
    Scanned q s { s with sched, displays, link } :=
  ⟨⟨rfl, rfl, rfl, fun _ => rfl, hmissed, fun _ => rfl, fun _ => rfl, fun _ => .rfl⟩, fun _ _ => rfl, fun _ _ => rfl,
    fun _ _ => rfl, hentries, hkeys, fun _ => waitingOrder_of_items rfl⟩

theorem removeEntry_scanned : Scanned q s (removeEntry q.story q.tag s) :=
  .of_records q s _ _ _ id (fun _ hy => mem_removeEntry.trans (and_iff_left hy)) ((List.filter_sublist).map _)

theorem deferEntry_queue (id : StoryId) (tag : Tag) : (deferEntry id tag s).sched.queue
    = s.sched.queue.map (fun y => if y.isFor id tag then { y with deferred := true } else y) := rfl

theorem mem_deferEntry_ne {y : ArmEntry} {id : StoryId} {tag : Tag} (hy : y.key ≠ (id, tag)) :
    y ∈ (deferEntry id tag s).sched.queue ↔ y ∈ s.sched.queue := by
  have hother : ∀ z : ArmEntry, z.key ≠ (id, tag) → (if z.isFor id tag then { z with deferred := true } else z) = z :=
    fun z hz => if_neg fun h => hz (isFor_iff.mp h)
  rw [deferEntry_queue, List.mem_map]
  constructor
  · rintro ⟨z, hz, rfl⟩
    have hkey : z.key ≠ (id, tag) := by
      split at hy
      · exact hy
      · exact hy
    rwa [hother z hkey]
  · exact fun h => ⟨y, h, hother y hy⟩

theorem deferEntry_self (h : q ∈ s.sched.queue) :
    { q with deferred := true } ∈ (deferEntry q.story q.tag s).sched.queue := by
  rw [deferEntry_queue]
  exact List.mem_map.mpr ⟨q, h, if_pos (isFor_iff.mpr rfl)⟩

theorem entryKeys_deferEntry (id : StoryId) (tag : Tag) : entryKeys (deferEntry id tag s) = entryKeys s := by
  rw [entryKeys_eq_faces, faces_deferEntry, ← entryKeys_eq_faces]

theorem deferEntry_scanned : Scanned q s (deferEntry q.story q.tag s) :=
  .of_records q s _ _ _ id (fun _ hy => mem_deferEntry_ne s hy) (entryKeys_deferEntry s q.story q.tag ▸ .refl _)

theorem modifyElement_scanned {f : Element → Element} (hf : KeepsTag f) (hout : ∀ e, (f e).state ≠ .waiting) :
    Scanned q s (modifyElement q.story q.tag f s) where
  tick := rfl
  rtu := rfl
  profiles := rfl
  context _ := contextOf_modifyItem (by intro; rfl) (by intro; rfl) ..
  missed := id
  profile _ := rfl
  group _ := rfl
  unbound _ := .rfl
  ports _ _ := rfl
  groups _ _ := rfl
  elements _ hk := findElement_modifyElement_ne hf _ _ _ hk
  entries _ _ := .rfl
  keys := .refl _
  waiting hw := by
    rw [waitingOrder_modifyElement hout]
    exact List.filter_eq_self.mpr fun w hmem => bne_iff_ne.mpr (hw w hmem)

/-- A port that has taken a command is in AWAIT or PULSING. -/
theorem firedPort_state (p : Fin 16) (f : Frame) (ref : Key) (a : Action) (r : Port) :
    (firedPort s p f ref a r).state ≠ .unbound ∧ (firedPort s p f ref a r).state ≠ .ready := by
  cases a with
  | serial v x n => simp [firedPort]
  | pulse x => simp [firedPort]
  | cueText set text hold => simp [firedPort]

theorem firedPort_binding (p : Fin 16) (f : Frame) (ref : Key) (a : Action) (r : Port) :
    (firedPort s p f ref a r).profile = r.profile ∧ (firedPort s p f ref a r).group = r.group := by
  cases a with
  | serial v x n => exact ⟨rfl, rfl⟩
  | pulse x => exact ⟨rfl, rfl⟩
  | cueText set text hold => exact ⟨rfl, rfl⟩

theorem issueRecorded_ne {p : Fin 16} (f : Frame) {g : Fin 4} (hg : s.ports[p].group ≠ some g) :
    (issueRecorded s p f)[g] = s.groups[g] := by
  unfold issueRecorded
  split
  · rfl
  · rename_i x hx
    have hne : x ≠ g := fun h => hg (h ▸ hx)
    simp [Fin.val_inj, hne]

/-- A READY port takes a command of the entry's. -/
theorem takeCommand_scanned {p : Fin 16} (hp : q.port = some p) (hready : s.ports[p].state = .ready) (f : Frame)
    (ref : Key) (a : Action) : Scanned q s (takeCommand p f ref a s) := by
  rw [takeCommand_eq]
  have hget (x : Fin 16) := getElem_set_port s.ports p x (firedPort s p f ref a s.ports[p])
  obtain ⟨hprofile, hgroup⟩ := firedPort_binding s p f ref a s.ports[p]
  refine ⟨⟨rfl, rfl, rfl, fun _ => rfl, id, fun x => ?_, fun x => ?_, fun x => ?_⟩, fun x hx => ?_, fun g hg => ?_,
    fun _ _ => rfl, fun _ _ => .rfl, .refl _, fun _ => waitingOrder_of_items rfl⟩
  · rw [hget]
    split
    · rename_i h
      exact h ▸ hprofile
    · rfl
  · rw [hget]
    split
    · rename_i h
      exact h ▸ hgroup
    · rfl
  · rw [hget]
    split
    · rename_i h
      subst h
      exact iff_of_false (firedPort_state s p f ref a _).1 (by rw [hready]; decide)
    · exact .rfl
  · rw [hget, if_neg]
    rintro rfl
    exact hx.elim (fun h => h hp) fun h => h hready
  · exact issueRecorded_ne s f (hg p hp)

theorem pushNotice_missed (n : Notice) (l : Link) : (pushNotice n l).missed = l.missed := by
  unfold pushNotice
  split
  · rfl
  · rfl

theorem deliverCue_scanned (c : Cue) (n : Fin 4) : Scanned q s (deliverCue c s n) := by
  unfold deliverCue
  split
  · exact .of_records q s _ _ _ id (fun _ _ => .rfl) (.refl _)
  · split
    · exact .of_records q s _ _ _ id (fun _ _ => .rfl) (.refl _)
    · exact .of_records q s _ _ _ (fun h => (pushNotice_missed ..).trans h) (fun _ _ => .rfl) (.refl _)

theorem raiseMissed_scanned (id : StoryId) (tag : Tag) : Scanned q s (raiseMissed id tag s) := by
  unfold raiseMissed
  split
  · exact (scanned_composes q).refl s
  · exact .of_records q s _ _ _ (fun _ => rfl) (fun _ _ => .rfl) (.refl _)

end Operations

/-! ### One entry -/

section Entry

variable (q : ArmEntry)

theorem deliverEntry_scanned (s : State) : Scanned q s (deliverEntry q s) := by
  have hc := scanned_composes q
  unfold deliverEntry
  split
  · exact removeEntry_scanned q s
  · split
    · exact hc.trans (hc.foldl (fun s n => deliverCue_scanned q s _ n) _ _)
        (hc.trans (removeEntry_scanned q _) (modifyElement_scanned q _ (fun _ => rfl) fun _ => by simp))
    · exact removeEntry_scanned q s

theorem offerEntry_scanned {p : Fin 16} (hp : q.port = some p) (c : ScanState) :
    Scanned q c.state (offerEntry q p c).state := by
  have hc := scanned_composes q
  unfold offerEntry
  split
  · exact removeEntry_scanned q _
  · split
    · rename_i htakes
      refine hc.trans (removeEntry_scanned q _) (hc.trans
        (takeCommand_scanned q (removeEntry q.story q.tag c.state) hp (offerTakes_ready htakes) ..)
        (modifyElement_scanned q _ (fun _ => rfl) fun _ => ?_))
      dsimp only
      split
      · simp
      · simp
    · exact deferEntry_scanned q _

theorem treatEntry_scanned (c : ScanState) : Scanned q c.state (treatEntry c q).state := by
  cases hp : q.port with
  | none =>
    simp only [treatEntry, hp]
    exact deliverEntry_scanned q _
  | some p =>
    rw [treatEntry_port hp]
    split
    · exact (scanned_composes q).trans (removeEntry_scanned q _)
        (modifyElement_scanned q _ (fun _ => rfl) fun _ => by simp)
    · split
      · exact deferEntry_scanned q _
      · exact offerEntry_scanned q hp c

theorem scanEntry_scanned (c : ScanState) : Scanned q c.state (scanEntry c q).state := by
  by_cases hdue : c.state.due q.issue = true
  · rw [scanEntry_due hdue]
    exact (scanned_composes q).trans (treatEntry_scanned q { c with missed := [] })
      ((scanned_composes q).foldl (fun s (m : Key) => raiseMissed_scanned q s m.1 m.2) _ _)
  · rw [scanEntry_notDue (by simpa using hdue)]
    exact (scanned_composes q).refl _

end Entry

/-! ### A part of the queue -/

section Part

variable (l : List ArmEntry) (c : ScanState)

theorem foldl_scan_kept : ScanKept c.state (l.foldl scanEntry c).state :=
  scanKept_composes.foldScan (fun c q => (scanEntry_scanned q c).toScanKept) l c

theorem foldl_scan_keys : (entryKeys (l.foldl scanEntry c).state).Sublist (entryKeys c.state) := by
  induction l generalizing c with
  | nil => exact .refl _
  | cons q l ih => exact (ih _).trans (scanEntry_scanned q c).keys

variable {l c}

/-- An element without an entry in the part stands, and so do its entries. -/
theorem foldl_scan_spares {k : Key} (hk : k ∉ l.map ArmEntry.key) :
    findElement (l.foldl scanEntry c).state k.1 k.2 = findElement c.state k.1 k.2
      ∧ ∀ y : ArmEntry, y.key = k → (y ∈ (l.foldl scanEntry c).state.sched.queue ↔ y ∈ c.state.sched.queue) := by
  induction l generalizing c with
  | nil => exact ⟨rfl, fun _ _ => .rfl⟩
  | cons q l ih =>
    obtain ⟨hq, hl⟩ := List.ne_and_not_mem_of_not_mem_cons hk
    obtain ⟨helement, hentries⟩ := ih hl (c := scanEntry c q)
    have hscan := scanEntry_scanned q c
    exact ⟨helement.trans (hscan.elements k hq), fun y hy => (hentries y hy).trans (hscan.entries y (hy ▸ hq))⟩

theorem foldl_scan_waiting (h : ∀ q ∈ l, ∀ w ∈ waitingOrder c.state, waitingKey w ≠ q.key) :
    waitingOrder (l.foldl scanEntry c).state = waitingOrder c.state := by
  induction l generalizing c with
  | nil => rfl
  | cons q l ih =>
    have hscan := (scanEntry_scanned q c).waiting (h q List.mem_cons_self)
    exact (ih fun x hx => hscan ▸ h x (List.mem_cons_of_mem _ hx)).trans hscan

/-- A port that is not READY, or that answered "not yet", takes nothing more in the scan. -/
def Closed (p : Fin 16) (c : ScanState) : Prop := p ∈ c.heldPorts ∨ c.state.ports[p].state ≠ .ready

theorem scanEntry_heldPorts_mono {p : Fin 16} (h : p ∈ c.heldPorts) (q : ArmEntry) : p ∈ (scanEntry c q).heldPorts := by
  obtain heq | ⟨x, -, heq⟩ := scanEntry_heldPorts c q
  · rwa [heq]
  · rw [heq]
    exact List.mem_cons_of_mem _ h

/-- An entry for a port that answered "not yet" touches no port. -/
theorem scanEntry_held_ports {q : ArmEntry} {p : Fin 16} (hp : q.port = some p) (hheld : p ∈ c.heldPorts) :
    (scanEntry c q).state.ports = c.state.ports := by
  by_cases hdue : c.state.due q.issue = true
  · cases hm : missCause c.state p q with
    | none => rw [scanEntry_held hdue hp hm hheld]; rfl
    | some cause =>
      rw [scanEntry_missed hdue hp hm]
      exact (raiseMissed_onlyArmed ..).ports
  · rw [scanEntry_notDue (by simpa using hdue)]

theorem scanEntry_closed {p : Fin 16} (h : Closed p c) (q : ArmEntry) :
    (scanEntry c q).state.ports[p] = c.state.ports[p] ∧ Closed p (scanEntry c q) := by
  have hscan := scanEntry_scanned q c
  obtain hheld | hbusy := h
  · refine ⟨?_, .inl (scanEntry_heldPorts_mono hheld q)⟩
    by_cases hp : q.port = some p
    · rw [scanEntry_held_ports hp hheld]
    · exact hscan.ports p (.inl hp)
  · have hsame := hscan.ports p (.inr hbusy)
    exact ⟨hsame, .inr (hsame ▸ hbusy)⟩

theorem foldl_scan_closed {p : Fin 16} (h : Closed p c) :
    (l.foldl scanEntry c).state.ports[p] = c.state.ports[p] ∧ Closed p (l.foldl scanEntry c) := by
  induction l generalizing c with
  | nil => exact ⟨rfl, h⟩
  | cons q l ih =>
    obtain ⟨hsame, hclosed⟩ := scanEntry_closed h q
    obtain ⟨hrest, hend⟩ := ih hclosed
    exact ⟨hrest.trans hsame, hend⟩

/-- The port and its group as they were in `u`, and no "not yet" from it yet. -/
structure Fresh (u : State) (p : Fin 16) (c : ScanState) : Prop where
  kept : ScanKept u c.state
  port : c.state.ports[p] = u.ports[p]
  group : ∀ g, u.ports[p].group = some g → c.state.groups[g] = u.groups[g]
  free : p ∉ c.heldPorts

/-- Entries that are not due, or due for ports of other groups, leave a port as it was. -/
theorem foldl_scan_fresh {u : State} {p : Fin 16} (h : Fresh u p c)
    (hl : ∀ x ∈ l, u.due x.issue = true → ∀ y : Fin 16, x.port = some y →
      y ≠ p ∧ (u.ports[p].group = none ∨ u.ports[y].group ≠ u.ports[p].group)) : Fresh u p (l.foldl scanEntry c) := by
  induction l generalizing c with
  | nil => exact h
  | cons q l ih =>
    refine ih ?_ fun x hx => hl x (List.mem_cons_of_mem _ hx)
    by_cases hdue : u.due q.issue = true
    · have hq := hl q List.mem_cons_self hdue
      have hother : q.port ≠ some p := fun hp => (hq p hp).1 rfl
      have hscan := scanEntry_scanned q c
      refine ⟨scanKept_composes.trans h.kept hscan.toScanKept, (hscan.ports p (.inl hother)).trans h.port,
        fun g hg => (hscan.groups g fun x hx hxg => ?_).trans (h.group g hg), fun hheld => ?_⟩
      · rw [h.kept.group x] at hxg
        exact (hq x hx).2.elim (fun hnone => by rw [hnone] at hg; cases hg) fun hne => hne (hxg.trans hg.symm)
      · obtain heq | ⟨x, hx, heq⟩ := scanEntry_heldPorts c q
        · exact h.free (heq ▸ hheld)
        · obtain hpx | hheld := List.mem_cons.mp (heq ▸ hheld)
          · exact hother (hpx ▸ hx)
          · exact h.free hheld
    · rw [scanEntry_notDue (by rw [h.kept.due]; simpa using hdue)]
      exact h

end Part

end Sys2Proof.Machine
end

