-- ==== Sys2Proof/Proofs/SmallScan.lean ====
section
/-! The due scan of one or two entries, with no element that waits: a missed element, a port that takes its command or
answers "not yet", and a CUE_TEXT delivered (R124 to R126, R130, R147, R169). -/

namespace Sys2Proof.Machine

/-! ### DUE_SCAN (R124) -/

/-- The tick with its scan made. -/
def scanBegun (s : State) : State := { s with tick := { s.tick with scanLeft := false } }

theorem exec_dueScan {s : State} (h : (settleSteps s).tick.scanLeft = true) :
    exec .dueScan s = .next (scanQueue (scanBegun (settleSteps s))) := by
  have ht : takeScan (settleSteps s) = scanQueue (scanBegun (settleSteps s)) := if_pos h
  rw [← ht]
  exact if_pos h

theorem scanQueue_begun_fixed (s : State) : Fixed s (scanQueue (scanBegun s)) :=
  (Fixed.of_tick _).trans (scanQueue_fixed _)

theorem scanQueue_begun_show (s : State) : SameShow s (scanQueue (scanBegun s)) :=
  sameShow_composes.trans (.of_parts ..) (scanQueue_sameShow _)

theorem scanQueue_begun_scanLeft (s : State) : (scanQueue (scanBegun s)).tick.scanLeft = false := by
  have htick : (scanQueue (scanBegun s)).tick = (scanBegun s).tick :=
    ((renderThose_quiet ..).tick.trans (fillFromWaiting_quiet _).tick).trans (foldl_scan_kept ..).tick
  rw [htick]
  rfl

/-- A scan after which no element waits. -/
theorem scanQueue_of_none {s : State} {c : ScanState} (hscan : s.sched.queue.foldl scanEntry ⟨s, [], [], []⟩ = c)
    (hwait : waitingOrder c.state = []) : scanQueue s = renderThose c.delivered.contains c.state := by
  simp only [scanQueue, hscan, fillFromWaiting, hwait, List.foldl_nil]

theorem renderThose_none (s : State) : renderThose ([] : List (Fin 4)).contains s = s := by
  have hnone : allDisplays.filter ([] : List (Fin 4)).contains = [] := List.filter_eq_nil_iff.mpr fun _ _ => by simp
  rw [renderThose, hnone]
  rfl

/-- Where no element waits none does after an entry. -/
theorem scanEntry_noneWaits {c : ScanState} (h : waitingOrder c.state = []) (q : ArmEntry) :
    waitingOrder (scanEntry c q).state = [] := by
  rw [(scanEntry_scanned q c).waiting fun w hw => by simp [h] at hw, h]

/-! ### One entry -/

section One

variable {s : State} {q : ArmEntry} (hwait : waitingOrder s = []) (hqueue : s.sched.queue = [q])
include hwait hqueue

theorem scanQueue_one {c : ScanState} (hscan : scanEntry ⟨s, [], [], []⟩ q = c) :
    scanQueue s = renderThose c.delivered.contains c.state :=
  scanQueue_of_none (by rw [hqueue]; exact hscan) (hscan ▸ scanEntry_noneWaits (c := ⟨s, [], [], []⟩) hwait q)

theorem scanQueue_one_undelivered {c : ScanState} (hscan : scanEntry ⟨s, [], [], []⟩ q = c) (hc : c.delivered = []) :
    scanQueue s = c.state := by
  rw [scanQueue_one hwait hqueue hscan, hc, renderThose_none]

omit hwait in
theorem removeEntry_only : (removeEntry q.story q.tag s).sched.queue = [] := by
  simp [removeEntry, hqueue, ArmEntry.isFor]

variable (hdue : s.due q.issue = true) {e : Element} (he : findElement s q.story q.tag = some e) {p : Fin 16}
  (hp : q.port = some p)
include hdue hp

theorem scanQueue_missed {cause : Cause} (hm : missCause s p q = some cause) : scanQueue s = reportMiss q cause s :=
  scanQueue_one_undelivered hwait hqueue (scanEntry_missed (c := ⟨s, [], [], []⟩) hdue hp hm) rfl

include he

theorem scanQueue_deferred (hm : missCause s p q = none) (hno : offerTakes s p q.verb s.cfn = false) :
    scanQueue s = { s with sched := { s.sched with queue := [{ q with deferred := true }] } } := by
  rw [scanQueue_one_undelivered hwait hqueue
    (scanEntry_deferred (c := ⟨s, [], [], []⟩) hdue he hp hm List.not_mem_nil hno) rfl]
  simp [deferEntry, hqueue, ArmEntry.isFor]

theorem scanQueue_taken (hm : missCause s p q = none) (hyes : offerTakes s p q.verb s.cfn = true) :
    scanQueue s = issueEntry p q e.action s :=
  scanQueue_one_undelivered hwait hqueue
    (scanEntry_taken (c := ⟨s, [], [], []⟩) hdue he hp hm List.not_mem_nil hyes) rfl

end One

/-! ### Two entries for a port that does not take the first -/

theorem scanQueue_heldBack {s : State} {q x : ArmEntry} {p : Fin 16} (hwait : waitingOrder s = [])
    (hqueue : s.sched.queue = [q, x]) (hdue : s.due q.issue = true) (hduex : s.due x.issue = true)
    (hp : q.port = some p) (hpx : x.port = some p) (hne : q.key ≠ x.key) {e : Element}
    (he : findElement s q.story q.tag = some e) (hm : missCause s p q = none) (hmx : missCause s p x = none)
    (hno : offerTakes s p q.verb s.cfn = false) : scanQueue s
      = { s with sched := { s.sched with queue := [{ q with deferred := true }, { x with deferred := true }] } } := by
  have hfirst := scanEntry_deferred (c := ⟨s, [], [], []⟩) hdue he hp hm List.not_mem_nil hno
  have hsecond := scanEntry_held (c := ⟨deferEntry q.story q.tag s, [p], [], []⟩) hduex hpx hmx List.mem_cons_self
  have hscan : s.sched.queue.foldl scanEntry ⟨s, [], [], []⟩
      = ⟨deferEntry x.story x.tag (deferEntry q.story q.tag s), [p], [], []⟩ := by
    rw [hqueue, List.foldl_cons, List.foldl_cons, List.foldl_nil, hfirst]
    exact hsecond
  rw [scanQueue_of_none hscan ((waitingOrder_of_items rfl).trans hwait), renderThose_none]
  have hqx : q.isFor x.story x.tag = false := by
    rw [Bool.eq_false_iff, Ne, isFor_iff]
    exact hne
  have hxq : x.isFor q.story q.tag = false := by
    rw [Bool.eq_false_iff, Ne, isFor_iff]
    exact hne.symm
  have hself (y : ArmEntry) : y.isFor y.story y.tag = true := isFor_iff.mpr rfl
  have hmark (y : ArmEntry) (id : StoryId) (tag : Tag) : ArmEntry.isFor id tag { y with deferred := true }
      = y.isFor id tag :=
    rfl
  simp only [deferEntry, hqueue, List.map_cons, List.map_nil, hself, hqx, hxq, hmark, if_true, Bool.false_eq_true,
      if_false]

/-! ### A CUE_TEXT (R126, R169) -/

/-- What a CUE_TEXT brings to a display. -/
def Cue.shown (c : Cue) : Text × Origin × Tag × Nat := (c.text, c.origin, c.tag, c.hold)

theorem headTakesExpiry_shown (day cfn : Nat) (cues : List Cue) :
    (headTakesExpiry day cfn cues).map Cue.shown = cues.map Cue.shown := by
  cases cues with
  | nil => rfl
  | cons c cues => rfl

theorem joinCue_shown (day cfn : Nat) (c : Cue) (d : Display) :
    (joinCue day cfn c d).cues.map Cue.shown = d.cues.map Cue.shown ++ [c.shown] := by
  unfold joinCue
  split
  · rename_i h
    rw [List.isEmpty_iff.mp h]
    exact headTakesExpiry_shown day cfn [c]
  · exact List.map_append

theorem dropHead_shown (day cfn : Nat) (d : Display) :
    (dropHead day cfn d).cues.map Cue.shown = (d.cues.map Cue.shown).tail :=
  (headTakesExpiry_shown day cfn d.cues.tail).trans (List.map_tail ..)

/-- A list of what is shown once a cue has joined it, from a full list the oldest discarded (R169). -/
def Cue.joined (c : Cue) (l : List (Text × Origin × Tag × Nat)) : List (Text × Origin × Tag × Nat) :=
  (if l.length < 4 then l else l.tail) ++ [c.shown]

theorem raiseCue_get (k : NoticeKind) (n x : Fin 4) (c : Cue) (s : State) :
    (raiseCue k n c s).displays[x] = s.displays[x] := rfl

theorem deliverCue_shown (c : Cue) (s : State) (n : Fin 4) :
    (deliverCue c s n).displays[n].cues.map Cue.shown = c.joined (s.displays[n].cues.map Cue.shown) := by
  have hroom : s.displays[n].cues.length < 4 →
      (modifyDisplay n (joinCue s.day s.cfn c) s).displays[n].cues.map Cue.shown = c.joined (s.displays[n].cues.map Cue.shown) := fun h => by
    rw [modifyDisplay_get, joinCue_shown, Cue.joined, if_pos (by rwa [List.length_map])]
  unfold deliverCue
  split
  · rename_i hcues
    exact hroom (hcues ▸ Nat.succ_pos 3)
  · split
    · rename_i h
      exact hroom h
    · rename_i h
      have hfull : ¬ (s.displays[n].cues.map Cue.shown).length < 4 := by rwa [List.length_map]
      rw [raiseCue_get, modifyDisplay_get, joinCue_shown, dropHead_shown, Cue.joined, if_neg hfull]

theorem deliverCue_get_ne (c : Cue) (s : State) {n x : Fin 4} (h : x ≠ n) :
    (deliverCue c s n).displays[x] = s.displays[x] := by
  unfold deliverCue
  split
  · exact setDisplay_get_ne h ..
  · split
    · exact setDisplay_get_ne h ..
    · exact setDisplay_get_ne h ..

theorem foldl_deliverCue_get_of_not_mem (c : Cue) {l : List (Fin 4)} {x : Fin 4} (hx : x ∉ l) (s : State) :
    (l.foldl (deliverCue c) s).displays[x] = s.displays[x] := by
  induction l generalizing s with
  | nil => rfl
  | cons n l ih =>
    obtain ⟨hne, hl⟩ := List.ne_and_not_mem_of_not_mem_cons hx
    exact (ih hl _).trans (deliverCue_get_ne c s hne)

theorem foldl_deliverCue_shown (c : Cue) {l : List (Fin 4)} (hl : l.Nodup) {x : Fin 4} (hx : x ∈ l) (s : State) :
    (l.foldl (deliverCue c) s).displays[x].cues.map Cue.shown
      = c.joined (s.displays[x].cues.map Cue.shown) := by
  induction l generalizing s with
  | nil => cases hx
  | cons n l ih =>
    obtain ⟨hn, hl⟩ := List.nodup_cons.mp hl
    obtain rfl | hx := List.mem_cons.mp hx
    · rw [List.foldl_cons, foldl_deliverCue_get_of_not_mem c hn, deliverCue_shown]
    · have hne : x ≠ n := fun h => hn (h ▸ hx)
      rw [List.foldl_cons, ih hl hx, deliverCue_get_ne c s hne]

theorem mem_displaysOf {set : BitVec 4} {d : Fin 4} : d ∈ displaysOf set ↔ set.getLsbD d.val = true := by
  simp [displaysOf, allDisplays, List.mem_filter]

theorem displaysOf_nodup (set : BitVec 4) : (displaysOf set).Nodup := (List.nodup_finRange 4).filter _

theorem renderThose_redrawn (p : Fin 4 → Bool) (s : State) : Redrawn s (renderThose p s) := foldl_render_redrawn ..

theorem renderThose_get_of_not {p : Fin 4 → Bool} {d : Fin 4} (h : p d = false) (s : State) :
    (renderThose p s).displays[d] = s.displays[d] :=
  foldl_render_get_of_not_mem (fun hd => by simp [h] at hd) s

theorem Redrawn.cues {s t : State} (h : Redrawn s t) (d : Fin 4) : t.displays[d].cues = s.displays[d].cues := by
  obtain ⟨v, c, i, g, f, w, hd⟩ := h.record d
  rw [hd]

/-- The scan whose one entry is a CUE_TEXT (R126). -/
theorem scanQueue_delivered {s : State} {q : ArmEntry} (hwait : waitingOrder s = []) (hqueue : s.sched.queue = [q])
    (hdue : s.due q.issue = true) {e : Element} (he : findElement s q.story q.tag = some e) (hp : q.port = none)
    {set : BitVec 4} {text : Text} {hold : Nat} (ha : e.action = .cueText set text hold) :
    scanQueue s = renderThose (displaysOf set).contains (deliverText q e.tag set text hold s) :=
  scanQueue_one hwait hqueue (scanEntry_delivered (c := ⟨s, [], [], []⟩) hdue he hp ha)

theorem deliverText_displays (q : ArmEntry) (tag : Tag) (set : BitVec 4) (text : Text) (hold : Nat) (s : State) :
    (deliverText q tag set text hold s).displays
      = ((displaysOf set).foldl (deliverCue ⟨text, .element, tag, hold, none⟩) s).displays := rfl

/-- Of the rest, the link, the queue and the items alone are changed. -/
theorem deliverText_rest (q : ArmEntry) (tag : Tag) (set : BitVec 4) (text : Text) (hold : Nat) (s : State) :
    (deliverText q tag set text hold s).ports = s.ports
      ∧ (deliverText q tag set text hold s).sched = (removeEntry q.story q.tag s).sched := by
  obtain ⟨displays, link, h⟩ := foldl_deliverCue_record ⟨text, .element, tag, hold, none⟩ (displaysOf set) s
  rw [deliverText, h]
  exact ⟨rfl, rfl⟩

theorem findElement_deliverText {q : ArmEntry} {s : State} {e : Element} (he : findElement s q.story q.tag = some e)
    (tag : Tag) (set : BitVec 4) (text : Text) (hold : Nat) :
    findElement (deliverText q tag set text hold s) q.story q.tag
      = some { e with state := .done, lateness := some (recordedLateness s q.issue) } := by
  obtain ⟨displays, link, h⟩ := foldl_deliverCue_record ⟨text, .element, tag, hold, none⟩ (displaysOf set) s
  rw [deliverText, h]
  exact findElement_settleIssue q he .done

end Sys2Proof.Machine
end

