-- ==== Sys2Proof/Proofs/DueScanAlone.lean ====
section
/-! DUE_SCAN with one or two entries: the answers of the whole command (R124 to R126, R130, R146, R147, R169). -/

namespace Sys2Proof.Machine

section Alone

variable {s : State} (hleft : (settleSteps s).tick.scanLeft = true) (hwait : waitingOrder (settleSteps s) = [])
  {q : ArmEntry} (hqueue : (settleSteps s).sched.queue = [q]) (hdue : (settleSteps s).due q.issue = true) {e : Element}
  (he : findElement (settleSteps s) q.story q.tag = some e)
include hleft hwait hqueue hdue he

/-- The element of the one entry is missed (R124, R130). -/
theorem dueScan_missed {p : Fin 16} (hp : q.port = some p) {cause : Cause}
    (hm : missCause (settleSteps s) p q = some cause) :
    ∃ t, exec .dueScan s = .next t ∧ t.tick.scanLeft = false ∧ t.sched.queue = [] ∧ t.ports = (settleSteps s).ports
      ∧ t.groups = (settleSteps s).groups
      ∧ findElement t q.story q.tag = some { e with state := .missed, cause := some cause }
      ∧ t.link = { pushNotice ⟨.elementMissed, (settleSteps s).cfn, q.story, q.tag, portField e.action.port, cause.code⟩
          (settleSteps s).link with missed := true }
      ∧ t.seq = (settleSteps s).seq ∧ t.engine = (settleSteps s).engine ∧ Fixed (settleSteps s) t := by
  have hscan := scanQueue_missed (s := scanBegun (settleSteps s)) hwait hqueue hdue hp hm
  have hreport := reportMiss_eq (s := scanBegun (settleSteps s)) q he cause
  refine ⟨_, exec_dueScan hleft, scanQueue_begun_scanLeft _, ?_, ?_, ?_, ?_, ?_, (scanQueue_begun_show _).seq,
    (scanQueue_begun_show _).engine, scanQueue_begun_fixed _⟩
  · rw [hscan, hreport]
    exact removeEntry_only hqueue
  · rw [hscan, hreport]
    rfl
  · rw [hscan, hreport]
    rfl
  · rw [hscan]
    exact findElement_reportMiss (s := scanBegun (settleSteps s)) q he cause
  · rw [hscan, hreport]
    rfl

variable {p : Fin 16}

/-- The port answers "not yet" to the one entry (R125). -/
theorem dueScan_deferred (hm : missCause (settleSteps s) p q = none) (hp : q.port = some p)
    (hno : offerTakes (settleSteps s) p q.verb (settleSteps s).cfn = false) :
    exec .dueScan s = .next { settleSteps s with
      tick := { (settleSteps s).tick with scanLeft := false }
      sched := { (settleSteps s).sched with queue := [{ q with deferred := true }] } } := by
  rw [exec_dueScan hleft, scanQueue_deferred (s := scanBegun (settleSteps s)) hwait hqueue hdue he hp hm hno]
  rfl

/-- The port takes the command of the one entry (R125, R147). -/
theorem dueScan_taken (hm : missCause (settleSteps s) p q = none) (hp : q.port = some p)
    (hyes : offerTakes (settleSteps s) p q.verb (settleSteps s).cfn = true) :
    ∃ t, exec .dueScan s = .next t ∧ t.tick.scanLeft = false ∧ t.sched.queue = []
      ∧ t.ports = (settleSteps s).ports.set p
        (firedPort (settleSteps s) p (settleSteps s).cfn q.key e.action (settleSteps s).ports[p])
      ∧ findElement t q.story q.tag
        = some { e with state := takenState q, lateness := some (recordedLateness (settleSteps s) q.issue) }
      ∧ t.groups = issueRecorded (settleSteps s) p (settleSteps s).cfn ∧ t.link = (settleSteps s).link
      ∧ t.seq = (settleSteps s).seq ∧ t.engine = (settleSteps s).engine ∧ Fixed (settleSteps s) t := by
  have hscan := scanQueue_taken (s := scanBegun (settleSteps s)) hwait hqueue hdue he hp hm hyes
  refine ⟨_, exec_dueScan hleft, scanQueue_begun_scanLeft _, ?_, ?_, ?_, ?_, ?_, (scanQueue_begun_show _).seq,
    (scanQueue_begun_show _).engine, scanQueue_begun_fixed _⟩
  · rw [hscan, issueEntry_sched]
    exact removeEntry_only hqueue
  · rw [hscan, issueEntry_ports]
    rfl
  · rw [hscan]
    exact findElement_issueEntry (s := scanBegun (settleSteps s)) p q e.action he
  · rw [hscan, issueEntry_groups]
    rfl
  · rw [hscan]
    exact (issueEntry_rest ..).1

/-- A CUE_TEXT is delivered to each of its displays (R126, R169). -/
theorem dueScan_delivered (hport : q.port = none) {set : BitVec 4} {text : Text} {hold : Nat}
    (ha : e.action = .cueText set text hold) (hcues : CuesBounded (settleSteps s)) :
    ∃ t, exec .dueScan s = .next t ∧ t.tick.scanLeft = false ∧ t.sched.queue = [] ∧ t.ports = (settleSteps s).ports
      ∧ findElement t q.story q.tag
        = some { e with state := .done, lateness := some (recordedLateness (settleSteps s) q.issue) }
      ∧ (∀ d : Fin 4, (set.getLsbD d.val = false → t.displays[d] = (settleSteps s).displays[d])
        ∧ (set.getLsbD d.val = true → t.displays[d].cues.length ≤ 4
          ∧ t.displays[d].cues.map Cue.shown = (Cue.mk text .element e.tag hold none).joined
            ((settleSteps s).displays[d].cues.map Cue.shown)))
      ∧ t.seq = (settleSteps s).seq ∧ t.engine = (settleSteps s).engine ∧ Fixed (settleSteps s) t := by
  have hscan := scanQueue_delivered (s := scanBegun (settleSteps s)) hwait hqueue hdue he hport ha
  have hdrawn := renderThose_redrawn (displaysOf set).contains
    (deliverText q e.tag set text hold (scanBegun (settleSteps s)))
  obtain ⟨hports, hsched⟩ := deliverText_rest q e.tag set text hold (scanBegun (settleSteps s))
  refine ⟨_, exec_dueScan hleft, scanQueue_begun_scanLeft _, ?_, ?_, ?_, fun d => ⟨fun hd => ?_, fun hd => ?_⟩,
    (scanQueue_begun_show _).seq, (scanQueue_begun_show _).engine, scanQueue_begun_fixed _⟩
  · rw [hscan, hdrawn.rest, hsched]
    exact removeEntry_only hqueue
  · rw [hscan, hdrawn.rest, hports]
    rfl
  · rw [hscan, hdrawn.rest]
    exact findElement_deliverText (s := scanBegun (settleSteps s)) he e.tag set text hold
  · have hnot : d ∉ displaysOf set := fun hmem => by rw [mem_displaysOf.mp hmem] at hd; cases hd
    rw [hscan, renderThose_get_of_not (by simpa using hnot), deliverText_displays]
    exact foldl_deliverCue_get_of_not_mem _ hnot _
  · have hshown : (scanQueue (scanBegun (settleSteps s))).displays[d].cues.map Cue.shown
        = (Cue.mk text .element e.tag hold none).joined ((settleSteps s).displays[d].cues.map Cue.shown) := by
      rw [hscan, hdrawn.cues, deliverText_displays]
      exact foldl_deliverCue_shown _ (displaysOf_nodup set) (mem_displaysOf.mpr hd) _
    refine ⟨?_, hshown⟩
    have hlength := congrArg List.length hshown
    have hbound : (settleSteps s).displays[d].cues.length ≤ 4 := hcues d
    rw [List.length_map, Cue.joined, List.length_append, List.length_singleton] at hlength
    split at hlength
    · rename_i hroom
      omega
    · rw [List.length_tail, List.length_map] at hlength
      omega

end Alone

/-- Two due entries of a port that does not take the first are both deferred (R125). -/
theorem dueScan_heldBack {s : State} (hleft : (settleSteps s).tick.scanLeft = true)
    (hwait : waitingOrder (settleSteps s) = []) {q x : ArmEntry} (hqueue : (settleSteps s).sched.queue = [q, x])
    {p : Fin 16} (hp : q.port = some p) (hpx : x.port = some p) (hdue : (settleSteps s).due q.issue = true)
    (hduex : (settleSteps s).due x.issue = true) (hne : q.key ≠ x.key) {e : Element}
    (he : findElement (settleSteps s) q.story q.tag = some e) (hm : missCause (settleSteps s) p q = none)
    (hmx : missCause (settleSteps s) p x = none)
    (hno : offerTakes (settleSteps s) p q.verb (settleSteps s).cfn = false) :
    exec .dueScan s = .next { settleSteps s with
      tick := { (settleSteps s).tick with scanLeft := false }
      sched := { (settleSteps s).sched with
        queue := [{ q with deferred := true }, { x with deferred := true }] } } := by
  have hscan := scanQueue_heldBack (s := scanBegun (settleSteps s)) hwait hqueue hdue hduex hp hpx hne he hm hmx hno
  rw [exec_dueScan hleft, hscan]
  rfl

/-- The answer "not yet" by the rule (R146). -/
theorem offerTakes_eq_false {s : State} {p : Fin 16} {k : Fin 8} (hk : s.ports[p].profile = some k) {v : Kind}
    (h : ¬ TakesByRule s p s.profiles[k] v) : offerTakes s p v s.cfn = false :=
  Bool.eq_false_iff.mpr fun ht => h ((offerTakes_iff hk v).mp ht)

end Sys2Proof.Machine
end

