-- ==== Sys2Proof/Proofs/FreedRoom.lean ====
section
/-! The waiting elements armed into the room that a scan has freed: how many, and with which entries (R116, R117). -/

namespace Sys2Proof.Machine

/-! ### One waiting element -/

/-- One element of the waiting order, armed if there is room (R117). -/
def fillStep (s : State) (w : StoryId × Element) : State := if queueHasRoom s then armElement w.1 w.2.tag s else s

theorem fillFromWaiting_eq (s : State) : fillFromWaiting s = (waitingOrder s).foldl fillStep s := rfl

theorem armElement_kept (id : StoryId) (tag : Tag) (s : State) : ScanKept s (armElement id tag s) := by
  have hcontext := fun x => contextOf_armElement id tag x (s := s)
  obtain ⟨items, sched, h⟩ := armElement_record id tag s
  rw [h] at hcontext ⊢
  exact ⟨rfl, rfl, rfl, hcontext, fun hm => hm, fun _ => rfl, fun _ => rfl, fun _ => .rfl⟩

theorem mem_armElement_ne (id : StoryId) (tag : Tag) (s : State) {y : ArmEntry} (hy : y.key ≠ (id, tag)) :
    y ∈ (armElement id tag s).sched.queue ↔ y ∈ s.sched.queue := by
  cases hi : findItem s id with
  | none => simp only [armElement, hi]
  | some i =>
    cases hc : i.context with
    | none => rw [armElement_no_context hi hc]
    | some c =>
      cases he : i.findElement tag with
      | none => simp only [armElement, hi, hc, he]
      | some e =>
        by_cases hroom : s.sched.queue.length < Config.armQueue
        · rw [armElement_room hi hc he hroom, (placeEntry_perm ..).mem_iff, List.mem_cons, or_iff_right]
          · rfl
          · rintro rfl
            have htag : e.tag = tag := by simpa using List.find?_some he
            exact hy (Prod.ext rfl htag)
        · rw [armElement_full hi hc he (Nat.not_lt.mp hroom)]
          rfl

section Step

variable (s : State) (w : StoryId × Element)

theorem fillStep_kept : ScanKept s (fillStep s w) := scanKept_composes.when fun _ => armElement_kept ..

theorem fillStep_element {k : Key} (hk : k ≠ waitingKey w) :
    findElement (fillStep s w) k.1 k.2 = findElement s k.1 k.2 := by
  unfold fillStep
  split
  · exact findElement_armElement_ne w.1 w.2.tag hk
  · rfl

theorem mem_fillStep_ne {y : ArmEntry} (hy : y.key ≠ waitingKey w) :
    y ∈ (fillStep s w).sched.queue ↔ y ∈ s.sched.queue := by
  unfold fillStep
  split
  · exact mem_armElement_ne w.1 w.2.tag s hy
  · rfl

theorem mem_fillStep {y : ArmEntry} (hy : y ∈ s.sched.queue) : y ∈ (fillStep s w).sched.queue := by
  unfold fillStep
  split
  · exact mem_armElement _ _ hy
  · exact hy

/-- An element that waits in an item with an arm context. -/
def CanArm (s : State) (w : StoryId × Element) : Prop :=
  findElement s w.1 w.2.tag = some w.2 ∧ (contextOf s w.1).isSome = true

variable {s w}

theorem fillStep_room (h : s.sched.queue.length < Config.armQueue) : fillStep s w = armElement w.1 w.2.tag s :=
  if_pos (decide_eq_true h)

theorem fillStep_full (h : Config.armQueue ≤ s.sched.queue.length) : fillStep s w = s :=
  if_neg (by simpa [queueHasRoom] using h)

theorem CanArm.fillStep (h : CanArm s w) {x : StoryId × Element} (hne : waitingKey w ≠ waitingKey x) :
    CanArm (fillStep s x) w :=
  ⟨(fillStep_element s x hne).trans h.1, by rw [(fillStep_kept s x).context]; exact h.2⟩

theorem fillStep_length (h : CanArm s w) : (fillStep s w).sched.queue.length
    = if s.sched.queue.length < Config.armQueue then s.sched.queue.length + 1 else s.sched.queue.length := by
  obtain ⟨he, hc⟩ := h
  obtain ⟨c, hc⟩ := Option.isSome_iff_exists.mp hc
  split
  · rename_i hroom
    rw [fillStep_room hroom, armElement_placed hc he hroom]
    exact (placeEntry_perm ..).length_eq
  · rename_i hfull
    rw [fillStep_full (Nat.not_lt.mp hfull)]

end Step

/-! ### The waiting order in turn -/

section Turn

variable {l : List (StoryId × Element)} {s : State}

theorem foldl_fill_kept : ScanKept s (l.foldl fillStep s) := scanKept_composes.foldl fillStep_kept l s

theorem mem_foldl_fill {y : ArmEntry} (hy : y ∈ s.sched.queue) : y ∈ (l.foldl fillStep s).sched.queue := by
  induction l generalizing s with
  | nil => exact hy
  | cons w l ih => exact ih (mem_fillStep s w hy)

/-- What has no part in the waiting order stands. -/
theorem foldl_fill_spares {k : Key} (hk : ∀ w ∈ l, waitingKey w ≠ k) :
    findElement (l.foldl fillStep s) k.1 k.2 = findElement s k.1 k.2
      ∧ ∀ y : ArmEntry, y.key = k → (y ∈ (l.foldl fillStep s).sched.queue ↔ y ∈ s.sched.queue) := by
  induction l generalizing s with
  | nil => exact ⟨rfl, fun _ _ => .rfl⟩
  | cons w l ih =>
    have hw : k ≠ waitingKey w := (hk w List.mem_cons_self).symm
    obtain ⟨helement, hentries⟩ := ih (s := fillStep s w) fun x hx => hk x (List.mem_cons_of_mem _ hx)
    exact ⟨helement.trans (fillStep_element s w hw), fun y hy => (hentries y hy).trans (mem_fillStep_ne s w (hy ▸ hw))⟩

/-- Each that can be armed takes a place as long as there is room. -/
theorem foldl_fill_length (hl : (l.map waitingKey).Nodup) (harm : ∀ w ∈ l, CanArm s w) :
    (s.sched.queue.length + l.length < Config.armQueue →
        (l.foldl fillStep s).sched.queue.length = s.sched.queue.length + l.length)
      ∧ (Config.armQueue ≤ s.sched.queue.length + l.length →
        Config.armQueue ≤ (l.foldl fillStep s).sched.queue.length) := by
  induction l generalizing s with
  | nil => exact ⟨fun _ => rfl, fun h => h⟩
  | cons w l ih =>
    obtain ⟨hw, hl⟩ := List.nodup_cons.mp hl
    have hlength := fillStep_length (harm w List.mem_cons_self)
    obtain ⟨hroom, hfull⟩ := ih hl (s := fillStep s w) fun x hx =>
      (harm x (List.mem_cons_of_mem _ hx)).fillStep fun heq => hw (heq ▸ List.mem_map_of_mem hx)
    rw [List.length_cons]
    split at hlength
    · rw [hlength] at hroom hfull
      exact ⟨fun h => (hroom (by omega)).trans (by omega), fun h => hfull (by omega)⟩
    · rename_i hnone
      rw [hlength] at hfull
      exact ⟨fun h => absurd h (by omega), fun _ => hfull (by omega)⟩

end Turn

/-- The rule's entry is read off the clock, the profiles and the bindings. -/
theorem ScanKept.armedEntry {s t : State} (h : ScanKept s t) {id : StoryId} {start stop : Frame} {e : Element}
    {q : ArmEntry} (hq : ArmedEntry t id start stop e q) : ArmedEntry s id start stop e q := by
  have hlead (a : Action) : leadByRule t a = leadByRule s a := by
    simp only [leadByRule, h.profile, h.profiles]
  have heffect := hq.effect
  have hissue := hq.issue
  rw [h.rtu] at heffect
  rw [hlead, h.rtu] at hissue
  exact ⟨hq.story, hq.tag, hq.port, hq.verb, heffect, hissue, hq.deferred⟩

/-- A waiting element that finds room is ARMED with its entry, and one that does not waits on (R117). -/
theorem foldl_fill_turn {l r : List (StoryId × Element)} {id : StoryId} {e : Element} {s : State}
    (hkeys : ((l ++ (id, e) :: r).map waitingKey).Nodup) (harm : ∀ w ∈ l ++ (id, e) :: r, CanArm s w) :
    (s.sched.queue.length + l.length < Config.armQueue → ∃ c q, contextOf s id = some c
        ∧ ArmedEntry s id c.start c.stop e q ∧ StandsArmed id e q ((l ++ (id, e) :: r).foldl fillStep s))
      ∧ (Config.armQueue ≤ s.sched.queue.length + l.length →
        findElement ((l ++ (id, e) :: r).foldl fillStep s) id e.tag = some e) := by
  rw [List.map_append, List.map_cons] at hkeys
  obtain ⟨hl, htail, hapart⟩ := List.nodup_append.mp hkeys
  obtain ⟨hr, -⟩ := List.nodup_cons.mp htail
  have hbefore : ∀ w ∈ l, waitingKey w ≠ (id, e.tag) := fun w hw =>
    hapart _ (List.mem_map_of_mem hw) _ List.mem_cons_self
  have hafter : ∀ w ∈ r, waitingKey w ≠ (id, e.tag) := fun w hw heq =>
    hr (List.mem_map.mpr ⟨w, hw, heq⟩)
  obtain ⟨he, hc⟩ := harm (id, e) (by simp)
  obtain ⟨c, hc⟩ := Option.isSome_iff_exists.mp hc
  obtain ⟨hroom, hfull⟩ := foldl_fill_length hl fun w hw => harm w (List.mem_append_left _ hw)
  have hkept : ScanKept s (l.foldl fillStep s) := foldl_fill_kept
  have he' : findElement (l.foldl fillStep s) id e.tag = some e := (foldl_fill_spares hbefore).1.trans he
  have hc' : contextOf (l.foldl fillStep s) id = some c := (hkept.context id).trans hc
  rw [List.foldl_append, List.foldl_cons]
  refine ⟨fun h => ?_, fun h => ?_⟩
  · have hlt : (l.foldl fillStep s).sched.queue.length < Config.armQueue := by rw [hroom h]; exact h
    obtain ⟨q, hq, hstands⟩ := armElement_standsArmed hc' he' hlt
    rw [fillStep_room hlt]
    exact ⟨c, q, hc, hkept.armedEntry hq, (foldl_fill_spares hafter).1.trans hstands.element,
        mem_foldl_fill hstands.entry⟩
  · rw [fillStep_full (hfull h)]
    exact (foldl_fill_spares hafter).1.trans he'

end Sys2Proof.Machine
end

