-- ==== Sys2Proof/Proofs/ScanTurn.lean ====
section
/-! The due scan with any queue that agrees with the elements: the fate of each entry, and the waiting elements armed
into the room that is free (R116, R117, R124 to R126, R130, R146, R147). -/

namespace Sys2Proof.Machine

/-! ### From the scan of an entry to the end of the scan -/

/-- The scan once a first part of the queue has been seen. -/
def scanPart (u : State) (l : List ArmEntry) : ScanState := l.foldl scanEntry ⟨u, [], [], []⟩

/-- The scan once the whole queue has been seen. -/
abbrev scanAll (u : State) : ScanState := scanPart u u.sched.queue

theorem scanPart_append (u : State) (l r : List ArmEntry) (q : ArmEntry) :
    scanPart u (l ++ q :: r) = r.foldl scanEntry (scanEntry (scanPart u l) q) := by
  rw [scanPart, List.foldl_append]
  rfl

theorem scanAll_split {u : State} {l r : List ArmEntry} {q : ArmEntry} (h : u.sched.queue = l ++ q :: r) :
    scanAll u = r.foldl scanEntry (scanEntry (scanPart u l) q) := by
  rw [scanAll, h]
  exact scanPart_append u l r q

theorem scanPart_kept (u : State) (l : List ArmEntry) : ScanKept u (scanPart u l).state :=
  foldl_scan_kept l ⟨u, [], [], []⟩

/-- An ARMED element does not wait. -/
theorem Agrees.not_waiting {X : Set StoryId} {u : State} (h : Agrees X u) {k : Key} (hk : k ∈ entryKeys u) :
    ∀ w ∈ waitingOrder u, waitingKey w ≠ k := by
  rintro w hw rfl
  have harmed := (h.standing _).mp hk
  obtain hst | hst := (waiting_ready h.ids hw).state
  · simp [harmed] at hst
  · simp [harmed] at hst

theorem scanAll_waiting {X : Set StoryId} {u : State} (h : Agrees X u) :
    waitingOrder (scanAll u).state = waitingOrder u :=
  foldl_scan_waiting (c := ⟨u, [], [], []⟩) fun _ hq => h.not_waiting (mem_entryKeys_of_mem hq)

/-- What is left of the scan once the queue has been seen: the waiting elements, and the displays' renders. -/
theorem scanQueue_rest {X : Set StoryId} {u : State} (h : Agrees X u) :
    (scanQueue u).items = ((waitingOrder u).foldl fillStep (scanAll u).state).items
      ∧ (scanQueue u).sched = ((waitingOrder u).foldl fillStep (scanAll u).state).sched
      ∧ (scanQueue u).ports = (scanAll u).state.ports
      ∧ ((scanAll u).state.link.missed = true → (scanQueue u).link.missed = true) := by
  have hdrawn := renderThose_redrawn (scanAll u).delivered.contains (fillFromWaiting (scanAll u).state)
  have hfill : fillFromWaiting (scanAll u).state = (waitingOrder u).foldl fillStep (scanAll u).state := by
    rw [fillFromWaiting_eq, scanAll_waiting h]
  have hscan : scanQueue u = renderThose (scanAll u).delivered.contains (fillFromWaiting (scanAll u).state) := rfl
  have hports : (fillFromWaiting (scanAll u).state).ports = (scanAll u).state.ports :=
    (fillFromWaiting_onlyArmed _).ports
  rw [hscan, hdrawn.rest]
  refine ⟨by rw [hfill], by rw [hfill], hports, fun hm => ?_⟩
  rw [hfill]
  exact foldl_fill_kept.missed hm

/-- An entry of the queue in its turn: the scan before it has left it and its element, and what the scan makes of them
is their fate. -/
structure Turn (u : State) (q : ArmEntry) (c : ScanState) : Prop where
  kept : ScanKept u c.state
  element : findElement c.state q.story q.tag = findElement u q.story q.tag
  entry : q ∈ c.state.sched.queue
  outcome : findElement (scanQueue u) q.story q.tag = findElement (scanEntry c q).state q.story q.tag
  entries : ∀ y : ArmEntry, y.key = q.key →
    (y ∈ (scanQueue u).sched.queue ↔ y ∈ (scanEntry c q).state.sched.queue)
  missed : (scanEntry c q).state.link.missed = true → (scanQueue u).link.missed = true

theorem Agrees.turn {X : Set StoryId} {u : State} (h : Agrees X u) {l r : List ArmEntry} {q : ArmEntry}
    (hqueue : u.sched.queue = l ++ q :: r) : Turn u q (scanPart u l) := by
  have hkeys := h.keys
  rw [entryKeys, hqueue, List.map_append, List.map_cons] at hkeys
  obtain ⟨-, htail, hapart⟩ := List.nodup_append.mp hkeys
  obtain ⟨hr, -⟩ := List.nodup_cons.mp htail
  have hl : q.key ∉ l.map ArmEntry.key := fun hmem => hapart _ hmem _ List.mem_cons_self rfl
  have hq : q ∈ u.sched.queue := by rw [hqueue]; simp
  obtain ⟨helement, hentry⟩ := foldl_scan_spares (c := ⟨u, [], [], []⟩) hl
  obtain ⟨hafter, hstays⟩ := foldl_scan_spares (c := scanEntry (scanPart u l) q) hr
  obtain ⟨hfilled, hplaced⟩ := foldl_fill_spares (s := (scanAll u).state) (h.not_waiting (mem_entryKeys_of_mem hq))
  obtain ⟨hitems, hsched, -, hmissed⟩ := scanQueue_rest h
  have hall := scanAll_split hqueue
  refine ⟨scanPart_kept u l, helement, (hentry q rfl).mpr hq, ?_, fun y hy => ?_, fun hm => hmissed ?_⟩
  · exact (findElement_of_items hitems ..).trans (hfilled.trans (hall ▸ hafter))
  · rw [hsched, hplaced y hy, hall, hstays y hy]
  · rw [hall]
    exact (foldl_scan_kept r _).missed hm

/-! ### The fates -/

theorem ScanKept.boundProfile {s t : State} (h : ScanKept s t) (p : Fin 16) : boundProfile t p = boundProfile s p := by
  rw [Machine.boundProfile, Machine.boundProfile, h.profile, h.profiles]

theorem ScanKept.cfn {s t : State} (h : ScanKept s t) : t.cfn = s.cfn := congrArg Rtu.cfn h.rtu

theorem ScanKept.day {s t : State} (h : ScanKept s t) : t.day = s.day := congrArg (fun r : Rtu => r.rate.day) h.rtu

theorem ScanKept.missCause {s t : State} (h : ScanKept s t) (p : Fin 16) (q : ArmEntry) :
    missCause t p q = missCause s p q := by
  unfold Machine.missCause
  by_cases hs : s.ports[p].state = .unbound
  · rw [if_pos ((h.unbound p).mpr hs), if_pos hs]
  · rw [if_neg (mt (h.unbound p).mp hs), if_neg hs]
    rw [h.boundProfile, h.day, h.cfn]

theorem ScanKept.firedPort {s t : State} (h : ScanKept s t) (p : Fin 16) (f : Frame) (ref : Key) (a : Action)
    (r : Port) :
    firedPort t p f ref a r = firedPort s p f ref a r := by
  simp only [Machine.firedPort, h.boundProfile, h.day]

theorem ScanKept.recordedLateness {s t : State} (h : ScanKept s t) (issue : Frame) :
    recordedLateness t issue = recordedLateness s issue := by
  rw [Machine.recordedLateness, h.day, h.cfn]
  rfl

namespace Turn

variable {u : State} {q : ArmEntry} {c : ScanState} (h : Turn u q c)
include h

/-- An entry that the scan removes is gone. -/
theorem gone (hremoved : (scanEntry c q).state.sched.queue = (removeEntry q.story q.tag c.state).sched.queue) :
    Gone (scanQueue u) q := fun y hy hkey => by
  rw [h.entries y hkey, hremoved, mem_removeEntry] at hy
  exact hy.2 hkey

theorem of_notDue (hdue : u.due q.issue = false) :
    q ∈ (scanQueue u).sched.queue ∧ findElement (scanQueue u) q.story q.tag = findElement u q.story q.tag := by
  have hnot := scanEntry_notDue (c := c) (q := q) (by rw [h.kept.due, hdue])
  refine ⟨(h.entries q rfl).mpr ?_, h.outcome.trans ?_⟩
  · rw [hnot]
    exact h.entry
  · rw [hnot, h.element]

variable (hdue : u.due q.issue = true)

include hdue in
theorem due : c.state.due q.issue = true := h.kept.due.symm ▸ hdue

/-- A deferred entry and its element. -/
theorem of_deferred (hdeferred : (scanEntry c q).state = deferEntry q.story q.tag c.state) :
    { q with deferred := true } ∈ (scanQueue u).sched.queue
      ∧ findElement (scanQueue u) q.story q.tag = findElement u q.story q.tag := by
  refine ⟨(h.entries { q with deferred := true } rfl).mpr ?_, h.outcome.trans ?_⟩
  · rw [hdeferred]
    exact deferEntry_self q _ h.entry
  · rw [hdeferred]
    exact h.element

variable {e : Element} (he : findElement u q.story q.tag = some e)
include he

theorem found : findElement c.state q.story q.tag = some e := h.element.trans he

include hdue

theorem of_missed {p : Fin 16} (hp : q.port = some p) {cause : Cause} (hm : missCause u p q = some cause) :
    Gone (scanQueue u) q ∧ (scanQueue u).link.missed = true
      ∧ findElement (scanQueue u) q.story q.tag = some { e with state := .missed, cause := some cause } := by
  have hscan : (scanEntry c q).state = reportMiss q cause c.state :=
    congrArg ScanState.state (scanEntry_missed (h.due hdue) hp ((h.kept.missCause p q).trans hm))
  have hreport := reportMiss_eq q (h.found he) cause
  refine ⟨h.gone ?_, h.missed ?_, h.outcome.trans ?_⟩
  · rw [hscan, hreport]
    rfl
  · rw [hscan, hreport]
  · rw [hscan]
    exact findElement_reportMiss q (h.found he) cause

theorem of_delivered (hp : q.port = none) {set : BitVec 4} {text : Text} {hold : Nat}
    (ha : e.action = .cueText set text hold) : Gone (scanQueue u) q
      ∧ findElement (scanQueue u) q.story q.tag
        = some { e with state := .done, lateness := some (recordedLateness u q.issue) } := by
  have hscan : (scanEntry c q).state = deliverText q e.tag set text hold c.state :=
    congrArg ScanState.state (scanEntry_delivered (h.due hdue) (h.found he) hp ha)
  refine ⟨h.gone ?_, h.outcome.trans ?_⟩
  · rw [hscan, (deliverText_rest ..).2]
  · rw [hscan, findElement_deliverText (h.found he), h.kept.recordedLateness]

end Turn

/-! ### The first due entry of a port, and those behind it -/

theorem scanPart_fresh {u : State} {p : Fin 16} {l : List ArmEntry}
    (hl : ∀ x ∈ l, u.due x.issue = true → ∀ y : Fin 16, x.port = some y →
      y ≠ p ∧ (u.ports[p].group = none ∨ u.ports[y].group ≠ u.ports[p].group)) : Fresh u p (scanPart u l) :=
  foldl_scan_fresh ⟨scanKept_composes.refl u, rfl, fun _ _ => rfl, List.not_mem_nil⟩ hl

/-- A port that has taken or answered "not yet" defers what is on time. -/
theorem scanEntry_defers {c : ScanState} {p : Fin 16} (hclosed : Closed p c) {q : ArmEntry} {e : Element}
    (hdue : c.state.due q.issue = true) (he : findElement c.state q.story q.tag = some e) (hp : q.port = some p)
    (hm : missCause c.state p q = none) : (scanEntry c q).state = deferEntry q.story q.tag c.state := by
  by_cases hheld : p ∈ c.heldPorts
  · rw [scanEntry_held hdue hp hm hheld]
  · have hno : offerTakes c.state p q.verb c.state.cfn = false :=
      Bool.eq_false_iff.mpr fun htakes => hclosed.resolve_left hheld (offerTakes_ready htakes)
    rw [scanEntry_deferred hdue he hp hm hheld hno]

/-- An offered entry closes its port for the rest of the scan. -/
theorem scanEntry_closes {c : ScanState} {p : Fin 16} {q : ArmEntry} {e : Element}
    (hdue : c.state.due q.issue = true) (he : findElement c.state q.story q.tag = some e) (hp : q.port = some p)
    (hm : missCause c.state p q = none) : Closed p (scanEntry c q) := by
  by_cases hheld : p ∈ c.heldPorts
  · exact .inl (scanEntry_heldPorts_mono hheld q)
  · cases hoffer : offerTakes c.state p q.verb c.state.cfn with
    | false =>
      rw [scanEntry_deferred hdue he hp hm hheld hoffer]
      exact .inl List.mem_cons_self
    | true =>
      rw [scanEntry_taken hdue he hp hm hheld hoffer]
      refine .inr ?_
      change (issueEntry p q e.action c.state).ports[p].state ≠ .ready
      rw [issueEntry_ports, getElem_set_port, if_pos rfl]
      exact (firedPort_state ..).2

end Sys2Proof.Machine
end

