-- ==== Sys2Proof/Proofs/ScanOfQueue.lean ====
section
/-! The due scan with any queue: the first due entry of a port and those behind it, and how many waiting elements find
room (R116, R117, R125, R146). -/

namespace Sys2Proof.Machine

/-! ### The first due entry of a port, and those behind it -/

section First

variable {X : Set StoryId} {u : State} (h : Agrees X u) {l r : List ArmEntry} {q : ArmEntry}
  (hqueue : u.sched.queue = l ++ q :: r) {p : Fin 16} (hp : q.port = some p) (hdue : u.due q.issue = true) {e : Element}
  (he : findElement u q.story q.tag = some e) (hm : missCause u p q = none)

section Offer

variable {k : Fin 8} (hk : u.ports[p].profile = some k)
  (hfirst : ∀ x ∈ l, u.due x.issue = true → ∀ y : Fin 16, x.port = some y →
    y ≠ p ∧ (u.ports[p].group = none ∨ u.ports[y].group ≠ u.ports[p].group))
include hk hfirst

/-- The offer test of the scan is that at its start (R146). -/
theorem scanPart_offerTakes (v : Kind) : offerTakes (scanPart u l).state p v (scanPart u l).state.cfn = true
    ↔ TakesByRule u p u.profiles[k] v := by
  obtain ⟨hkept, hport, hgroup, -⟩ := scanPart_fresh hfirst
  have hk' : (scanPart u l).state.ports[p].profile = some k := (hkept.profile p).trans hk
  rw [offerTakes_iff hk', takesByRule_congr hkept.rtu hport hgroup, hkept.profiles]

include h hqueue hp hdue he hm

/-- The port takes the entry's command (R125, R147). -/
theorem first_taken (htakes : TakesByRule u p u.profiles[k] q.verb) : Gone (scanQueue u) q
    ∧ (scanQueue u).ports[p] = firedPort u p u.cfn q.key e.action u.ports[p]
    ∧ findElement (scanQueue u) q.story q.tag
      = some { e with state := takenState q, lateness := some (recordedLateness u q.issue) } := by
  have hturn := h.turn hqueue
  obtain ⟨hkept, hport, -, hfree⟩ := scanPart_fresh hfirst
  have hmiss := (hturn.kept.missCause p q).trans hm
  have hscan : (scanEntry (scanPart u l) q).state = issueEntry p q e.action (scanPart u l).state :=
    congrArg ScanState.state (scanEntry_taken (hturn.due hdue) (hturn.found he) hp hmiss hfree
      ((scanPart_offerTakes hk hfirst _).mpr htakes))
  obtain ⟨-, -, hports, -⟩ := scanQueue_rest h
  have hclosed := scanEntry_closes (hturn.due hdue) (hturn.found he) hp hmiss
  have hall := scanAll_split hqueue
  refine ⟨hturn.gone ?_, ?_, hturn.outcome.trans ?_⟩
  · rw [hscan, issueEntry_sched]
  · rw [hports, hall, (foldl_scan_closed hclosed).1, hscan, issueEntry_ports, getElem_set_port,
        if_pos rfl,
      hkept.firedPort, hkept.cfn]
    exact congrArg _ hport
  · rw [hscan, findElement_issueEntry p q e.action (hturn.found he), hturn.kept.recordedLateness]

/-- The port answers "not yet" (R125). -/
theorem first_deferred (hnot : ¬ TakesByRule u p u.profiles[k] q.verb) :
    { q with deferred := true } ∈ (scanQueue u).sched.queue ∧ (scanQueue u).ports[p] = u.ports[p]
      ∧ findElement (scanQueue u) q.story q.tag = some e := by
  have hturn := h.turn hqueue
  obtain ⟨-, hport, -, hfree⟩ := scanPart_fresh hfirst
  have hmiss := (hturn.kept.missCause p q).trans hm
  have hscan : (scanEntry (scanPart u l) q).state = deferEntry q.story q.tag (scanPart u l).state :=
    congrArg ScanState.state (scanEntry_deferred (hturn.due hdue) (hturn.found he) hp hmiss hfree
      (Bool.eq_false_iff.mpr fun htakes => hnot ((scanPart_offerTakes hk hfirst _).mp htakes)))
  obtain ⟨-, -, hports, -⟩ := scanQueue_rest h
  have hclosed := scanEntry_closes (hturn.due hdue) (hturn.found he) hp hmiss
  have hall := scanAll_split hqueue
  obtain ⟨hentry, helement⟩ := hturn.of_deferred hscan
  refine ⟨hentry, ?_, helement.trans he⟩
  rw [hports, hall, (foldl_scan_closed hclosed).1, hscan]
  exact hport

end Offer

include h hqueue hp hdue he hm

/-- What stands behind a due entry of its port is held back (R125). -/
theorem behind_deferred {x : ArmEntry} (hx : x ∈ r) (hduex : u.due x.issue = true) (hpx : x.port = some p)
    (hmx : missCause u p x = none) : { x with deferred := true } ∈ (scanQueue u).sched.queue
      ∧ findElement (scanQueue u) x.story x.tag = findElement u x.story x.tag := by
  obtain ⟨m, n, rfl⟩ := List.append_of_mem hx
  have hturn := h.turn hqueue
  have hqueue' : u.sched.queue = (l ++ q :: m) ++ x :: n := by rw [hqueue]; simp
  have hturnx := h.turn hqueue'
  have hclosed := scanEntry_closes (hturn.due hdue) (hturn.found he) hp ((hturn.kept.missCause p q).trans hm)
  have hclosedx : Closed p (scanPart u (l ++ q :: m)) := by
    rw [scanPart_append]
    exact (foldl_scan_closed hclosed).2
  obtain ⟨f, hf, -⟩ := h.element_of_entry (q := x) (face_mem_faces (by rw [hqueue']; simp))
  exact hturnx.of_deferred (scanEntry_defers hclosedx (hturnx.due hduex) (hturnx.found hf) hpx
    ((hturnx.kept.missCause p x).trans hmx))

end First

/-! ### The room that is free (R116, R117) -/

section Room

variable {u : State} (h : Agrees ∅ u)
include h

/-- The entries that stay are those the scan leaves. -/
theorem staying_scanQueue : staying u (scanQueue u) = (scanAll u).state.sched.queue.length := by
  obtain ⟨-, hsched, -⟩ := scanQueue_rest h
  have hsub : (entryKeys (scanAll u).state).Sublist (entryKeys u) := foldl_scan_keys u.sched.queue ⟨u, [], [], []⟩
  have hstays : ∀ q ∈ u.sched.queue, ((scanQueue u).sched.queue.any (fun y => y.isFor q.story q.tag)) = true
      ↔ q.key ∈ entryKeys (scanAll u).state := by
    intro q hq
    obtain ⟨-, hplaced⟩ :=
      foldl_fill_spares (s := (scanAll u).state) (h.not_waiting (mem_entryKeys_of_mem hq))
    rw [List.any_eq_true, entryKeys, List.mem_map]
    constructor
    · rintro ⟨y, hy, hkey⟩
      rw [hsched, hplaced y (isFor_iff.mp hkey)] at hy
      exact ⟨y, hy, isFor_iff.mp hkey⟩
    · rintro ⟨y, hy, hkey⟩
      refine ⟨y, ?_, isFor_iff.mpr hkey⟩
      rw [hsched]
      exact (hplaced y hkey).mpr hy
  have hperm : ((u.sched.queue.filter (fun q => (scanQueue u).sched.queue.any (fun y => y.isFor q.story q.tag))).map
      ArmEntry.key).Perm (entryKeys (scanAll u).state) := by
    rw [List.perm_ext_iff_of_nodup (((List.filter_sublist).map _).nodup h.keys) (hsub.nodup h.keys)]
    intro k
    rw [List.mem_map]
    constructor
    · rintro ⟨q, hq, rfl⟩
      obtain ⟨hq, hany⟩ := List.mem_filter.mp hq
      exact (hstays q hq).mp hany
    · intro hk
      obtain ⟨q, hq, rfl⟩ := List.mem_map.mp (hsub.subset hk)
      exact ⟨q, List.mem_filter.mpr ⟨hq, (hstays q hq).mpr hk⟩, rfl⟩
  have hlength := hperm.length_eq
  rwa [List.length_map, entryKeys, List.length_map] at hlength

/-- What waits can be armed, before the scan as after it (R119). -/
theorem scanAll_canArm : ∀ w ∈ waitingOrder u, CanArm (scanAll u).state w := by
  intro w hw
  obtain ⟨i, hi, hid, -, he, hst⟩ := mem_waitingOrder hw
  have hnot : waitingKey w ∉ u.sched.queue.map ArmEntry.key := fun hmem => h.not_waiting hmem w hw rfl
  have hkept : ScanKept u (scanAll u).state := scanPart_kept u u.sched.queue
  obtain ⟨-, hcontext⟩ := (h.fit i hi (by simp)).scheduled w.2 he (by rw [hst]; rfl)
  refine ⟨(foldl_scan_spares (c := ⟨u, [], [], []⟩) hnot).1.trans ?_, ?_⟩
  · exact hid ▸ findElement_of_mem h.ids hi he
  · rw [hkept.context, contextOf, ← hid, findItem_of_mem h.ids.1 hi]
    exact hcontext

/-- The waiting elements, first in the waiting order first, take the room that is free (R117). -/
theorem waiting_turn {l r : List (StoryId × Element)} {id : StoryId} {e : Element}
    (horder : waitingOrder u = l ++ (id, e) :: r) :
    (staying u (scanQueue u) + l.length < Config.armQueue →
        findElement (scanQueue u) id e.tag = some { e with state := .armed }
        ∧ ∃ c, contextOf u id = some c ∧ ∃ q ∈ (scanQueue u).sched.queue, ArmedEntry u id c.start c.stop e q)
      ∧ (Config.armQueue ≤ staying u (scanQueue u) + l.length → findElement (scanQueue u) id e.tag = some e) := by
  have hkept : ScanKept u (scanAll u).state := scanPart_kept u u.sched.queue
  obtain ⟨hitems, hsched, -⟩ := scanQueue_rest h
  have hturn := foldl_fill_turn (s := (scanAll u).state) (horder ▸ waitingOrder_nodup h.ids)
    (fun w hw => scanAll_canArm h w (horder ▸ hw))
  rw [← horder] at hturn
  rw [staying_scanQueue h, findElement_of_items hitems, hsched]
  refine ⟨fun hroom => ?_, hturn.2⟩
  obtain ⟨c, q, hc, hq, hstands⟩ := hturn.1 hroom
  exact ⟨hstands.element, c, (hkept.context id).symm.trans hc, q, hstands.entry, hkept.armedEntry hq⟩

end Room

end Sys2Proof.Machine
end

