-- ==== Sys2Proof/Proofs/DueScan.lean ====
section
/-! DUE_SCAN as a whole: with one or two entries, and with any queue and waiting order. -/

namespace Sys2Proof.Machine

/-- The kind of an entry's verb says in which state its element stands once taken (R125). -/
theorem takenState_serial {q : ArmEntry} {e : Element} (hv : q.verb = e.action.kind) {v : Verb} {x : Fin 16} {n : Nat}
    (ha : e.action = .serial v x n) : takenState q = .issued := by
  rw [takenState, hv, ha]
  rfl

theorem takenState_pulse {q : ArmEntry} {e : Element} (hv : q.verb = e.action.kind) {x : Fin 16}
    (ha : e.action = .pulse x) : takenState q = .done := by
  rw [takenState, hv, ha]
  rfl

theorem issueRecorded_group {s : State} {p : Fin 16} {g : Fin 4} (hg : s.ports[p].group = some g) (f : Frame) :
    issueRecorded s p f = s.groups.set g (recordIssue f p s.groups[g]) := by
  rw [issueRecorded, hg]

theorem issueRecorded_none {s : State} {p : Fin 16} (hg : s.ports[p].group = none) (f : Frame) :
    issueRecorded s p f = s.groups := by
  rw [issueRecorded, hg]

/-- The five conditions do not look at the tick. -/
theorem takesByRule_begun {s : State} {p : Fin 16} {k : Profile} {v : Kind} :
    TakesByRule (scanBegun s) p k v ↔ TakesByRule s p k v := takesByRule_congr rfl rfl fun _ _ => rfl

theorem Action.cueText_of_port {a : Action} (h : a.port = none) : ∃ set text hold, a = .cueText set text hold := by
  cases a with
  | serial v p n => simp [Action.port] at h
  | pulse p => simp [Action.port] at h
  | cueText set text hold => exact ⟨set, text, hold, rfl⟩

/-- Settles O50: with few entries by computing the scan, with any queue by the turn of each entry. -/
theorem dueScanIssuesOrMisses : Obligations.DueScanIssuesOrMisses := by
  intro s s1 cfn day hleft
  refine ⟨fun q p e hwait hqueue hp hdue he hv hport => ?_, fun q x p k hwait hqueue hp hpx hdue hduex hne he hk hbound
    hq hx hnot => ?_, fun q e set text hold hwait hqueue hp hdue he ha hcues => ?_, fun hids harmed => ?_⟩
  · refine ⟨fun hunbound => dueScan_missed hleft hwait hqueue hdue he hp (missCause_unbound hunbound),
      fun k hk hbound => ⟨fun hlate => dueScan_missed hleft hwait hqueue hdue he hp (missCause_late hbound hk hlate),
      fun htime hnot => dueScan_deferred hleft hwait hqueue hdue he (missCause_onTime hbound hk htime) hp
        (offerTakes_eq_false hk hnot), fun htime htakes => ?_⟩⟩
    obtain ⟨t, hexec, hscan, hqueue, hports, helement, hgroups, hrest⟩ := dueScan_taken hleft hwait hqueue hdue he
      (missCause_onTime hbound hk htime) hp ((offerTakes_iff hk _).mpr htakes)
    refine ⟨t, hexec, hscan, hqueue, fun v x number ha => ⟨?_, ?_⟩, fun x ha => ⟨?_, ?_⟩, fun g hg => ?_,
      fun hg => ?_, hrest⟩
    · rw [hports, ha, firedPort_serial hk]
      rfl
    · rw [helement, takenState_serial hv ha]
      rfl
    · rw [hports, ha, firedPort_pulse hk]
      rfl
    · rw [helement, takenState_pulse hv ha]
      rfl
    · rw [hgroups, issueRecorded_group hg]
      rfl
    · rw [hgroups, issueRecorded_none hg]
  · obtain ⟨e, he⟩ := Option.isSome_iff_exists.mp he
    exact dueScan_heldBack hleft hwait hqueue hp hpx hdue hduex hne he (missCause_onTime hbound hk hq)
      (missCause_onTime hbound hk hx) (offerTakes_eq_false hk hnot)
  · obtain ⟨t, hexec, hscan, hqueue, hports, helement, hdisplays, hrest⟩ :=
      dueScan_delivered hleft hwait hqueue hdue he hp ha hcues
    exact ⟨t, hexec, hscan, hqueue, hports, helement, hdisplays, hrest⟩
  · have h : Agrees ∅ (scanBegun s1) := ((agrees_iff s1).mpr ⟨hids, harmed⟩).of_parts rfl rfl rfl
    have turn {q : ArmEntry} (hq : q ∈ s1.sched.queue) : ∃ c, Turn (scanBegun s1) q c := by
      obtain ⟨l, r, hqueue⟩ := List.append_of_mem hq
      exact ⟨_, h.turn (u := scanBegun s1) hqueue⟩
    refine ⟨_, exec_dueScan hleft, scanQueue_begun_scanLeft _, (scanQueue_begun_show _).seq,
      (scanQueue_begun_show _).engine, scanQueue_begun_fixed _, fun q hq hdue => ?_, fun q hq e hdue he => ?_,
      fun l r q p k e hqueue hp hdue he hv hport hbound hk htime hfirst => ?_, fun l r id e horder => ?_⟩
    · obtain ⟨c, hturn⟩ := turn hq
      exact hturn.of_notDue hdue
    · obtain ⟨c, hturn⟩ := turn hq
      refine ⟨fun hp => ?_, fun p hp hunbound => hturn.of_missed hdue he hp (missCause_unbound hunbound),
        fun p k hp hbound hk hlate => hturn.of_missed hdue he hp (missCause_late hbound hk hlate)⟩
      obtain ⟨e', he', -, hsuits⟩ := h.element_of_entry (q := q) (face_mem_faces hq)
      cases he.symm.trans he'
      obtain ⟨set, text, hold, ha⟩ := Action.cueText_of_port (hsuits.1 hp)
      exact hturn.of_delivered hdue he hp ha
    · have hm : missCause (scanBegun s1) p q = none := missCause_onTime hbound hk htime
      refine ⟨fun htakes => ?_, fun hnot => first_deferred h hqueue hp hdue he hm hk hfirst fun ht =>
        hnot (takesByRule_begun.mp ht), fun x hx hduex hpx htimex =>
          behind_deferred h hqueue hp hdue he hm hx hduex hpx (missCause_onTime hbound hk htimex)⟩
      obtain ⟨hgone, hfired, helement⟩ := first_taken h hqueue hp hdue he hm hk hfirst (takesByRule_begun.mpr htakes)
      refine ⟨hgone, fun v x number ha => ⟨?_, ?_⟩, fun x ha => ⟨?_, ?_⟩⟩
      · rw [hfired, ha, firedPort_serial (s := scanBegun s1) hk]
        rfl
      · rw [helement, takenState_serial hv ha]
        rfl
      · rw [hfired, ha, firedPort_pulse (s := scanBegun s1) hk]
        rfl
      · rw [helement, takenState_pulse hv ha]
        rfl
    · obtain ⟨hroom, hfull⟩ := waiting_turn h (l := l) (r := r) horder
      refine ⟨fun hlt => ?_, hfull⟩
      obtain ⟨helement, c, hc, q, hq, hentry⟩ := hroom hlt
      obtain ⟨i, hi, hic⟩ := Option.bind_eq_some_iff.mp hc
      exact ⟨helement, i, c, hi, hic, q, hq, hentry.story, hentry.tag, hentry.port, hentry.verb, hentry.effect,
        hentry.issue, hentry.deferred⟩

end Sys2Proof.Machine
end
